-- ==== Sys2Proof/Word.lean ====
section
/-! DEFINITION. The word types of the machine (00_scope.md R11, R12): bytes, registers, instruction words and the
register and tile fields of an instruction. -/

namespace Sys2Proof

/-- A byte of memory, of the tile-state buffer or of a vector register. -/
abbrev Byte := BitVec 8

/-- An integer register or CSR value. XLEN is 32 or 64; a 32-bit value is held zero-extended (log 61). -/
abbrev Word := BitVec 64

/-- One instruction word (R100: every instruction is 32 bits). -/
abbrev InstrWord := BitVec 32

/-- A 5-bit integer register field (R102). -/
abbrev XReg := BitVec 5

/-- A 5-bit vector register field (R102). -/
abbrev VReg := BitVec 5

/-- A tile specifier `t[3:0]`, 0..15 (R33, R107). -/
abbrev Tile := BitVec 4

end Sys2Proof
end

