-- ==== Sys2Proof/Syntax.lean ====
section
/-! DEFINITION. The instructions: one constructor per row of spec/opcode_table.json, with the operands of
30_encoding.md R103 to R108 and R112 and of 45_host_subset.md. -/

namespace Sys2Proof

/-- An instruction with its operand fields. A tile operand is the specifier `t[3:0]` of R107. -/
inductive Instr where
  /-- R130 -/
  | vsetvli (rd rs1 : XReg) (zimm : BitVec 11)
  /-- R131 -/
  | vsetivli (rd : XReg) (uimm : BitVec 5) (zimm : BitVec 10)
  /-- R132 -/
  | vsetvl (rd rs1 rs2 : XReg)
  /-- R136 -/
  | msetmtype (rs1 rs2 : XReg)
  /-- R137 -/
  | msetmtypei (mtypei : BitVec 5) (vsewi : BitVec 2)
  /-- R138 -/
  | msettn (rd rs1 : XReg)
  /-- R139 -/
  | msettm (rd rs1 : XReg)
  /-- R140 -/
  | msettk (rd rs1 : XReg)
  /-- R171: `rs1` is the memory address, `rs2` the TSS -/
  | vlte8 (rs1 rs2 : XReg)
  /-- R172 -/
  | vlte16 (rs1 rs2 : XReg)
  /-- R173 -/
  | vlte32 (rs1 rs2 : XReg)
  /-- R174 -/
  | vlte64 (rs1 rs2 : XReg)
  /-- R177 -/
  | vste8 (rs1 rs2 : XReg)
  /-- R178 -/
  | vste16 (rs1 rs2 : XReg)
  /-- R179 -/
  | vste32 (rs1 rs2 : XReg)
  /-- R180 -/
  | vste64 (rs1 rs2 : XReg)
  /-- R191: `vd` is the destination, `rs1` holds the TSS -/
  | vtmvVT (vd : VReg) (rs1 : XReg)
  /-- R192: `rs1` holds the TSS, `vs2` is the source -/
  | vtmvTV (rs1 : XReg) (vs2 : VReg)
  /-- R260 -/
  | vtzeroT (mtd : Tile)
  /-- R261 -/
  | vtdiscard
  /-- R223: `vs2` is A, `vs1` is B -/
  | mmFF (mtd : Tile) (vs2 vs1 : VReg)
  /-- R224 -/
  | p2mmFF (mtd : Tile) (vs2 vs1 : VReg)
  /-- R225 -/
  | mmE5m2E5m2 (mtd : Tile) (vs2 vs1 : VReg)
  /-- R226 -/
  | mmE5m2E4m3 (mtd : Tile) (vs2 vs1 : VReg)
  /-- R227 -/
  | mmE4m3E5m2 (mtd : Tile) (vs2 vs1 : VReg)
  /-- R228 -/
  | mmE4m3E4m3 (mtd : Tile) (vs2 vs1 : VReg)
  /-- R229 -/
  | mmUU (mtd : Tile) (vs2 vs1 : VReg)
  /-- R230 -/
  | mmSU (mtd : Tile) (vs2 vs1 : VReg)
  /-- R231 -/
  | mmUS (mtd : Tile) (vs2 vs1 : VReg)
  /-- R232 -/
  | mmSS (mtd : Tile) (vs2 vs1 : VReg)
  /-- R280 -/
  | addi (rd rs1 : XReg) (imm : BitVec 12)
  /-- R281 -/
  | slli (rd rs1 : XReg) (shamt : BitVec 6)
  /-- R282 -/
  | add (rd rs1 rs2 : XReg)
  /-- R283: `offset` is the 13-bit signed byte offset -/
  | bne (rs1 rs2 : XReg) (offset : BitVec 13)
  /-- R284 -/
  | csrrs (rd : XReg) (csr : BitVec 12) (rs1 : XReg)
  deriving DecidableEq, Repr

end Sys2Proof
end

