-- ==== Sys2Proof/WellFormed.lean ====
section
/-! DEFINITION. Which instruction terms have an encoding: the operand values that the fields of 30_encoding.md R107 and
45_host_subset.md R283 can hold. -/

namespace Sys2Proof

/-- `mm.f.f` and `p2mm.f.f` encode `t[3:1]` and fix `t[0]` at 0 (R107). -/
def tileHasThreeBits (t : Tile) : Bool := t.extractLsb' 0 1 == 0#1

/-- The FP8 and INT8 forms encode `t[3:2]` and fix `t[1:0]` at 0 (R107). -/
def tileHasTwoBits (t : Tile) : Bool := t.extractLsb' 0 2 == 0#2

/-- A branch offset is a multiple of 2 (R283). -/
def offsetIsEven (offset : BitVec 13) : Bool := offset.extractLsb' 0 1 == 0#1

/-- Whether an instruction's operands are values its encoding can hold. -/
def Instr.wellFormed : Instr → Bool
  | .vsetvli _ _ _ => true
  | .vsetivli _ _ _ => true
  | .vsetvl _ _ _ => true
  | .msetmtype _ _ => true
  | .msetmtypei _ _ => true
  | .msettn _ _ => true
  | .msettm _ _ => true
  | .msettk _ _ => true
  | .vlte8 _ _ => true
  | .vlte16 _ _ => true
  | .vlte32 _ _ => true
  | .vlte64 _ _ => true
  | .vste8 _ _ => true
  | .vste16 _ _ => true
  | .vste32 _ _ => true
  | .vste64 _ _ => true
  | .vtmvVT _ _ => true
  | .vtmvTV _ _ => true
  | .vtzeroT _ => true
  | .vtdiscard => true
  | .mmFF t _ _ => tileHasThreeBits t
  | .p2mmFF t _ _ => tileHasThreeBits t
  | .mmE5m2E5m2 t _ _ => tileHasTwoBits t
  | .mmE5m2E4m3 t _ _ => tileHasTwoBits t
  | .mmE4m3E5m2 t _ _ => tileHasTwoBits t
  | .mmE4m3E4m3 t _ _ => tileHasTwoBits t
  | .mmUU t _ _ => tileHasTwoBits t
  | .mmSU t _ _ => tileHasTwoBits t
  | .mmUS t _ _ => tileHasTwoBits t
  | .mmSS t _ _ => tileHasTwoBits t
  | .addi _ _ _ => true
  | .slli _ _ _ => true
  | .add _ _ _ => true
  | .bne _ _ offset => offsetIsEven offset
  | .csrrs _ _ _ => true

end Sys2Proof
end

