-- ==== Sys2Proof/Decode.lean ====
section
/-! DEFINITION. Decoding by the match and mask values of 30_encoding.md R103 to R106 and 45_host_subset.md R280 to R284,
the rejections by name (R109, R285), and the encoder. -/

namespace Sys2Proof

/-- What a word decodes to. -/
inductive Decoded where
  /-- a row of the opcode table -/
  | instr (i : Instr)
  /-- a reserved encoding of the Zvm formats, or an attempt to write `mtype`: an illegal instruction (R109, R284, R301) -/
  | reservedEncoding
  /-- `mret`, which the opcode table leaves to the base ISA (R306; log 47) -/
  | machineReturn
  /-- `sret` (R306; log 47) -/
  | supervisorReturn
  /-- a word this spec does not describe: the step refuses it (R285) -/
  | outsideSubset
  /-- fewer than four bytes -/
  | tooShort
  deriving DecidableEq, Repr

/-- The field of `len` bits whose lowest bit is `lo` (R11). -/
def field (w : InstrWord) (lo len : Nat) : BitVec len := w.extractLsb' lo len

/-- The `rd`, `vd` field (R102). -/
def fieldRd (w : InstrWord) : BitVec 5 := field w 7 5

/-- The `rs1`, `vs1` field (R102). -/
def fieldRs1 (w : InstrWord) : BitVec 5 := field w 15 5

/-- The `rs2`, `vs2` field (R102). -/
def fieldRs2 (w : InstrWord) : BitVec 5 := field w 20 5

/-- The tile specifier `{w[11:9], 0}` of `mm.f.f` and `p2mm.f.f` (R107). -/
def fieldTile3 (w : InstrWord) : Tile := (field w 9 3).setWidth 4 <<< 1

/-- The tile specifier `{w[11:10], 0, 0}` of the FP8 and INT8 forms (R107). -/
def fieldTile2 (w : InstrWord) : Tile := (field w 10 2).setWidth 4 <<< 2

/-- The tile specifier `w[11:8]` of `vtzero.t` (R107). -/
def fieldTile4 (w : InstrWord) : Tile := field w 8 4

/-- The offset `{w[31], w[7], w[30:25], w[11:8], 0}` of `bne` (R283). -/
def fieldBranchOffset (w : InstrWord) : BitVec 13 :=
  (field w 31 1).setWidth 13 <<< 12 ||| (field w 7 1).setWidth 13 <<< 11
    ||| (field w 25 6).setWidth 13 <<< 5 ||| (field w 8 4).setWidth 13 <<< 1

/-- A row of the opcode table: a word `w` selects it when `w &&& mask = mtch`. -/
structure Row where
  mnemonic : String
  mtch     : InstrWord
  mask     : InstrWord
  build    : InstrWord → Instr

/-- The configuration rows (R103). -/
def configRows : List Row :=
  [ ⟨"vsetvli", 0x00007057#32, 0x8000707F#32, fun w => .vsetvli (fieldRd w) (fieldRs1 w) (field w 20 11)⟩,
    ⟨"vsetivli", 0xC0007057#32, 0xC000707F#32, fun w => .vsetivli (fieldRd w) (fieldRs1 w) (field w 20 10)⟩,
    ⟨"vsetvl", 0x80007057#32, 0xFE00707F#32, fun w => .vsetvl (fieldRd w) (fieldRs1 w) (fieldRs2 w)⟩,
    ⟨"msetmtype", 0x82007057#32, 0xFE007FFF#32, fun w => .msetmtype (fieldRs1 w) (fieldRs2 w)⟩,
    ⟨"msetmtypei", 0x84307057#32, 0xFE707FFF#32, fun w => .msetmtypei (fieldRs1 w) (field w 23 2)⟩,
    ⟨"msettn", 0x84007057#32, 0xFFF0707F#32, fun w => .msettn (fieldRd w) (fieldRs1 w)⟩,
    ⟨"msettm", 0x84107057#32, 0xFFF0707F#32, fun w => .msettm (fieldRd w) (fieldRs1 w)⟩,
    ⟨"msettk", 0x84207057#32, 0xFFF0707F#32, fun w => .msettk (fieldRd w) (fieldRs1 w)⟩ ]

/-- The tile load and store rows (R104). -/
def tileMemoryRows : List Row :=
  [ ⟨"vlte8", 0x12007007#32, 0xFE007FFF#32, fun w => .vlte8 (fieldRs1 w) (fieldRs2 w)⟩,
    ⟨"vlte16", 0x32007007#32, 0xFE007FFF#32, fun w => .vlte16 (fieldRs1 w) (fieldRs2 w)⟩,
    ⟨"vlte32", 0x52007007#32, 0xFE007FFF#32, fun w => .vlte32 (fieldRs1 w) (fieldRs2 w)⟩,
    ⟨"vlte64", 0x72007007#32, 0xFE007FFF#32, fun w => .vlte64 (fieldRs1 w) (fieldRs2 w)⟩,
    ⟨"vste8", 0x12007027#32, 0xFE007FFF#32, fun w => .vste8 (fieldRs1 w) (fieldRs2 w)⟩,
    ⟨"vste16", 0x32007027#32, 0xFE007FFF#32, fun w => .vste16 (fieldRs1 w) (fieldRs2 w)⟩,
    ⟨"vste32", 0x52007027#32, 0xFE007FFF#32, fun w => .vste32 (fieldRs1 w) (fieldRs2 w)⟩,
    ⟨"vste64", 0x72007027#32, 0xFE007FFF#32, fun w => .vste64 (fieldRs1 w) (fieldRs2 w)⟩ ]

/-- The move, zero and discard rows (R105). -/
def tileMoveRows : List Row :=
  [ ⟨"vtmv.v.t", 0x43F06057#32, 0xFFF0707F#32, fun w => .vtmvVT (fieldRd w) (fieldRs1 w)⟩,
    ⟨"vtmv.t.v", 0x5E006057#32, 0xFE007FFF#32, fun w => .vtmvTV (fieldRs1 w) (fieldRs2 w)⟩,
    ⟨"vtzero.t", 0x43E06057#32, 0xFFFFF0FF#32, fun w => .vtzeroT (fieldTile4 w)⟩,
    ⟨"vtdiscard", 0x43C06057#32, 0xFFFFFFFF#32, fun _ => .vtdiscard⟩ ]

/-- The matrix arithmetic rows (R106). -/
def matrixRows : List Row :=
  [ ⟨"mm.f.f", 0xF2001077#32, 0xFE0071FF#32, fun w => .mmFF (fieldTile3 w) (fieldRs2 w) (fieldRs1 w)⟩,
    ⟨"p2mm.f.f", 0xF20010F7#32, 0xFE0071FF#32, fun w => .p2mmFF (fieldTile3 w) (fieldRs2 w) (fieldRs1 w)⟩,
    ⟨"mm.e5m2.e5m2", 0xFA001077#32, 0xFE0073FF#32, fun w => .mmE5m2E5m2 (fieldTile2 w) (fieldRs2 w) (fieldRs1 w)⟩,
    ⟨"mm.e5m2.e4m3", 0xFA0010F7#32, 0xFE0073FF#32, fun w => .mmE5m2E4m3 (fieldTile2 w) (fieldRs2 w) (fieldRs1 w)⟩,
    ⟨"mm.e4m3.e5m2", 0xFE001077#32, 0xFE0073FF#32, fun w => .mmE4m3E5m2 (fieldTile2 w) (fieldRs2 w) (fieldRs1 w)⟩,
    ⟨"mm.e4m3.e4m3", 0xFE0010F7#32, 0xFE0073FF#32, fun w => .mmE4m3E4m3 (fieldTile2 w) (fieldRs2 w) (fieldRs1 w)⟩,
    ⟨"mm.u.u", 0xF2000077#32, 0xFE0073FF#32, fun w => .mmUU (fieldTile2 w) (fieldRs2 w) (fieldRs1 w)⟩,
    ⟨"mm.s.u", 0xF6000077#32, 0xFE0073FF#32, fun w => .mmSU (fieldTile2 w) (fieldRs2 w) (fieldRs1 w)⟩,
    ⟨"mm.u.s", 0xF20000F7#32, 0xFE0073FF#32, fun w => .mmUS (fieldTile2 w) (fieldRs2 w) (fieldRs1 w)⟩,
    ⟨"mm.s.s", 0xF60000F7#32, 0xFE0073FF#32, fun w => .mmSS (fieldTile2 w) (fieldRs2 w) (fieldRs1 w)⟩ ]

/-- The host-subset rows (R280 to R284). `slli` takes the 6-bit shift of XLEN = 64; XLEN = 32 rejects `w[25]` = 1 when it
runs (R281). -/
def hostRows : List Row :=
  [ ⟨"addi", 0x00000013#32, 0x0000707F#32, fun w => .addi (fieldRd w) (fieldRs1 w) (field w 20 12)⟩,
    ⟨"slli", 0x00001013#32, 0xFC00707F#32, fun w => .slli (fieldRd w) (fieldRs1 w) (field w 20 6)⟩,
    ⟨"add", 0x00000033#32, 0xFE00707F#32, fun w => .add (fieldRd w) (fieldRs1 w) (fieldRs2 w)⟩,
    ⟨"bne", 0x00001063#32, 0x0000707F#32, fun w => .bne (fieldRs1 w) (fieldRs2 w) (fieldBranchOffset w)⟩,
    ⟨"csrrs", 0x00002073#32, 0x0000707F#32, fun w => .csrrs (fieldRd w) (field w 20 12) (fieldRs1 w)⟩ ]

/-- The whole opcode table. -/
def rows : List Row := configRows ++ tileMemoryRows ++ tileMoveRows ++ matrixRows ++ hostRows

/-- Whether a word selects a row (30_encoding.md, opening). -/
def Row.selects (r : Row) (w : InstrWord) : Bool := w &&& r.mask == r.mtch

/-- Whether no word selects both rows: they differ in a bit that both fix (R110). -/
def Row.disjoint (r q : Row) : Bool := !((r.mtch ^^^ q.mtch) &&& r.mask &&& q.mask == 0#32)

/-- The reserved words beside the configuration formats: OP-V with funct3 = 111 (R109). -/
def reservedConfig (w : InstrWord) : Bool := field w 0 7 == 0x57#7 && field w 12 3 == 7#3

/-- The reserved words beside the tile load and store format: LOAD-FP or STORE-FP with `width` = 111 and `mew` = 1 (R104, R109). -/
def reservedTileMemory (w : InstrWord) : Bool :=
  (field w 0 7 == 0x07#7 || field w 0 7 == 0x27#7) && field w 12 3 == 7#3 && field w 28 1 == 1#1

/-- The reserved words beside the move, zero and discard formats (R105, R109): their two groups, but for the vector extension's
`vmv.s.x`, which R105 puts in one of them (log 12). -/
def reservedTileMove (w : InstrWord) : Bool :=
  field w 0 7 == 0x57#7 && field w 12 3 == 6#3
    && (field w 26 6 == 0b010111#6
      || (field w 26 6 == 0b010000#6 && !(field w 25 1 == 1#1 && fieldRs2 w == 0#5)))

/-- OP-VE words of no row (R301 cause 14). -/
def reservedMatrix (w : InstrWord) : Bool := field w 0 7 == 0x77#7

/-- A CSR instruction other than `csrrs` that would write `mtype` (R284): `csrrw` and `csrrwi` always, `csrrc`, `csrrsi` and
`csrrci` with a nonzero source field. -/
def writesMtype (w : InstrWord) : Bool :=
  field w 0 7 == 0x73#7 && field w 20 12 == 0xC23#12
    && (field w 12 3 == 1#3 || field w 12 3 == 5#3
      || ((field w 12 3 == 3#3 || field w 12 3 == 6#3 || field w 12 3 == 7#3) && !(fieldRs1 w == 0#5)))

/-- The words of no row that raise an illegal-instruction exception (R109, R284, R301; log 12). -/
def isReserved (w : InstrWord) : Bool :=
  reservedConfig w || reservedTileMemory w || reservedTileMove w || reservedMatrix w || writesMtype w

/-- The word of `mret` (PRESUMED, log 47). -/
def mretWord : InstrWord := 0x30200073#32

/-- The word of `sret` (PRESUMED, log 47). -/
def sretWord : InstrWord := 0x10200073#32

/-- What a word of no row decodes to. -/
def decodeOther (w : InstrWord) : Decoded :=
  if w = mretWord then .machineReturn
  else if w = sretWord then .supervisorReturn
  else if isReserved w then .reservedEncoding
  else .outsideSubset

/-- Decode one instruction word (R110: the rows are disjoint, so their order does not matter). -/
def decode (w : InstrWord) : Decoded :=
  match rows.find? (·.selects w) with
  | some r => .instr (r.build w)
  | none => decodeOther w

/-- Four bytes as a word, the first the least significant (R71: instruction fetch is little-endian). -/
def wordOfBytes (b0 b1 b2 b3 : Byte) : InstrWord :=
  b0.setWidth 32 ||| b1.setWidth 32 <<< 8 ||| b2.setWidth 32 <<< 16 ||| b3.setWidth 32 <<< 24

/-- The bytes of a word in memory order (R71). -/
def bytesOfWord (w : InstrWord) : List Byte :=
  [w.extractLsb' 0 8, w.extractLsb' 8 8, w.extractLsb' 16 8, w.extractLsb' 24 8]

/-- Decode the instruction at the front of a byte string. -/
def decodeBytes : List Byte → Decoded
  | b0 :: b1 :: b2 :: b3 :: _ => decode (wordOfBytes b0 b1 b2 b3)
  | _ => .tooShort

/-- The word of the opcode table's bit numbering: the low `nbits` of `w`, every bit above zero. -/
def tableWord (nbits w : Nat) : InstrWord := BitVec.ofNat 32 (w % 2 ^ nbits)

/-- What the decoder reads from an instruction whose table bits are `w`. -/
def decodeTableWord (nbits w : Nat) : Option Instr :=
  match decodeBytes (bytesOfWord (tableWord nbits w)) with
  | .instr i => some i
  | _ => none

/-- A field's value at its place in the word. -/
def place {n : Nat} (f : BitVec n) (lo : Nat) : InstrWord := f.setWidth 32 <<< lo

/-- The common shape: a match value with `rd`, `rs1` and `rs2` fields. -/
def encR (m : InstrWord) (rd rs1 rs2 : BitVec 5) : InstrWord := m ||| place rd 7 ||| place rs1 15 ||| place rs2 20

/-- A matrix arithmetic word whose encoding holds `t[3:1]` (R107). -/
def encMm3 (m : InstrWord) (t : Tile) (vs2 vs1 : VReg) : InstrWord :=
  m ||| place (t.extractLsb' 1 3) 9 ||| place vs1 15 ||| place vs2 20

/-- A matrix arithmetic word whose encoding holds `t[3:2]` (R107). -/
def encMm2 (m : InstrWord) (t : Tile) (vs2 vs1 : VReg) : InstrWord :=
  m ||| place (t.extractLsb' 2 2) 10 ||| place vs1 15 ||| place vs2 20

/-- The word of a well-formed instruction, from the tables of R103 to R106 and R280 to R284. -/
def encode : Instr → InstrWord
  | .vsetvli rd rs1 zimm => 0x00007057#32 ||| place rd 7 ||| place rs1 15 ||| place zimm 20
  | .vsetivli rd uimm zimm => 0xC0007057#32 ||| place rd 7 ||| place uimm 15 ||| place zimm 20
  | .vsetvl rd rs1 rs2 => encR 0x80007057#32 rd rs1 rs2
  | .msetmtype rs1 rs2 => encR 0x82007057#32 0#5 rs1 rs2
  | .msetmtypei mtypei vsewi => 0x84307057#32 ||| place mtypei 15 ||| place vsewi 23
  | .msettn rd rs1 => encR 0x84007057#32 rd rs1 0#5
  | .msettm rd rs1 => encR 0x84107057#32 rd rs1 0#5
  | .msettk rd rs1 => encR 0x84207057#32 rd rs1 0#5
  | .vlte8 rs1 rs2 => encR 0x12007007#32 0#5 rs1 rs2
  | .vlte16 rs1 rs2 => encR 0x32007007#32 0#5 rs1 rs2
  | .vlte32 rs1 rs2 => encR 0x52007007#32 0#5 rs1 rs2
  | .vlte64 rs1 rs2 => encR 0x72007007#32 0#5 rs1 rs2
  | .vste8 rs1 rs2 => encR 0x12007027#32 0#5 rs1 rs2
  | .vste16 rs1 rs2 => encR 0x32007027#32 0#5 rs1 rs2
  | .vste32 rs1 rs2 => encR 0x52007027#32 0#5 rs1 rs2
  | .vste64 rs1 rs2 => encR 0x72007027#32 0#5 rs1 rs2
  | .vtmvVT vd rs1 => encR 0x43F06057#32 vd rs1 0#5
  | .vtmvTV rs1 vs2 => encR 0x5E006057#32 0#5 rs1 vs2
  | .vtzeroT t => 0x43E06057#32 ||| place t 8
  | .vtdiscard => 0x43C06057#32
  | .mmFF t vs2 vs1 => encMm3 0xF2001077#32 t vs2 vs1
  | .p2mmFF t vs2 vs1 => encMm3 0xF20010F7#32 t vs2 vs1
  | .mmE5m2E5m2 t vs2 vs1 => encMm2 0xFA001077#32 t vs2 vs1
  | .mmE5m2E4m3 t vs2 vs1 => encMm2 0xFA0010F7#32 t vs2 vs1
  | .mmE4m3E5m2 t vs2 vs1 => encMm2 0xFE001077#32 t vs2 vs1
  | .mmE4m3E4m3 t vs2 vs1 => encMm2 0xFE0010F7#32 t vs2 vs1
  | .mmUU t vs2 vs1 => encMm2 0xF2000077#32 t vs2 vs1
  | .mmSU t vs2 vs1 => encMm2 0xF6000077#32 t vs2 vs1
  | .mmUS t vs2 vs1 => encMm2 0xF20000F7#32 t vs2 vs1
  | .mmSS t vs2 vs1 => encMm2 0xF60000F7#32 t vs2 vs1
  | .addi rd rs1 imm => 0x00000013#32 ||| place rd 7 ||| place rs1 15 ||| place imm 20
  | .slli rd rs1 shamt => 0x00001013#32 ||| place rd 7 ||| place rs1 15 ||| place shamt 20
  | .add rd rs1 rs2 => encR 0x00000033#32 rd rs1 rs2
  | .bne rs1 rs2 offset =>
    0x00001063#32 ||| place (offset.extractLsb' 12 1) 31 ||| place (offset.extractLsb' 11 1) 7
      ||| place (offset.extractLsb' 5 6) 25 ||| place (offset.extractLsb' 1 4) 8 ||| place rs1 15 ||| place rs2 20
  | .csrrs rd csr rs1 => 0x00002073#32 ||| place rd 7 ||| place rs1 15 ||| place csr 20

end Sys2Proof
end

