-- ==== Sys2Proof/Config.lean ====
section
/-! DEFINITION. The implementation parameters of 00_scope.md R8, R9 and R10 as one plain record, which State carries
unchanged (log 1), and the free values: opaque constants that no proof can see into. -/

namespace Sys2Proof

/-- XLEN (R4, R8). -/
inductive Xlen where
  | rv32
  | rv64
  deriving DecidableEq, Repr

/-- NXREG: 16 integer registers (E base) or 32 (I base) (R8). -/
inductive XRegCount where
  | e16
  | i32
  deriving DecidableEq, Repr

/-- ELEN (R8). -/
inductive Elen where
  | e32
  | e64
  deriving DecidableEq, Repr

/-- A widening factor TWIDEN: 1, 2 or 4 (R45). -/
inductive Twiden where
  | one
  | two
  | four
  deriving DecidableEq, Repr

/-- `TWIDEN_OF`: the factor each nonzero code of `mtype.mtwiden` selects (R10, R45; log 8). -/
structure TwidenMap where
  code1 : Twiden
  code2 : Twiden
  code3 : Twiden
  deriving DecidableEq, Repr

/-- `MTYPE_TK_LSB`: the lowest bit of `mtype.tk` (R42; log 9). -/
inductive TkPosition where
  | bit4
  | bit5
  deriving DecidableEq, Repr

/-- `TSS_RESERVED_POLICY` (R163; log 14). -/
inductive TssPolicy where
  | wrap
  | illegal
  | refuse
  deriving DecidableEq, Repr

/-- `MM_UNCONFIGURED` (R214 check 6; log 20). -/
inductive UnconfiguredPolicy where
  | illegal
  | nop
  deriving DecidableEq, Repr

/-- `VL_POLICY` (R134; log 24): the default `min(AVL, VLMAX)`, or an unknown function the rule allows. -/
inductive VlPolicy where
  | vlmax
  | unspecified
  deriving DecidableEq, Repr

/-- `NUMERICS` (R10, R219; log 30): the members `FMul_F` and `FAdd_F` are the IEEE 754-2008 defaults of D22, or unknown total
functions. The third member, `BulkDot`, is `Config.bulkDot` always (log 31). -/
inductive NumericsPolicy where
  | ieee
  | unspecified
  deriving DecidableEq, Repr

/-- `MTVAL_ILLEGAL` (R300; log 38). -/
inductive MtvalIllegal where
  | bits
  | zero
  deriving DecidableEq, Repr

/-- `MISALIGNED_POLICY` of a memory region (R75, 93 I7; log 36). -/
inductive MisalignedPolicy where
  | support
  | trap
  | accessFault
  deriving DecidableEq, Repr

/-- Which address a memory exception reports (R300: "address of the faulting element (or of a byte within it)"; log 37). -/
inductive FaultAddress where
  | elementStart
  | faultingByte
  deriving DecidableEq, Repr

/-- What the platform answers to an access (R79, R80, R302; log 39, log 40). -/
inductive Verdict where
  | permitted
  | accessFault
  | pageFault
  | guestPageFault
  deriving DecidableEq, Repr

/-- One region of the memory map (R79): the addresses `base` to `base + size - 1`. -/
structure Region where
  base       : Nat
  size       : Nat
  load       : Verdict
  store      : Verdict
  fetch      : Verdict
  idempotent : Bool
  misaligned : MisalignedPolicy
  deriving DecidableEq, Repr

/-- `EXT`: the computational extensions present; Zvmbase always is (R2, R8). -/
structure Extensions where
  zvm32a8i  : Bool
  zvm32a4f  : Bool
  zvm32a8f  : Bool
  zvm32a16f : Bool
  zvm32a32f : Bool
  zvm64a64f : Bool
  deriving DecidableEq, Repr

/-- The parameters of an implementation. VLEN and TE are powers of two and are given by their base-2 logarithms. -/
structure Config where
  xlen            : Xlen
  nxreg           : XRegCount
  lgVlen          : Nat
  lgTe            : Nat
  elen            : Elen
  ext             : Extensions
  hasS            : Bool
  hasH            : Bool
  tkPosition      : TkPosition
  twidenOf        : TwidenMap
  altfmtBit       : Nat
  tssPolicy       : TssPolicy
  mmUnconfigured  : UnconfiguredPolicy
  /-- `MSETTN_X0_SPECIAL` (R138; log 23). -/
  msettnX0Special : Bool
  vlPolicy        : VlPolicy
  numerics        : NumericsPolicy
  mtvalIllegal    : MtvalIllegal
  /-- The (vsew, vlmul) codes with fractional LMUL supported beyond the mandatory ones (R133; log 27). -/
  moreFractional  : List (BitVec 3 × BitVec 3)
  /-- Whether a misaligned address is reported before a page or access fault of the same element (R303d; log 36). -/
  misalignedFirst : Bool
  faultAddress    : FaultAddress
  regions         : List Region
  deriving DecidableEq, Repr

/-- XLEN as a number. -/
def Config.xlenBits (c : Config) : Nat :=
  match c.xlen with
  | .rv32 => 32
  | .rv64 => 64

/-- NXREG as a number. -/
def Config.nxregs (c : Config) : Nat :=
  match c.nxreg with
  | .e16 => 16
  | .i32 => 32

/-- VLEN (R8). -/
def Config.vlen (c : Config) : Nat := 2 ^ c.lgVlen

/-- VLENB = VLEN/8 (R23, R27). -/
def Config.vlenb (c : Config) : Nat := c.vlen / 8

/-- TE (R9). -/
def Config.te (c : Config) : Nat := 2 ^ c.lgTe

/-- ELEN as a number. -/
def Config.elenBits (c : Config) : Nat :=
  match c.elen with
  | .e32 => 32
  | .e64 => 64

/-- The size in bytes of the tile-state buffer (R32). -/
def Config.tileBytes (c : Config) : Nat := 16 * c.te * c.te

/-- TWIDEN as a number. -/
def Twiden.factor : Twiden → Nat
  | .one => 1
  | .two => 2
  | .four => 4

/-- The parameter values R8, R9 and R47 allow, and an `altfmt` bit that no other field of `vtype` holds (R25). VLEN has no
largest value, and the hypervisor extension does not need supervisor mode (log 55). -/
def Config.wf (c : Config) : Bool :=
  decide (2 ≤ c.lgTe) && decide (c.lgTe + 2 ≤ c.lgVlen) && decide (c.lgTe ≤ 13)
    && decide (5 ≤ c.lgVlen)
    && (c.elen == .e32 || decide (6 ≤ c.lgVlen))
    && (!c.ext.zvm64a64f || c.elen == .e64)
    && decide (8 ≤ c.altfmtBit) && decide (c.altfmtBit + 1 < c.xlenBits)

/-- A region that admits every access, covering the whole address space. -/
def Region.everywhere : Region where
  base := 0
  size := 2 ^ 64
  load := .permitted
  store := .permitted
  fetch := .permitted
  idempotent := true
  misaligned := .support

/-- Parameter set P0 of 95_test_vectors.md with R10's defaults, every extension, S-mode and the hypervisor extension.
`wrap` for reserved TSS values is what the source expects of most chips (log 1, log 14). -/
def Config.p0 : Config where
  xlen := .rv64
  nxreg := .i32
  lgVlen := 7
  lgTe := 3
  elen := .e64
  ext := ⟨true, true, true, true, true, true⟩
  hasS := true
  hasH := true
  tkPosition := .bit5
  twidenOf := ⟨.one, .two, .four⟩
  altfmtBit := 8
  tssPolicy := .wrap
  mmUnconfigured := .illegal
  msettnX0Special := false
  vlPolicy := .vlmax
  numerics := .ieee
  mtvalIllegal := .bits
  moreFractional := []
  misalignedFirst := true
  faultAddress := .elementStart
  regions := [Region.everywhere]

/-- The number formats of R222. -/
inductive FpFormat where
  | fp16
  | bf16
  | fp32
  | fp64
  | e5m2
  | e4m3
  | fp4
  deriving DecidableEq, Repr

/-! ### Free values

Each is an opaque constant: a statement about it holds for every interpretation. A first argument named by no bound
variable below is the State's counter `draws` at the drawing instruction (log 6). -/

/-- The byte at a tile-state offset at reset (R63, 93 I29; log 5). -/
opaque Config.resetTileByte : Nat → Byte

/-- The byte at a tile-state offset after `vtdiscard` (R261, 93 I25; log 44). -/
opaque Config.discardedByte : Nat → Nat → Byte

/-- Whether an agnostic element, by its index in the instruction, becomes all ones (R170, R216, 93 I23, I24; log 16). -/
opaque Config.agnosticOnes : Nat → Nat → Bool

/-- Whether a trapped tile load disturbed the elements at or above the faulting one (R175, 93 I27; log 43). -/
opaque Config.trapDisturbsTile : Nat → Bool

/-- The byte a trapped tile load left at a tile-state offset it disturbed (R175, 93 I27; log 43). -/
opaque Config.trapTileByte : Nat → Nat → Byte

/-- Whether a trapped tile store wrote a memory location at or above the faulting element (R175, 93 I27; log 43). -/
opaque Config.trapStoreDone : Nat → Nat → Bool

/-- Whether a zero-size matrix operation sets VS Dirty (R215; log 42). -/
opaque Config.zeroSizeDirtiesVs : Nat → Bool

/-- Whether a zero-size floating-point matrix operation sets FS Dirty (R215; log 42). -/
opaque Config.zeroSizeDirtiesFs : Nat → Bool

/-- Whether `mstatus.MS` goes Dirty by itself at a step (R60, 93 I26; log 41). -/
opaque Config.msGoesDirty : Nat → Bool

/-- Whether `vsstatus.MS` goes Dirty by itself at a step (R60, 93 I26; log 41). -/
opaque Config.vsMsGoesDirty : Nat → Bool

/-- `VL_POLICY` when it is unspecified, a function of AVL and VLMAX, before R134's bounds are applied (log 24). -/
opaque Config.vlChoice : Nat → Nat → Nat

/-- `FMul_F` when `NUMERICS` is unspecified (R219; log 30): the result and flags from the format, the rounding mode and the
operands. -/
opaque Config.fpMulChoice : FpFormat → BitVec 3 → Nat → Nat → BitVec 64 × BitVec 5

/-- `FAdd_F` when `NUMERICS` is unspecified (R219; log 30). -/
opaque Config.fpAddChoice : FpFormat → BitVec 3 → Nat → Nat → BitVec 64 × BitVec 5

/-- `BulkDot` (R220; log 31): an FP32 value and flags from the formats and the encodings of the operand pairs. -/
opaque Config.bulkDot : FpFormat → FpFormat → List (BitVec 16 × BitVec 16) → BitVec 32 × BitVec 5

end Sys2Proof
end

