-- ==== Sys2Proof/Machine/State.lean ====
section
/-! DEFINITION. The machine's state (10_state.md), the reasons a step can stop, and the state after reset (R63). -/

namespace Sys2Proof.Machine

/-- Why the machine stops with a fault. -/
inductive Fault where
  /-- Raised by `step` alone, in a state whose parameters are outside R8 and R9: no hardware has them. Safe (log 62). -/
  | unsupportedConfiguration
  deriving DecidableEq, Repr

/-- Why the model gives a step no meaning. -/
inductive Refusal where
  /-- Raised by `exec` for an instruction whose meaning is still to be written. Safe. -/
  | notModelled (mnemonic : String)
  /-- Raised by `step` on a word that this spec does not describe (R285; log 13). Safe. -/
  | outsideSubset
  /-- Raised by `step` on fetching bytes that a tile store wrote (R84; log 34). Safe. -/
  | storedText
  /-- Raised by tile loads and stores when data accesses are big-endian (R71; log 15). Safe. -/
  | bigEndianData
  /-- Raised by tile loads and stores whose body touches a non-idempotent region (R78; log 35). Safe. -/
  | nonIdempotentMemory
  /-- Raised by tile loads, stores and moves on a reserved TSS under the policy `refuse` (R163; log 14). Safe. -/
  | reservedTss
  /-- Raised by `csrrs` on a CSR that the spec does not describe (R284, R285; log 50). Safe. -/
  | csrOutsideSpec
  deriving DecidableEq, Repr

/-- The privilege modes (R31, R309). -/
inductive Priv where
  | user
  | supervisor
  | machine
  deriving DecidableEq, Repr

/-- The values of a context-status field other than Off (R30, R56). -/
inductive Usage where
  | initial
  | clean
  | dirty
  deriving DecidableEq, Repr

/-- A context-status field FS, VS, XS or MS: Off, or Initial, Clean or Dirty (R30, R56). -/
inductive ContextStatus where
  | off
  | on (usage : Usage)
  deriving DecidableEq, Repr

/-- `vtype` by its fields (R25); its reserved bits are zero. -/
structure VType where
  vill   : Bool
  altfmt : Bool
  vma    : Bool
  vta    : Bool
  vsew   : BitVec 3
  vlmul  : BitVec 3
  deriving DecidableEq, Repr

/-- `mtype` by its fields (R42); its reserved bits read 0 (R46). -/
structure MType where
  tm      : BitVec 14
  tk      : BitVec 3
  mtwiden : BitVec 2
  deriving DecidableEq, Repr

/-- The fields of `mstatus` the spec names (R30, R55, R58, R63, R71, R305). `SD` is computed from them (R58). `spp` is true
for supervisor mode. -/
structure MStatus where
  sie  : Bool
  mie  : Bool
  spie : Bool
  ube  : Bool
  mpie : Bool
  spp  : Bool
  vs   : ContextStatus
  mpp  : Priv
  fs   : ContextStatus
  xs   : ContextStatus
  mprv : Bool
  ms   : ContextStatus
  sbe  : Bool
  mbe  : Bool
  mpv  : Bool
  deriving DecidableEq, Repr

/-- The fields of `vsstatus` (R30, R57, R58, R71, R308). -/
structure VsStatus where
  sie  : Bool
  spie : Bool
  ube  : Bool
  spp  : Bool
  vs   : ContextStatus
  fs   : ContextStatus
  xs   : ContextStatus
  ms   : ContextStatus
  deriving DecidableEq, Repr

/-- Memory: bytes by address, in one canonical form (`Memory.wf`). -/
abbrev Memory := List Host.Cell

/-- Everything the spec gives the machine, and two fields of the model's own (`unsynced`, `draws`). -/
structure State where
  /-- the implementation parameters (R8, R10), which no step changes -/
  cfg : Config
  /-- integer registers (R21) -/
  x : Vector Word 32
  /-- program counter (R22) -/
  pc : Word
  /-- vector registers (R23): byte `j` of register `r` is at index `r * VLENB + j` -/
  v : List Byte
  /-- R24 -/
  vl : Nat
  /-- R25 -/
  vtype : VType
  /-- R26; below VLEN (log 64) -/
  vstart : Nat
  /-- R28 -/
  frm : BitVec 3
  /-- R28: NV is bit 4, DZ 3, OF 2, UF 1, NX 0 -/
  fflags : BitVec 5
  /-- R29; one bit wide (log 64) -/
  vxsat : BitVec 1
  /-- R29; two bits wide (log 64) -/
  vxrm : BitVec 2
  /-- the tile state (R32) -/
  ts : List Byte
  /-- R41 -/
  mtype : MType
  /-- R30, R55 -/
  mstatus : MStatus
  /-- R30, R57 -/
  vsstatus : VsStatus
  /-- R31 -/
  priv : Priv
  /-- the virtualization mode V (R31) -/
  virt : Bool
  /-- R305 -/
  mtvec : Word
  mepc : Word
  mcause : Word
  mtval : Word
  /-- R305, R308 -/
  stvec : Word
  sepc : Word
  scause : Word
  stval : Word
  medeleg : Word
  hedeleg : Word
  /-- the interrupt-enable and interrupt-pending bits (R307; log 52) -/
  mie : Word
  mip : Word
  /-- the guest's S-level trap registers (R308; log 46) -/
  vstvec : Word
  vsepc : Word
  vscause : Word
  vstval : Word
  /-- `hstatus.SPV`: the V that a trap to HS-mode saves (log 46) -/
  hstatusSpv : Bool
  /-- `hstatus.VSBE`: big-endian data accesses of VS-mode (log 15) -/
  hstatusVsbe : Bool
  /-- R70 -/
  mem : Memory
  /-- the model's own: addresses that tile stores wrote since the last FENCE.I, strictly rising (R84; log 34) -/
  unsynced : List Nat
  /-- the model's own: how many steps have drawn free values (log 6) -/
  draws : Nat
  deriving DecidableEq, Repr

/-- `mstatus` after reset: MIE = MPRV = 0 are R63's; the rest are the model's choices (log 2, log 4). -/
def MStatus.reset : MStatus where
  sie := false
  mie := false
  spie := false
  ube := false
  mpie := false
  spp := false
  vs := .on .initial
  mpp := .user
  fs := .on .initial
  xs := .off
  mprv := false
  ms := .on .initial
  sbe := false
  mbe := false
  mpv := false

/-- `vsstatus` after reset: the model's choices (log 2, log 4). -/
def VsStatus.reset : VsStatus where
  sie := false
  spie := false
  ube := false
  spp := false
  vs := .on .initial
  fs := .on .initial
  xs := .off
  ms := .on .initial

/-- The state after reset of an implementation with the given parameters (R63). -/
def State.resetOf (c : Config) : State where
  cfg := c
  x := Vector.replicate 32 0#64
  pc := 0#64
  v := List.replicate (32 * c.vlenb) 0#8
  vl := 0
  vtype := ⟨true, false, false, false, 0#3, 0#3⟩
  vstart := 0
  frm := 0#3
  fflags := 0#5
  vxsat := 0#1
  vxrm := 0#2
  ts := (List.range c.tileBytes).map Config.resetTileByte
  mtype := ⟨0#14, 0#3, 0#2⟩
  mstatus := MStatus.reset
  vsstatus := VsStatus.reset
  priv := .machine
  virt := false
  mtvec := 0#64
  mepc := 0#64
  mcause := 0#64
  mtval := 0#64
  stvec := 0#64
  sepc := 0#64
  scause := 0#64
  stval := 0#64
  medeleg := 0#64
  hedeleg := 0#64
  mie := 0#64
  mip := 0#64
  vstvec := 0#64
  vsepc := 0#64
  vscause := 0#64
  vstval := 0#64
  hstatusSpv := false
  hstatusVsbe := false
  mem := []
  unsynced := []
  draws := 0

/-- The machine right after reset, with the parameter set P0 (R63; log 1). -/
def State.reset : State := State.resetOf Config.p0

end Sys2Proof.Machine
end

