-- ==== Sys2Proof/Machine/Flags.lean ====
section
/-! DEFINITION. Status fields and flags: the context-status tests and transitions (10_state.md R55 to R62, 60_exceptions.md
R301), the views of the status registers, `SD` (R58), and the floating-point flags (R28, R218). -/

namespace Sys2Proof.Machine

/-- The field's two-bit code: Off 0, Initial 1, Clean 2, Dirty 3 (R30, R56). -/
def ContextStatus.code : ContextStatus → BitVec 2
  | .off => 0#2
  | .on .initial => 1#2
  | .on .clean => 2#2
  | .on .dirty => 3#2

/-- The field value of a two-bit code (R30, R56). -/
def ContextStatus.ofCode (b : BitVec 2) : ContextStatus :=
  if b = 0#2 then .off
  else if b = 1#2 then .on .initial
  else if b = 2#2 then .on .clean
  else .on .dirty

/-- Whether a field is Off. -/
def ContextStatus.isOff : ContextStatus → Bool
  | .off => true
  | .on _ => false

/-- Whether a field is Dirty. -/
def ContextStatus.isDirty (f : ContextStatus) : Bool := f == .on .dirty

/-- The field set to Dirty when `b` holds, unchanged otherwise. -/
def ContextStatus.dirtyIf (b : Bool) : ContextStatus → ContextStatus
  | .off => if b then .on .dirty else .off
  | .on u => .on (if b then .dirty else u)

/-- The field after the spontaneous transition of R60: Initial or Clean may become Dirty, Off does not change. -/
def ContextStatus.mayGoDirty (b : Bool) : ContextStatus → ContextStatus
  | .off => .off
  | .on u => .on (if b then .dirty else u)

/-- `VSOff` (R301). -/
def vsOff (s : State) : Bool := s.mstatus.vs.isOff || (s.virt && s.vsstatus.vs.isOff)

/-- `MSOff` (R301). -/
def msOff (s : State) : Bool := s.mstatus.ms.isOff || (s.virt && s.vsstatus.ms.isOff)

/-- `FSOff` (R301). -/
def fsOff (s : State) : Bool := s.mstatus.fs.isOff || (s.virt && s.vsstatus.fs.isOff)

/-- `SetVSDirty()` when `b` holds (R61). -/
def dirtyVs (b : Bool) (s : State) : State :=
  { s with
    mstatus := { s.mstatus with vs := s.mstatus.vs.dirtyIf b }
    vsstatus := { s.vsstatus with vs := s.vsstatus.vs.dirtyIf (b && s.virt) } }

/-- `SetMSDirty()` when `b` holds (R60). -/
def dirtyMs (b : Bool) (s : State) : State :=
  { s with
    mstatus := { s.mstatus with ms := s.mstatus.ms.dirtyIf b }
    vsstatus := { s.vsstatus with ms := s.vsstatus.ms.dirtyIf (b && s.virt) } }

/-- `SetFSDirty()` when `b` holds (R62). -/
def dirtyFs (b : Bool) (s : State) : State :=
  { s with
    mstatus := { s.mstatus with fs := s.mstatus.fs.dirtyIf b }
    vsstatus := { s.vsstatus with fs := s.vsstatus.fs.dirtyIf (b && s.virt) } }

/-- `MS <- Initial`, as `vtdiscard` does (R261). -/
def initialMs (s : State) : State :=
  { s with
    mstatus := { s.mstatus with ms := .on .initial }
    vsstatus := { s.vsstatus with ms := if s.virt then .on .initial else s.vsstatus.ms } }

/-- The end of every step: the `MS` fields may go Dirty by themselves (R60, log 41) and the counter of free values advances
(log 6). `vsstatus` exists only with the hypervisor extension (R57). -/
def endStep (s : State) : State :=
  { s with
    mstatus := { s.mstatus with ms := s.mstatus.ms.mayGoDirty (Config.msGoesDirty s.draws) }
    vsstatus := { s.vsstatus with ms := s.vsstatus.ms.mayGoDirty (s.cfg.hasH && Config.vsMsGoesDirty s.draws) }
    draws := s.draws + 1 }

/-- `mstatus.SD` (R58). -/
def mstatusSd (m : MStatus) : Bool := m.fs.isDirty || m.vs.isDirty || m.xs.isDirty || m.ms.isDirty

/-- `vsstatus.SD` (R58). -/
def vsstatusSd (m : VsStatus) : Bool := m.fs.isDirty || m.vs.isDirty || m.xs.isDirty || m.ms.isDirty

/-- A one-bit field at its place in a CSR word. -/
def bitAt (b : Bool) (pos : Nat) : Word := (BitVec.ofBool b).setWidth 64 <<< pos

/-- A context-status field at its place in a CSR word. -/
def statusAt (f : ContextStatus) (pos : Nat) : Word := f.code.setWidth 64 <<< pos

/-- The two-bit code of a privilege mode: U 0, S 1, M 3 (PRESUMED, log 48). -/
def Priv.code : Priv → BitVec 2
  | .user => 0#2
  | .supervisor => 1#2
  | .machine => 3#2

/-- `sstatus` as a view of `mstatus`, and the layout of `vsstatus`: VS 10:9, FS 14:13, MS 30:29 and SD XLEN-1 (R30, R55);
SIE 1, SPIE 5, UBE 6, SPP 8 and XS 16:15 are PRESUMED (log 48). -/
def supervisorStatusWord (c : Config) (sie spie ube spp : Bool) (vs fs xs ms : ContextStatus) (sd : Bool) : Word :=
  bitAt sie 1 ||| bitAt spie 5 ||| bitAt ube 6 ||| bitAt spp 8 ||| statusAt vs 9 ||| statusAt fs 13
    ||| statusAt xs 15 ||| statusAt ms 29 ||| bitAt sd (c.xlenBits - 1)

/-- The value of `sstatus` read from `mstatus` (R30, R55). -/
def sstatusWord (c : Config) (m : MStatus) : Word :=
  supervisorStatusWord c m.sie m.spie m.ube m.spp m.vs m.fs m.xs m.ms (mstatusSd m)

/-- The value of `vsstatus` (R30, R57). -/
def vsstatusWord (c : Config) (m : VsStatus) : Word :=
  supervisorStatusWord c m.sie m.spie m.ube m.spp m.vs m.fs m.xs m.ms (vsstatusSd m)

/-- The value of `mstatus` (R30, R55): the fields of `sstatus`, and MIE 3, MPIE 7, MPP 12:11, MPRV 17 and, with XLEN = 64,
SBE 36, MBE 37, MPV 39 (PRESUMED, log 48). -/
def mstatusWord (c : Config) (m : MStatus) : Word :=
  sstatusWord c m ||| bitAt m.mie 3 ||| bitAt m.mpie 7 ||| m.mpp.code.setWidth 64 <<< 11 ||| bitAt m.mprv 17
    ||| (match c.xlen with
      | .rv32 => 0#64
      | .rv64 => bitAt m.sbe 36 ||| bitAt m.mbe 37 ||| bitAt m.mpv 39)

/-- The two flags floating-point matrix instructions may set: NV (bit 4) and OF (bit 2) (R217, R218). -/
def matrixFlagMask : BitVec 5 := 0b10100#5

/-- NV alone (R28). -/
def flagNv : BitVec 5 := 0b10000#5

/-- OF alone (R28). -/
def flagOf : BitVec 5 := 0b00100#5

/-- `fflags` after OR-ing in what a matrix instruction may set (R218). -/
def orMatrixFlags (old fl : BitVec 5) : BitVec 5 := old ||| (fl &&& matrixFlagMask)

end Sys2Proof.Machine
end

