-- ==== Sys2Proof/Machine/Ops.lean ====
section
/-! DEFINITION. The shared operations: integer registers and `pc` (R21, R22), byte buffers and memory (R70, R71), taking an
exception and returning from one (60_exceptions.md R305, R306), and the ends of an instruction (R13). -/

namespace Sys2Proof.Machine

/-- What `exec` and a meaning answer. -/
abbrev Result := Host.Outcome State Fault Refusal

/-! ### Integer registers and the program counter -/

/-- A value modulo 2^XLEN (R11, log 61). -/
def truncX (c : Config) (w : Word) : Word :=
  match c.xlen with
  | .rv32 => w &&& 0xFFFFFFFF#64
  | .rv64 => w

/-- An integer modulo 2^XLEN as a register value. -/
def wordX (c : Config) (n : Nat) : Word := truncX c (BitVec.ofNat 64 n)

/-- `x[r]`; `x[0]` reads 0 (R12, R21). -/
def State.readX (s : State) (r : XReg) : Word :=
  if r = 0#5 then 0#64 else s.x[r.toNat]'r.isLt

/-- `x[r] <- v`; a write of `x[0]` is discarded (R12, R21). -/
def State.writeX (s : State) (r : XReg) (v : Word) : State :=
  if r = 0#5 then s else { s with x := s.x.set r.toNat (truncX s.cfg v) r.isLt }

/-- Whether every register field names a register that exists: below NXREG (R21, R109; log 60). -/
def xregsExist (c : Config) (rs : List XReg) : Bool := rs.all fun r => decide (r.toNat < c.nxregs)

/-- `pc <- pc + 4` modulo 2^XLEN (R22). -/
def advance (s : State) : State := { s with pc := truncX s.cfg (s.pc + 4#64) }

/-! ### Byte buffers: the tile state and the vector registers -/

/-- Byte `o` of a buffer. -/
def readByte (buf : List Byte) (o : Nat) : Byte := buf.getD o 0#8

/-- `n` bytes of a buffer from offset `o`, lowest first (R23, R38). -/
def readBytes (buf : List Byte) (o n : Nat) : List Byte := (List.range n).map fun k => readByte buf (o + k)

/-- A buffer with the bytes `bs` written from offset `o` up (R38). -/
def writeBytes (buf : List Byte) (o : Nat) : List Byte → List Byte
  | [] => buf
  | b :: bs => writeBytes (buf.set o b) (o + 1) bs

/-- A buffer after a list of writes, each an offset and its bytes, in order. -/
def overlay (buf : List Byte) (writes : List (Nat × List Byte)) : List Byte :=
  writes.foldl (fun b w => writeBytes b w.1 w.2) buf

/-- The value of bytes, least significant first (R23, R37, R71). -/
def leValue : List Byte → Nat
  | [] => 0
  | b :: bs => b.toNat + 256 * leValue bs

/-- The `n` low bytes of a value, least significant first (R23, R37, R71). -/
def leBytes : Nat → Nat → List Byte
  | 0, _ => []
  | n + 1, v => BitVec.ofNat 8 v :: leBytes n (v / 256)

/-- An agnostic element: its old bytes, or all ones when the draw says so (R14, R170, R216). -/
def agnosticBytes (ones : Bool) (old : List Byte) : List Byte := old.map fun b => if ones then 0xFF#8 else b

/-! ### Memory -/

/-- What a byte that no entry lists reads as (DESIGN CHOICE, log 7). -/
def unlistedByte : Byte := 0#8

/-- One byte of memory (R70). -/
def memRead : Memory → Nat → Byte
  | [], _ => unlistedByte
  | (b, v) :: m, a => if a = b then v else memRead m a

/-- Memory with one byte written (R70). Writing what an unlisted byte reads as removes the entry. -/
def memWrite : Memory → Nat → Byte → Memory
  | [], a, v => if v = unlistedByte then [] else [(a, v)]
  | (b, u) :: m, a, v =>
    if a < b then (if v = unlistedByte then (b, u) :: m else (a, v) :: (b, u) :: m)
    else if a = b then (if v = unlistedByte then m else (a, v) :: m)
    else (b, u) :: memWrite m a v

/-- Memory after a list of byte writes, in order. -/
def memWrites (m : Memory) (ws : List (Nat × Byte)) : Memory := ws.foldl (fun m w => memWrite m w.1 w.2) m

/-- The canonical form of memory from address `lo` up: addresses strictly rising, no entry that reads as unlisted. -/
def Memory.wfFrom : Nat → Memory → Bool
  | _, [] => true
  | lo, (a, v) :: m => decide (lo ≤ a) && !(v == unlistedByte) && Memory.wfFrom (a + 1) m

/-- The canonical form of memory. -/
def Memory.wf (m : Memory) : Bool := Memory.wfFrom 0 m

/-- A strictly rising list of addresses with one inserted. -/
def insertAddr : List Nat → Nat → List Nat
  | [], a => [a]
  | b :: l, a => if a < b then a :: b :: l else if a = b then b :: l else b :: insertAddr l a

/-- A strictly rising list of addresses with one removed. -/
def removeAddr (l : List Nat) (a : Nat) : List Nat := l.filter fun b => !(b == a)

/-- Whether addresses rise strictly from `lo` up. -/
def risingFrom : Nat → List Nat → Bool
  | _, [] => true
  | lo, a :: l => decide (lo ≤ a) && risingFrom (a + 1) l

/-- The address `a + k` modulo 2^XLEN (R72). -/
def addrX (c : Config) (a k : Nat) : Nat := (a + k) % 2 ^ c.xlenBits

/-- The addresses of `n` bytes from `a` up, modulo 2^XLEN (R71, R72). -/
def byteAddrs (c : Config) (a n : Nat) : List Nat := (List.range n).map (addrX c a)

/-- `MemRead(a, n)` as bytes (R12, R71). -/
def memReadBytes (c : Config) (m : Memory) (a n : Nat) : List Byte := (byteAddrs c a n).map (memRead m)

/-! ### Exceptions -/

/-- The synchronous exceptions of R300; the virtual-instruction exception belongs to CSR accesses of a guest (log 51). -/
inductive Exception where
  | instrAddressMisaligned
  | instrAccessFault
  | illegalInstruction
  | loadAddressMisaligned
  | loadAccessFault
  | storeAddressMisaligned
  | storeAccessFault
  | instrPageFault
  | loadPageFault
  | storePageFault
  | instrGuestPageFault
  | loadGuestPageFault
  | virtualInstruction
  | storeGuestPageFault
  deriving DecidableEq, Repr

/-- The cause code of an exception (R300). -/
def Exception.code : Exception → Nat
  | .instrAddressMisaligned => 0
  | .instrAccessFault => 1
  | .illegalInstruction => 2
  | .loadAddressMisaligned => 4
  | .loadAccessFault => 5
  | .storeAddressMisaligned => 6
  | .storeAccessFault => 7
  | .instrPageFault => 12
  | .loadPageFault => 13
  | .storePageFault => 15
  | .instrGuestPageFault => 20
  | .loadGuestPageFault => 21
  | .virtualInstruction => 22
  | .storeGuestPageFault => 23

/-- The mode that takes a trap: M, S (HS with the hypervisor extension) or VS. -/
inductive TrapTarget where
  | machine
  | supervisor
  | virtualSupervisor
  deriving DecidableEq, Repr

/-- Delegation by the `medeleg` and `hedeleg` bits of the cause code (R308; log 46). A trap in machine mode stays there. -/
def trapTarget (s : State) (code : Nat) : TrapTarget :=
  if s.priv = .machine || !s.cfg.hasS || !s.medeleg.getLsbD code then .machine
  else if s.cfg.hasH && s.virt && s.hedeleg.getLsbD code then .virtualSupervisor
  else .supervisor

/-- The cause register's value: the code, with the top bit set for an interrupt (R305). -/
def causeWord (c : Config) (interrupt : Bool) (code : Nat) : Word :=
  BitVec.ofNat 64 code ||| bitAt interrupt (c.xlenBits - 1)

/-- `BASE` of a trap-vector register: its bits above the two of MODE (R305; the split is PRESUMED, log 48). -/
def vectorBase (tvec : Word) : Word := tvec &&& ~~~3#64

/-- Where a trap goes: `BASE`, or `BASE + 4*cause` for an interrupt in vectored mode (R305). -/
def trapVector (c : Config) (tvec : Word) (interrupt : Bool) (code : Nat) : Word :=
  if interrupt && tvec.extractLsb' 0 2 == 1#2 then truncX c (vectorBase tvec + BitVec.ofNat 64 (4 * code))
  else truncX c (vectorBase tvec)

/-- Trap entry to machine mode (R305). -/
def enterMachine (interrupt : Bool) (code : Nat) (tval : Word) (s : State) : State :=
  { s with
    mepc := s.pc
    mcause := causeWord s.cfg interrupt code
    mtval := truncX s.cfg tval
    mstatus := { s.mstatus with
      mpp := s.priv
      mpie := s.mstatus.mie
      mie := false
      mpv := if s.cfg.hasH then s.virt else s.mstatus.mpv }
    virt := false
    priv := .machine
    pc := trapVector s.cfg s.mtvec interrupt code }

/-- Trap entry to supervisor mode, "in the same way" (R305); with the hypervisor extension `hstatus.SPV <- V`, `V <- 0`
(PRESUMED, log 46). -/
def enterSupervisor (interrupt : Bool) (code : Nat) (tval : Word) (s : State) : State :=
  { s with
    sepc := s.pc
    scause := causeWord s.cfg interrupt code
    stval := truncX s.cfg tval
    mstatus := { s.mstatus with
      spp := s.priv == .supervisor
      spie := s.mstatus.sie
      sie := false }
    hstatusSpv := if s.cfg.hasH then s.virt else s.hstatusSpv
    virt := false
    priv := .supervisor
    pc := trapVector s.cfg s.stvec interrupt code }

/-- Trap entry to virtual supervisor mode through `hedeleg` (R308; PRESUMED, log 46): V stays 1. -/
def enterVirtualSupervisor (interrupt : Bool) (code : Nat) (tval : Word) (s : State) : State :=
  { s with
    vsepc := s.pc
    vscause := causeWord s.cfg interrupt code
    vstval := truncX s.cfg tval
    vsstatus := { s.vsstatus with
      spp := s.priv == .supervisor
      spie := s.vsstatus.sie
      sie := false }
    priv := .supervisor
    pc := trapVector s.cfg s.vstvec interrupt code }

/-- Take an exception: the saved `pc` is that of the instruction being executed (R304, R305, R308). -/
def takeException (e : Exception) (tval : Word) (s : State) : State :=
  match trapTarget s e.code with
  | .machine => enterMachine false e.code tval s
  | .supervisor => enterSupervisor false e.code tval s
  | .virtualSupervisor => enterVirtualSupervisor false e.code tval s

/-- The trap value of an illegal instruction: its bits or 0, by `MTVAL_ILLEGAL` (R300; log 38). -/
def illegalTval (c : Config) (w : InstrWord) : Word :=
  match c.mtvalIllegal with
  | .bits => w.setWidth 64
  | .zero => 0#64

/-- `raise IllegalInstruction` (R12, R301): nothing changes but the trap state. -/
def illegal (w : InstrWord) (s : State) : State :=
  takeException .illegalInstruction (illegalTval s.cfg w) s

/-- The effect of `mret` (R306). A return to machine mode leaves V at 0: R309 has no machine mode with V = 1 (log 47). -/
def returnFromMachine (s : State) : State :=
  { s with
    priv := s.mstatus.mpp
    virt := s.cfg.hasH && s.mstatus.mpv && !(s.mstatus.mpp == .machine)
    mstatus := { s.mstatus with mie := s.mstatus.mpie, mpie := true, mpp := .user }
    pc := s.mepc }

/-- The effect of `sret` (R306: "likewise with the S-level fields"), of the guest's fields when V = 1 (log 47). -/
def returnFromSupervisor (s : State) : State :=
  if s.virt then
    { s with
      priv := if s.vsstatus.spp then .supervisor else .user
      vsstatus := { s.vsstatus with sie := s.vsstatus.spie, spie := true, spp := false }
      pc := s.vsepc }
  else
    { s with
      priv := if s.mstatus.spp then .supervisor else .user
      virt := s.cfg.hasH && s.hstatusSpv
      mstatus := { s.mstatus with sie := s.mstatus.spie, spie := true, spp := false }
      pc := s.sepc }

/-- `mret`: in machine mode only, else an illegal instruction (R306). -/
def machineReturn (w : InstrWord) (s : State) : State :=
  if s.priv = .machine then returnFromMachine s else illegal w s

/-- `sret`: in supervisor or machine mode, where supervisor mode exists; in user mode an illegal instruction, and of a guest a
virtual instruction (R306; PRESUMED, log 47). -/
def supervisorReturn (w : InstrWord) (s : State) : State :=
  if !s.cfg.hasS then illegal w s
  else if s.priv = .user then
    (if s.virt then takeException .virtualInstruction (illegalTval s.cfg w) s else illegal w s)
  else returnFromSupervisor s

/-! ### Interrupts -/

/-- The interrupts of R307, machine and supervisor software, timer and external, as bits of `mip` and `mie`: those of the levels
the hart has (their places are PRESUMED, log 52). -/
def interruptBits (c : Config) : Word := 0x888#64 ||| (if c.hasS then 0x222#64 else 0#64)

/-- The cause codes of the interrupts, the most urgent first: external, software, timer, machine level before supervisor level
(PRESUMED, log 52). -/
def interruptOrder : List Nat := [11, 3, 7, 9, 1, 5]

/-- The interrupt that is taken before the next instruction: pending, enabled, and not masked by `mstatus.MIE` in machine mode
(R303e, R307; PRESUMED, log 52). -/
def pendingInterrupt (s : State) : Option Nat :=
  if s.priv = .machine && !s.mstatus.mie then none
  else interruptOrder.find? fun code => (s.mip &&& s.mie).getLsbD code

/-- Take an interrupt, to machine mode (R305; log 52). -/
def takeInterrupt (code : Nat) (s : State) : State := enterMachine true code 0#64 s

/-! ### The end of an instruction -/

/-- The end of every completing Zvm instruction: `SetVSDirty()`, `vstart <- 0`, `pc <- pc + 4` (R13, R26, R61). -/
def completeZvm (s : State) : State := advance { dirtyVs true s with vstart := 0 }

end Sys2Proof.Machine
end

