-- ==== Sys2Proof/Machine/Access.lean ====
section
/-! DEFINITION. What the platform answers to a memory access: the memory map (20_memory.md R79, R80), alignment (R75), the
exception an element access raises and its priority (60_exceptions.md R300, R302, R303), data endianness (R71). -/

namespace Sys2Proof.Machine

/-- The kinds of memory access. -/
inductive AccessKind where
  | load
  | store
  | fetch
  deriving DecidableEq, Repr

/-- The effective privilege mode and V of an access: a data access in machine mode with MPRV set uses MPP and MPV
(R80; PRESUMED, log 40). -/
def effectiveMode (s : State) (k : AccessKind) : Priv × Bool :=
  match k with
  | .fetch => (s.priv, s.virt)
  | _ =>
    if s.priv = .machine && s.mstatus.mprv then
      (s.mstatus.mpp, s.cfg.hasH && s.mstatus.mpv && !(s.mstatus.mpp == .machine))
    else (s.priv, s.virt)

/-- Whether data accesses are big-endian: the bit of the effective mode (R71; the guest's bits are PRESUMED, log 15). -/
def dataBigEndian (s : State) : Bool :=
  match effectiveMode s .load with
  | (.machine, _) => s.mstatus.mbe
  | (.supervisor, false) => s.mstatus.sbe
  | (.user, false) => s.mstatus.ube
  | (.supervisor, true) => s.hstatusVsbe
  | (.user, true) => s.vsstatus.ube

/-- Whether a region holds an address. -/
def Region.holds (r : Region) (a : Nat) : Bool := decide (r.base ≤ a) && decide (a < r.base + r.size)

/-- The region of an address: the first of the map that holds it (R79). -/
def regionOf (c : Config) (a : Nat) : Option Region := c.regions.find? fun r => Region.holds r a

/-- A region's answer to a kind of access. -/
def regionVerdict (r : Region) (k : AccessKind) : Verdict :=
  match k with
  | .load => r.load
  | .store => r.store
  | .fetch => r.fetch

/-- The platform's answer to an access of one byte: an address of no region does not exist, and is an access fault (R79).
Translation is off in machine mode and the guest's stage is in effect with V = 1 alone (log 40). -/
def byteVerdict (s : State) (k : AccessKind) (a : Nat) : Verdict :=
  match regionOf s.cfg a with
  | none => .accessFault
  | some r =>
    match regionVerdict r k with
    | .permitted => .permitted
    | .accessFault => .accessFault
    | .pageFault => if (effectiveMode s k).1 = .machine then .permitted else .pageFault
    | .guestPageFault => if (effectiveMode s k).2 then .guestPageFault else .permitted

/-- The exception of an access fault (R300). -/
def accessFaultOf : AccessKind → Exception
  | .load => .loadAccessFault
  | .store => .storeAccessFault
  | .fetch => .instrAccessFault

/-- The exception of a page fault (R300). -/
def pageFaultOf : AccessKind → Exception
  | .load => .loadPageFault
  | .store => .storePageFault
  | .fetch => .instrPageFault

/-- The exception of a guest-page fault (R300). -/
def guestPageFaultOf : AccessKind → Exception
  | .load => .loadGuestPageFault
  | .store => .storeGuestPageFault
  | .fetch => .instrGuestPageFault

/-- The exception of a misaligned address (R75, R300). -/
def misalignedOf : AccessKind → Exception
  | .load => .loadAddressMisaligned
  | .store => .storeAddressMisaligned
  | .fetch => .instrAddressMisaligned

/-- The exception that a byte's translation raises, if any. -/
def translationFault (s : State) (k : AccessKind) (a : Nat) : Option (Exception × Nat) :=
  match byteVerdict s k a with
  | .pageFault => some (pageFaultOf k, a)
  | .guestPageFault => some (guestPageFaultOf k, a)
  | _ => none

/-- The access fault that a byte raises, if any. -/
def protectionFault (s : State) (k : AccessKind) (a : Nat) : Option (Exception × Nat) :=
  match byteVerdict s k a with
  | .accessFault => some (accessFaultOf k, a)
  | _ => none

/-- The misaligned policy at an address: that of its region (R75; log 36). -/
def misalignedPolicy (c : Config) (a : Nat) : MisalignedPolicy :=
  match regionOf c a with
  | some r => r.misaligned
  | none => .support

/-- What the policy of its region says of an access of `n` bytes at `a`: an aligned one is always supported (R75). -/
def alignmentPolicy (c : Config) (a n : Nat) : MisalignedPolicy :=
  if a % n = 0 then .support else misalignedPolicy c a

/-- The address-misaligned exception of an access of `n` bytes at `a`, if its policy raises it (R75). -/
def misalignedFault (s : State) (k : AccessKind) (a n : Nat) : Option (Exception × Nat) :=
  if alignmentPolicy s.cfg a n = .trap then some (misalignedOf k, a) else none

/-- The access fault of an access of `n` bytes at `a`: that of a misaligned access which its region answers so (93 I7), or of
the lowest byte that the map denies. -/
def accessFaultAt (s : State) (k : AccessKind) (a n : Nat) : Option (Exception × Nat) :=
  if alignmentPolicy s.cfg a n = .accessFault then some (accessFaultOf k, a)
  else (byteAddrs s.cfg a n).findSome? (protectionFault s k)

/-- The page or access fault of an access of `n` bytes at `a`; a page fault comes first (R303d), and so does a
guest-page fault, the lowest byte's of the two (PRESUMED, log 66). The address reported is the element's or the byte's, by
`faultAddress` (R300; for a fetch DESIGN CHOICE, log 37). -/
def mapFault (s : State) (k : AccessKind) (a n : Nat) : Option (Exception × Nat) :=
  (((byteAddrs s.cfg a n).findSome? (translationFault s k)).orElse fun _ => accessFaultAt s k a n).map fun f =>
    match s.cfg.faultAddress with
    | .elementStart => (f.1, a)
    | .faultingByte => f

/-- The exception that an access of `n` bytes at `a` raises and the address it reports, if any: address-misaligned comes before
or after a page or access fault by the parameter `misalignedFirst` (R302, R303d; log 36). -/
def accessException (s : State) (k : AccessKind) (a n : Nat) : Option (Exception × Nat) :=
  if s.cfg.misalignedFirst then (misalignedFault s k a n).orElse fun _ => mapFault s k a n
  else (mapFault s k a n).orElse fun _ => misalignedFault s k a n

/-- Whether an access of `n` bytes at `a` would reach memory with access side effects (R78). -/
def touchesNonIdempotent (s : State) (k : AccessKind) (a n : Nat) : Bool :=
  (byteAddrs s.cfg a n).any fun b =>
    byteVerdict s k b == .permitted &&
      match regionOf s.cfg b with
      | some r => !r.idempotent
      | none => false

/-- What fetching the instruction at `pc` gives. -/
inductive Fetched where
  | word (w : InstrWord)
  | exception (e : Exception) (tval : Nat)
  | refused (r : Refusal)
  deriving DecidableEq, Repr

/-- Fetch the instruction at `pc`: its address is 4-byte aligned (R22, log 54), the fetch may fault (R300, R303a), and bytes a
tile store wrote are not fetched without a FENCE.I (R84, log 34). The trap value of a misaligned `pc` is that `pc` (PRESUMED,
log 59), that of the other three is by `faultAddress` (DESIGN CHOICE, log 37). -/
def fetch (s : State) : Fetched :=
  let a := s.pc.toNat
  if a % 4 ≠ 0 then .exception .instrAddressMisaligned a
  else
    match mapFault s .fetch a 4 with
    | some f => .exception f.1 f.2
    | none =>
      if (byteAddrs s.cfg a 4).any fun b => s.unsynced.contains b then .refused .storedText
      else
        .word (wordOfBytes (memRead s.mem (addrX s.cfg a 0)) (memRead s.mem (addrX s.cfg a 1))
          (memRead s.mem (addrX s.cfg a 2)) (memRead s.mem (addrX s.cfg a 3)))

end Sys2Proof.Machine
end

