-- ==== Sys2Proof/Machine/Operands.lean ====
section
/-! DEFINITION. The operands of the Zvm instructions: quantities derived from `vtype`, `mtype` and `vl` (10_state.md R42 to
R53), tile elements and punning (R33 to R38), the tile subset specifier (41_tile_loadstore.md R160 to R164), vector elements
(R23) and matrix operands (43_matrix_arith.md R211, R212). -/

namespace Sys2Proof.Machine

/-! ### `vtype`, `mtype` and what follows from them -/

/-- SEW (R25, R49). -/
def sew (t : VType) : Nat := 8 * 2 ^ t.vsew.toNat

/-- LMUL in eighths (R25, R49). The code 100 is reserved and never stored (R133; log 63). -/
def lmulEighths (t : VType) : Nat :=
  match t.vlmul with
  | 0b000#3 => 8
  | 0b001#3 => 16
  | 0b010#3 => 32
  | 0b011#3 => 64
  | 0b101#3 => 1
  | 0b110#3 => 2
  | 0b111#3 => 4
  | _ => 0

/-- LMUL as a register count: 1 when it is fractional (R23). -/
def lmulRegs (t : VType) : Nat := max 1 (lmulEighths t / 8)

/-- VLMAX = LMUL*VLEN/SEW = LMUL*EVE (R51). -/
def vlmax (c : Config) (t : VType) : Nat := lmulEighths t * c.vlen / (8 * sew t)

/-- EVE = VLEN/SEW (R51). -/
def eve (c : Config) (sewBits : Nat) : Nat := c.vlen / sewBits

/-- `TWIDEN_OF(mtwiden)`; none when the unit is not configured (R44, R45). -/
def twidenOf (c : Config) (mtwiden : BitVec 2) : Option Nat :=
  match mtwiden with
  | 0#2 => none
  | 1#2 => some c.twidenOf.code1.factor
  | 2#2 => some c.twidenOf.code2.factor
  | _ => some c.twidenOf.code3.factor

/-- ETE, the tile edge in elements at a tile element width (R34). -/
def ete (c : Config) (tew : Nat) : Nat := if tew < 64 then c.te else c.te / 2

/-- KMAX as a function of SEW (R52; log 11). -/
def kmax (sewBits : Nat) : Nat := if sewBits = 8 then 4 else if sewBits = 16 then 2 else 1

/-- `16/#Tiles`: the step between valid tile specifiers (R33). -/
def tileStep (tew : Nat) : Nat := if tew = 8 then 1 else if tew = 32 then 4 else 2

/-- `tn = min(vl, ETE)` (R53). -/
def tn (s : State) (tew : Nat) : Nat := min s.vl (ete s.cfg tew)

/-- The value of `vtype` (R25). -/
def vtypeWord (c : Config) (t : VType) : Word :=
  t.vlmul.setWidth 64 ||| t.vsew.setWidth 64 <<< 3 ||| bitAt t.vta 6 ||| bitAt t.vma 7 ||| bitAt t.altfmt c.altfmtBit
    ||| bitAt t.vill (c.xlenBits - 1)

/-- `MTYPE_TK_LSB` as a number (R42). -/
def tkLsb (c : Config) : Nat :=
  match c.tkPosition with
  | .bit4 => 4
  | .bit5 => 5

/-- The value of `mtype`: `(tm << 10) | (tk << MTYPE_TK_LSB) | mtwiden` (R42). -/
def mtypeWord (c : Config) (m : MType) : Word :=
  m.tm.setWidth 64 <<< 10 ||| m.tk.setWidth 64 <<< tkLsb c ||| m.mtwiden.setWidth 64

/-- The fields of a value written to `mtype`; its other bits are discarded (R46, R136; log 10). -/
def mtypeOfWord (c : Config) (w : Word) : MType :=
  ⟨w.extractLsb' 10 14, w.extractLsb' (tkLsb c) 3, w.extractLsb' 0 2⟩

/-- The bits of `vtype` below `vill` that hold a field (R25). -/
def vtypeFieldMask (c : Config) : Word := 0xFF#64 ||| 1#64 <<< c.altfmtBit

/-- The fields of a value written to `vtype` with `vill` = 0 (R25). -/
def vtypeOfWord (c : Config) (w : Word) : VType :=
  ⟨false, w.getLsbD c.altfmtBit, w.getLsbD 7, w.getLsbD 6, w.extractLsb' 3 3, w.extractLsb' 0 3⟩

/-- `vsew <= lg(ELEN/8)` (R133). -/
def vsewSupported (c : Config) (t : VType) : Bool := decide (sew t ≤ c.elenBits)

/-- Whether LMUL is supported: every integer LMUL, a fractional one when SEW <= LMUL*ELEN or the implementation adds it, never
the code 100 (R133; log 27). -/
def vlmulSupported (c : Config) (t : VType) : Bool :=
  if t.vlmul.getLsbD 2 then
    !(t.vlmul == 0b100#3)
      && (decide (8 * sew t ≤ lmulEighths t * c.elenBits) || c.moreFractional.contains (t.vsew, t.vlmul))
  else true

/-- Whether `altfmt` is supported: 0 always, 1 with Zvm32a16f and SEW = 16 (R133, R221; log 26). -/
def altfmtSupported (c : Config) (t : VType) : Bool := !t.altfmt || (c.ext.zvm32a16f && t.vsew == 1#3)

/-- `VTYPE_SUPPORTED` (R133): no reserved bit and no `vill`, and every field supported. -/
def vtypeSupported (c : Config) (w : Word) : Bool :=
  let t := vtypeOfWord c w
  w &&& ~~~vtypeFieldMask c == 0#64 && vsewSupported c t && vlmulSupported c t && altfmtSupported c t

/-- The illegal `vtype`: `vill` = 1, every other bit 0 (R133). -/
def illegalVtype : VType := ⟨true, false, false, false, 0#3, 0#3⟩

/-- `VsetvlVtype(val)` (R133). -/
def vsetvlVtype (c : Config) (w : Word) : VType := if vtypeSupported c w then vtypeOfWord c w else illegalVtype

/-- `VL_POLICY(AVL, VLMAX)`, within the bounds of R134 (log 24). -/
def vlPolicy (c : Config) (avl vmax : Nat) : Nat :=
  match c.vlPolicy with
  | .vlmax => vmax
  | .unspecified => max ((avl + 1) / 2) (min vmax (Config.vlChoice avl vmax))

/-- `SetVL(AVL)` under a `vtype` (R134). -/
def setVl (c : Config) (t : VType) (avl : Nat) : Nat :=
  if t.vill then 0
  else
    let vmax := vlmax c t
    if avl ≤ vmax then avl
    else if 2 * vmax ≤ avl then vmax
    else vlPolicy c avl vmax

/-- `L = min(8/KMAX, 8/TWIDEN, ceil(ETE/EVE))`, the LMUL that `MatrixConfigure` sets (R135). -/
def matrixLmul (c : Config) (sewBits twiden : Nat) : Nat :=
  let e := eve c sewBits
  min (8 / kmax sewBits) (min (8 / twiden) ((ete c (sewBits * twiden) + e - 1) / e))

/-- `MatrixConfigure()` on the new `vtype` and `mtype` (R135; log 25). -/
def matrixConfigure (c : Config) (twiden : Nat) (t : VType) (m : MType) : VType × MType :=
  let w := sew t
  let l := matrixLmul c w twiden
  ({ t with
      vlmul := BitVec.ofNat 3 (Nat.log2 l)
      vma := true
      vta := true
      vill := t.vill || decide (c.elenBits < w * twiden) },
    { m with
      tk := BitVec.ofNat 3 (min m.tk.toNat (kmax w))
      tm := BitVec.ofNat 14 (min m.tm.toNat (min (l * eve c w) (ete c (w * twiden)))) })

/-! ### Tiles -/

/-- `punning(TE, tile, row, col, tew)`: the offset in the tile state of an element's first byte (R36). -/
def punning (te tile row col tew : Nat) : Nat :=
  match tew with
  | 8 =>
    tile * te * te + (row / 4 * (te / 4) + col / 4) * 16 + (row % 4 * 4 + col % 4)
  | 16 =>
    (tile + (row &&& 2) / 2) * te * te + (row / 4 * (te / 4) + col / 4) * 16
      + (row % 2 * 4 + col % 2 * 2 + col / 2 % 2 * 8)
  | 32 =>
    (tile + 2 * (row / (te / 2)) + (col &&& 2) / 2) * te * te
      + (row / 2 % (te / 4) * (te / 4) + col / 4) * 16 + (row % 2 * 8 + col % 2 * 4)
  | 64 =>
    (tile + row / (te / 4)) * te * te + (row % (te / 4) * (te / 4) + col / 2) * 16 + col % 2 * 8
  | _ => 0

/-- `TElem(w, t, r, c)` as bytes (R37, R38). -/
def tileElem (s : State) (w t r col : Nat) : List Byte := readBytes s.ts (punning s.cfg.te t r col w) (w / 8)

/-- A row or column of a tile (R162). -/
structure Subset where
  tile  : Nat
  isCol : Bool
  index : Nat
  deriving DecidableEq, Repr

/-- What decoding a TSS gives (R163, R164). -/
inductive TssResult where
  | subset (u : Subset)
  | illegal
  | refuse
  deriving DecidableEq, Repr

/-- Whether a TSS holds a reserved value: bits XLEN-1:31, a pattern above 1 or an index at or above ETE (R163). -/
def tssReserved (c : Config) (v : Word) (tew : Nat) : Bool :=
  !(v.extractLsb' 31 33 == 0#33) || decide (1 < (v.extractLsb' 24 3).toNat)
    || decide (ete c tew ≤ (v.extractLsb' 0 24).toNat)

/-- The subset a TSS names, reserved bits ignored (R161, R162, R164). -/
def tssSubset (c : Config) (v : Word) (tew : Nat) : Subset :=
  let t := (v.extractLsb' 27 4).toNat
  ⟨t - t % tileStep tew, v.getLsbD 24, (v.extractLsb' 0 24).toNat % ete c tew⟩

/-- `TSSDecode(s, TEW)` (R164); the policy decides a reserved value (R163; log 14). -/
def tssDecode (c : Config) (v : Word) (tew : Nat) : TssResult :=
  if tssReserved c v tew then
    match c.tssPolicy with
    | .wrap => .subset (tssSubset c v tew)
    | .illegal => .illegal
    | .refuse => .refuse
  else .subset (tssSubset c v tew)

/-- `Coord`: the row and column of element `i` (R162, R164). -/
def Subset.coord (u : Subset) (i : Nat) : Nat × Nat := if u.isCol then (i, u.index) else (u.index, i)

/-- The tile-state offset of element `i` of a subset. -/
def Subset.offset (u : Subset) (c : Config) (w i : Nat) : Nat :=
  punning c.te u.tile (u.coord i).1 (u.coord i).2 w

/-- The bytes of element `i` of a subset. -/
def subsetElem (s : State) (u : Subset) (w i : Nat) : List Byte := readBytes s.ts (u.offset s.cfg w i) (w / 8)

/-- The body of a tile load, store or move: `vstart` to `min(vl, ETE) - 1` (R166, R193). -/
def bodyIndices (s : State) (tew : Nat) : List Nat := List.range' s.vstart (tn s tew - s.vstart)

/-- The tail of a tile row or column: `min(vl, ETE)` to ETE - 1 (R166, R193). -/
def tailIndices (s : State) (tew : Nat) : List Nat := List.range' (tn s tew) (ete s.cfg tew - tn s tew)

/-- The write that makes an element of a buffer agnostic (R170, R216; log 16). -/
def agnosticWrite (s : State) (buf : List Byte) (o n i : Nat) : Nat × List Byte :=
  (o, agnosticBytes (Config.agnosticOnes s.draws i) (readBytes buf o n))

/-- The agnostic writes of a tile subset's tail (R170, R192). -/
def subsetTailWrites (s : State) (u : Subset) (w : Nat) : List (Nat × List Byte) :=
  (tailIndices s w).map fun i => agnosticWrite s s.ts (u.offset s.cfg w i) (w / 8) i

/-- Whether a move that writes the body and tail of a subset writes any tile element (R192; log 16). -/
def subsetWritten (s : State) (w : Nat) : Bool :=
  !(bodyIndices s w).isEmpty || (tailIndices s w).any (Config.agnosticOnes s.draws)

/-! ### Vector registers -/

/-- The index in the vector register file of element `i` of width `w` of the group at register `r` (R23). -/
def velemOffset (c : Config) (r i w : Nat) : Nat := r * c.vlenb + i * (w / 8)

/-- `VElem(r, i, w)` as bytes (R23). -/
def velem (s : State) (r i w : Nat) : List Byte := readBytes s.v (velemOffset s.cfg r i w) (w / 8)

/-- Whether a vector operand of a move is aligned to its group (R190). -/
def groupAligned (t : VType) (r : VReg) : Bool := r.toNat % lmulRegs t == 0

/-- `Opnd(vs, k, e)`: element `e` of row `k` of a matrix operand, as a value (R211). -/
def opnd (s : State) (vs : VReg) (k e : Nat) : Nat :=
  leValue (velem s (vs.toNat + k * (8 / kmax (sew s.vtype))) e (sew s.vtype))

/-- Whether a matrix operand's specifier is valid (R212). -/
def matrixSpecifierValid (t : VType) (vs : VReg) : Bool :=
  vs.toNat % lmulRegs t == 0 && decide (vs.toNat % 8 < 8 / kmax (sew t))

end Sys2Proof.Machine
end

