-- ==== Sys2Proof/Machine/ConfigInstr.lean ====
section
/-! DEFINITION. The configuration instructions (40_config.md R130 to R141). -/

namespace Sys2Proof.Machine

/-- The checks of R141, and the register fields of an E base (log 60): the instruction is illegal when VS is Off. -/
def withConfigChecks (i : Instr) (rs : List XReg) (s : State) (effect : State → State) : Result :=
  if vsOff s || !xregsExist s.cfg rs then .next (illegal (encode i) s) else .next (completeZvm (effect s))

/-- The AVL of `vsetvli` and `vsetvl` (R130): `x[rs1]`, or the largest value when only `rd` is given, or `vl` (log 28). -/
def vsetAvl (s : State) (rd rs1 : XReg) : Nat :=
  if rs1 ≠ 0#5 then (s.readX rs1).toNat
  else if rd ≠ 0#5 then 2 ^ s.cfg.xlenBits - 1
  else s.vl

/-- `vtype <- VsetvlVtype(val)`, `vl <- SetVL(AVL)`, `x[rd] <- vl`, `mtype <- 0` (R130, R131, R132; log 29). -/
def vsetvlEffect (rd : XReg) (val : Word) (avl : Nat) (s : State) : State :=
  let t := vsetvlVtype s.cfg val
  let n := setVl s.cfg t avl
  { s with vtype := t, vl := n, mtype := ⟨0#14, 0#3, 0#2⟩ }.writeX rd (wordX s.cfg n)

/-- `vsetvli` (R130). -/
def execVsetvli (rd rs1 : XReg) (zimm : BitVec 11) (s : State) : Result :=
  withConfigChecks (.vsetvli rd rs1 zimm) [rd, rs1] s fun s =>
    vsetvlEffect rd (zimm.setWidth 64) (vsetAvl s rd rs1) s

/-- `vsetivli` (R131). -/
def execVsetivli (rd : XReg) (uimm : BitVec 5) (zimm : BitVec 10) (s : State) : Result :=
  withConfigChecks (.vsetivli rd uimm zimm) [rd] s fun s =>
    vsetvlEffect rd (zimm.setWidth 64) uimm.toNat s

/-- `vsetvl` (R132). -/
def execVsetvl (rd rs1 rs2 : XReg) (s : State) : Result :=
  withConfigChecks (.vsetvl rd rs1 rs2) [rd, rs1, rs2] s fun s =>
    vsetvlEffect rd (s.readX rs2) (vsetAvl s rd rs1) s

/-- The effect of `msetmtype` with the new `mtype` value `m` and the new `vtype` value `t` (R136). -/
def msetmtypeEffect (m t : Word) (s : State) : State :=
  let mt := mtypeOfWord s.cfg m
  let vt := vsetvlVtype s.cfg t
  match twidenOf s.cfg mt.mtwiden with
  | none => { s with vl := 0, vtype := vt, mtype := { mt with tk := 0#3, tm := 0#14 } }
  | some w =>
    let p := matrixConfigure s.cfg w vt mt
    { s with vl := 0, vtype := p.1, mtype := p.2 }

/-- `msetmtype` (R136). -/
def execMsetmtype (rs1 rs2 : XReg) (s : State) : Result :=
  withConfigChecks (.msetmtype rs1 rs2) [rs1, rs2] s fun s =>
    msetmtypeEffect (s.readX rs1) (s.readX rs2) s

/-- `msetmtypei` (R137): every `vtype` field but `vsew` is supplied as zero. -/
def execMsetmtypei (mtypei : BitVec 5) (vsewi : BitVec 2) (s : State) : Result :=
  withConfigChecks (.msetmtypei mtypei vsewi) [] s fun s =>
    msetmtypeEffect (mtypei.setWidth 64) (vsewi.setWidth 64 <<< 3) s

/-- The AVL of `msettn` when the unit is not configured: `x[rs1]`, unless `MSETTN_X0_SPECIAL` gives `rs1` = `x0` the special
forms of `vsetvl` (R138; log 23). -/
def msettnAvl (s : State) (rd rs1 : XReg) : Nat :=
  if s.cfg.msettnX0Special then vsetAvl s rd rs1 else (s.readX rs1).toNat

/-- `min(a, LMUL*EVE, ETE)` at the configured width (R138, R139). -/
def clampToTile (s : State) (twiden a : Nat) : Nat :=
  min a (min (vlmax s.cfg s.vtype) (ete s.cfg (sew s.vtype * twiden)))

/-- The new `vl` of `msettn` (R138). -/
def msettnLength (s : State) (rd rs1 : XReg) : Nat :=
  match twidenOf s.cfg s.mtype.mtwiden with
  | none => setVl s.cfg s.vtype (msettnAvl s rd rs1)
  | some w => clampToTile s w (s.readX rs1).toNat

/-- The new `tm` of `msettm` (R139). -/
def msettmLength (s : State) (rs1 : XReg) : Nat :=
  match twidenOf s.cfg s.mtype.mtwiden with
  | none => 0
  | some w => clampToTile s w (s.readX rs1).toNat

/-- The new `tk` of `msettk` (R140). -/
def msettkLength (s : State) (rs1 : XReg) : Nat :=
  match twidenOf s.cfg s.mtype.mtwiden with
  | none => 0
  | some _ => min (s.readX rs1).toNat (kmax (sew s.vtype))

/-- `msettn` (R138). -/
def execMsettn (rd rs1 : XReg) (s : State) : Result :=
  withConfigChecks (.msettn rd rs1) [rd, rs1] s fun s =>
    let n := msettnLength s rd rs1
    { s with vl := n }.writeX rd (wordX s.cfg n)

/-- `msettm` (R139). -/
def execMsettm (rd rs1 : XReg) (s : State) : Result :=
  withConfigChecks (.msettm rd rs1) [rd, rs1] s fun s =>
    let n := msettmLength s rs1
    { s with mtype := { s.mtype with tm := BitVec.ofNat 14 n } }.writeX rd (wordX s.cfg n)

/-- `msettk` (R140). -/
def execMsettk (rd rs1 : XReg) (s : State) : Result :=
  withConfigChecks (.msettk rd rs1) [rd, rs1] s fun s =>
    let n := msettkLength s rs1
    { s with mtype := { s.mtype with tk := BitVec.ofNat 3 n } }.writeX rd (wordX s.cfg n)

end Sys2Proof.Machine
end

