-- ==== Sys2Proof/Machine/Csr.lean ====
section
/-! DEFINITION. The CSRs the spec describes (10_state.md R24 to R30, R41, R48, R55 to R58; 60_exceptions.md R305, R307 to R309):
their numbers, who may access them, what a read returns and what a write keeps. -/

namespace Sys2Proof.Machine

/-- The CSRs of the model. -/
inductive Csr where
  | fflags | frm | fcsr
  | vstart | vxsat | vxrm
  | vl | vtype | vlenb | mtype
  | sstatus | stvec | sepc | scause | stval
  | hstatus | hedeleg | vsstatus | vstvec | vsepc | vscause | vstval
  | mstatus | medeleg | mie | mtvec | mepc | mcause | mtval | mip
  deriving DecidableEq, Repr

/-- The CSR of a number. 0x001 to 0x003 are R28's, 0x008 R26's, 0x009 and 0x00A R29's, 0xC20 to 0xC22 R24's, R25's and R27's,
0xC23 R41's, 0x100, 0x200 and 0x300 R30's; the trap registers' numbers are PRESUMED (log 49). -/
def csrOfNumber (n : BitVec 12) : Option Csr :=
  match n.toNat with
  | 0x001 => some .fflags
  | 0x002 => some .frm
  | 0x003 => some .fcsr
  | 0x008 => some .vstart
  | 0x009 => some .vxsat
  | 0x00A => some .vxrm
  | 0xC20 => some .vl
  | 0xC21 => some .vtype
  | 0xC22 => some .vlenb
  | 0xC23 => some .mtype
  | 0x100 => some .sstatus
  | 0x105 => some .stvec
  | 0x141 => some .sepc
  | 0x142 => some .scause
  | 0x143 => some .stval
  | 0x600 => some .hstatus
  | 0x602 => some .hedeleg
  | 0x200 => some .vsstatus
  | 0x205 => some .vstvec
  | 0x241 => some .vsepc
  | 0x242 => some .vscause
  | 0x243 => some .vstval
  | 0x300 => some .mstatus
  | 0x302 => some .medeleg
  | 0x304 => some .mie
  | 0x305 => some .mtvec
  | 0x341 => some .mepc
  | 0x342 => some .mcause
  | 0x343 => some .mtval
  | 0x344 => some .mip
  | _ => none

/-- The least privileged mode of a CSR, from bits 9:8 of its number: user, supervisor, hypervisor or machine. -/
inductive CsrLevel where
  | user
  | supervisor
  | hypervisor
  | machine
  deriving DecidableEq, Repr

/-- The level of a CSR (R41, R309; log 51). -/
def csrLevel : Csr → CsrLevel
  | .fflags | .frm | .fcsr | .vstart | .vxsat | .vxrm | .vl | .vtype | .vlenb | .mtype => .user
  | .sstatus | .stvec | .sepc | .scause | .stval => .supervisor
  | .hstatus | .hedeleg | .vsstatus | .vstvec | .vsepc | .vscause | .vstval => .hypervisor
  | .mstatus | .medeleg | .mie | .mtvec | .mepc | .mcause | .mtval | .mip => .machine

/-- The context status that gates a CSR: VS for the vector CSRs (R48, R263), FS for `fcsr` and its parts (log 50). -/
def csrGateOff (s : State) : Csr → Bool
  | .fflags | .frm | .fcsr => fsOff s
  | .vstart | .vxsat | .vxrm | .vl | .vtype | .vlenb | .mtype => vsOff s
  | _ => false

/-- Whether a CSR is read-only (R24, R25, R27, R41). -/
def csrReadOnly : Csr → Bool
  | .vl | .vtype | .vlenb | .mtype => true
  | _ => false

/-- What an attempted access is answered. -/
inductive CsrAccess where
  | granted
  | illegal
  | virtualInstruction
  deriving DecidableEq, Repr

/-- Whether the mode may access a CSR of a level (R309). A guest's access that HS-mode would be allowed is a virtual
instruction (PRESUMED, log 51). Without supervisor mode the S-level CSRs are illegal and `medeleg`, of machine level, stays
(DESIGN CHOICE, log 65). -/
def csrPrivilege (s : State) : CsrLevel → CsrAccess
  | .user => .granted
  | .supervisor =>
    if !s.cfg.hasS then .illegal
    else if s.priv = .user then (if s.virt then .virtualInstruction else .illegal)
    else .granted
  | .hypervisor =>
    if !s.cfg.hasH then .illegal
    else if s.virt then .virtualInstruction
    else if s.priv = .user then .illegal
    else .granted
  | .machine => if s.priv = .machine then .granted else .illegal

/-- Whether an access of a CSR is allowed: the mode, the context status, and no write of a read-only CSR (R41, R48, R284). -/
def csrAccess (s : State) (r : Csr) (write : Bool) : CsrAccess :=
  match csrPrivilege s (csrLevel r) with
  | .granted => if csrGateOff s r || (write && csrReadOnly r) then .illegal else .granted
  | a => a

/-- When V = 1 an S-level number reaches the guest's register (R30, R308; log 46). -/
def csrTarget (s : State) (r : Csr) : Csr :=
  if s.virt then
    match r with
    | .sstatus => .vsstatus
    | .stvec => .vstvec
    | .sepc => .vsepc
    | .scause => .vscause
    | .stval => .vstval
    | r => r
  else r

/-- The value of `hstatus`: VSBE 5 and SPV 7 (PRESUMED, log 48). -/
def hstatusWord (s : State) : Word := bitAt s.hstatusVsbe 5 ||| bitAt s.hstatusSpv 7

/-- What a read of a CSR returns. -/
def csrRead (s : State) : Csr → Word
  | .fflags => s.fflags.setWidth 64
  | .frm => s.frm.setWidth 64
  | .fcsr => s.frm.setWidth 64 <<< 5 ||| s.fflags.setWidth 64
  | .vstart => wordX s.cfg s.vstart
  | .vxsat => s.vxsat.setWidth 64
  | .vxrm => s.vxrm.setWidth 64
  | .vl => wordX s.cfg s.vl
  | .vtype => vtypeWord s.cfg s.vtype
  | .vlenb => wordX s.cfg s.cfg.vlenb
  | .mtype => mtypeWord s.cfg s.mtype
  | .sstatus => sstatusWord s.cfg s.mstatus
  | .stvec => s.stvec
  | .sepc => s.sepc
  | .scause => s.scause
  | .stval => s.stval
  | .hstatus => hstatusWord s
  | .hedeleg => s.hedeleg
  | .vsstatus => vsstatusWord s.cfg s.vsstatus
  | .vstvec => s.vstvec
  | .vsepc => s.vsepc
  | .vscause => s.vscause
  | .vstval => s.vstval
  | .mstatus => mstatusWord s.cfg s.mstatus
  | .medeleg => s.medeleg
  | .mie => s.mie
  | .mtvec => s.mtvec
  | .mepc => s.mepc
  | .mcause => s.mcause
  | .mtval => s.mtval
  | .mip => s.mip

/-- The context-status field at a place of a CSR word. -/
def statusOf (w : Word) (pos : Nat) : ContextStatus := ContextStatus.ofCode (w.extractLsb' pos 2)

/-- `mstatus` after a write of its `sstatus` view; XS and SD are read-only (R55, R58; log 48). SIE, SPIE and SPP are kept
without supervisor mode too (DESIGN CHOICE, log 65). -/
def writeSstatus (m : MStatus) (w : Word) : MStatus :=
  { m with
    sie := w.getLsbD 1
    spie := w.getLsbD 5
    ube := w.getLsbD 6
    spp := w.getLsbD 8
    vs := statusOf w 9
    fs := statusOf w 13
    ms := statusOf w 29 }

/-- `vsstatus` after a write (R57, R58; log 48). -/
def writeVsstatus (m : VsStatus) (w : Word) : VsStatus :=
  { m with
    sie := w.getLsbD 1
    spie := w.getLsbD 5
    ube := w.getLsbD 6
    spp := w.getLsbD 8
    vs := statusOf w 9
    fs := statusOf w 13
    ms := statusOf w 29 }

/-- MPP after a write: a code of no supported mode leaves it unchanged (PRESUMED, log 48). -/
def writeMpp (c : Config) (old : Priv) (b : BitVec 2) : Priv :=
  if b = 0#2 then .user
  else if b = 3#2 then .machine
  else if b = 1#2 && c.hasS then .supervisor
  else old

/-- `mstatus` after a write (R55, R58, R309; log 48). SBE is kept without supervisor mode too (DESIGN CHOICE, log 65). -/
def writeMstatus (c : Config) (m : MStatus) (w : Word) : MStatus :=
  let m := writeSstatus m w
  let m := { m with
    mie := w.getLsbD 3
    mpie := w.getLsbD 7
    mpp := writeMpp c m.mpp (w.extractLsb' 11 2)
    mprv := w.getLsbD 17 }
  match c.xlen with
  | .rv32 => m
  | .rv64 => { m with sbe := w.getLsbD 36, mbe := w.getLsbD 37, mpv := if c.hasH then w.getLsbD 39 else m.mpv }

/-- A trap-vector register after a write: the reserved mode bit stays 0 (PRESUMED, log 49). -/
def writeTvec (c : Config) (w : Word) : Word := truncX c (w &&& ~~~2#64)

/-- A saved `pc` after a write: 4-byte aligned (PRESUMED, log 49). -/
def writeEpc (c : Config) (w : Word) : Word := truncX c (w &&& ~~~3#64)

/-- The bits of `mip` that software can write: those of supervisor level, the others are set from outside (PRESUMED, log 49). -/
def supervisorPendingBits (c : Config) : Word := if c.hasS then 0x222#64 else 0#64

/-- The state after a write of a CSR. A write of a vector or floating-point CSR dirties its context (log 50); `vstart` keeps the
value modulo VLEN, `vxsat` one bit and `vxrm` two (DESIGN CHOICE, log 64); a read-only CSR never gets here. -/
def csrWrite (s : State) (r : Csr) (w : Word) : State :=
  match r with
  | .fflags => dirtyFs true { s with fflags := w.extractLsb' 0 5 }
  | .frm => dirtyFs true { s with frm := w.extractLsb' 0 3 }
  | .fcsr => dirtyFs true { s with fflags := w.extractLsb' 0 5, frm := w.extractLsb' 5 3 }
  | .vstart => dirtyVs true { s with vstart := w.toNat % s.cfg.vlen }
  | .vxsat => dirtyVs true { s with vxsat := w.extractLsb' 0 1 }
  | .vxrm => dirtyVs true { s with vxrm := w.extractLsb' 0 2 }
  | .vl | .vtype | .vlenb | .mtype => s
  | .sstatus => { s with mstatus := writeSstatus s.mstatus w }
  | .stvec => { s with stvec := writeTvec s.cfg w }
  | .sepc => { s with sepc := writeEpc s.cfg w }
  | .scause => { s with scause := truncX s.cfg w }
  | .stval => { s with stval := truncX s.cfg w }
  | .hstatus => { s with hstatusVsbe := w.getLsbD 5, hstatusSpv := w.getLsbD 7 }
  | .hedeleg => { s with hedeleg := truncX s.cfg w }
  | .vsstatus => { s with vsstatus := writeVsstatus s.vsstatus w }
  | .vstvec => { s with vstvec := writeTvec s.cfg w }
  | .vsepc => { s with vsepc := writeEpc s.cfg w }
  | .vscause => { s with vscause := truncX s.cfg w }
  | .vstval => { s with vstval := truncX s.cfg w }
  | .mstatus => { s with mstatus := writeMstatus s.cfg s.mstatus w }
  | .medeleg => { s with medeleg := truncX s.cfg w }
  | .mie => { s with mie := w &&& interruptBits s.cfg }
  | .mtvec => { s with mtvec := writeTvec s.cfg w }
  | .mepc => { s with mepc := writeEpc s.cfg w }
  | .mcause => { s with mcause := truncX s.cfg w }
  | .mtval => { s with mtval := truncX s.cfg w }
  | .mip => { s with mip := (s.mip &&& ~~~supervisorPendingBits s.cfg) ||| (w &&& supervisorPendingBits s.cfg) }

end Sys2Proof.Machine
end

