-- ==== Sys2Proof/Machine/HostSubset.lean ====
section
/-! DEFINITION. The host instruction subset (45_host_subset.md R280 to R284). -/

namespace Sys2Proof.Machine

/-- An instruction of the host subset that names a register at or above NXREG is illegal (45_host_subset.md, opening; log 60). -/
def withXRegs (i : Instr) (rs : List XReg) (s : State) (effect : State → Result) : Result :=
  if xregsExist s.cfg rs then effect s else .next (illegal (encode i) s)

/-- `addi` (R280). -/
def execAddi (rd rs1 : XReg) (imm : BitVec 12) (s : State) : Result :=
  withXRegs (.addi rd rs1 imm) [rd, rs1] s fun s =>
    .next (advance (s.writeX rd (s.readX rs1 + imm.signExtend 64)))

/-- `slli` (R281): with XLEN = 32 a shift amount of 32 or more is reserved. -/
def execSlli (rd rs1 : XReg) (shamt : BitVec 6) (s : State) : Result :=
  withXRegs (.slli rd rs1 shamt) [rd, rs1] s fun s =>
    if s.cfg.xlenBits ≤ shamt.toNat then .next (illegal (encode (.slli rd rs1 shamt)) s)
    else .next (advance (s.writeX rd (s.readX rs1 <<< shamt.toNat)))

/-- `add` (R282). -/
def execAdd (rd rs1 rs2 : XReg) (s : State) : Result :=
  withXRegs (.add rd rs1 rs2) [rd, rs1, rs2] s fun s =>
    .next (advance (s.writeX rd (s.readX rs1 + s.readX rs2)))

/-- `bne` (R283). The target of a taken branch must be 4-byte aligned; the trap value is that target (log 59). -/
def execBne (rs1 rs2 : XReg) (offset : BitVec 13) (s : State) : Result :=
  withXRegs (.bne rs1 rs2 offset) [rs1, rs2] s fun s =>
    if s.readX rs1 = s.readX rs2 then .next (advance s)
    else
      let target := truncX s.cfg (s.pc + offset.signExtend 64)
      if target.toNat % 4 = 0 then .next { s with pc := target }
      else .next (takeException .instrAddressMisaligned target s)

/-- The effect of `csrrs` on a CSR it may access: `x[rd]` receives the old value; with `rs1` other than `x0` the bits of
`x[rs1]` are set (R284; log 50). -/
def csrSet (r : Csr) (rd rs1 : XReg) (s : State) : State :=
  let old := csrRead s r
  let t := if rs1 = 0#5 then s else csrWrite s r (old ||| s.readX rs1)
  advance (t.writeX rd old)

/-- `csrrs` (R284), for every CSR the spec describes (log 50). -/
def execCsrrs (rd : XReg) (csr : BitVec 12) (rs1 : XReg) (s : State) : Result :=
  withXRegs (.csrrs rd csr rs1) [rd, rs1] s fun s =>
    match csrOfNumber csr with
    | none => .refused .csrOutsideSpec
    | some r =>
      match csrAccess s r (!(rs1 == 0#5)) with
      | .granted => .next (csrSet (csrTarget s r) rd rs1 s)
      | .illegal => .next (illegal (encode (.csrrs rd csr rs1)) s)
      | .virtualInstruction =>
        .next (takeException .virtualInstruction (illegalTval s.cfg (encode (.csrrs rd csr rs1))) s)

end Sys2Proof.Machine
end

