-- ==== Sys2Proof/Machine/Numerics.lean ====
section
/-! DEFINITION. Number formats (43_matrix_arith.md R222), IEEE 754 multiplication and addition with the RISC-V conventions
(R219; log 30), the bulk dot product (R220; log 31) and the element functions `Acc` of R217, R219, R220, R224, R233. -/

namespace Sys2Proof.Machine

/-! ### Formats -/

/-- Exponent bits of a format (R222). -/
def fpExpBits : FpFormat → Nat
  | .fp16 => 5
  | .bf16 => 8
  | .fp32 => 8
  | .fp64 => 11
  | .e5m2 => 5
  | .e4m3 => 4
  | .fp4 => 2

/-- Fraction bits of a format (R222). -/
def fpFracBits : FpFormat → Nat
  | .fp16 => 10
  | .bf16 => 7
  | .fp32 => 23
  | .fp64 => 52
  | .e5m2 => 2
  | .e4m3 => 3
  | .fp4 => 1

/-- Exponent bias of a format (R222). -/
def fpBias : FpFormat → Nat
  | .fp16 => 15
  | .bf16 => 127
  | .fp32 => 127
  | .fp64 => 1023
  | .e5m2 => 15
  | .e4m3 => 7
  | .fp4 => 1

/-- What an encoding denotes: `finite neg m e` is (-1)^neg * m * 2^e. -/
inductive FpValue where
  | nan (signaling : Bool)
  | inf (neg : Bool)
  | finite (neg : Bool) (m : Nat) (e : Int)
  deriving DecidableEq, Repr

/-- The NaN or infinity that the exponent and fraction fields denote, if any (R222): E4M3 has the one NaN pattern and no
infinity, FP4 has neither. -/
def fpSpecial (f : FpFormat) (neg : Bool) (ex fr : Nat) : Option FpValue :=
  match f with
  | .fp4 => none
  | .e4m3 => if ex = 15 ∧ fr = 7 then some (.nan false) else none
  | _ =>
    if ex = 2 ^ fpExpBits f - 1 then
      if fr = 0 then some (.inf neg) else some (.nan (fr / 2 ^ (fpFracBits f - 1) == 0))
    else none

/-- The value of an encoding (R222). -/
def fpDecode (f : FpFormat) (bits : Nat) : FpValue :=
  let fr := bits % 2 ^ fpFracBits f
  let ex := bits / 2 ^ fpFracBits f % 2 ^ fpExpBits f
  let neg := bits / 2 ^ (fpFracBits f + fpExpBits f) % 2 == 1
  match fpSpecial f neg ex fr with
  | some v => v
  | none =>
    if ex = 0 then .finite neg fr (1 - (fpBias f : Int) - fpFracBits f)
    else .finite neg (2 ^ fpFracBits f + fr) ((ex : Int) - fpBias f - fpFracBits f)

/-- The sign bit at its place. -/
def fpSignBit (f : FpFormat) (neg : Bool) : Nat := if neg then 2 ^ (fpFracBits f + fpExpBits f) else 0

/-- The encoding of infinity without its sign. -/
def fpInfinity (f : FpFormat) : Nat := (2 ^ fpExpBits f - 1) * 2 ^ fpFracBits f

/-- The canonical quiet NaN (R219): 0x7FC00000 and 0x7FF8000000000000. -/
def fpCanonicalNan (f : FpFormat) : Nat := fpInfinity f + 2 ^ (fpFracBits f - 1)

/-! ### Rounding -/

/-- Whether a magnitude whose dropped part is `rem` of `2^d` rounds up, by the rounding mode (R28). -/
def roundsUp (rm : BitVec 3) (neg odd : Bool) (rem d : Nat) : Bool :=
  match rm with
  | 0#3 => decide (2 ^ d < 2 * rem) || (decide (2 * rem = 2 ^ d) && odd)
  | 1#3 => false
  | 2#3 => neg && !(rem == 0)
  | 3#3 => !neg && !(rem == 0)
  | _ => decide (2 ^ d ≤ 2 * rem)

/-- The result of an overflow: infinity, or the largest finite value, by the rounding mode and the sign (R219). -/
def overflowMagnitude (f : FpFormat) (rm : BitVec 3) (neg : Bool) : Nat :=
  match rm with
  | 1#3 => fpInfinity f - 1
  | 2#3 => if neg then fpInfinity f else fpInfinity f - 1
  | 3#3 => if neg then fpInfinity f - 1 else fpInfinity f
  | _ => fpInfinity f

/-- The exponent of the last place kept when `m * 2^e` with `m > 0` is rounded to the format. -/
def lastPlace (f : FpFormat) (m : Nat) (e : Int) : Int :=
  max (e + Nat.log2 m - fpFracBits f) (1 - (fpBias f : Int) - fpFracBits f)

/-- The magnitude of `m * 2^e`, `m > 0`, rounded to the format: the encoding without its sign, before the overflow test. -/
def roundMagnitude (f : FpFormat) (rm : BitVec 3) (neg : Bool) (m : Nat) (e : Int) : Nat :=
  let q := lastPlace f m e
  let d := (q - e).toNat
  let kept := m * 2 ^ (e - q).toNat / 2 ^ d
  let sig := if roundsUp rm neg (kept % 2 == 1) (m % 2 ^ d) d then kept + 1 else kept
  (q - (1 - (fpBias f : Int) - fpFracBits f)).toNat * 2 ^ fpFracBits f + sig

/-- `(-1)^neg * m * 2^e` rounded to the format, with OF when the rounded result exceeds the largest finite value (R219). -/
def fpRound (f : FpFormat) (rm : BitVec 3) (neg : Bool) (m : Nat) (e : Int) : Nat × BitVec 5 :=
  if m = 0 then (fpSignBit f neg, 0#5)
  else
    let r := roundMagnitude f rm neg m e
    if fpInfinity f ≤ r then (fpSignBit f neg + overflowMagnitude f rm neg, flagOf) else (fpSignBit f neg + r, 0#5)

/-- A NaN result and its flag: NV for an invalid operation (R219). -/
def fpNanResult (f : FpFormat) (invalid : Bool) : Nat × BitVec 5 := (fpCanonicalNan f, if invalid then flagNv else 0#5)

/-- The default `FMul_F`, IEEE 754-2008 multiplication (R219). -/
def fpMul (f : FpFormat) (rm : BitVec 3) (a b : Nat) : Nat × BitVec 5 :=
  match fpDecode f a, fpDecode f b with
  | .nan sa, .nan sb => fpNanResult f (sa || sb)
  | .nan sa, _ => fpNanResult f sa
  | _, .nan sb => fpNanResult f sb
  | .inf na, .inf nb => (fpSignBit f (na ^^ nb) + fpInfinity f, 0#5)
  | .inf na, .finite nb m _ => if m = 0 then fpNanResult f true else (fpSignBit f (na ^^ nb) + fpInfinity f, 0#5)
  | .finite na m _, .inf nb => if m = 0 then fpNanResult f true else (fpSignBit f (na ^^ nb) + fpInfinity f, 0#5)
  | .finite na ma ea, .finite nb mb eb => fpRound f rm (na ^^ nb) (ma * mb) (ea + eb)

/-- A signed magnitude as an integer multiple of `2^e0`, for `e0 <= e`. -/
def scaled (neg : Bool) (m : Nat) (e e0 : Int) : Int :=
  if neg then -((m * 2 ^ (e - e0).toNat : Nat) : Int) else ((m * 2 ^ (e - e0).toNat : Nat) : Int)

/-- The default `FAdd_F`, IEEE 754-2008 addition (R219). An exact zero sum of opposite signs is +0, or -0 when rounding down. -/
def fpAdd (f : FpFormat) (rm : BitVec 3) (a b : Nat) : Nat × BitVec 5 :=
  match fpDecode f a, fpDecode f b with
  | .nan sa, .nan sb => fpNanResult f (sa || sb)
  | .nan sa, _ => fpNanResult f sa
  | _, .nan sb => fpNanResult f sb
  | .inf na, .inf nb => if na = nb then (fpSignBit f na + fpInfinity f, 0#5) else fpNanResult f true
  | .inf na, .finite _ _ _ => (fpSignBit f na + fpInfinity f, 0#5)
  | .finite _ _ _, .inf nb => (fpSignBit f nb + fpInfinity f, 0#5)
  | .finite na ma ea, .finite nb mb eb =>
    let e0 := min ea eb
    let sum := scaled na ma ea e0 + scaled nb mb eb e0
    if sum = 0 then (fpSignBit f (if na = nb then na else rm == 2#3), 0#5)
    else fpRound f rm (decide (sum < 0)) sum.natAbs e0

/-- The bits of an encoding (R222). -/
def fpBits (f : FpFormat) : Nat := fpFracBits f + fpExpBits f + 1

/-- A free result as an encoding of the format. -/
def fpEncodingOf (f : FpFormat) (r : BitVec 64 × BitVec 5) : Nat × BitVec 5 := (r.1.toNat % 2 ^ fpBits f, r.2)

/-- The member `FMul_F` of the `NUMERICS` record (R10, R219; log 30). -/
def numericsMul (n : NumericsPolicy) (f : FpFormat) (rm : BitVec 3) (a b : Nat) : Nat × BitVec 5 :=
  match n with
  | .ieee => fpMul f rm a b
  | .unspecified => fpEncodingOf f (Config.fpMulChoice f rm a b)

/-- The member `FAdd_F` of the `NUMERICS` record (R10, R219; log 30). -/
def numericsAdd (n : NumericsPolicy) (f : FpFormat) (rm : BitVec 3) (a b : Nat) : Nat × BitVec 5 :=
  match n with
  | .ieee => fpAdd f rm a b
  | .unspecified => fpEncodingOf f (Config.fpAddChoice f rm a b)

/-! ### The bulk dot product -/

/-- The exact product of two encodings, as (negative, magnitude, exponent), when both are finite. -/
def exactProduct (fa fb : FpFormat) (p : BitVec 16 × BitVec 16) : Option (Bool × Nat × Int) :=
  match fpDecode fa p.1.toNat, fpDecode fb p.2.toNat with
  | .finite na ma ea, .finite nb mb eb => some (na ^^ nb, ma * mb, ea + eb)
  | _, _ => none

/-- Whether `m * 2^e` is a finite FP32 magnitude: nothing is rounded off and it does not overflow. -/
def exactInFp32 (m : Nat) (e : Int) : Bool :=
  m == 0 ||
    (m % 2 ^ (lastPlace .fp32 m e - e).toNat == 0
      && decide (roundMagnitude .fp32 1#3 false m e < fpInfinity .fp32))

/-- A lower bound of the exponents of a list of products. -/
def leastExponent (ps : List (Bool × Nat × Int)) : Int := ps.foldl (fun e p => min e p.2.2) 0

/-- The exact sum of products as a multiple of `2^leastExponent`. -/
def exactSum (ps : List (Bool × Nat × Int)) : Int :=
  (ps.map fun p => scaled p.1 p.2.1 p.2.2 (leastExponent ps)).sum

/-- The named hypothesis of R220: when every operand is finite, every product is exactly representable in binary32, and the
exact sum is nonzero and representable in binary32, `BulkDot` returns that sum with no flag. The source does not promise it. -/
def BulkDotExact : Prop :=
  ∀ (fa fb : FpFormat) (pairs : List (BitVec 16 × BitVec 16)) (ps : List (Bool × Nat × Int)),
    pairs.map (exactProduct fa fb) = ps.map some →
    (ps.all fun p => exactInFp32 p.2.1 p.2.2) = true →
    exactSum ps ≠ 0 →
    exactInFp32 (exactSum ps).natAbs (leastExponent ps) = true →
    Config.bulkDot fa fb pairs =
      (BitVec.ofNat 32 (fpRound .fp32 0#3 (decide (exactSum ps < 0)) (exactSum ps).natAbs (leastExponent ps)).1, 0#5)

/-! ### Element functions -/

/-- The arithmetic a matrix instruction performs on one accumulator element. -/
inductive Arith where
  /-- R233: integer products, each operand signed or not -/
  | int (signedA signedB : Bool)
  /-- R219: an unfused multiply then add in the format -/
  | ieee (f : FpFormat)
  /-- R220: `BulkDot` then one addition -/
  | bulk (fa fb : FpFormat)
  /-- R224: `BulkDot` over the pairs of FP4 fields -/
  | packed
  deriving DecidableEq, Repr

/-- Whether the arithmetic is floating point, which reads `frm` and writes `fflags` (R62, R218). -/
def Arith.isFloat : Arith → Bool
  | .int _ _ => false
  | .ieee _ => true
  | .bulk _ _ => true
  | .packed => true

/-- `sext_32` or `zext_32` of an 8-bit element (R233). -/
def extend8 (signed : Bool) (a : Nat) : BitVec 32 :=
  if signed then (BitVec.ofNat 8 a).signExtend 32 else (BitVec.ofNat 8 a).setWidth 32

/-- `Acc_int` (R233): modulo 2^32 (log 21). -/
def accInt (signedA signedB : Bool) (acc : Nat) (ab : List (Nat × Nat)) : Nat :=
  (ab.foldl (fun t p => t + extend8 signedA p.1 * extend8 signedB p.2) (BitVec.ofNat 32 acc)).toNat

/-- `Acc_ieee` (R219), where `tk` is 1. -/
def accIeee (n : NumericsPolicy) (f : FpFormat) (rm : BitVec 3) (acc : Nat) (ab : List (Nat × Nat)) : Nat × BitVec 5 :=
  match ab with
  | [] => (acc, 0#5)
  | p :: _ =>
    let m := numericsMul n f rm p.1 p.2
    let t := numericsAdd n f rm acc m.1
    (t.1, m.2 ||| t.2)

/-- `Acc_bulk` (R220). `BulkDot` does not read the rounding mode. -/
def accBulk (n : NumericsPolicy) (fa fb : FpFormat) (rm : BitVec 3) (acc : Nat) (ab : List (Nat × Nat)) :
    Nat × BitVec 5 :=
  let d := Config.bulkDot fa fb (ab.map fun p => (BitVec.ofNat 16 p.1, BitVec.ofNat 16 p.2))
  let t := numericsAdd n .fp32 rm acc d.1.toNat
  (t.1, d.2 ||| t.2)

/-- The two FP4 pairs of a pair of 8-bit elements: `lo` with `lo`, `hi` with `hi` (R224; log 56). -/
def fp4Pairs (p : Nat × Nat) : List (Nat × Nat) := [(p.1 % 16, p.2 % 16), (p.1 / 16 % 16, p.2 / 16 % 16)]

/-- The element function of `p2mm.f.f` (R224). FP4 has no NaN or infinity, so only the last addition sets a flag. -/
def accPacked (n : NumericsPolicy) (rm : BitVec 3) (acc : Nat) (ab : List (Nat × Nat)) : Nat × BitVec 5 :=
  let d := Config.bulkDot .fp4 .fp4 ((ab.flatMap fp4Pairs).map fun p => (BitVec.ofNat 16 p.1, BitVec.ofNat 16 p.2))
  numericsAdd n .fp32 rm acc d.1.toNat

/-- `Acc` (R217): the new accumulator and the flags, from the old one and the pairs `(a[k], b[k])`. -/
def accumulate (n : NumericsPolicy) (a : Arith) (rm : BitVec 3) (acc : Nat) (ab : List (Nat × Nat)) : Nat × BitVec 5 :=
  match a with
  | .int sa sb => (accInt sa sb acc ab, 0#5)
  | .ieee f => accIeee n f rm acc ab
  | .bulk fa fb => accBulk n fa fb rm acc ab
  | .packed => accPacked n rm acc ab

end Sys2Proof.Machine
end

