-- ==== Sys2Proof/Machine/MatrixArith.lean ====
section
/-! DEFINITION. The matrix arithmetic instructions (43_matrix_arith.md R210 to R233), and the tile body and tail that
`vtzero.t` shares with them (R216, R260). -/

namespace Sys2Proof.Machine

/-- The coordinates of all elements of a tile, row by row. -/
def tileCoords (e : Nat) : List (Nat × Nat) := (List.range e).flatMap fun r => (List.range e).map fun c => (r, c)

/-- Whether an element is in the body, the `tm` by `tn` submatrix (R216, R260). -/
def inBody (s : State) (tew : Nat) (p : Nat × Nat) : Bool := decide (p.1 < s.mtype.tm.toNat) && decide (p.2 < tn s tew)

/-- The writes of a whole tile: `body` gives a body element's new bytes, the rest is agnostic tail (R216, R260). -/
def tileWrites (s : State) (tew t : Nat) (body : Nat × Nat → List Byte) : List (Nat × List Byte) :=
  (tileCoords (ete s.cfg tew)).map fun p =>
    let o := punning s.cfg.te t p.1 p.2 tew
    if inBody s tew p then (o, body p)
    else agnosticWrite s s.ts o (tew / 8) (p.1 * ete s.cfg tew + p.2)

/-- What a matrix instruction computes with. -/
inductive MatrixForm where
  /-- `mm.f.f` -/
  | ieee
  /-- `p2mm.f.f` -/
  | packed
  /-- `mm.<a>.<b>` on OCP FP8 -/
  | fp8 (fa fb : FpFormat)
  /-- `mm.<a>.<b>` on INT8 -/
  | int8 (signedA signedB : Bool)
  deriving DecidableEq, Repr

/-- Whether a form is floating point (R214 checks 3 and 10). -/
def MatrixForm.isFloat : MatrixForm → Bool
  | .int8 _ _ => false
  | _ => true

/-- The arithmetic of a form under (SEW, TWIDEN, altfmt), where R213 defines it and its extension is present (log 20). -/
def matrixArith (c : Config) (f : MatrixForm) (sewBits twiden : Nat) (altfmt : Bool) : Option Arith :=
  match f with
  | .ieee =>
    if sewBits = 16 ∧ twiden = 2 ∧ c.ext.zvm32a16f then
      some (if altfmt then .bulk .bf16 .bf16 else .bulk .fp16 .fp16)
    else if sewBits = 32 ∧ twiden = 1 ∧ !altfmt ∧ c.ext.zvm32a32f then some (.ieee .fp32)
    else if sewBits = 64 ∧ twiden = 1 ∧ !altfmt ∧ c.ext.zvm64a64f then some (.ieee .fp64)
    else none
  | .packed => if sewBits = 8 ∧ twiden = 4 ∧ !altfmt ∧ c.ext.zvm32a4f then some .packed else none
  | .fp8 fa fb => if sewBits = 8 ∧ twiden = 4 ∧ !altfmt ∧ c.ext.zvm32a8f then some (.bulk fa fb) else none
  | .int8 a b => if sewBits = 8 ∧ twiden = 4 ∧ !altfmt ∧ c.ext.zvm32a8i then some (.int a b) else none

/-- The pairs `(A[k][i], B[k][j])` for `k` below `tk` (R210, R211). -/
def matrixPairs (s : State) (vs2 vs1 : VReg) (p : Nat × Nat) : List (Nat × Nat) :=
  (List.range s.mtype.tk.toNat).map fun k => (opnd s vs2 k p.1, opnd s vs1 k p.2)

/-- The new value and flags of body element `p` (R217). -/
def matrixElem (s : State) (a : Arith) (tew t : Nat) (vs2 vs1 : VReg) (p : Nat × Nat) : Nat × BitVec 5 :=
  accumulate s.cfg.numerics a s.frm (leValue (tileElem s tew t p.1 p.2)) (matrixPairs s vs2 vs1 p)

/-- The flags of all body elements, OR-ed (R217, R218). -/
def matrixFlags (s : State) (a : Arith) (tew t : Nat) (vs2 vs1 : VReg) : BitVec 5 :=
  ((tileCoords (ete s.cfg tew)).filter (inBody s tew)).foldl
    (fun fl p => fl ||| (matrixElem s a tew t vs2 vs1 p).2) 0#5

/-- The operation of R217 when no dimension is zero. -/
def matrixAccumulate (a : Arith) (tew t : Nat) (vs2 vs1 : VReg) (s : State) : State :=
  let ts := overlay s.ts (tileWrites s tew t fun p => leBytes (tew / 8) (matrixElem s a tew t vs2 vs1 p).1)
  let fl := if a.isFloat then orMatrixFlags s.fflags (matrixFlags s a tew t vs2 vs1) else s.fflags
  completeZvm (dirtyFs a.isFloat (dirtyMs true { s with ts := ts, fflags := fl }))

/-- A zero-size operation (R215): no state changes but `pc` and `vstart`, and VS and, in a floating-point form, FS may go
Dirty (log 42). -/
def zeroSize (float : Bool) (s : State) : State :=
  advance { dirtyFs (float && Config.zeroSizeDirtiesFs s.draws) (dirtyVs (Config.zeroSizeDirtiesVs s.draws) s) with
    vstart := 0 }

/-- Checks 1 to 5 of R214. -/
def matrixStateIllegal (s : State) (float : Bool) : Bool :=
  vsOff s || msOff s || (float && fsOff s) || s.vtype.vill || !(s.vstart == 0)

/-- Check 8 of R214. -/
def matrixTileIllegal (tew t : Nat) : Bool := !(t % tileStep tew == 0)

/-- Checks 9 and 10 of R214. -/
def matrixSourceIllegal (s : State) (float : Bool) (vs2 vs1 : VReg) : Bool :=
  !matrixSpecifierValid s.vtype vs2 || !matrixSpecifierValid s.vtype vs1 || (float && decide (5 ≤ s.frm.toNat))

/-- What check 7 of R214 can say with no TWIDEN: some row of R213 gives the form a meaning at this SEW and `altfmt`, and the row's
extension is present (R213, 93 I3; log 20). -/
def matrixFormPresent (s : State) (f : MatrixForm) : Bool :=
  [1, 2, 4].any fun twiden => (matrixArith s.cfg f (sew s.vtype) twiden s.vtype.altfmt).isSome

/-- A matrix instruction when the unit is not configured, by `MM_UNCONFIGURED`: illegal, or a no-op that no check which needs no
TWIDEN refuses (R214 check 6, R215; log 20). -/
def matrixUnconfigured (i : Instr) (f : MatrixForm) (vs2 vs1 : VReg) (s : State) : Result :=
  match s.cfg.mmUnconfigured with
  | .illegal => .next (illegal (encode i) s)
  | .nop =>
    if !matrixFormPresent s f || matrixSourceIllegal s f.isFloat vs2 vs1 then .next (illegal (encode i) s)
    else .next (zeroSize f.isFloat s)

/-- Whether a dimension is zero (R215). -/
def matrixIsEmpty (s : State) (tew : Nat) : Bool :=
  s.mtype.tm == 0#14 || tn s tew == 0 || s.mtype.tk == 0#3

/-- The common skeleton of the ten instructions: the checks of R214 in order, the zero-size case, the operation (R217;
log 20). -/
def matrixMultiply (i : Instr) (f : MatrixForm) (mtd : Tile) (vs2 vs1 : VReg) (s : State) : Result :=
  if matrixStateIllegal s f.isFloat then .next (illegal (encode i) s)
  else
    match twidenOf s.cfg s.mtype.mtwiden with
    | none => matrixUnconfigured i f vs2 vs1 s
    | some twiden =>
      match matrixArith s.cfg f (sew s.vtype) twiden s.vtype.altfmt with
      | none => .next (illegal (encode i) s)
      | some a =>
        let tew := sew s.vtype * twiden
        if matrixTileIllegal tew mtd.toNat || matrixSourceIllegal s f.isFloat vs2 vs1 then .next (illegal (encode i) s)
        else if matrixIsEmpty s tew then .next (zeroSize f.isFloat s)
        else .next (matrixAccumulate a tew mtd.toNat vs2 vs1 s)

/-- `mm.f.f` (R223). -/
def execMmFF (mtd : Tile) (vs2 vs1 : VReg) (s : State) : Result :=
  matrixMultiply (.mmFF mtd vs2 vs1) .ieee mtd vs2 vs1 s

/-- `p2mm.f.f` (R224). -/
def execP2mmFF (mtd : Tile) (vs2 vs1 : VReg) (s : State) : Result :=
  matrixMultiply (.p2mmFF mtd vs2 vs1) .packed mtd vs2 vs1 s

/-- `mm.e5m2.e5m2` (R225). -/
def execMmE5m2E5m2 (mtd : Tile) (vs2 vs1 : VReg) (s : State) : Result :=
  matrixMultiply (.mmE5m2E5m2 mtd vs2 vs1) (.fp8 .e5m2 .e5m2) mtd vs2 vs1 s

/-- `mm.e5m2.e4m3` (R226). -/
def execMmE5m2E4m3 (mtd : Tile) (vs2 vs1 : VReg) (s : State) : Result :=
  matrixMultiply (.mmE5m2E4m3 mtd vs2 vs1) (.fp8 .e5m2 .e4m3) mtd vs2 vs1 s

/-- `mm.e4m3.e5m2` (R227). -/
def execMmE4m3E5m2 (mtd : Tile) (vs2 vs1 : VReg) (s : State) : Result :=
  matrixMultiply (.mmE4m3E5m2 mtd vs2 vs1) (.fp8 .e4m3 .e5m2) mtd vs2 vs1 s

/-- `mm.e4m3.e4m3` (R228). -/
def execMmE4m3E4m3 (mtd : Tile) (vs2 vs1 : VReg) (s : State) : Result :=
  matrixMultiply (.mmE4m3E4m3 mtd vs2 vs1) (.fp8 .e4m3 .e4m3) mtd vs2 vs1 s

/-- `mm.u.u` (R229). -/
def execMmUU (mtd : Tile) (vs2 vs1 : VReg) (s : State) : Result :=
  matrixMultiply (.mmUU mtd vs2 vs1) (.int8 false false) mtd vs2 vs1 s

/-- `mm.s.u` (R230): A signed, B unsigned. -/
def execMmSU (mtd : Tile) (vs2 vs1 : VReg) (s : State) : Result :=
  matrixMultiply (.mmSU mtd vs2 vs1) (.int8 true false) mtd vs2 vs1 s

/-- `mm.u.s` (R231): A unsigned, B signed. -/
def execMmUS (mtd : Tile) (vs2 vs1 : VReg) (s : State) : Result :=
  matrixMultiply (.mmUS mtd vs2 vs1) (.int8 false true) mtd vs2 vs1 s

/-- `mm.s.s` (R232). -/
def execMmSS (mtd : Tile) (vs2 vs1 : VReg) (s : State) : Result :=
  matrixMultiply (.mmSS mtd vs2 vs1) (.int8 true true) mtd vs2 vs1 s

end Sys2Proof.Machine
end

