-- ==== Sys2Proof/Machine/TileContext.lean ====
section
/-! DEFINITION. `vtzero.t` and `vtdiscard` (44_tile_zero_context.md R260, R261). -/

namespace Sys2Proof.Machine

/-- Checks (1) to (4) of `vtzero.t` (R260). -/
def zeroIllegal (s : State) : Bool := vsOff s || msOff s || s.vtype.vill || !(s.vstart == 0)

/-- Whether `vtzero.t` writes any tile element: a body element, or a tail element its draw overwrites (R260). -/
def zeroWritten (s : State) (tew : Nat) : Bool :=
  (tileCoords (ete s.cfg tew)).any (inBody s tew)
    || (tileCoords (ete s.cfg tew)).any fun p => Config.agnosticOnes s.draws (p.1 * ete s.cfg tew + p.2)

/-- The operation of `vtzero.t` (R260). -/
def zeroTile (tew t : Nat) (s : State) : State :=
  let ts := overlay s.ts (tileWrites s tew t fun _ => List.replicate (tew / 8) 0#8)
  completeZvm (dirtyMs (zeroWritten s tew) { s with ts := ts })

/-- `vtzero.t` (R260). -/
def execVtzeroT (mtd : Tile) (s : State) : Result :=
  if zeroIllegal s then .next (illegal (encode (.vtzeroT mtd)) s)
  else
    match twidenOf s.cfg s.mtype.mtwiden with
    | none => .next (illegal (encode (.vtzeroT mtd)) s)
    | some twiden =>
      let tew := sew s.vtype * twiden
      if mtd.toNat % tileStep tew = 0 then .next (zeroTile tew mtd.toNat s)
      else .next (illegal (encode (.vtzeroT mtd)) s)

/-- Every byte of the tile state drawn anew (R261; log 44). -/
def discardedTiles (s : State) : List Byte :=
  (List.range s.ts.length).map (Config.discardedByte s.draws)

/-- `vtdiscard` (R261). -/
def execVtdiscard (s : State) : Result :=
  if vsOff s || msOff s || s.vtype.vill then .next (illegal (encode .vtdiscard) s)
  else .next (completeZvm (initialMs { s with ts := discardedTiles s }))

end Sys2Proof.Machine
end

