-- ==== Sys2Proof/Machine/TileMemory.lean ====
section
/-! DEFINITION. The tile loads and stores (41_tile_loadstore.md R165 to R180). -/

namespace Sys2Proof.Machine

/-- The address of element `i` (R72, R167). -/
def elemAddr (s : State) (rs1 : XReg) (w i : Nat) : Nat := addrX s.cfg (s.readX rs1).toNat (i * (w / 8))

/-- The lowest-indexed element whose access raises an exception: its index, the exception and the address reported (R74, R175,
R303c). -/
def firstException (s : State) (k : AccessKind) (rs1 : XReg) (w : Nat) : List Nat → Option (Nat × Exception × Nat)
  | [] => none
  | i :: is =>
    match accessException s k (elemAddr s rs1 w i) (w / 8) with
    | some f => some (i, f.1, f.2)
    | none => firstException s k rs1 w is

/-- The tile writes of loaded elements: each takes the memory at its address (R168). -/
def loadWrites (s : State) (u : Subset) (rs1 : XReg) (w : Nat) (is : List Nat) : List (Nat × List Byte) :=
  is.map fun i => (u.offset s.cfg w i, memReadBytes s.cfg s.mem (elemAddr s rs1 w i) (w / 8))

/-- `TileLoad(EEW)` without an exception (R168). With an empty body no tile element is written (R166, R171; log 17). -/
def loadComplete (u : Subset) (rs1 : XReg) (w : Nat) (s : State) : State :=
  let body := bodyIndices s w
  let writes := if body.isEmpty then [] else loadWrites s u rs1 w body ++ subsetTailWrites s u w
  completeZvm (dirtyMs (!body.isEmpty) { s with ts := overlay s.ts writes })

/-- The tile writes that a trapped load may have made at or above the faulting element, body and tail: the bytes are free
values when the draw says the tile was disturbed (R175; log 43). -/
def disturbedWrites (s : State) (u : Subset) (w i : Nat) : List (Nat × List Byte) :=
  (List.range' i (ete s.cfg w - i)).map fun j =>
    (u.offset s.cfg w j,
      (List.range (w / 8)).map fun k =>
        if Config.trapDisturbsTile s.draws then Config.trapTileByte s.draws (u.offset s.cfg w j + k)
        else readByte s.ts (u.offset s.cfg w j + k))

/-- `TileLoad(EEW)` trapped at element `i` (R175): the elements below it are loaded, `vstart` is `i`. -/
def loadTrapped (u : Subset) (rs1 : XReg) (w i : Nat) (e : Exception) (a : Nat) (s : State) : State :=
  let done := List.range' s.vstart (i - s.vstart)
  let ts := overlay s.ts (loadWrites s u rs1 w done ++ disturbedWrites s u w i)
  takeException e (BitVec.ofNat 64 a)
    (dirtyVs true (dirtyMs (!done.isEmpty || Config.trapDisturbsTile s.draws) { s with ts := ts, vstart := i }))

/-- The memory writes of stored elements (R169). -/
def storeWrites (s : State) (u : Subset) (rs1 : XReg) (w : Nat) (is : List Nat) : List (Nat × Byte) :=
  is.flatMap fun i => (byteAddrs s.cfg (elemAddr s rs1 w i) (w / 8)).zip (subsetElem s u w i)

/-- Memory and the record of unsynchronised stores (R84, log 34) after byte writes. -/
def applyStores (ws : List (Nat × Byte)) (s : State) : State :=
  { s with mem := memWrites s.mem ws, unsynced := ws.foldl (fun l p => insertAddr l p.1) s.unsynced }

/-- `TileStore(EEW)` without an exception (R169). -/
def storeComplete (u : Subset) (rs1 : XReg) (w : Nat) (s : State) : State :=
  completeZvm (applyStores (storeWrites s u rs1 w (bodyIndices s w)) s)

/-- Whether a trapped store had written byte `k` of body element `j`, at or above the faulting one (R175; log 43). An aligned
element is written whole or not at all (R77), a misaligned one byte by byte, where alignment and the map admit it. -/
def storedByTrap (s : State) (rs1 : XReg) (w j k : Nat) : Bool :=
  let a := elemAddr s rs1 w j
  let n := w / 8
  if a % n = 0 then (accessException s .store a n).isNone && Config.trapStoreDone s.draws (8 * j)
  else
    alignmentPolicy s.cfg a n == .support && byteVerdict s .store (addrX s.cfg a k) == .permitted
      && Config.trapStoreDone s.draws (8 * j + k)

/-- The memory writes that a trapped store had made of body element `j`. -/
def trappedStoreWrites (s : State) (u : Subset) (rs1 : XReg) (w j : Nat) : List (Nat × Byte) :=
  ((List.range (w / 8)).filter (storedByTrap s rs1 w j)).map fun k =>
    (addrX s.cfg (elemAddr s rs1 w j) k, readByte s.ts (u.offset s.cfg w j + k))

/-- `TileStore(EEW)` trapped at element `i` (R175): the elements below it are stored, `vstart` is `i`. -/
def storeTrapped (u : Subset) (rs1 : XReg) (w i : Nat) (e : Exception) (a : Nat) (s : State) : State :=
  let done := List.range' s.vstart (i - s.vstart)
  let rest := List.range' i (tn s w - i)
  takeException e (BitVec.ofNat 64 a)
    (dirtyVs true
      { applyStores (storeWrites s u rs1 w done ++ rest.flatMap (trappedStoreWrites s u rs1 w)) s with vstart := i })

/-- Checks (1) to (4) of R165, and the register fields of an E base (log 60). -/
def tileMemoryIllegal (s : State) (w : Nat) (rs1 rs2 : XReg) : Bool :=
  vsOff s || msOff s || s.vtype.vill || decide (s.cfg.elenBits < w) || !xregsExist s.cfg [rs1, rs2]

/-- The checks of R165, then the refusals of R71 and R78, then the transfer. -/
def withTileMemoryChecks (i : Instr) (k : AccessKind) (w : Nat) (rs1 rs2 : XReg) (s : State)
    (effect : Subset → State → State) : Result :=
  if tileMemoryIllegal s w rs1 rs2 then .next (illegal (encode i) s)
  else
    match tssDecode s.cfg (s.readX rs2) w with
    | .illegal => .next (illegal (encode i) s)
    | .refuse => .refused .reservedTss
    | .subset u =>
      if dataBigEndian s then .refused .bigEndianData
      else if (bodyIndices s w).any fun j => touchesNonIdempotent s k (elemAddr s rs1 w j) (w / 8) then
        .refused .nonIdempotentMemory
      else .next (effect u s)

/-- `TileLoad(EEW)` after its checks (R168, R175). -/
def tileLoad (rs1 : XReg) (w : Nat) (u : Subset) (s : State) : State :=
  match firstException s .load rs1 w (bodyIndices s w) with
  | none => loadComplete u rs1 w s
  | some f => loadTrapped u rs1 w f.1 f.2.1 f.2.2 s

/-- `TileStore(EEW)` after its checks (R169, R175). -/
def tileStore (rs1 : XReg) (w : Nat) (u : Subset) (s : State) : State :=
  match firstException s .store rs1 w (bodyIndices s w) with
  | none => storeComplete u rs1 w s
  | some f => storeTrapped u rs1 w f.1 f.2.1 f.2.2 s

/-- `vlte8` (R171). -/
def execVlte8 (rs1 rs2 : XReg) (s : State) : Result :=
  withTileMemoryChecks (.vlte8 rs1 rs2) .load 8 rs1 rs2 s (tileLoad rs1 8)

/-- `vlte16` (R172). -/
def execVlte16 (rs1 rs2 : XReg) (s : State) : Result :=
  withTileMemoryChecks (.vlte16 rs1 rs2) .load 16 rs1 rs2 s (tileLoad rs1 16)

/-- `vlte32` (R173). -/
def execVlte32 (rs1 rs2 : XReg) (s : State) : Result :=
  withTileMemoryChecks (.vlte32 rs1 rs2) .load 32 rs1 rs2 s (tileLoad rs1 32)

/-- `vlte64` (R174). -/
def execVlte64 (rs1 rs2 : XReg) (s : State) : Result :=
  withTileMemoryChecks (.vlte64 rs1 rs2) .load 64 rs1 rs2 s (tileLoad rs1 64)

/-- `vste8` (R177). -/
def execVste8 (rs1 rs2 : XReg) (s : State) : Result :=
  withTileMemoryChecks (.vste8 rs1 rs2) .store 8 rs1 rs2 s (tileStore rs1 8)

/-- `vste16` (R178). -/
def execVste16 (rs1 rs2 : XReg) (s : State) : Result :=
  withTileMemoryChecks (.vste16 rs1 rs2) .store 16 rs1 rs2 s (tileStore rs1 16)

/-- `vste32` (R179). -/
def execVste32 (rs1 rs2 : XReg) (s : State) : Result :=
  withTileMemoryChecks (.vste32 rs1 rs2) .store 32 rs1 rs2 s (tileStore rs1 32)

/-- `vste64` (R180). -/
def execVste64 (rs1 rs2 : XReg) (s : State) : Result :=
  withTileMemoryChecks (.vste64 rs1 rs2) .store 64 rs1 rs2 s (tileStore rs1 64)

end Sys2Proof.Machine
end

