-- ==== Sys2Proof/Machine/TileMove.lean ====
section
/-! DEFINITION. The moves between tile state and vector registers (42_tile_move.md R190 to R193). -/

namespace Sys2Proof.Machine

/-- Checks (1) to (4) of R190 for the vector operand `v`, and the register field of an E base (log 60). -/
def moveIllegal (s : State) (v : VReg) (rs1 : XReg) : Bool :=
  vsOff s || msOff s || s.vtype.vill || !groupAligned s.vtype v || !xregsExist s.cfg [rs1]

/-- The checks of R190, then the move. -/
def withMoveChecks (i : Instr) (v : VReg) (rs1 : XReg) (s : State) (effect : Subset → State → State) : Result :=
  if moveIllegal s v rs1 then .next (illegal (encode i) s)
  else
    match tssDecode s.cfg (s.readX rs1) (sew s.vtype) with
    | .illegal => .next (illegal (encode i) s)
    | .refuse => .refused .reservedTss
    | .subset u => .next (effect u s)

/-- The vector writes of the body of `vtmv.v.t` (R191). -/
def moveToVectorWrites (s : State) (u : Subset) (vd : VReg) : List (Nat × List Byte) :=
  let w := sew s.vtype
  (bodyIndices s w).map fun i => (velemOffset s.cfg vd.toNat i w, subsetElem s u w i)

/-- The tail of the vector destination (R191): elements `n` to VLMAX - 1 when `vta` is 1, and with a fractional LMUL the
elements of the register past VLMAX always (log 16). -/
def vectorTailIndices (s : State) : List Nat :=
  let n := tn s (sew s.vtype)
  let m := vlmax s.cfg s.vtype
  (if s.vtype.vta then List.range' n (m - n) else [])
    ++ (if lmulEighths s.vtype < 8 then List.range' m (eve s.cfg (sew s.vtype) - m) else [])

/-- The agnostic writes of the vector destination's tail (R191). -/
def vectorTailWrites (s : State) (vd : VReg) : List (Nat × List Byte) :=
  let w := sew s.vtype
  (vectorTailIndices s).map fun i => agnosticWrite s s.v (velemOffset s.cfg vd.toNat i w) (w / 8) i

/-- The effect of `vtmv.v.t` (R191). -/
def moveToVector (vd : VReg) (u : Subset) (s : State) : State :=
  completeZvm { s with v := overlay s.v (moveToVectorWrites s u vd ++ vectorTailWrites s vd) }

/-- The tile writes of the body of `vtmv.t.v` (R192). -/
def moveToTileWrites (s : State) (u : Subset) (vs2 : VReg) : List (Nat × List Byte) :=
  let w := sew s.vtype
  (bodyIndices s w).map fun i => (u.offset s.cfg w i, velem s vs2.toNat i w)

/-- The effect of `vtmv.t.v` (R192). -/
def moveToTile (vs2 : VReg) (u : Subset) (s : State) : State :=
  let w := sew s.vtype
  completeZvm (dirtyMs (subsetWritten s w)
    { s with ts := overlay s.ts (moveToTileWrites s u vs2 ++ subsetTailWrites s u w) })

/-- `vtmv.v.t` (R191). -/
def execVtmvVT (vd : VReg) (rs1 : XReg) (s : State) : Result :=
  withMoveChecks (.vtmvVT vd rs1) vd rs1 s (moveToVector vd)

/-- `vtmv.t.v` (R192). -/
def execVtmvTV (rs1 : XReg) (vs2 : VReg) (s : State) : Result :=
  withMoveChecks (.vtmvTV rs1 vs2) vs2 rs1 s (moveToTile vs2)

end Sys2Proof.Machine
end

