-- ==== Sys2Proof/Machine/Dispatch.lean ====
section
/-! DEFINITION. The meaning of every instruction: one arm per constructor of Instr. -/

namespace Sys2Proof.Machine

def exec (i : Instr) (s : State) : Host.Outcome State Fault Refusal :=
  match i with
  | .vsetvli rd rs1 zimm => Sys2Proof.Machine.execVsetvli rd rs1 zimm s
  | .vsetivli rd uimm zimm => Sys2Proof.Machine.execVsetivli rd uimm zimm s
  | .vsetvl rd rs1 rs2 => Sys2Proof.Machine.execVsetvl rd rs1 rs2 s
  | .msetmtype rs1 rs2 => Sys2Proof.Machine.execMsetmtype rs1 rs2 s
  | .msetmtypei mtypei vsewi => Sys2Proof.Machine.execMsetmtypei mtypei vsewi s
  | .msettn rd rs1 => Sys2Proof.Machine.execMsettn rd rs1 s
  | .msettm rd rs1 => Sys2Proof.Machine.execMsettm rd rs1 s
  | .msettk rd rs1 => Sys2Proof.Machine.execMsettk rd rs1 s
  | .vlte8 rs1 rs2 => Sys2Proof.Machine.execVlte8 rs1 rs2 s
  | .vlte16 rs1 rs2 => Sys2Proof.Machine.execVlte16 rs1 rs2 s
  | .vlte32 rs1 rs2 => Sys2Proof.Machine.execVlte32 rs1 rs2 s
  | .vlte64 rs1 rs2 => Sys2Proof.Machine.execVlte64 rs1 rs2 s
  | .vste8 rs1 rs2 => Sys2Proof.Machine.execVste8 rs1 rs2 s
  | .vste16 rs1 rs2 => Sys2Proof.Machine.execVste16 rs1 rs2 s
  | .vste32 rs1 rs2 => Sys2Proof.Machine.execVste32 rs1 rs2 s
  | .vste64 rs1 rs2 => Sys2Proof.Machine.execVste64 rs1 rs2 s
  | .vtmvVT vd rs1 => Sys2Proof.Machine.execVtmvVT vd rs1 s
  | .vtmvTV rs1 vs2 => Sys2Proof.Machine.execVtmvTV rs1 vs2 s
  | .vtzeroT mtd => Sys2Proof.Machine.execVtzeroT mtd s
  | .vtdiscard => Sys2Proof.Machine.execVtdiscard s
  | .mmFF mtd vs2 vs1 => Sys2Proof.Machine.execMmFF mtd vs2 vs1 s
  | .p2mmFF mtd vs2 vs1 => Sys2Proof.Machine.execP2mmFF mtd vs2 vs1 s
  | .mmE5m2E5m2 mtd vs2 vs1 => Sys2Proof.Machine.execMmE5m2E5m2 mtd vs2 vs1 s
  | .mmE5m2E4m3 mtd vs2 vs1 => Sys2Proof.Machine.execMmE5m2E4m3 mtd vs2 vs1 s
  | .mmE4m3E5m2 mtd vs2 vs1 => Sys2Proof.Machine.execMmE4m3E5m2 mtd vs2 vs1 s
  | .mmE4m3E4m3 mtd vs2 vs1 => Sys2Proof.Machine.execMmE4m3E4m3 mtd vs2 vs1 s
  | .mmUU mtd vs2 vs1 => Sys2Proof.Machine.execMmUU mtd vs2 vs1 s
  | .mmSU mtd vs2 vs1 => Sys2Proof.Machine.execMmSU mtd vs2 vs1 s
  | .mmUS mtd vs2 vs1 => Sys2Proof.Machine.execMmUS mtd vs2 vs1 s
  | .mmSS mtd vs2 vs1 => Sys2Proof.Machine.execMmSS mtd vs2 vs1 s
  | .addi rd rs1 imm => Sys2Proof.Machine.execAddi rd rs1 imm s
  | .slli rd rs1 shamt => Sys2Proof.Machine.execSlli rd rs1 shamt s
  | .add rd rs1 rs2 => Sys2Proof.Machine.execAdd rd rs1 rs2 s
  | .bne rs1 rs2 offset => Sys2Proof.Machine.execBne rs1 rs2 offset s
  | .csrrs rd csr rs1 => Sys2Proof.Machine.execCsrrs rd csr rs1 s

end Sys2Proof.Machine
end

