-- ==== Sys2Proof/Machine/Step.lean ====
section
/-! DEFINITION. One step of the machine: an interrupt, or fetch, decode and run, and the end of the step. -/

namespace Sys2Proof.Machine

/-- What follows `exec` in a step: the end of the step on a next state (R60; log 6, log 41). -/
def finishStep : Host.Outcome State Fault Refusal → Host.Outcome State Fault Refusal
  | .next s => .next (endStep s)
  | .fault r => .fault r
  | .refused r => .refused r

/-- Run what a fetched word decodes to: an instruction, a trap return (R306), an illegal-instruction exception for a reserved
encoding (R109), a refusal of a word outside the subset (R285). -/
def execWord (w : InstrWord) (s : State) : Host.Outcome State Fault Refusal :=
  match decode w with
  | .instr i => exec i s
  | .reservedEncoding => .next (illegal w s)
  | .machineReturn => .next (machineReturn w s)
  | .supervisorReturn => .next (supervisorReturn w s)
  | .outsideSubset => .refused .outsideSubset
  | .tooShort => .refused .outsideSubset

/-- Fetch the instruction at `pc` and run it. -/
def fetchAndExec (s : State) : Host.Outcome State Fault Refusal :=
  match fetch s with
  | .word w => execWord w s
  | .exception e a => .next (takeException e (BitVec.ofNat 64 a) s)
  | .refused r => .refused r

/-- One step: a pending and enabled interrupt is taken before the next instruction (R303e, R307; log 52). -/
def step (s : State) : Host.Outcome State Fault Refusal :=
  if s.cfg.wf then
    match pendingInterrupt s with
    | some code => finishStep (.next (takeInterrupt code s))
    | none => finishStep (fetchAndExec s)
  else .fault .unsupportedConfiguration

/-- The instruction whose table bits are `w` stored at `pc`, its bytes free to be fetched (log 58). -/
def State.withFetchWord (s : State) (nbits w : Nat) : State :=
  let ws := (byteAddrs s.cfg s.pc.toNat 4).zip (bytesOfWord (tableWord nbits w))
  { s with mem := memWrites s.mem ws, unsynced := ws.foldl (fun l p => removeAddr l p.1) s.unsynced }

end Sys2Proof.Machine
end

