-- ==== Sys2Proof/Safety.lean ====
section
/-! DEFINITION. What counts as a safe run, in the terms that claims use: the invariant of every state, the end of a completing
Zvm instruction, and who may run the tile instructions. -/

namespace Sys2Proof.Machine

/-! ### The invariant -/

/-- The configuration state is one that the configuration instructions can leave (R24, R25, R43, R44, R53). -/
structure ConfigInv (s : State) : Prop where
  /-- `vsew` names a supported width (R133) -/
  vsew : sew s.vtype ≤ s.cfg.elenBits
  /-- the reserved `vlmul` code is never stored (R133) -/
  vlmul : s.vtype.vlmul ≠ 0b100#3
  /-- R24 -/
  vl : s.vl ≤ vlmax s.cfg s.vtype
  /-- R44: an unconfigured unit has `tm` = `tk` = 0 -/
  unconfigured : s.mtype.mtwiden = 0#2 → s.mtype.tm = 0#14 ∧ s.mtype.tk = 0#3
  /-- what R135 leaves when the unit is configured, kept by R138 to R140 -/
  configured : ∀ w, twidenOf s.cfg s.mtype.mtwiden = some w →
    s.vtype.vlmul = BitVec.ofNat 3 (Nat.log2 (matrixLmul s.cfg (sew s.vtype) w))
      ∧ s.vtype.vma = true ∧ s.vtype.vta = true
      ∧ (s.vtype.vill = false → sew s.vtype * w ≤ s.cfg.elenBits)
      ∧ s.mtype.tk.toNat ≤ kmax (sew s.vtype)
      ∧ s.mtype.tm.toNat ≤ min (vlmax s.cfg s.vtype) (ete s.cfg (sew s.vtype * w))
      ∧ s.vl ≤ ete s.cfg (sew s.vtype * w)

/-- The registers of XLEN bits hold XLEN bits (R11, R21, R22, R305). -/
structure WidthInv (s : State) : Prop where
  x : ∀ r : Fin 32, s.x[r].toNat < 2 ^ s.cfg.xlenBits
  pc : s.pc.toNat < 2 ^ s.cfg.xlenBits
  mepc : s.mepc.toNat < 2 ^ s.cfg.xlenBits
  mcause : s.mcause.toNat < 2 ^ s.cfg.xlenBits
  mtval : s.mtval.toNat < 2 ^ s.cfg.xlenBits
  mtvec : s.mtvec.toNat < 2 ^ s.cfg.xlenBits
  sepc : s.sepc.toNat < 2 ^ s.cfg.xlenBits
  scause : s.scause.toNat < 2 ^ s.cfg.xlenBits
  stval : s.stval.toNat < 2 ^ s.cfg.xlenBits
  stvec : s.stvec.toNat < 2 ^ s.cfg.xlenBits
  vsepc : s.vsepc.toNat < 2 ^ s.cfg.xlenBits
  vscause : s.vscause.toNat < 2 ^ s.cfg.xlenBits
  vstval : s.vstval.toNat < 2 ^ s.cfg.xlenBits
  vstvec : s.vstvec.toNat < 2 ^ s.cfg.xlenBits

/-- The mode is one the hart has (R31, R57, R309). -/
structure ModeInv (s : State) : Prop where
  /-- without the hypervisor extension V is always 0 (R57) -/
  virt : s.virt = true → s.cfg.hasH = true ∧ s.priv ≠ .machine
  /-- without supervisor mode the hart is never in it -/
  supervisor : s.priv = .supervisor → s.cfg.hasS = true
  /-- and no return goes there (R306) -/
  mpp : s.mstatus.mpp = .supervisor → s.cfg.hasS = true

/-- The saved `pc`s are instruction addresses (R22, R305). -/
structure SavedPcInv (s : State) : Prop where
  mepc : s.mepc.toNat % 4 = 0
  sepc : s.sepc.toNat % 4 = 0
  vsepc : s.vsepc.toNat % 4 = 0

/-- What every state that the machine reaches satisfies. -/
structure State.Inv (s : State) : Prop where
  /-- the parameters are ones R8 and R9 allow -/
  cfg : s.cfg.wf = true
  /-- R22 -/
  pcAligned : s.pc.toNat % 4 = 0
  /-- R23: 32 registers of VLEN bits -/
  vLength : s.v.length = 32 * s.cfg.vlenb
  /-- R32: 16*TE*TE bytes -/
  tsLength : s.ts.length = s.cfg.tileBytes
  /-- R26: an element index is below VLEN -/
  vstart : s.vstart < s.cfg.vlen
  /-- memory has its canonical form -/
  mem : Memory.wf s.mem = true
  /-- the record of stored addresses has its canonical form -/
  unsynced : risingFrom 0 s.unsynced = true
  config : ConfigInv s
  width : WidthInv s
  mode : ModeInv s
  savedPc : SavedPcInv s

/-! ### Outcomes -/

/-- An outcome is a next state. -/
def Completes (o : Result) : Prop := ∃ t, o = .next t

/-- `n` steps from `s` meet no fault and no refusal. -/
def SafeRun : Nat → State → Prop
  | 0, _ => True
  | n + 1, s => ∃ t, step s = .next t ∧ SafeRun n t

/-! ### What a completing instruction leaves -/

/-- `pc` is 4 higher modulo 2^XLEN (R22). -/
def PcAdvanced (s t : State) : Prop := t.pc.toNat = (s.pc.toNat + 4) % 2 ^ s.cfg.xlenBits

/-- Integer register `rd` received `v` and no other changed; with `rd` = `x0` none did (R12, R21). -/
def WroteX (s t : State) (rd : XReg) (v : Nat) : Prop :=
  ∀ r : XReg, (t.readX r).toNat = if r = rd ∧ r ≠ 0#5 then v else (s.readX r).toNat

/-- The end of a completing Zvm instruction: `SetVSDirty()`, `vstart <- 0`, `pc <- pc + 4` (R13, R26, R61). -/
structure ZvmEnd (s t : State) : Prop where
  pc : PcAdvanced s t
  vstart : t.vstart = 0
  vs : t.mstatus.vs = .on .dirty
  guestVs : t.vsstatus.vs = if s.virt then .on .dirty else s.vsstatus.vs

/-- `s` with the parts that the end of a Zvm instruction writes taken from `t`. -/
def State.endFrom (s t : State) : State :=
  { s with
    pc := t.pc
    vstart := t.vstart
    mstatus := { s.mstatus with vs := t.mstatus.vs }
    vsstatus := { s.vsstatus with vs := t.vsstatus.vs } }

/-- `endFrom` with the `MS` fields taken from `t` too. -/
def State.endFromMs (s t : State) : State :=
  { s with
    pc := t.pc
    vstart := t.vstart
    mstatus := { s.mstatus with vs := t.mstatus.vs, ms := t.mstatus.ms }
    vsstatus := { s.vsstatus with vs := t.vsstatus.vs, ms := t.vsstatus.ms } }

/-- `endFromMs` with the `FS` fields taken from `t` too. -/
def State.endFromFs (s t : State) : State :=
  { s with
    pc := t.pc
    vstart := t.vstart
    mstatus := { s.mstatus with vs := t.mstatus.vs, ms := t.mstatus.ms, fs := t.mstatus.fs }
    vsstatus := { s.vsstatus with vs := t.vsstatus.vs, ms := t.vsstatus.ms, fs := t.vsstatus.fs } }

/-- `SetMSDirty()` happened (R60). -/
structure MsDirtied (s t : State) : Prop where
  ms : t.mstatus.ms = .on .dirty
  guestMs : t.vsstatus.ms = if s.virt then .on .dirty else s.vsstatus.ms

/-- `SetFSDirty()` happened (R62). -/
structure FsDirtied (s t : State) : Prop where
  fs : t.mstatus.fs = .on .dirty
  guestFs : t.vsstatus.fs = if s.virt then .on .dirty else s.vsstatus.fs

/-- The MS fields did not change. -/
def MsKept (s t : State) : Prop := t.mstatus.ms = s.mstatus.ms ∧ t.vsstatus.ms = s.vsstatus.ms

/-- The FS fields did not change. -/
def FsKept (s t : State) : Prop := t.mstatus.fs = s.mstatus.fs ∧ t.vsstatus.fs = s.vsstatus.fs

/-- The VS fields did not change. -/
def VsKept (s t : State) : Prop := t.mstatus.vs = s.mstatus.vs ∧ t.vsstatus.vs = s.vsstatus.vs

/-- `SetVSDirty()` happened (R61). -/
structure VsDirtied (s t : State) : Prop where
  vs : t.mstatus.vs = .on .dirty
  guestVs : t.vsstatus.vs = if s.virt then .on .dirty else s.vsstatus.vs

/-- An operation that may write tile elements wrote none and left MS alone, or did `SetMSDirty()` (R60). -/
def MsFollowsTile (s t : State) : Prop := MsKept s t ∧ (∀ o, readByte t.ts o = readByte s.ts o) ∨ MsDirtied s t

/-- A read of a status register: VS in bits 10:9, FS in 14:13, MS in 30:29, and SD in bit XLEN-1, which is 1 exactly when one of
FS, VS, XS and MS is Dirty (R30, R55, R58). -/
structure StatusRead (c : Config) (w : Word) (fieldVs fieldFs fieldXs fieldMs : ContextStatus) : Prop where
  vs : w.extractLsb' 9 2 = fieldVs.code
  fs : w.extractLsb' 13 2 = fieldFs.code
  ms : w.extractLsb' 29 2 = fieldMs.code
  sd : w.getLsbD (c.xlenBits - 1) = true ↔ ContextStatus.on .dirty ∈ [fieldFs, fieldVs, fieldXs, fieldMs]

/-- An agnostic element keeps its bytes or becomes all ones (R14, R170, R216). -/
def AgnosticFrom (old new : List Byte) : Prop := new = old ∨ new = List.replicate old.length 0xFF#8

/-- Byte `o` of the tile state lies in element `(r, col)` of tile `t` at width `w` (R36, R38). -/
def InElement (c : Config) (w t r col o : Nat) : Prop :=
  punning c.te t r col w ≤ o ∧ o < punning c.te t r col w + w / 8

/-- A tile specifier, row and column that exist at a width (R33, R34). -/
def ValidElement (c : Config) (w t r col : Nat) : Prop :=
  t < 16 ∧ t % tileStep w = 0 ∧ r < ete c w ∧ col < ete c w

/-! ### What a tile instruction leaves in the tile state -/

/-- The result of a move of a row or column into the tile state (R166, R168, R170, R192): body elements from `vstart` receive
`value`, tail elements are agnostic, every byte of no such element is unchanged. -/
structure SubsetResult (s t : State) (u : Subset) (w : Nat) (value : Nat → List Byte) : Prop where
  body : ∀ i, s.vstart ≤ i → i < tn s w → subsetElem t u w i = value i
  tail : ∀ i, tn s w ≤ i → i < ete s.cfg w → AgnosticFrom (subsetElem s u w i) (subsetElem t u w i)
  rest : ∀ o, (∀ i, i < ete s.cfg w → s.vstart ≤ i ∨ tn s w ≤ i →
    ¬ InElement s.cfg w u.tile (u.coord i).1 (u.coord i).2 o) → readByte t.ts o = readByte s.ts o
  length : t.ts.length = s.ts.length

/-- The result of an operation on a whole tile (R216, R217, R260): the `tm` by `tn` body receives `value`, the tail is agnostic,
every byte of no element of the tile is unchanged. -/
structure TileResult (s t : State) (tew tile : Nat) (value : Nat → Nat → Nat) : Prop where
  body : ∀ r c, r < s.mtype.tm.toNat → c < tn s tew → leValue (tileElem t tew tile r c) = value r c
  tail : ∀ r c, r < ete s.cfg tew → c < ete s.cfg tew → s.mtype.tm.toNat ≤ r ∨ tn s tew ≤ c →
    AgnosticFrom (tileElem s tew tile r c) (tileElem t tew tile r c)
  rest : ∀ o, (∀ r c, r < ete s.cfg tew → c < ete s.cfg tew → ¬ InElement s.cfg tew tile r c o) →
    readByte t.ts o = readByte s.ts o
  length : t.ts.length = s.ts.length

/-- The flags after a floating-point matrix operation (R217, R218): NV (bit 4) and OF (bit 2) are OR-ed over the body elements,
the others keep their values. -/
def FlagsResult (s t : State) (tew : Nat) (flags : Nat → Nat → BitVec 5) : Prop :=
  ∀ j, t.fflags.getLsbD j = true ↔
    s.fflags.getLsbD j = true
      ∨ (j = 4 ∨ j = 2) ∧ ∃ r c, r < s.mtype.tm.toNat ∧ c < tn s tew ∧ (flags r c).getLsbD j = true

/-- The rows of R213: the (SEW, TWIDEN, `altfmt`) under which a form has a meaning, where its extension is present. -/
def DefinedCombination (c : Config) (f : MatrixForm) (w twiden : Nat) (altfmt : Bool) : Prop :=
  match f with
  | .ieee =>
    (w = 16 ∧ twiden = 2 ∧ c.ext.zvm32a16f = true)
      ∨ (w = 32 ∧ twiden = 1 ∧ altfmt = false ∧ c.ext.zvm32a32f = true)
      ∨ (w = 64 ∧ twiden = 1 ∧ altfmt = false ∧ c.ext.zvm64a64f = true)
  | .packed => w = 8 ∧ twiden = 4 ∧ altfmt = false ∧ c.ext.zvm32a4f = true
  | .fp8 _ _ => w = 8 ∧ twiden = 4 ∧ altfmt = false ∧ c.ext.zvm32a8f = true
  | .int8 _ _ => w = 8 ∧ twiden = 4 ∧ altfmt = false ∧ c.ext.zvm32a8i = true

/-- A matrix operand's specifier is one that R212 allows. -/
def SpecifierAllowed (s : State) (vs : VReg) : Prop :=
  vs.toNat % lmulRegs s.vtype = 0 ∧ vs.toNat % 8 < 8 / kmax (sew s.vtype)

/-- The ten matrix instructions on the same operands, each with its form (R210). -/
def matrixInstrs (mtd : Tile) (vs2 vs1 : VReg) : List (Instr × MatrixForm) :=
  [(.mmFF mtd vs2 vs1, .ieee), (.p2mmFF mtd vs2 vs1, .packed),
    (.mmE5m2E5m2 mtd vs2 vs1, .fp8 .e5m2 .e5m2), (.mmE5m2E4m3 mtd vs2 vs1, .fp8 .e5m2 .e4m3),
    (.mmE4m3E5m2 mtd vs2 vs1, .fp8 .e4m3 .e5m2), (.mmE4m3E4m3 mtd vs2 vs1, .fp8 .e4m3 .e4m3),
    (.mmUU mtd vs2 vs1, .int8 false false), (.mmSU mtd vs2 vs1, .int8 true false),
    (.mmUS mtd vs2 vs1, .int8 false true), (.mmSS mtd vs2 vs1, .int8 true true)]

/-- Checks 1 to 5, 9 and 10 of R214 pass: those that need no tile element width. -/
structure MatrixSourcesPass (s : State) (float : Bool) (vs2 vs1 : VReg) : Prop where
  vs : vsOff s = false
  ms : msOff s = false
  fs : float = true → fsOff s = false
  vill : s.vtype.vill = false
  vstart : s.vstart = 0
  a : SpecifierAllowed s vs2
  b : SpecifierAllowed s vs1
  frm : float = true → s.frm.toNat < 5

/-- Checks 1 to 5, 8, 9 and 10 of R214 pass for a form at a tile element width. -/
structure MatrixChecksPass (s : State) (float : Bool) (tew : Nat) (mtd : Tile) (vs2 vs1 : VReg) : Prop
    extends MatrixSourcesPass s float vs2 vs1 where
  tile : mtd.toNat % tileStep tew = 0

/-- No dimension of the operation is zero (R215). -/
structure NotEmpty (s : State) (tew : Nat) : Prop where
  tm : s.mtype.tm ≠ 0#14
  tn : tn s tew ≠ 0
  tk : s.mtype.tk ≠ 0#3

/-- An 8-bit element as an integer, signed or not (R233). -/
def int8 (signed : Bool) (n : Nat) : Int := if signed then (BitVec.ofNat 8 n).toInt else (n : Int)

/-- The pairs `(A[k][i], B[k][j])` as `BulkDot` takes them (R220). -/
def bulkPairs (s : State) (vs2 vs1 : VReg) (i j : Nat) : List (BitVec 16 × BitVec 16) :=
  (List.range s.mtype.tk.toNat).map fun k => (BitVec.ofNat 16 (opnd s vs2 k i), BitVec.ofNat 16 (opnd s vs1 k j))

/-- The FP4 pairs of `p2mm.f.f`: the low fields with each other, then the high fields, for each `k` (R224). -/
def packedPairs (s : State) (vs2 vs1 : VReg) (i j : Nat) : List (BitVec 16 × BitVec 16) :=
  (List.range s.mtype.tk.toNat).flatMap fun k =>
    [(BitVec.ofNat 16 (opnd s vs2 k i % 16), BitVec.ofNat 16 (opnd s vs1 k j % 16)),
      (BitVec.ofNat 16 (opnd s vs2 k i / 16 % 16), BitVec.ofNat 16 (opnd s vs1 k j / 16 % 16))]

/-! ### Rounding -/

/-- The magnitude that an encoding without its sign denotes, its exponent continued past the largest finite one (R222). -/
def fpMagnitude (f : FpFormat) (k : Nat) : ℚ :=
  if k < 2 ^ fpFracBits f then (k : ℚ) * 2 ^ (1 - (fpBias f : ℤ) - fpFracBits f)
  else ((2 ^ fpFracBits f + k % 2 ^ fpFracBits f : Nat) : ℚ)
    * 2 ^ (((k / 2 ^ fpFracBits f : Nat) : ℤ) - fpBias f - fpFracBits f)

/-- `k` is the greatest encoding whose magnitude is at most `x`. -/
def RoundsDown (f : FpFormat) (x : ℚ) (k : Nat) : Prop := fpMagnitude f k ≤ x ∧ ∀ j, fpMagnitude f j ≤ x → j ≤ k

/-- `k` is the least encoding whose magnitude is at least `x`. -/
def RoundsUp (f : FpFormat) (x : ℚ) (k : Nat) : Prop := x ≤ fpMagnitude f k ∧ ∀ j, x ≤ fpMagnitude f j → k ≤ j

/-- `k` is an encoding whose magnitude is nearest to `x`. -/
def Nearest (f : FpFormat) (x : ℚ) (k : Nat) : Prop := ∀ j, |x - fpMagnitude f k| ≤ |x - fpMagnitude f j|

/-- `k` is the magnitude `x` of a number of sign `neg`, correctly rounded in a rounding mode, with no bound on the exponent
(R28, R219). -/
def RoundsTo (f : FpFormat) (rm : Nat) (neg : Bool) (x : ℚ) (k : Nat) : Prop :=
  match rm with
  | 0 => Nearest f x k ∧ ∀ j, Nearest f x j → j ≠ k → k % 2 = 0
  | 1 => RoundsDown f x k
  | 2 => if neg then RoundsUp f x k else RoundsDown f x k
  | 3 => if neg then RoundsDown f x k else RoundsUp f x k
  | _ => Nearest f x k ∧ ∀ j, Nearest f x j → j ≤ k

/-- The result and flags of a magnitude rounded to `k`: OF, and infinity or the largest finite value by the rounding mode and the
sign, when `k` lies above the largest finite encoding (R219). -/
def roundedResult (f : FpFormat) (rm : Nat) (neg : Bool) (k : Nat) : Nat × BitVec 5 :=
  if k < fpInfinity f then (fpSignBit f neg + k, 0#5)
  else if rm = 1 ∨ rm = 2 ∧ neg = false ∨ rm = 3 ∧ neg = true then (fpSignBit f neg + (fpInfinity f - 1), 0b00100#5)
  else (fpSignBit f neg + fpInfinity f, 0b00100#5)

/-- The number that a finite encoding denotes. -/
def signedValue (neg : Bool) (m : Nat) (e : ℤ) : ℚ := (if neg then -1 else 1) * (m * 2 ^ e)

/-! ### Tile loads and stores -/

/-- The tile loads on the same operands, each with its width (R171 to R174). -/
def tileLoads (rs1 rs2 : XReg) : List (Instr × Nat) :=
  [(.vlte8 rs1 rs2, 8), (.vlte16 rs1 rs2, 16), (.vlte32 rs1 rs2, 32), (.vlte64 rs1 rs2, 64)]

/-- The tile stores on the same operands, each with its width (R177 to R180). -/
def tileStores (rs1 rs2 : XReg) : List (Instr × Nat) :=
  [(.vste8 rs1 rs2, 8), (.vste16 rs1 rs2, 16), (.vste32 rs1 rs2, 32), (.vste64 rs1 rs2, 64)]

/-- The checks of R165 pass, the TSS names the subset `u`, data accesses are little-endian (R71), and no body element lies in
memory with side effects (R78). -/
structure TileAccessReady (s : State) (k : AccessKind) (rs1 rs2 : XReg) (w : Nat) (u : Subset) : Prop where
  vs : vsOff s = false
  ms : msOff s = false
  vill : s.vtype.vill = false
  width : w ≤ s.cfg.elenBits
  regs : xregsExist s.cfg [rs1, rs2] = true
  tss : tssDecode s.cfg (s.readX rs2) w = .subset u
  endian : dataBigEndian s = false
  idempotent : ∀ i, s.vstart ≤ i → i < tn s w → touchesNonIdempotent s k (elemAddr s rs1 w i) (w / 8) = false

/-- Memory address `a` is byte `k` of body element `i` (R72). -/
def IsElementByte (s : State) (rs1 : XReg) (w i k a : Nat) : Prop :=
  k < w / 8 ∧ a = ((s.readX rs1).toNat + i * (w / 8) + k) % 2 ^ s.cfg.xlenBits

/-- An outcome with its next state changed. -/
def mapNext (f : State → State) : Result → Result
  | .next t => .next (f t)
  | .fault r => .fault r
  | .refused r => .refused r

end Sys2Proof.Machine

namespace Sys2Proof

/-! ### Families of instructions -/

/-- The tile instructions of R59: those that access the tile state, and `vtdiscard`, which has the same check (R261). -/
def Instr.usesTiles : Instr → Bool
  | .vsetvli _ _ _ => false
  | .vsetivli _ _ _ => false
  | .vsetvl _ _ _ => false
  | .msetmtype _ _ => false
  | .msetmtypei _ _ => false
  | .msettn _ _ => false
  | .msettm _ _ => false
  | .msettk _ _ => false
  | .vlte8 _ _ => true
  | .vlte16 _ _ => true
  | .vlte32 _ _ => true
  | .vlte64 _ _ => true
  | .vste8 _ _ => true
  | .vste16 _ _ => true
  | .vste32 _ _ => true
  | .vste64 _ _ => true
  | .vtmvVT _ _ => true
  | .vtmvTV _ _ => true
  | .vtzeroT _ => true
  | .vtdiscard => true
  | .mmFF _ _ _ => true
  | .p2mmFF _ _ _ => true
  | .mmE5m2E5m2 _ _ _ => true
  | .mmE5m2E4m3 _ _ _ => true
  | .mmE4m3E5m2 _ _ _ => true
  | .mmE4m3E4m3 _ _ _ => true
  | .mmUU _ _ _ => true
  | .mmSU _ _ _ => true
  | .mmUS _ _ _ => true
  | .mmSS _ _ _ => true
  | .addi _ _ _ => false
  | .slli _ _ _ => false
  | .add _ _ _ => false
  | .bne _ _ _ => false
  | .csrrs _ _ _ => false

/-- The thirty instructions that the source defines or changes (R7). -/
def Instr.isZvm : Instr → Bool
  | .vsetvli _ _ _ => true
  | .vsetivli _ _ _ => true
  | .vsetvl _ _ _ => true
  | .msetmtype _ _ => true
  | .msetmtypei _ _ => true
  | .msettn _ _ => true
  | .msettm _ _ => true
  | .msettk _ _ => true
  | .addi _ _ _ => false
  | .slli _ _ _ => false
  | .add _ _ _ => false
  | .bne _ _ _ => false
  | .csrrs _ _ _ => false
  | .vlte8 _ _ => true
  | .vlte16 _ _ => true
  | .vlte32 _ _ => true
  | .vlte64 _ _ => true
  | .vste8 _ _ => true
  | .vste16 _ _ => true
  | .vste32 _ _ => true
  | .vste64 _ _ => true
  | .vtmvVT _ _ => true
  | .vtmvTV _ _ => true
  | .vtzeroT _ => true
  | .vtdiscard => true
  | .mmFF _ _ _ => true
  | .p2mmFF _ _ _ => true
  | .mmE5m2E5m2 _ _ _ => true
  | .mmE5m2E4m3 _ _ _ => true
  | .mmE4m3E5m2 _ _ _ => true
  | .mmE4m3E4m3 _ _ _ => true
  | .mmUU _ _ _ => true
  | .mmSU _ _ _ => true
  | .mmUS _ _ _ => true
  | .mmSS _ _ _ => true

/-- The fields of an instruction that name integer registers (R21, R280 to R284). -/
def Instr.xregs : Instr → List XReg
  | .vsetvli rd rs1 _ => [rd, rs1]
  | .vsetivli rd _ _ => [rd]
  | .vsetvl rd rs1 rs2 => [rd, rs1, rs2]
  | .msetmtype rs1 rs2 => [rs1, rs2]
  | .msetmtypei _ _ => []
  | .msettn rd rs1 => [rd, rs1]
  | .msettm rd rs1 => [rd, rs1]
  | .msettk rd rs1 => [rd, rs1]
  | .vlte8 rs1 rs2 => [rs1, rs2]
  | .vlte16 rs1 rs2 => [rs1, rs2]
  | .vlte32 rs1 rs2 => [rs1, rs2]
  | .vlte64 rs1 rs2 => [rs1, rs2]
  | .vste8 rs1 rs2 => [rs1, rs2]
  | .vste16 rs1 rs2 => [rs1, rs2]
  | .vste32 rs1 rs2 => [rs1, rs2]
  | .vste64 rs1 rs2 => [rs1, rs2]
  | .vtmvVT _ rs1 => [rs1]
  | .vtmvTV rs1 _ => [rs1]
  | .vtzeroT _ => []
  | .vtdiscard => []
  | .mmFF _ _ _ => []
  | .p2mmFF _ _ _ => []
  | .mmE5m2E5m2 _ _ _ => []
  | .mmE5m2E4m3 _ _ _ => []
  | .mmE4m3E5m2 _ _ _ => []
  | .mmE4m3E4m3 _ _ _ => []
  | .mmUU _ _ _ => []
  | .mmSU _ _ _ => []
  | .mmUS _ _ _ => []
  | .mmSS _ _ _ => []
  | .addi rd rs1 _ => [rd, rs1]
  | .slli rd rs1 _ => [rd, rs1]
  | .add rd rs1 rs2 => [rd, rs1, rs2]
  | .bne rs1 rs2 _ => [rs1, rs2]
  | .csrrs rd _ rs1 => [rd, rs1]

/-- The six floating-point matrix instructions (R62). -/
def Instr.isFloatMatrix : Instr → Bool
  | .mmFF _ _ _ => true
  | .p2mmFF _ _ _ => true
  | .mmE5m2E5m2 _ _ _ => true
  | .mmE5m2E4m3 _ _ _ => true
  | .mmE4m3E5m2 _ _ _ => true
  | .mmE4m3E4m3 _ _ _ => true
  | _ => false

/-- The four integer matrix instructions (R233). -/
def Instr.isIntMatrix : Instr → Bool
  | .mmUU _ _ _ => true
  | .mmSU _ _ _ => true
  | .mmUS _ _ _ => true
  | .mmSS _ _ _ => true
  | _ => false

end Sys2Proof
end

