-- ==== Sys2Proof/Certificates/Slice0/Obligations.lean ====
section
/-! DEFINITION. The statements for the provers, each a property that a numbered rule of spec/ or the log gives the machine. -/

open Sys2Proof Sys2Proof.Machine

/-! ### Encoding -/

/-- R103 to R107, R280 to R284: the decoder reads the word of every well-formed instruction back, every operand at every value. -/
def Obligations.EncodeThenDecode : Prop :=
  ∀ i : Instr, i.wellFormed = true → decode (encode i) = .instr i

/-- R103 to R107, R280 to R284: a word that decodes to an instruction is the one word of that instruction. -/
def Obligations.DecodeThenEncode : Prop :=
  ∀ (w : InstrWord) (i : Instr), decode w = .instr i → i.wellFormed = true ∧ encode i = w

/-- R110: no word selects two rows of the opcode table. -/
def Obligations.OpcodeRowsDisjoint : Prop :=
  ∀ (w : InstrWord) (r q : Row), r ∈ rows → q ∈ rows → r.selects w = true → q.selects w = true → r.mnemonic = q.mnemonic

/-- Words of 95_test_vectors.md, one for each family. -/
def Obligations.SampleWordsDecode : Prop :=
  decode 0x0D12F357#32 = .instr (.vsetvli 6#5 5#5 0xD1#11) ∧
  decode 0x8431F057#32 = .instr (.msetmtypei 3#5 0#2) ∧
  decode 0x8402F357#32 = .instr (.msettn 6#5 5#5) ∧
  decode 0x12B57007#32 = .instr (.vlte8 10#5 11#5) ∧
  decode 0x52D67027#32 = .instr (.vste32 12#5 13#5) ∧
  decode 0x43F36257#32 = .instr (.vtmvVT 4#5 6#5) ∧
  decode 0x5E836057#32 = .instr (.vtmvTV 6#5 8#5) ∧
  decode 0x43E06457#32 = .instr (.vtzeroT 4#4) ∧
  decode 0x43C06057#32 = .instr .vtdiscard ∧
  decode 0xF2041477#32 = .instr (.mmFF 4#4 0#5 8#5) ∧
  decode 0xF68804F7#32 = .instr (.mmSS 4#4 8#5 16#5) ∧
  decode 0xFE531AE3#32 = .instr (.bne 6#5 5#5 0x1FF4#13) ∧
  decode 0xC23024F3#32 = .instr (.csrrs 9#5 0xC23#12 0#5)

/-- R103 to R106, R109: the reserved words that R109 names are no instruction and raise illegal-instruction. The four parts are the
tile load and store format, the configuration format, the move, zero and discard format (but for the vector extension's `vmv.s.x`)
and OP-VE. That a word beside the formats does so is the model's choice, log 12. -/
def Obligations.ReservedWords : Prop :=
  ∀ w : InstrWord,
    (field w 0 7 = 0x07#7 ∨ field w 0 7 = 0x27#7 → field w 12 3 = 7#3 → field w 28 1 = 1#1 →
      field w 31 1 = 1#1 ∨ fieldRd w ≠ 0#5 ∨ field w 25 1 = 0#1 ∨ field w 26 2 ≠ 0#2 → decode w = .reservedEncoding) ∧
    (field w 0 7 = 0x57#7 → field w 12 3 = 7#3 →
      (field w 25 7 = 0b1000001#7 ∧ fieldRd w ≠ 0#5)
        ∨ (field w 25 7 = 0b1000010#7 ∧ (field w 22 1 = 1#1 ∨ (field w 20 3 ≠ 3#3 ∧ field w 23 2 ≠ 0#2)
          ∨ (field w 20 3 = 3#3 ∧ fieldRd w ≠ 0#5)))
        ∨ (0b1000011#7 ≤ field w 25 7 ∧ field w 25 7 ≤ 0b1011111#7) → decode w = .reservedEncoding) ∧
    (field w 0 7 = 0x57#7 → field w 12 3 = 6#3 →
      (field w 26 6 = 0b010111#6 ∧ (field w 25 1 = 0#1 ∨ fieldRd w ≠ 0#5))
        ∨ (field w 26 6 = 0b010000#6 ∧ (field w 25 1 = 0#1
          ∨ (fieldRs2 w = 0b11110#5 ∧ (fieldRs1 w ≠ 0#5 ∨ field w 7 1 = 1#1))
          ∨ (fieldRs2 w = 0b11100#5 ∧ (fieldRs1 w ≠ 0#5 ∨ fieldRd w ≠ 0#5))
          ∨ fieldRs2 w ∉ [0b00000#5, 0b11100#5, 0b11110#5, 0b11111#5])) → decode w = .reservedEncoding) ∧
    (field w 0 7 = 0x77#7 →
      field w 25 1 = 0#1 ∨ field w 8 1 = 1#1 ∨ 2#3 ≤ field w 12 3 ∨ field w 28 4 ≠ 0b1111#4
        ∨ (field w 27 5 = 0b11111#5 ∧ (field w 12 3 = 0#3 ∨ field w 9 1 = 1#1))
        ∨ (field w 27 5 = 0b11110#5 ∧ field w 12 3 = 0#3 ∧ field w 9 1 = 1#1)
        ∨ (field w 26 6 = 0b111101#6 ∧ field w 12 3 = 1#3) → decode w = .reservedEncoding)

/-! ### The step -/

/-- With no interrupt to take (log 52), a step runs the instruction that the bytes at `pc` decode to, then ends: the `MS` fields may
go Dirty and the counter of free values advances (`endStep`). -/
def Obligations.StepRunsDecodedInstruction : Prop :=
  ∀ (s : State) (i : Instr), s.cfg.wf = true → pendingInterrupt s = none → s.pc.toNat % 4 = 0 →
    (∀ a ∈ byteAddrs s.cfg s.pc.toNat 4, byteVerdict s .fetch a = .permitted ∧ a ∉ s.unsynced) →
    decodeBytes (memReadBytes s.cfg s.mem s.pc.toNat 4) = .instr i → i.wellFormed = true →
    step s = mapNext endStep (exec i s)

/-- R109, R285, R306: a step on a reserved encoding takes the illegal-instruction exception; on `mret` it returns in machine mode and
is illegal in the others; on `sret` it returns in supervisor and machine mode where supervisor mode exists, and traps in user mode
(the two words and the virtual instruction of a guest: log 47); on any other word that is no instruction it is refused. -/
def Obligations.StepOnOtherWords : Prop :=
  ∀ (s : State) (w : InstrWord), s.cfg.wf = true → pendingInterrupt s = none → s.pc.toNat % 4 = 0 →
    (∀ a ∈ byteAddrs s.cfg s.pc.toNat 4, byteVerdict s .fetch a = .permitted ∧ a ∉ s.unsynced) →
    memReadBytes s.cfg s.mem s.pc.toNat 4 = bytesOfWord w →
    (decode w = .reservedEncoding → step s = .next (endStep (illegal w s))) ∧
    (w = 0x30200073#32 →
      (s.priv = .machine → step s = .next (endStep (returnFromMachine s))) ∧
      (s.priv ≠ .machine → step s = .next (endStep (illegal w s)))) ∧
    (w = 0x10200073#32 →
      (s.cfg.hasS = true → s.priv ≠ .user → step s = .next (endStep (returnFromSupervisor s))) ∧
      (s.cfg.hasS = false ∨ s.priv = .user ∧ s.virt = false → step s = .next (endStep (illegal w s))) ∧
      (s.cfg.hasS = true → s.priv = .user → s.virt = true →
        step s = .next (endStep (takeException .virtualInstruction (illegalTval s.cfg w) s)))) ∧
    (decode w = .outsideSubset → step s = .refused .outsideSubset)

/-- R300, R303a, R303e, R305, R307: an interrupt pending in `mip` and enabled in `mie` is taken before the next instruction, to
machine mode, unless the hart is in machine mode with `mstatus.MIE` clear (the order of the six and their places: log 52). With none
to take, a misaligned `pc` (log 54; its trap value: log 59), and a byte of the instruction that the map denies (log 39, log 40),
raise the fetch exceptions, whatever the bytes decode to. -/
def Obligations.InterruptsAndFetchExceptionsComeFirst : Prop :=
  ∀ s : State, s.cfg.wf = true →
    (∀ n : Fin 6, ∀ code, code = [11, 3, 7, 9, 1, 5].getD n 0 → s.priv ≠ .machine ∨ s.mstatus.mie = true →
      s.mip.getLsbD code = true → s.mie.getLsbD code = true →
      (∀ c ∈ [11, 3, 7, 9, 1, 5].take n, s.mip.getLsbD c = false ∨ s.mie.getLsbD c = false) →
      step s = .next (endStep (enterMachine true code 0#64 s))) ∧
    (s.priv = .machine ∧ s.mstatus.mie = false ∨ s.mip &&& s.mie = 0#64 → pendingInterrupt s = none) ∧
    (pendingInterrupt s = none →
      (s.pc.toNat % 4 ≠ 0 → step s = .next (endStep (takeException .instrAddressMisaligned s.pc s))) ∧
      (s.pc.toNat % 4 = 0 → (∃ a ∈ byteAddrs s.cfg s.pc.toNat 4, byteVerdict s .fetch a ≠ .permitted) →
        ∃ e v, e ∈ [Exception.instrAccessFault, .instrPageFault, .instrGuestPageFault] ∧
          step s = .next (endStep (takeException e v s))))

/-- R60: what the end of a step may change: an `MS` field that is not Off may become Dirty, `vsstatus`.MS only with the
hypervisor extension (the draw is at the end of every step by log 41). -/
def Obligations.MsOnlyGoesDirtyByItself : Prop :=
  ∀ s : State,
    endStep s = { s with
      mstatus := { s.mstatus with ms := (endStep s).mstatus.ms }
      vsstatus := { s.vsstatus with ms := (endStep s).vsstatus.ms }
      draws := s.draws + 1 } ∧
    ((endStep s).mstatus.ms = s.mstatus.ms ∨ s.mstatus.ms ≠ .off ∧ (endStep s).mstatus.ms = .on .dirty) ∧
    ((endStep s).vsstatus.ms = s.vsstatus.ms
      ∨ s.cfg.hasH = true ∧ s.vsstatus.ms ≠ .off ∧ (endStep s).vsstatus.ms = .on .dirty)

/-- Where the model stops by name: a reserved TSS under the policy `refuse` (R163), big-endian data (R71), memory with side effects
(R78), a CSR the spec does not describe (log 50), the fetch of stored text (R84), parameters outside R8 and R9 (log 62). -/
def Obligations.StopsByName : Prop :=
  ∀ (s : State) (rs1 rs2 : XReg),
    (∀ p ∈ tileLoads rs1 rs2 ++ tileStores rs1 rs2, tileMemoryIllegal s p.2 rs1 rs2 = false →
      (s.cfg.tssPolicy = .refuse → tssReserved s.cfg (s.readX rs2) p.2 = true → exec p.1 s = .refused .reservedTss) ∧
      (∀ u, tssDecode s.cfg (s.readX rs2) p.2 = .subset u →
        (dataBigEndian s = true → exec p.1 s = .refused .bigEndianData) ∧
        (dataBigEndian s = false → ∀ i, s.vstart ≤ i → i < tn s p.2 →
          touchesNonIdempotent s (if p ∈ tileLoads rs1 rs2 then .load else .store) (elemAddr s rs1 p.2 i) (p.2 / 8) = true →
          exec p.1 s = .refused .nonIdempotentMemory))) ∧
    (∀ v : VReg, moveIllegal s v rs1 = false → s.cfg.tssPolicy = .refuse →
      tssReserved s.cfg (s.readX rs1) (sew s.vtype) = true →
      exec (.vtmvVT v rs1) s = .refused .reservedTss ∧ exec (.vtmvTV rs1 v) s = .refused .reservedTss) ∧
    (∀ (rd : XReg) (n : BitVec 12), xregsExist s.cfg [rd, rs1] = true → csrOfNumber n = none →
      exec (.csrrs rd n rs1) s = .refused .csrOutsideSpec) ∧
    (s.cfg.wf = true → pendingInterrupt s = none → s.pc.toNat % 4 = 0 →
      (∀ a ∈ byteAddrs s.cfg s.pc.toNat 4, byteVerdict s .fetch a = .permitted) →
      (∃ a ∈ byteAddrs s.cfg s.pc.toNat 4, a ∈ s.unsynced) → step s = .refused .storedText) ∧
    (s.cfg.wf = false → step s = .fault .unsupportedConfiguration)

/-! ### The invariant -/

/-- The reset state of every implementation meets the invariant. -/
def Obligations.ResetMeetsInvariant : Prop :=
  (∀ c : Config, c.wf = true → (State.resetOf c).Inv) ∧ State.reset.Inv

/-- Every step keeps the invariant: the canonical forms, the buffer sizes, the alignment of `pc` and of the saved `pc`s, the legal
modes and the configuration state that R24, R43, R44 and R135 describe. -/
def Obligations.StepKeepsInvariant : Prop :=
  ∀ s t : State, s.Inv → step s = .next t → t.Inv

/-- R63: the hart resets in machine mode with interrupts masked and MPRV clear; every tile byte is a free value (log 5). -/
def Obligations.ResetMode : Prop :=
  ∀ c : Config, (State.resetOf c).priv = .machine ∧ (State.resetOf c).mstatus.mie = false
    ∧ (State.resetOf c).mstatus.mprv = false
    ∧ ∀ o, o < c.tileBytes → readByte (State.resetOf c).ts o = Config.resetTileByte o

/-! ### Traps -/

/-- R305: what trap entry saves, what it changes and where it goes, in machine mode and "in the same way" in supervisor mode (the
split of a trap vector into BASE and MODE is log 48's; V and hstatus.SPV on entry to supervisor mode are log 46's). -/
def Obligations.TrapEntry : Prop :=
  ∀ (s : State) (interrupt : Bool) (code : Nat) (tval : Word), s.Inv → code < 64 → tval.toNat < 2 ^ s.cfg.xlenBits →
    (∃ t, t = enterMachine interrupt code tval s ∧
      t.mepc = s.pc ∧ t.mcause.toNat = code + (if interrupt then 2 ^ (s.cfg.xlenBits - 1) else 0) ∧ t.mtval = tval ∧
      t.mstatus.mpp = s.priv ∧ t.mstatus.mpie = s.mstatus.mie ∧ t.mstatus.mie = false ∧
      t.mstatus.mpv = (if s.cfg.hasH then s.virt else s.mstatus.mpv) ∧ t.virt = false ∧ t.priv = .machine ∧
      t.pc.toNat = (s.mtvec.toNat - s.mtvec.toNat % 4
        + (if interrupt = true ∧ s.mtvec.toNat % 4 = 1 then 4 * code else 0)) % 2 ^ s.cfg.xlenBits ∧
      t = { s with
        mepc := t.mepc, mcause := t.mcause, mtval := t.mtval, virt := t.virt, priv := t.priv, pc := t.pc
        mstatus := { s.mstatus with
          mpp := t.mstatus.mpp, mpie := t.mstatus.mpie, mie := t.mstatus.mie, mpv := t.mstatus.mpv } }) ∧
    (s.priv ≠ .machine →
      ∃ t, t = enterSupervisor interrupt code tval s ∧
      t.sepc = s.pc ∧ t.scause.toNat = code + (if interrupt then 2 ^ (s.cfg.xlenBits - 1) else 0) ∧ t.stval = tval ∧
      (t.mstatus.spp = true ↔ s.priv = .supervisor) ∧ t.mstatus.spie = s.mstatus.sie ∧ t.mstatus.sie = false ∧
      t.hstatusSpv = (if s.cfg.hasH then s.virt else s.hstatusSpv) ∧ t.virt = false ∧ t.priv = .supervisor ∧
      t.pc.toNat = (s.stvec.toNat - s.stvec.toNat % 4
        + (if interrupt = true ∧ s.stvec.toNat % 4 = 1 then 4 * code else 0)) % 2 ^ s.cfg.xlenBits ∧
      t = { s with
        sepc := t.sepc, scause := t.scause, stval := t.stval, virt := t.virt, priv := t.priv, pc := t.pc
        hstatusSpv := t.hstatusSpv
        mstatus := { s.mstatus with spp := t.mstatus.spp, spie := t.mstatus.spie, sie := t.mstatus.sie } })

/-- R308: the `medeleg` and `hedeleg` bits of an exception's cause code decide which mode takes it (the guest's part and the rule
that machine mode never delegates are PRESUMED, log 46). -/
def Obligations.ExceptionDelegation : Prop :=
  ∀ (s : State) (e : Exception) (tval : Word),
    (s.priv = .machine ∨ s.cfg.hasS = false ∨ s.medeleg.getLsbD e.code = false →
      takeException e tval s = enterMachine false e.code tval s) ∧
    (s.priv ≠ .machine → s.cfg.hasS = true → s.medeleg.getLsbD e.code = true →
      (s.cfg.hasH = false ∨ s.virt = false ∨ s.hedeleg.getLsbD e.code = false →
        takeException e tval s = enterSupervisor false e.code tval s) ∧
      (s.cfg.hasH = true → s.virt = true → s.hedeleg.getLsbD e.code = true →
        takeException e tval s = enterVirtualSupervisor false e.code tval s))

/-- R306: what a return does with the machine-level fields (V of a return to machine mode: log 47), and that the return which matches
a trap's target brings back the mode, V, the interrupt enable and the trapped `pc` (the S-level and guest fields are log 46's and
log 47's). -/
def Obligations.TrapThenReturnResumes : Prop :=
  ∀ (s : State) (interrupt : Bool) (code : Nat) (tval : Word), s.Inv →
    (∃ r, r = returnFromMachine s ∧ r.priv = s.mstatus.mpp ∧
      r.virt = (s.cfg.hasH && s.mstatus.mpv && !decide (s.mstatus.mpp = .machine)) ∧
      r.mstatus = { s.mstatus with mie := s.mstatus.mpie, mpie := true, mpp := .user } ∧ r.pc = s.mepc ∧
      r = { s with priv := r.priv, virt := r.virt, mstatus := r.mstatus, pc := r.pc }) ∧
    (∃ r, r = returnFromMachine (enterMachine interrupt code tval s) ∧
      r.pc = s.pc ∧ r.priv = s.priv ∧ r.virt = s.virt ∧ r.mstatus.mie = s.mstatus.mie ∧ r.mstatus.mpie = true
        ∧ r.mstatus.mpp = .user) ∧
    (s.priv ≠ .machine → ∃ r, r = returnFromSupervisor (enterSupervisor interrupt code tval s) ∧
      r.pc = s.pc ∧ r.priv = s.priv ∧ r.virt = s.virt ∧ r.mstatus.sie = s.mstatus.sie ∧ r.mstatus.spie = true) ∧
    (s.virt = true → ∃ r, r = returnFromSupervisor (enterVirtualSupervisor interrupt code tval s) ∧
      r.pc = s.pc ∧ r.priv = s.priv ∧ r.virt = s.virt ∧ r.vsstatus.sie = s.vsstatus.sie ∧ r.vsstatus.spie = true)

/-- R61: with VS Off every Zvm instruction raises illegal-instruction, whatever its operands (the consequence (a) that R61 takes
from general knowledge). -/
def Obligations.VsOffTraps : Prop :=
  ∀ (i : Instr) (s : State), i.isZvm = true → vsOff s = true → exec i s = .next (illegal (encode i) s)

/-- R59: with MS Off every instruction that accesses the tile state (R59's own derived list), and `vtdiscard` (R261), raises
illegal-instruction; with V = 1 either field counts. -/
def Obligations.MsOffTraps : Prop :=
  ∀ (i : Instr) (s : State), i.usesTiles = true →
    s.mstatus.ms = .off ∨ s.virt = true ∧ s.vsstatus.ms = .off → exec i s = .next (illegal (encode i) s)

/-- R301, R304, R305, R308: an illegal-instruction exception changes nothing but the mode, V, `pc` and the trap registers and status
fields of the mode that takes it (which mode does: log 46). -/
def Obligations.IllegalChangesOnlyTrapState : Prop :=
  ∀ (w : InstrWord) (s : State), ∃ t, t = illegal w s ∧
    (trapTarget s 2 = .machine → t = { s with
      pc := t.pc, priv := .machine, virt := false, mepc := t.mepc, mcause := t.mcause, mtval := t.mtval
      mstatus := { s.mstatus with
        mpp := t.mstatus.mpp, mpie := t.mstatus.mpie, mie := t.mstatus.mie, mpv := t.mstatus.mpv } }) ∧
    (trapTarget s 2 = .supervisor → t = { s with
      pc := t.pc, priv := .supervisor, virt := false, hstatusSpv := t.hstatusSpv
      sepc := t.sepc, scause := t.scause, stval := t.stval
      mstatus := { s.mstatus with spp := t.mstatus.spp, spie := t.mstatus.spie, sie := t.mstatus.sie } }) ∧
    (trapTarget s 2 = .virtualSupervisor → t = { s with
      pc := t.pc, priv := .supervisor, vsepc := t.vsepc, vscause := t.vscause, vstval := t.vstval
      vsstatus := { s.vsstatus with spp := t.vsstatus.spp, spie := t.vsstatus.spie, sie := t.vsstatus.sie } })

/-! ### Configuration instructions -/

/-- R134: `SetVL`. The last clause says that its value is a function of AVL and VLMAX. -/
def Obligations.SetVlRule : Prop :=
  ∀ (c : Config) (t : VType) (avl : Nat),
    (t.vill = true → setVl c t avl = 0) ∧
    (t.vill = false → avl ≤ vlmax c t → setVl c t avl = avl) ∧
    (t.vill = false → 2 * vlmax c t ≤ avl → setVl c t avl = vlmax c t) ∧
    (t.vill = false → vlmax c t < avl → avl < 2 * vlmax c t →
      (avl + 1) / 2 ≤ setVl c t avl ∧ setVl c t avl ≤ vlmax c t) ∧
    (∀ t', t'.vill = t.vill → vlmax c t' = vlmax c t → setVl c t' avl = setVl c t avl)

/-- R133: `VsetvlVtype` keeps the fields of a supported value, and answers `vill` alone for an unsupported one. An integer LMUL is
supported; a fractional one when SEW <= LMUL*ELEN, or when the implementation adds it (log 27); `altfmt` with Zvm32a16f and SEW = 16
(log 26). -/
def Obligations.VsetvlVtypeRule : Prop :=
  ∀ (c : Config) (v : Word) (vsew vlmul : Nat), c.wf = true → v.toNat < 2 ^ c.xlenBits →
    vsew = v.toNat / 8 % 8 → vlmul = v.toNat % 8 →
    (∀ j, v.getLsbD j = true → 8 ≤ j → j ≠ c.altfmtBit → vsetvlVtype c v = illegalVtype) ∧
    (c.elenBits < 8 * 2 ^ vsew → vsetvlVtype c v = illegalVtype) ∧
    (vlmul = 4 → vsetvlVtype c v = illegalVtype) ∧
    (4 < vlmul → c.elenBits < 8 * 2 ^ vsew * 2 ^ (8 - vlmul) →
      (BitVec.ofNat 3 vsew, BitVec.ofNat 3 vlmul) ∉ c.moreFractional → vsetvlVtype c v = illegalVtype) ∧
    (v.getLsbD c.altfmtBit = true → vsew ≠ 1 ∨ c.ext.zvm32a16f = false → vsetvlVtype c v = illegalVtype) ∧
    ((∀ j, v.getLsbD j = true → 8 ≤ j → j = c.altfmtBit) → 8 * 2 ^ vsew ≤ c.elenBits →
      vlmul < 4 ∨ 4 < vlmul ∧ (8 * 2 ^ vsew * 2 ^ (8 - vlmul) ≤ c.elenBits
        ∨ (BitVec.ofNat 3 vsew, BitVec.ofNat 3 vlmul) ∈ c.moreFractional) →
      v.getLsbD c.altfmtBit = false ∨ vsew = 1 ∧ c.ext.zvm32a16f = true →
      vtypeWord c (vsetvlVtype c v) = v ∧ (vsetvlVtype c v).vill = false)

/-- R130, R131, R132: `vsetvli`, `vsetivli` and `vsetvl` set `vtype`, `vl` and `rd`, and write zero to `mtype`. The AVL is `x[rs1]`,
the largest value when `rs1` is `x0` and `rd` is not, and the old `vl` when both are `x0` (log 28, log 29). -/
def Obligations.VsetResults : Prop :=
  ∀ (s : State) (rd rs1 rs2 : XReg) (uimm : BitVec 5) (z11 : BitVec 11) (z10 : BitVec 10) (avl : Nat), s.cfg.wf = true →
    WidthInv s → vsOff s = false → xregsExist s.cfg [rd, rs1, rs2] = true →
    avl = (if rs1 = 0#5 then (if rd = 0#5 then s.vl else 2 ^ s.cfg.xlenBits - 1) else (s.readX rs1).toNat) →
    ∀ p ∈ [(Instr.vsetvli rd rs1 z11, z11.setWidth 64, avl), (.vsetivli rd uimm z10, z10.setWidth 64, uimm.toNat),
        (.vsetvl rd rs1 rs2, s.readX rs2, avl)],
      ∃ t, exec p.1 s = .next t ∧
        t.vtype = vsetvlVtype s.cfg p.2.1 ∧ t.vl = setVl s.cfg t.vtype p.2.2 ∧ WroteX s t rd t.vl ∧
        mtypeWord s.cfg t.mtype = 0#64 ∧ ZvmEnd s t ∧
        t = { s.endFrom t with vtype := t.vtype, vl := t.vl, x := t.x, mtype := t.mtype }

/-- R135, R136, R137: `msetmtype` and `msetmtypei` write `vl`, `mtype` and `vtype` by the source's pseudocode, read literally when
`vill` is set (log 25), with the reserved `mtype` bits discarded (log 10). -/
def Obligations.MsetmtypeResults : Prop :=
  ∀ (s : State) (rs1 rs2 : XReg) (mtypei : BitVec 5) (vsewi : BitVec 2), s.cfg.wf = true →
    vsOff s = false → xregsExist s.cfg [rs1, rs2] = true →
    ∀ p ∈ [(Instr.msetmtype rs1 rs2, s.readX rs1, s.readX rs2),
        (.msetmtypei mtypei vsewi, mtypei.setWidth 64, vsewi.setWidth 64 <<< 3)],
      ∃ t, exec p.1 s = .next t ∧ t.vl = 0 ∧ t.mtype.mtwiden.toNat = p.2.1.toNat % 4 ∧
        (p.2.1.toNat % 4 = 0 → t.vtype = vsetvlVtype s.cfg p.2.2 ∧ t.mtype.tm = 0#14 ∧ t.mtype.tk = 0#3) ∧
        (∀ w, twidenOf s.cfg t.mtype.mtwiden = some w →
          (∃ v, v = vsetvlVtype s.cfg p.2.2 ∧
            t.vtype = { v with
              vlmul := t.vtype.vlmul
              vma := true
              vta := true
              vill := v.vill || decide (s.cfg.elenBits < sew v * w) } ∧
            2 ^ t.vtype.vlmul.toNat = min (8 / kmax (sew v)) (min (8 / w)
              ((ete s.cfg (sew v * w) + eve s.cfg (sew v) - 1) / eve s.cfg (sew v))) ∧
            t.mtype.tk.toNat = min (p.2.1.toNat / 2 ^ tkLsb s.cfg % 8) (kmax (sew v)) ∧
            t.mtype.tm.toNat = min (p.2.1.toNat / 2 ^ 10 % 2 ^ 14)
              (min (2 ^ t.vtype.vlmul.toNat * eve s.cfg (sew v)) (ete s.cfg (sew v * w))))) ∧
        ZvmEnd s t ∧ t = { s.endFrom t with vtype := t.vtype, vl := t.vl, mtype := t.mtype }

/-- R135: the LMUL that `MatrixConfigure` sets is 1, 2, 4 or 8, and with a supported TEW a row of a tile fits in the group, so that
`msettm` and `msettn` are limited by ETE alone. -/
def Obligations.ConfiguredGroupHoldsTileRow : Prop :=
  ∀ (c : Config) (t : VType) (m : MType) (w : Nat), c.wf = true → sew t ≤ c.elenBits → w ∈ [1, 2, 4] →
    ∃ p, p = matrixConfigure c w t m ∧ p.1.vlmul.toNat ≤ 3 ∧
      (p.1.vill = false → ete c (sew t * w) ≤ vlmax c p.1)

/-- R138: `msettn`. With the unit configured `rd` = `vl` = min(`x[rs1]`, LMUL*EVE, ETE), else as by `vsetvl` with the current
`vtype`, where a parameter decides whether `rs1` = `x0` has its special forms (log 23). -/
def Obligations.MsettnResult : Prop :=
  ∀ (s : State) (rd rs1 : XReg), s.cfg.wf = true → WidthInv s → vsOff s = false → xregsExist s.cfg [rd, rs1] = true →
    ∃ t, exec (.msettn rd rs1) s = .next t ∧
      (twidenOf s.cfg s.mtype.mtwiden = none →
        t.vl = setVl s.cfg s.vtype (if s.cfg.msettnX0Special = true ∧ rs1 = 0#5 then
          (if rd = 0#5 then s.vl else 2 ^ s.cfg.xlenBits - 1) else (s.readX rs1).toNat)) ∧
      (∀ w, twidenOf s.cfg s.mtype.mtwiden = some w →
        t.vl = min (s.readX rs1).toNat (min (vlmax s.cfg s.vtype) (ete s.cfg (sew s.vtype * w)))) ∧
      WroteX s t rd t.vl ∧ ZvmEnd s t ∧ t = { s.endFrom t with vl := t.vl, x := t.x }

/-- R139, R140, R141: `msettm` and `msettk`. With the unit not configured `rd` and the field are 0; else `rd` = `tm` =
min(`x[rs1]`, LMUL*EVE, ETE), where the quantities are read literally when `vill` is set (log 25), and `rd` = `tk` =
min(`x[rs1]`, KMAX) (KMAX: log 11). The end of the instruction is log 22's. -/
def Obligations.MsettmMsettkResults : Prop :=
  ∀ (s : State) (rd rs1 : XReg), s.cfg.wf = true → vsOff s = false → xregsExist s.cfg [rd, rs1] = true →
    (∃ t, exec (.msettm rd rs1) s = .next t ∧
      (twidenOf s.cfg s.mtype.mtwiden = none → t.mtype.tm = 0#14) ∧
      (∀ w, twidenOf s.cfg s.mtype.mtwiden = some w →
        t.mtype.tm.toNat = min (s.readX rs1).toNat (min (vlmax s.cfg s.vtype) (ete s.cfg (sew s.vtype * w)))) ∧
      WroteX s t rd t.mtype.tm.toNat ∧ ZvmEnd s t ∧
      t = { s.endFrom t with mtype := { s.mtype with tm := t.mtype.tm }, x := t.x }) ∧
    (∃ t, exec (.msettk rd rs1) s = .next t ∧
      (twidenOf s.cfg s.mtype.mtwiden = none → t.mtype.tk = 0#3) ∧
      (∀ w, twidenOf s.cfg s.mtype.mtwiden = some w →
        t.mtype.tk.toNat = min (s.readX rs1).toNat (kmax (sew s.vtype))) ∧
      WroteX s t rd t.mtype.tk.toNat ∧ ZvmEnd s t ∧
      t = { s.endFrom t with mtype := { s.mtype with tk := t.mtype.tk }, x := t.x })

/-! ### Tiles -/

/-- R36: at each width every byte of the tile state belongs to exactly one element. -/
def Obligations.ElementsPartitionTileState : Prop :=
  ∀ (c : Config) (w o : Nat), c.wf = true → w ∈ [8, 16, 32, 64] → o < c.tileBytes →
    ∃ t r col, ValidElement c w t r col ∧ InElement c w t r col o ∧
      ∀ t' r' col', ValidElement c w t' r' col' → InElement c w t' r' col' o → t' = t ∧ r' = r ∧ col' = col

/-- R35: at each width a tile occupies the bytes from `t*TE*TE` up to the next valid specifier's. -/
def Obligations.TileOccupiesItsSlabs : Prop :=
  ∀ (c : Config) (w t r col o : Nat), c.wf = true → w ∈ [8, 16, 32, 64] → ValidElement c w t r col →
    InElement c w t r col o → t * c.te * c.te ≤ o ∧ o < (t + tileStep w) * c.te * c.te

/-- R160 to R164: what a TSS names. A reserved value (bits XLEN-1:31, a pattern above 1, an index at or above ETE) is handled by the
policy (log 14). -/
def Obligations.TssNamesSubset : Prop :=
  ∀ (c : Config) (w upper tile pattern index : Nat), c.wf = true → w ∈ [8, 16, 32, 64] → upper < 2 ^ (c.xlenBits - 31) →
    tile < 16 → pattern < 8 → index < 2 ^ 24 →
    ∃ v u : Nat, v = upper * 2 ^ 31 + tile * 2 ^ 27 + pattern * 2 ^ 24 + index ∧ u = tile - tile % tileStep w ∧
      (upper = 0 → pattern < 2 → index < ete c w →
        tssDecode c (BitVec.ofNat 64 v) w = .subset ⟨u, pattern == 1, index⟩) ∧
      (0 < upper ∨ 2 ≤ pattern ∨ ete c w ≤ index →
        (c.tssPolicy = .wrap →
          tssDecode c (BitVec.ofNat 64 v) w = .subset ⟨u, pattern % 2 == 1, index % ete c w⟩) ∧
        (c.tssPolicy = .illegal → tssDecode c (BitVec.ofNat 64 v) w = .illegal) ∧
        (c.tssPolicy = .refuse → tssDecode c (BitVec.ofNat 64 v) w = .refuse))

/-! ### Tile loads and stores -/

/-- R166, R168, R170, R171 to R174: a tile load whose body elements raise no exception. The tail is agnostic by log 16; with an empty
body the tile state and MS do not change (log 17). -/
def Obligations.TileLoadResult : Prop :=
  ∀ (s : State) (rs1 rs2 : XReg) (u : Subset), s.Inv → ∀ p ∈ tileLoads rs1 rs2, TileAccessReady s .load rs1 rs2 p.2 u →
    (∀ i, s.vstart ≤ i → i < tn s p.2 → accessException s .load (elemAddr s rs1 p.2 i) (p.2 / 8) = none) →
    ∃ t, exec p.1 s = .next t ∧
      SubsetResult s t u p.2 (fun i => memReadBytes s.cfg s.mem (((s.readX rs1).toNat + i * (p.2 / 8)) % 2 ^ s.cfg.xlenBits)
        (p.2 / 8)) ∧
      (s.vstart < tn s p.2 → MsDirtied s t) ∧ (tn s p.2 ≤ s.vstart → MsKept s t ∧ t.ts = s.ts) ∧ ZvmEnd s t ∧
      t = { s.endFromMs t with ts := t.ts }

/-- R169, R177 to R180: a tile store whose body elements raise no exception: each byte of a body element is stored, no other byte
of memory changes, and the tile state is unchanged. The stored addresses join those that a fetch is refused at (R84, log 34). -/
def Obligations.TileStoreResult : Prop :=
  ∀ (s : State) (rs1 rs2 : XReg) (u : Subset), s.Inv → ∀ p ∈ tileStores rs1 rs2, TileAccessReady s .store rs1 rs2 p.2 u →
    (∀ i, s.vstart ≤ i → i < tn s p.2 → accessException s .store (elemAddr s rs1 p.2 i) (p.2 / 8) = none) →
    ∃ t, exec p.1 s = .next t ∧
      (∀ i k a, s.vstart ≤ i → i < tn s p.2 → IsElementByte s rs1 p.2 i k a →
        memRead t.mem a = (subsetElem s u p.2 i).getD k 0#8) ∧
      (∀ a, (∀ i k, s.vstart ≤ i → i < tn s p.2 → ¬ IsElementByte s rs1 p.2 i k a) → memRead t.mem a = memRead s.mem a) ∧
      Memory.wf t.mem = true ∧
      (∀ a, a ∈ t.unsynced ↔ a ∈ s.unsynced ∨ ∃ i k, s.vstart ≤ i ∧ i < tn s p.2 ∧ IsElementByte s rs1 p.2 i k a) ∧
      ZvmEnd s t ∧ t = { s.endFrom t with mem := t.mem, unsynced := t.unsynced }

/-- R175, R303c: a tile load whose body element `i` is the lowest to raise an exception traps there, with the elements below it
loaded and `vstart` = `i`; what it leaves above is unspecified (log 43). MS changes exactly when a tile element may have. -/
def Obligations.TileLoadTrapsAtElement : Prop :=
  ∀ (s : State) (rs1 rs2 : XReg) (u : Subset), s.Inv → ∀ p ∈ tileLoads rs1 rs2, TileAccessReady s .load rs1 rs2 p.2 u →
    ∀ (i a : Nat) (e : Exception), s.vstart ≤ i → i < tn s p.2 →
    (∀ j, s.vstart ≤ j → j < i → accessException s .load (elemAddr s rs1 p.2 j) (p.2 / 8) = none) →
    accessException s .load (elemAddr s rs1 p.2 i) (p.2 / 8) = some (e, a) →
    ∃ m, exec p.1 s = .next (takeException e (BitVec.ofNat 64 a) m) ∧
      m.vstart = i ∧ m.pc = s.pc ∧ VsDirtied s m ∧ (s.vstart < i → MsDirtied s m) ∧ MsFollowsTile s m ∧
      (∀ j, s.vstart ≤ j → j < i → subsetElem m u p.2 j
        = memReadBytes s.cfg s.mem (((s.readX rs1).toNat + j * (p.2 / 8)) % 2 ^ s.cfg.xlenBits) (p.2 / 8)) ∧
      (∀ o, (∀ j, s.vstart ≤ j → j < ete s.cfg p.2 →
        ¬ InElement s.cfg p.2 u.tile (u.coord j).1 (u.coord j).2 o) → readByte m.ts o = readByte s.ts o) ∧
      m = { s.endFromMs m with ts := m.ts }

/-- R175, R303c: a tile store whose body element `i` is the lowest to raise an exception traps there, with the elements below it
stored and `vstart` = `i`; a byte of an element at or above it holds its old or its final value. A byte that changed is one that a
fetch is refused at (R84, log 34). -/
def Obligations.TileStoreTrapsAtElement : Prop :=
  ∀ (s : State) (rs1 rs2 : XReg) (u : Subset), s.Inv → ∀ p ∈ tileStores rs1 rs2, TileAccessReady s .store rs1 rs2 p.2 u →
    ∀ (i a : Nat) (e : Exception), s.vstart ≤ i → i < tn s p.2 →
    (∀ j, s.vstart ≤ j → j < i → accessException s .store (elemAddr s rs1 p.2 j) (p.2 / 8) = none) →
    accessException s .store (elemAddr s rs1 p.2 i) (p.2 / 8) = some (e, a) →
    ∃ m, exec p.1 s = .next (takeException e (BitVec.ofNat 64 a) m) ∧
      m.vstart = i ∧ m.pc = s.pc ∧ VsDirtied s m ∧
      (∀ j k b, s.vstart ≤ j → j < i → IsElementByte s rs1 p.2 j k b →
        memRead m.mem b = (subsetElem s u p.2 j).getD k 0#8) ∧
      (∀ j k b, i ≤ j → j < tn s p.2 → IsElementByte s rs1 p.2 j k b →
        memRead m.mem b = memRead s.mem b ∨ memRead m.mem b = (subsetElem s u p.2 j).getD k 0#8) ∧
      (∀ b, (∀ j k, s.vstart ≤ j → j < tn s p.2 → ¬ IsElementByte s rs1 p.2 j k b) →
        memRead m.mem b = memRead s.mem b) ∧
      (∀ b, b ∈ s.unsynced ∨ memRead m.mem b ≠ memRead s.mem b → b ∈ m.unsynced) ∧
      (∀ j k b, s.vstart ≤ j → j < i → IsElementByte s rs1 p.2 j k b → b ∈ m.unsynced) ∧
      (∀ b, b ∈ m.unsynced → b ∈ s.unsynced ∨ ∃ j k, s.vstart ≤ j ∧ j < tn s p.2 ∧ IsElementByte s rs1 p.2 j k b) ∧
      m = { s.endFrom m with mem := m.mem, unsynced := m.unsynced }

/-- R166, R171, R302: with no body element a tile load or store completes and changes neither memory nor the tile state, whatever
address `x[rs1]` holds (log 17). -/
def Obligations.EmptyBodyTouchesNoMemory : Prop :=
  ∀ (s : State) (rs1 rs2 : XReg) (u : Subset), ∀ p ∈ tileLoads rs1 rs2 ++ tileStores rs1 rs2, tn s p.2 ≤ s.vstart →
    tileMemoryIllegal s p.2 rs1 rs2 = false → dataBigEndian s = false → tssDecode s.cfg (s.readX rs2) p.2 = .subset u →
    ∃ t, exec p.1 s = .next t ∧ ZvmEnd s t ∧ t = s.endFrom t

/-- R165: a tile load or store with VS or MS Off, `vill` set (log 18), EEW above ELEN (log 12) or a reserved TSS under the policy
`illegal` (log 14) raises illegal-instruction, as does a register that an E base lacks (log 60). -/
def Obligations.TileAccessChecks : Prop :=
  ∀ (s : State) (rs1 rs2 : XReg), ∀ p ∈ tileLoads rs1 rs2 ++ tileStores rs1 rs2,
    vsOff s = true ∨ msOff s = true ∨ s.vtype.vill = true ∨ s.cfg.elenBits < p.2 ∨ xregsExist s.cfg [rs1, rs2] = false
      ∨ s.cfg.tssPolicy = .illegal ∧ tssReserved s.cfg (s.readX rs2) p.2 = true →
    exec p.1 s = .next (illegal (encode p.1) s)

/-! ### Tile moves -/

/-- R191: `vtmv.v.t`. Body elements come from the tile; tail elements below VLMAX are agnostic with `vta` = 1 and unchanged with
`vta` = 0 (log 16; those below `vstart` too, log 17); no byte outside the register group changes. -/
def Obligations.MoveTileToVector : Prop :=
  ∀ (s : State) (vd : VReg) (rs1 : XReg) (u : Subset), s.Inv → vsOff s = false → msOff s = false →
    s.vtype.vill = false → vd.toNat % lmulRegs s.vtype = 0 → xregsExist s.cfg [rs1] = true →
    tssDecode s.cfg (s.readX rs1) (sew s.vtype) = .subset u →
    ∃ t, exec (.vtmvVT vd rs1) s = .next t ∧
      (∀ i, s.vstart ≤ i → i < tn s (sew s.vtype) →
        velem t vd.toNat i (sew s.vtype) = subsetElem s u (sew s.vtype) i) ∧
      (∀ i, i < s.vstart → i < tn s (sew s.vtype) →
        velem t vd.toNat i (sew s.vtype) = velem s vd.toNat i (sew s.vtype)) ∧
      (∀ i, tn s (sew s.vtype) ≤ i → i < vlmax s.cfg s.vtype →
        AgnosticFrom (velem s vd.toNat i (sew s.vtype)) (velem t vd.toNat i (sew s.vtype)) ∧
        (s.vtype.vta = false → velem t vd.toNat i (sew s.vtype) = velem s vd.toNat i (sew s.vtype))) ∧
      (∀ o, o < vd.toNat * s.cfg.vlenb ∨ (vd.toNat + lmulRegs s.vtype) * s.cfg.vlenb ≤ o →
        readByte t.v o = readByte s.v o) ∧
      t.v.length = s.v.length ∧ ZvmEnd s t ∧ t = { s.endFrom t with v := t.v }

/-- R192: `vtmv.t.v`. Body elements come from the vector register group, the tail of the row or column is agnostic (log 16). -/
def Obligations.MoveVectorToTile : Prop :=
  ∀ (s : State) (vs2 : VReg) (rs1 : XReg) (u : Subset), s.Inv → vsOff s = false → msOff s = false →
    s.vtype.vill = false → vs2.toNat % lmulRegs s.vtype = 0 → xregsExist s.cfg [rs1] = true →
    tssDecode s.cfg (s.readX rs1) (sew s.vtype) = .subset u →
    ∃ t, exec (.vtmvTV rs1 vs2) s = .next t ∧
      SubsetResult s t u (sew s.vtype) (fun i => velem s vs2.toNat i (sew s.vtype)) ∧
      (s.vstart < tn s (sew s.vtype) → MsDirtied s t) ∧ MsFollowsTile s t ∧ ZvmEnd s t ∧
      t = { s.endFromMs t with ts := t.ts }

/-- R190: the moves raise illegal-instruction with VS or MS Off, `vill` set (log 18), a vector register that is no multiple of LMUL
(log 12) or a reserved TSS under the policy `illegal` (log 14), as with a register that an E base lacks (log 60). -/
def Obligations.MoveChecks : Prop :=
  ∀ (s : State) (v : VReg) (rs1 : XReg), ∀ i ∈ [Instr.vtmvVT v rs1, .vtmvTV rs1 v],
    vsOff s = true ∨ msOff s = true ∨ s.vtype.vill = true ∨ v.toNat % lmulRegs s.vtype ≠ 0
      ∨ xregsExist s.cfg [rs1] = false ∨ s.cfg.tssPolicy = .illegal ∧ tssReserved s.cfg (s.readX rs1) (sew s.vtype) = true →
    exec i s = .next (illegal (encode i) s)

/-! ### Tile zero and discard -/

/-- R260: `vtzero.t` zeroes the `tm` by `tn` submatrix of the tile; its other elements are agnostic, other tiles unchanged (the
element width is log 19's). -/
def Obligations.VtzeroResult : Prop :=
  ∀ (s : State) (mtd : Tile) (w : Nat), s.Inv → vsOff s = false → msOff s = false → s.vtype.vill = false →
    s.vstart = 0 → twidenOf s.cfg s.mtype.mtwiden = some w → mtd.toNat % tileStep (sew s.vtype * w) = 0 →
    ∃ t, exec (.vtzeroT mtd) s = .next t ∧
      TileResult s t (sew s.vtype * w) mtd.toNat (fun _ _ => 0) ∧
      (s.mtype.tm ≠ 0#14 → tn s (sew s.vtype * w) ≠ 0 → MsDirtied s t) ∧ MsFollowsTile s t ∧ ZvmEnd s t ∧
      t = { s.endFromMs t with ts := t.ts }

/-- R260: the six checks of `vtzero.t` (`vill`: log 18; `vstart` and the width: log 19; the tile specifier: log 12). -/
def Obligations.VtzeroChecks : Prop :=
  ∀ (s : State) (mtd : Tile),
    vsOff s = true ∨ msOff s = true ∨ s.vtype.vill = true ∨ s.vstart ≠ 0 ∨ s.mtype.mtwiden = 0#2
      ∨ (∃ w, twidenOf s.cfg s.mtype.mtwiden = some w ∧ mtd.toNat % tileStep (sew s.vtype * w) ≠ 0) →
    exec (.vtzeroT mtd) s = .next (illegal (encode (.vtzeroT mtd)) s)

/-- R261: `vtdiscard` sets MS to Initial in the registers in effect, whatever `mtwiden` is, and raises illegal-instruction with MS
Off or `vill` set; the bytes it leaves are free values (log 44). -/
def Obligations.VtdiscardResult : Prop :=
  ∀ s : State,
    (vsOff s = false → msOff s = false → s.vtype.vill = false →
      ∃ t, exec .vtdiscard s = .next t ∧ t.mstatus.ms = .on .initial ∧
        t.vsstatus.ms = (if s.virt then .on .initial else s.vsstatus.ms) ∧ t.ts.length = s.ts.length ∧
        (∀ o, o < s.ts.length → readByte t.ts o = Config.discardedByte s.draws o) ∧
        ZvmEnd s t ∧ t = { s.endFromMs t with ts := t.ts }) ∧
    (vsOff s = true ∨ msOff s = true ∨ s.vtype.vill = true →
      exec .vtdiscard s = .next (illegal (encode .vtdiscard) s))

/-! ### Matrix arithmetic -/

/-- R214: each of the ten checks raises illegal-instruction and nothing else (check 4: log 18; checks 6 and 7: log 20; checks 8 and 9:
log 12; checks 3 and 10: log 32). With the unit not configured all of them trap under the default `MM_UNCONFIGURED`; under `nop` all
but check 8 still do, check 7 where no TWIDEN gives the form a meaning (log 20). -/
def Obligations.MatrixChecks : Prop :=
  ∀ (s : State) (mtd : Tile) (vs2 vs1 : VReg), ∀ p ∈ matrixInstrs mtd vs2 vs1,
    (vsOff s = true ∨ msOff s = true ∨ (p.2.isFloat = true ∧ fsOff s = true) ∨ s.vtype.vill = true ∨ s.vstart ≠ 0
      ∨ (s.mtype.mtwiden = 0#2 ∧ (s.cfg.mmUnconfigured = .illegal
          ∨ ∀ w ∈ [1, 2, 4], ¬ DefinedCombination s.cfg p.2 (sew s.vtype) w s.vtype.altfmt))
      ∨ (∃ w, twidenOf s.cfg s.mtype.mtwiden = some w ∧
          (¬ DefinedCombination s.cfg p.2 (sew s.vtype) w s.vtype.altfmt ∨ mtd.toNat % tileStep (sew s.vtype * w) ≠ 0))
      ∨ ¬ SpecifierAllowed s vs1 ∨ ¬ SpecifierAllowed s vs2 ∨ (p.2.isFloat = true ∧ 5 ≤ s.frm.toNat)) →
    exec p.1 s = .next (illegal (encode p.1) s)

/-- R215: with a zero dimension no computation is performed and no state is updated but `pc` and `vstart`; VS, and FS for a
floating-point form, may go Dirty (log 42). An unconfigured unit under the policy `nop` of R214 does the same when the checks that
need no TWIDEN pass (log 20). -/
def Obligations.ZeroSizeMatrixOperation : Prop :=
  ∀ (s : State) (mtd : Tile) (vs2 vs1 : VReg), ∀ p ∈ matrixInstrs mtd vs2 vs1,
    (∃ w, twidenOf s.cfg s.mtype.mtwiden = some w ∧ DefinedCombination s.cfg p.2 (sew s.vtype) w s.vtype.altfmt ∧
      MatrixChecksPass s p.2.isFloat (sew s.vtype * w) mtd vs2 vs1 ∧
      (s.mtype.tm = 0#14 ∨ tn s (sew s.vtype * w) = 0 ∨ s.mtype.tk = 0#3))
      ∨ (s.mtype.mtwiden = 0#2 ∧ s.cfg.mmUnconfigured = .nop ∧ MatrixSourcesPass s p.2.isFloat vs2 vs1 ∧
        ∃ w ∈ [1, 2, 4], DefinedCombination s.cfg p.2 (sew s.vtype) w s.vtype.altfmt) →
    ∃ t, exec p.1 s = .next t ∧ PcAdvanced s t ∧ t.vstart = 0 ∧ MsKept s t ∧ (VsKept s t ∨ VsDirtied s t) ∧
      (FsKept s t ∨ p.2.isFloat = true ∧ FsDirtied s t) ∧ t = s.endFromFs t

/-- R233, R229 to R232: the integer instructions add the exact sum of products to each body element, modulo 2^32 (log 21). -/
def Obligations.IntegerMatrixAccumulates : Prop :=
  ∀ (s : State) (mtd : Tile) (vs2 vs1 : VReg), s.Inv → twidenOf s.cfg s.mtype.mtwiden = some 4 → sew s.vtype = 8 →
    s.vtype.altfmt = false → s.cfg.ext.zvm32a8i = true → MatrixChecksPass s false 32 mtd vs2 vs1 → NotEmpty s 32 →
    ∀ p ∈ [(Instr.mmUU mtd vs2 vs1, false, false), (.mmSU mtd vs2 vs1, true, false),
        (.mmUS mtd vs2 vs1, false, true), (.mmSS mtd vs2 vs1, true, true)],
      ∃ t, exec p.1 s = .next t ∧
        TileResult s t 32 mtd.toNat (fun i j =>
          (((leValue (tileElem s 32 mtd.toNat i j) : Int) + ((List.range s.mtype.tk.toNat).map fun k =>
            int8 p.2.1 (opnd s vs2 k i) * int8 p.2.2 (opnd s vs1 k j)).sum) % 2 ^ 32).toNat) ∧
        MsDirtied s t ∧ ZvmEnd s t ∧ t = { s.endFromMs t with ts := t.ts }

/-- R219, R223: `mm.f.f` at SEW = 32 and 64 multiplies, then adds, by the two members of NUMERICS in the format of the accumulator
(log 30; IeeeRounding says what their defaults compute). -/
def Obligations.IeeeMatrixAccumulates : Prop :=
  ∀ (s : State) (mtd : Tile) (vs2 vs1 : VReg) (f : FpFormat) (w : Nat), s.Inv →
    (f = .fp32 ∧ w = 32 ∧ s.cfg.ext.zvm32a32f = true) ∨ (f = .fp64 ∧ w = 64 ∧ s.cfg.ext.zvm64a64f = true) →
    twidenOf s.cfg s.mtype.mtwiden = some 1 → sew s.vtype = w → s.vtype.altfmt = false →
    MatrixChecksPass s true w mtd vs2 vs1 → NotEmpty s w →
    ∃ t, exec (.mmFF mtd vs2 vs1) s = .next t ∧
      TileResult s t w mtd.toNat (fun i j =>
        (numericsAdd s.cfg.numerics f s.frm (leValue (tileElem s w mtd.toNat i j)) (numericsMul s.cfg.numerics f s.frm (opnd s vs2 0 i) (opnd s vs1 0 j)).1).1) ∧
      FlagsResult s t w (fun i j =>
        (numericsMul s.cfg.numerics f s.frm (opnd s vs2 0 i) (opnd s vs1 0 j)).2 |||
          (numericsAdd s.cfg.numerics f s.frm (leValue (tileElem s w mtd.toNat i j)) (numericsMul s.cfg.numerics f s.frm (opnd s vs2 0 i) (opnd s vs1 0 j)).1).2) ∧
      MsDirtied s t ∧ FsDirtied s t ∧ ZvmEnd s t ∧ t = { s.endFromFs t with ts := t.ts, fflags := t.fflags }

/-- R220, R223, R225 to R228: the OCP FP8 instructions and `mm.f.f` at SEW = 16 combine the `tk` products of an element into one
FP32 value, which no statement knows (log 31), and add it to the accumulator in binary32 under `frm`, by the member of NUMERICS
(log 30). -/
def Obligations.BulkMatrixAccumulates : Prop :=
  ∀ (s : State) (mtd : Tile) (vs2 vs1 : VReg) (twiden : Nat), s.Inv →
    twidenOf s.cfg s.mtype.mtwiden = some twiden → sew s.vtype * twiden = 32 →
    MatrixChecksPass s true 32 mtd vs2 vs1 → NotEmpty s 32 →
    ∀ p ∈ [(Instr.mmFF mtd vs2 vs1, FpFormat.fp16, FpFormat.fp16, 16), (.mmFF mtd vs2 vs1, .bf16, .bf16, 16),
        (.mmE5m2E5m2 mtd vs2 vs1, .e5m2, .e5m2, 8), (.mmE5m2E4m3 mtd vs2 vs1, .e5m2, .e4m3, 8),
        (.mmE4m3E5m2 mtd vs2 vs1, .e4m3, .e5m2, 8), (.mmE4m3E4m3 mtd vs2 vs1, .e4m3, .e4m3, 8)],
      sew s.vtype = p.2.2.2 → (s.vtype.altfmt = true ↔ p.2.1 = .bf16) →
      (p.2.2.2 = 16 → s.cfg.ext.zvm32a16f = true) → (p.2.2.2 = 8 → s.cfg.ext.zvm32a8f = true) →
      ∃ t, exec p.1 s = .next t ∧
        TileResult s t 32 mtd.toNat (fun i j => (numericsAdd s.cfg.numerics .fp32 s.frm (leValue (tileElem s 32 mtd.toNat i j))
          (Config.bulkDot p.2.1 p.2.2.1 (bulkPairs s vs2 vs1 i j)).1.toNat).1) ∧
        FlagsResult s t 32 (fun i j => (Config.bulkDot p.2.1 p.2.2.1 (bulkPairs s vs2 vs1 i j)).2 |||
          (numericsAdd s.cfg.numerics .fp32 s.frm (leValue (tileElem s 32 mtd.toNat i j))
            (Config.bulkDot p.2.1 p.2.2.1 (bulkPairs s vs2 vs1 i j)).1.toNat).2) ∧
        MsDirtied s t ∧ FsDirtied s t ∧ ZvmEnd s t ∧ t = { s.endFromFs t with ts := t.ts, fflags := t.fflags }

/-- R224: `p2mm.f.f` does the same with the `2*tk` pairs of FP4 fields (log 31, log 56); only the last addition sets a flag. -/
def Obligations.PackedMatrixAccumulates : Prop :=
  ∀ (s : State) (mtd : Tile) (vs2 vs1 : VReg), s.Inv → twidenOf s.cfg s.mtype.mtwiden = some 4 → sew s.vtype = 8 →
    s.vtype.altfmt = false → s.cfg.ext.zvm32a4f = true → MatrixChecksPass s true 32 mtd vs2 vs1 → NotEmpty s 32 →
    ∃ t, exec (.p2mmFF mtd vs2 vs1) s = .next t ∧
      TileResult s t 32 mtd.toNat (fun i j => (numericsAdd s.cfg.numerics .fp32 s.frm (leValue (tileElem s 32 mtd.toNat i j))
        (Config.bulkDot .fp4 .fp4 (packedPairs s vs2 vs1 i j)).1.toNat).1) ∧
      FlagsResult s t 32 (fun i j => (numericsAdd s.cfg.numerics .fp32 s.frm (leValue (tileElem s 32 mtd.toNat i j))
        (Config.bulkDot .fp4 .fp4 (packedPairs s vs2 vs1 i j)).1.toNat).2) ∧
      MsDirtied s t ∧ FsDirtied s t ∧ ZvmEnd s t ∧ t = { s.endFromFs t with ts := t.ts, fflags := t.fflags }

/-- R218, R28: a floating-point matrix instruction clears no flag and never changes NX, UF or DZ; an integer one changes no flag;
neither writes `vxsat`. -/
def Obligations.MatrixFlags : Prop :=
  ∀ (i : Instr) (s t : State), exec i s = .next t →
    (i.isFloatMatrix = true → t.fflags &&& 0b01011#5 = s.fflags &&& 0b01011#5 ∧ t.fflags &&& s.fflags = s.fflags) ∧
    (i.isIntMatrix = true → t.fflags = s.fflags) ∧
    (i.isFloatMatrix = true ∨ i.isIntMatrix = true → t.vxsat = s.vxsat)

/-- R219: the invalid operations of the default multiplication and addition, and their canonical NaN: a NaN operand in either place,
zero times infinity, infinity minus infinity (log 30). -/
def Obligations.IeeeInvalidOperations : Prop :=
  ∀ (f : FpFormat) (rm : BitVec 3) (a b : Nat) (na nb : Bool) (m : Nat) (e : Int),
    ((∃ s, fpDecode f a = .nan s) ∨ (∃ s, fpDecode f b = .nan s) →
      ∀ r ∈ [numericsMul .ieee f rm a b, numericsAdd .ieee f rm a b],
        r = (fpCanonicalNan f, if fpDecode f a = .nan true ∨ fpDecode f b = .nan true then 0b10000#5 else 0#5)) ∧
    (fpDecode f a = .inf na → fpDecode f b = .finite nb 0 e →
      numericsMul .ieee f rm a b = (fpCanonicalNan f, 0b10000#5) ∧
      numericsMul .ieee f rm b a = (fpCanonicalNan f, 0b10000#5)) ∧
    (fpDecode f a = .inf na → fpDecode f b = .inf nb →
      numericsMul .ieee f rm a b = (fpSignBit f (na ^^ nb) + fpInfinity f, 0#5) ∧
      numericsAdd .ieee f rm a b =
        if na = nb then (fpSignBit f na + fpInfinity f, 0#5) else (fpCanonicalNan f, 0b10000#5)) ∧
    (fpDecode f a = .inf na → fpDecode f b = .finite nb m e →
      (0 < m → numericsMul .ieee f rm a b = (fpSignBit f (na ^^ nb) + fpInfinity f, 0#5)) ∧
      numericsAdd .ieee f rm a b = (fpSignBit f na + fpInfinity f, 0#5)) ∧
    fpCanonicalNan .fp32 = 0x7FC00000 ∧ fpCanonicalNan .fp64 = 0x7FF8000000000000

/-- R219: on finite operands the default multiplication and addition are correctly rounded: the exact product or sum, rounded by `frm`
with no bound on the exponent, is the result when it is at most the largest finite value; else OF is set and the result is infinity
or that value. An exact zero sum of opposite signs is +0, or -0 when rounding down (IEEE 754's, log 30). -/
def Obligations.IeeeRounding : Prop :=
  ∀ (f : FpFormat) (rm : BitVec 3) (a b : Nat) (na nb : Bool) (ma mb : Nat) (ea eb : Int), f ∈ [FpFormat.fp32, .fp64] →
    rm.toNat < 5 → fpDecode f a = .finite na ma ea → fpDecode f b = .finite nb mb eb →
    (ma : ℚ) * 2 ^ ea = fpMagnitude f (a % 2 ^ (fpFracBits f + fpExpBits f)) ∧
    (∃ k, RoundsTo f rm.toNat (na ^^ nb) (((ma : ℚ) * 2 ^ ea) * ((mb : ℚ) * 2 ^ eb)) k ∧
      numericsMul .ieee f rm a b = roundedResult f rm.toNat (na ^^ nb) k) ∧
    (∃ x : ℚ, x = signedValue na ma ea + signedValue nb mb eb ∧
      (x ≠ 0 → ∃ k, RoundsTo f rm.toNat (decide (x < 0)) |x| k ∧
        numericsAdd .ieee f rm a b = roundedResult f rm.toNat (decide (x < 0)) k) ∧
      (x = 0 → numericsAdd .ieee f rm a b = (fpSignBit f (if na = nb then na else rm == 2#3), 0#5)))

/-- R219: IEEE 754 addition and multiplication do not depend on the order of their operands (log 30). -/
def Obligations.IeeeCommutes : Prop :=
  ∀ (f : FpFormat) (rm : BitVec 3) (a b : Nat), fpAdd f rm a b = fpAdd f rm b a ∧ fpMul f rm a b = fpMul f rm b a

/-! ### Host subset -/

/-- R280, R281, R282: `addi`, `slli` and `add` write their result modulo 2^XLEN and nothing else; a write of `x0` is discarded (R21). -/
def Obligations.HostArithmetic : Prop :=
  ∀ (s : State) (rd rs1 rs2 : XReg) (imm : BitVec 12) (shamt : BitVec 6), xregsExist s.cfg [rd, rs1, rs2] = true →
    shamt.toNat < s.cfg.xlenBits →
    ∀ p ∈ [(Instr.addi rd rs1 imm, ((s.readX rs1).toNat : Int) + imm.toInt),
        (.slli rd rs1 shamt, ((s.readX rs1).toNat : Int) * 2 ^ shamt.toNat),
        (.add rd rs1 rs2, ((s.readX rs1).toNat : Int) + (s.readX rs2).toNat)],
      ∃ t, exec p.1 s = .next t ∧ WroteX s t rd (p.2 % 2 ^ s.cfg.xlenBits).toNat ∧ PcAdvanced s t ∧
        t = { s with x := t.x, pc := t.pc }

/-- R281, R109, R301 cause 16, and the E base of R21 (log 60): a reserved shift amount, and a number at or above NXREG in any integer
register field of any instruction, raise illegal-instruction. -/
def Obligations.ReservedShiftsAndRegisters : Prop :=
  ∀ s : State,
    (∀ (rd rs1 : XReg) (shamt : BitVec 6), s.cfg.xlenBits ≤ shamt.toNat →
      exec (.slli rd rs1 shamt) s = .next (illegal (encode (.slli rd rs1 shamt)) s)) ∧
    (∀ (i : Instr) (r : XReg), r ∈ i.xregs → s.cfg.nxregs ≤ r.toNat → exec i s = .next (illegal (encode i) s))

/-- R283: `bne`. A taken branch to an aligned target goes there, a branch not taken goes on, and a taken branch to a misaligned
target raises instruction-address-misaligned at the branch's own `pc`. -/
def Obligations.BranchResult : Prop :=
  ∀ (s : State) (rs1 rs2 : XReg) (offset : BitVec 13), xregsExist s.cfg [rs1, rs2] = true →
    (s.readX rs1 = s.readX rs2 →
      ∃ t, exec (.bne rs1 rs2 offset) s = .next t ∧ PcAdvanced s t ∧ t = { s with pc := t.pc }) ∧
    (s.readX rs1 ≠ s.readX rs2 → ((s.pc.toNat : Int) + offset.toInt) % 4 = 0 →
      ∃ t, exec (.bne rs1 rs2 offset) s = .next t ∧
        (t.pc.toNat : Int) = ((s.pc.toNat : Int) + offset.toInt) % 2 ^ s.cfg.xlenBits ∧ t = { s with pc := t.pc }) ∧
    (s.readX rs1 ≠ s.readX rs2 → ((s.pc.toNat : Int) + offset.toInt) % 4 ≠ 0 →
      ∃ v, exec (.bne rs1 rs2 offset) s = .next (takeException .instrAddressMisaligned v s))

/-- R284, R42, R263: `csrrs` of `mtype`: illegal with VS Off (MS does not matter) or with `rs1` other than `x0`, else `x[rd]`
receives (tm << 10) | (tk << MTYPE_TK_LSB) | mtwiden (the place of `tk`: log 9; the reserved bits, R46: log 10); the other CSR instructions that would write it decode as illegal. -/
def Obligations.CsrReadOfMtype : Prop :=
  (∀ (s : State) (rd rs1 : XReg), s.cfg.wf = true → xregsExist s.cfg [rd, rs1] = true →
    (vsOff s = true → exec (.csrrs rd 0xC23#12 rs1) s = .next (illegal (encode (.csrrs rd 0xC23#12 rs1)) s)) ∧
    (rs1 ≠ 0#5 → exec (.csrrs rd 0xC23#12 rs1) s = .next (illegal (encode (.csrrs rd 0xC23#12 rs1)) s)) ∧
    (vsOff s = false → ∃ t, exec (.csrrs rd 0xC23#12 0#5) s = .next t ∧
      WroteX s t rd (s.mtype.tm.toNat * 2 ^ 10 + s.mtype.tk.toNat * 2 ^ tkLsb s.cfg + s.mtype.mtwiden.toNat) ∧
      PcAdvanced s t ∧ t = { s with x := t.x, pc := t.pc })) ∧
  (∀ w : InstrWord, field w 0 7 = 0x73#7 → field w 20 12 = 0xC23#12 →
    field w 12 3 = 1#3 ∨ field w 12 3 = 5#3
      ∨ ((field w 12 3 = 3#3 ∨ field w 12 3 = 6#3 ∨ field w 12 3 = 7#3) ∧ fieldRs1 w ≠ 0#5) →
    decode w = .reservedEncoding)

/-- R30, R55, R57, R58: `csrrs` of every CSR the model holds (log 50): `x[rd]` receives the value, which for a status register shows MS
and SD at their places; with `rs1` = `x0` nothing else changes, with another `rs1` the CSR is written with the bits of `x[rs1]` set
(what `vstart` keeps: log 64). -/
def Obligations.CsrAccessCompletes : Prop :=
  ∀ (s : State) (rd rs1 : XReg) (n : BitVec 12) (r : Csr), s.cfg.wf = true → xregsExist s.cfg [rd, rs1] = true →
    csrOfNumber n = some r → csrAccess s r (!(rs1 == 0#5)) = .granted →
    ∃ t, exec (.csrrs rd n rs1) s = .next t ∧
      WroteX s t rd (truncX s.cfg (csrRead s (csrTarget s r))).toNat ∧ PcAdvanced s t ∧
      (csrTarget s r = .mstatus ∨ csrTarget s r = .sstatus → StatusRead s.cfg (truncX s.cfg (csrRead s (csrTarget s r)))
        s.mstatus.vs s.mstatus.fs s.mstatus.xs s.mstatus.ms) ∧
      (csrTarget s r = .vsstatus → StatusRead s.cfg (truncX s.cfg (csrRead s .vsstatus))
        s.vsstatus.vs s.vsstatus.fs s.vsstatus.xs s.vsstatus.ms) ∧
      (rs1 = 0#5 → t = { s with x := t.x, pc := t.pc }) ∧
      (rs1 ≠ 0#5 →
        t = { csrWrite s (csrTarget s r) (csrRead s (csrTarget s r) ||| s.readX rs1) with x := t.x, pc := t.pc } ∧
        (r = .vstart → t.vstart = (s.vstart % 2 ^ s.cfg.xlenBits ||| (s.readX rs1).toNat) % s.cfg.vlen) ∧
        (r = .frm → t.frm = s.frm ||| (s.readX rs1).extractLsb' 0 3) ∧
        (r = .fflags → t.fflags = s.fflags ||| (s.readX rs1).extractLsb' 0 5))

/-- R309 and the privilege of a CSR number (PRESUMED, log 51): user mode reaches no supervisor, hypervisor or machine CSR, and
supervisor mode no machine CSR: the access traps and changes only trap state. -/
def Obligations.CsrPrivilegeTraps : Prop :=
  ∀ (s : State) (rd rs1 : XReg) (n : BitVec 12) (r : Csr), xregsExist s.cfg [rd, rs1] = true →
    csrOfNumber n = some r →
    (s.priv = .user ∧ csrLevel r ≠ .user) ∨ (s.priv = .supervisor ∧ csrLevel r = .machine) →
    ∃ e ∈ [Exception.illegalInstruction, .virtualInstruction], ∃ v,
      exec (.csrrs rd n rs1) s = .next (takeException e v s)

/-! ### Whole-machine rules -/

/-- R59, R309: while MS is Off the machine neither reads nor writes the tile state: two states that differ only there take the same
step of every instruction. -/
def Obligations.MsOffHidesTileState : Prop :=
  ∀ (i : Instr) (s : State) (ts : List Byte), msOff s = true →
    exec i { s with ts := ts } = mapNext (fun t => { t with ts := ts }) (exec i s)

/-- R309: less privileged software cannot turn the matrix unit back on: in user mode, or with V = 1, an Off MS field of `mstatus`
stays Off across every step; VS and FS likewise, by the privilege of the status CSRs (log 51) and the gates of the vector and
floating-point CSRs (log 50). -/
def Obligations.OffFieldsStayOff : Prop :=
  ∀ s t : State, ModeInv s → s.priv = .user ∨ s.virt = true → step s = .next t →
    (s.mstatus.ms = .off → t.mstatus.ms = .off) ∧ (s.mstatus.vs = .off → t.mstatus.vs = .off) ∧
    (s.mstatus.fs = .off → t.mstatus.fs = .off)

/-- R73, R280 to R284: no instruction but the four tile stores changes memory. -/
def Obligations.OnlyTileStoresWriteMemory : Prop :=
  ∀ (i : Instr) (s t : State), (∀ rs1 rs2, ∀ p ∈ tileStores rs1 rs2, i ≠ p.1) → exec i s = .next t →
    ∀ a, memRead t.mem a = memRead s.mem a
end

