-- ==== Sys2Proof/Laws/Buffers.lean ====
section
/-! SUPPORT. The laws of the byte buffers (the tile state and the vector registers): what a list of writes leaves, and
little-endian values. -/

namespace Sys2Proof.Machine

/-! ### One write -/

@[simp] theorem writeBytes_length (buf : List Byte) (o : Nat) (bs : List Byte) :
    (writeBytes buf o bs).length = buf.length := by
  induction bs generalizing buf o with
  | nil => rfl
  | cons b bs ih => simp [writeBytes, ih]

theorem readByte_writeBytes (buf : List Byte) (o : Nat) (bs : List Byte) (k : Nat) (hk : k < buf.length) :
    readByte (writeBytes buf o bs) k = if o ≤ k ∧ k < o + bs.length then bs.getD (k - o) 0#8 else readByte buf k := by
  induction bs generalizing buf o with
  | nil =>
    have : ¬ (o ≤ k ∧ k < o + ([] : List Byte).length) := by simp only [List.length_nil]; omega
    rw [if_neg this]; rfl
  | cons b bs ih =>
    simp only [writeBytes]
    rw [ih (buf.set o b) (o + 1) (by simpa using hk)]
    by_cases h1 : o = k
    · subst h1
      have e1 : ¬ (o + 1 ≤ o ∧ o < o + 1 + bs.length) := by omega
      have e2 : o ≤ o ∧ o < o + (b :: bs).length := by simp
      rw [if_neg e1, if_pos e2]
      simp [readByte, List.getD, hk]
    · by_cases h2 : o + 1 ≤ k ∧ k < o + 1 + bs.length
      · have e2 : o ≤ k ∧ k < o + (b :: bs).length := by simp only [List.length_cons]; omega
        rw [if_pos h2, if_pos e2, show k - o = (k - (o + 1)) + 1 by omega]
        simp
      · have e2 : ¬ (o ≤ k ∧ k < o + (b :: bs).length) := by simp only [List.length_cons]; omega
        rw [if_neg h2, if_neg e2]
        simp [readByte, List.getD, List.getElem?_set_ne h1]

theorem readByte_of_length_le {buf : List Byte} {k : Nat} (h : buf.length ≤ k) : readByte buf k = 0#8 := by
  simp [readByte, List.getD, List.getElem?_eq_none h]

/-- A byte outside the bytes written keeps its value. -/
theorem readByte_writeBytes_outside (buf : List Byte) (o : Nat) (bs : List Byte) (k : Nat)
    (h : k < o ∨ o + bs.length ≤ k) : readByte (writeBytes buf o bs) k = readByte buf k := by
  by_cases hk : k < buf.length
  · rw [readByte_writeBytes buf o bs k hk, if_neg (by omega)]
  · rw [readByte_of_length_le (by simp; omega), readByte_of_length_le (by omega)]

/-! ### Lists of writes -/

@[simp] theorem overlay_nil (buf : List Byte) : overlay buf [] = buf := rfl

theorem overlay_cons (buf : List Byte) (w : Nat × List Byte) (ws : List (Nat × List Byte)) :
    overlay buf (w :: ws) = overlay (writeBytes buf w.1 w.2) ws := rfl

theorem overlay_append (buf : List Byte) (ws vs : List (Nat × List Byte)) :
    overlay buf (ws ++ vs) = overlay (overlay buf ws) vs := by simp [overlay, List.foldl_append]

@[simp] theorem overlay_length (buf : List Byte) (ws : List (Nat × List Byte)) : (overlay buf ws).length = buf.length := by
  induction ws generalizing buf with
  | nil => rfl
  | cons w ws ih => rw [overlay_cons, ih, writeBytes_length]

/-- A byte that no write covers keeps its value. -/
theorem readByte_overlay_outside (buf : List Byte) (ws : List (Nat × List Byte)) (k : Nat)
    (h : ∀ w ∈ ws, k < w.1 ∨ w.1 + w.2.length ≤ k) : readByte (overlay buf ws) k = readByte buf k := by
  induction ws generalizing buf with
  | nil => rfl
  | cons w ws ih =>
    rw [overlay_cons, ih _ fun x hx => h x (List.mem_cons_of_mem _ hx),
      readByte_writeBytes_outside _ _ _ _ (h w (List.mem_cons_self ..))]

@[simp] theorem readBytes_length (buf : List Byte) (o n : Nat) : (readBytes buf o n).length = n := by simp [readBytes]

theorem readBytes_congr {buf buf' : List Byte} {o n : Nat} (h : ∀ k, o ≤ k → k < o + n → readByte buf k = readByte buf' k) :
    readBytes buf o n = readBytes buf' o n := by
  apply List.map_congr_left
  intro k hk
  exact h (o + k) (by omega) (by have := List.mem_range.1 hk; omega)

/-- Bytes that no write overlaps keep their values. -/
theorem readBytes_overlay_outside (buf : List Byte) (ws : List (Nat × List Byte)) (o n : Nat)
    (h : ∀ w ∈ ws, o + n ≤ w.1 ∨ w.1 + w.2.length ≤ o) : readBytes (overlay buf ws) o n = readBytes buf o n :=
  readBytes_congr fun k h1 h2 => readByte_overlay_outside buf ws k fun w hw => by have := h w hw; omega

/-- Writing back the bytes that a buffer holds changes nothing. -/
theorem writeBytes_readBytes (buf : List Byte) (o n : Nat) : writeBytes buf o (readBytes buf o n) = buf := by
  induction n generalizing o with
  | zero => rfl
  | succ n ih =>
    have h1 : readBytes buf o (n + 1) = readByte buf o :: readBytes buf (o + 1) n := by
      simp only [readBytes, List.range_succ_eq_map, List.map_cons, List.map_map, Nat.add_zero]
      congr 1
      exact List.map_congr_left fun k _ => by simp [Nat.add_comm 1 k, Nat.add_assoc]
    have h2 : buf.set o (readByte buf o) = buf := by
      by_cases h : o < buf.length
      · simp [readByte, List.getD, h]
      · exact List.set_eq_of_length_le (Nat.not_lt.1 h)
    rw [h1, writeBytes, h2, ih]

/-- Writes that all write back the bytes that a buffer holds change nothing. -/
theorem overlay_self {buf : List Byte} {ws : List (Nat × List Byte)} (h : ∀ w ∈ ws, ∃ n, w.2 = readBytes buf w.1 n) :
    overlay buf ws = buf := by
  induction ws with
  | nil => rfl
  | cons w ws ih =>
    obtain ⟨n, hn⟩ := h w (List.mem_cons_self ..)
    rw [overlay_cons, hn, writeBytes_readBytes]
    exact ih fun x hx => h x (List.mem_cons_of_mem _ hx)

theorem agnosticBytes_false (old : List Byte) : agnosticBytes false old = old := by simp [agnosticBytes]

theorem readBytes_writeBytes_self (buf : List Byte) (o : Nat) (bs : List Byte) (h : o + bs.length ≤ buf.length) :
    readBytes (writeBytes buf o bs) o bs.length = bs := by
  apply List.ext_getElem (by simp)
  intro i h1 h2
  have hi : i < bs.length := h2
  simp only [readBytes, List.getElem_map, List.getElem_range]
  rw [readByte_writeBytes buf o bs (o + i) (by omega), if_pos (by omega)]
  simp [List.getD, hi]

/-- Two writes do not overlap. -/
def ApartWrites (w v : Nat × List Byte) : Prop := w.1 + w.2.length ≤ v.1 ∨ v.1 + v.2.length ≤ w.1

/-- The bytes of one of several writes that do not overlap are read back. -/
theorem readBytes_overlay_of_mem (buf : List Byte) (ws : List (Nat × List Byte)) (o : Nat) (bs : List Byte)
    (hd : ws.Pairwise ApartWrites) (hm : (o, bs) ∈ ws) (hl : o + bs.length ≤ buf.length) :
    readBytes (overlay buf ws) o bs.length = bs := by
  induction ws generalizing buf with
  | nil => simp at hm
  | cons w ws ih =>
    rw [List.pairwise_cons] at hd
    rw [overlay_cons]
    rcases List.mem_cons.1 hm with rfl | hm
    · rw [readBytes_overlay_outside _ _ _ _ fun v hv => by have := hd.1 v hv; simp only [ApartWrites] at this; omega,
        readBytes_writeBytes_self buf o bs hl]
    · exact ih _ hd.2 hm (by simpa using hl)

/-! ### Agnostic elements -/

@[simp] theorem agnosticBytes_length (b : Bool) (old : List Byte) : (agnosticBytes b old).length = old.length := by
  simp [agnosticBytes]

/-- An agnostic element keeps its bytes or becomes all ones. -/
theorem agnosticBytes_cases (b : Bool) (old : List Byte) :
    agnosticBytes b old = old ∨ agnosticBytes b old = List.replicate old.length 0xFF#8 := by
  cases b
  · left; simp [agnosticBytes]
  · right; simp [agnosticBytes, List.map_const']

/-! ### Little-endian values -/

@[simp] theorem leBytes_length (n v : Nat) : (leBytes n v).length = n := by
  induction n generalizing v with
  | zero => rfl
  | succ n ih => simp [leBytes, ih]

theorem leValue_lt (bs : List Byte) : leValue bs < 256 ^ bs.length := by
  induction bs with
  | nil => simp [leValue]
  | cons b bs ih => simp only [leValue, List.length_cons, pow_succ]; have := b.isLt; omega

/-- The value of the low bytes of a number (R37). -/
theorem leValue_leBytes (n v : Nat) : leValue (leBytes n v) = v % 256 ^ n := by
  induction n generalizing v with
  | zero => simp [leBytes, leValue, Nat.mod_one]
  | succ n ih =>
    rw [leBytes, leValue, ih, BitVec.toNat_ofNat, Nat.pow_succ 256, Nat.mul_comm (256 ^ n) 256, Nat.mod_mul]

/-- Bytes are the low bytes of their value (R37). -/
theorem leBytes_leValue (bs : List Byte) : leBytes bs.length (leValue bs) = bs := by
  induction bs with
  | nil => rfl
  | cons b bs ih =>
    have hb := b.isLt
    simp only [List.length_cons, leBytes, leValue]
    rw [show (b.toNat + 256 * leValue bs) / 256 = leValue bs by omega, ih]
    congr 1
    apply BitVec.eq_of_toNat_eq
    rw [BitVec.toNat_ofNat]
    omega

end Sys2Proof.Machine
end

