-- ==== Sys2Proof/Laws/Words.lean ====
section
/-! SUPPORT. Register words: what `truncX`, `wordX`, `readX` and `writeX` do, as natural numbers (R11, R12, R21), and the fields of a CSR word (R55). -/

namespace Sys2Proof.Machine

theorem xlenBits_cases (c : Config) : c.xlenBits = 32 ∨ c.xlenBits = 64 := by
  unfold Config.xlenBits; cases c.xlen <;> simp

/-- A register value is taken modulo 2^XLEN. -/
theorem truncX_toNat (c : Config) (w : Word) : (truncX c w).toNat = w.toNat % 2 ^ c.xlenBits := by
  unfold truncX Config.xlenBits
  cases c.xlen with
  | rv32 =>
    have h := Nat.and_two_pow_sub_one_eq_mod w.toNat 32
    simpa using h
  | rv64 => exact (Nat.mod_eq_of_lt w.isLt).symm

theorem truncX_lt (c : Config) (w : Word) : (truncX c w).toNat < 2 ^ c.xlenBits := by
  rw [truncX_toNat]; exact Nat.mod_lt _ (by positivity)

theorem truncX_of_lt {c : Config} {w : Word} (h : w.toNat < 2 ^ c.xlenBits) : truncX c w = w := by
  apply BitVec.eq_of_toNat_eq; rw [truncX_toNat, Nat.mod_eq_of_lt h]

theorem two_pow_xlenBits_dvd (c : Config) : 2 ^ c.xlenBits ∣ 2 ^ 64 := by
  rcases xlenBits_cases c with h | h <;> norm_num [h]

theorem two_pow_xlenBits_le (c : Config) : 2 ^ c.xlenBits ≤ 2 ^ 64 := Nat.le_of_dvd (by norm_num) (two_pow_xlenBits_dvd c)

theorem le_two_pow_xlenBits (c : Config) : 2 ^ 32 ≤ 2 ^ c.xlenBits := by
  rcases xlenBits_cases c with h | h <;> norm_num [h]

/-- A number as a register value, modulo 2^XLEN. -/
theorem wordX_toNat (c : Config) (n : Nat) : (wordX c n).toNat = n % 2 ^ c.xlenBits := by
  rw [wordX, truncX_toNat, BitVec.toNat_ofNat, Nat.mod_mod_of_dvd _ (two_pow_xlenBits_dvd c)]

/-- The sum of a word and a sign-extended field, as a register value. -/
theorem truncX_add_toNat (c : Config) (a b : Word) (z : Int) (h : (b.toNat : Int) = z % 2 ^ 64) :
    ((truncX c (a + b)).toNat : Int) = ((a.toNat : Int) + z) % 2 ^ c.xlenBits := by
  have hd : (2 : Int) ^ c.xlenBits ∣ 2 ^ 64 := by exact_mod_cast Int.natCast_dvd_natCast.2 (two_pow_xlenBits_dvd c)
  rw [truncX_toNat, BitVec.toNat_add, Nat.mod_mod_of_dvd _ (two_pow_xlenBits_dvd c)]
  push_cast
  rw [h, Int.add_emod, Int.emod_emod_of_dvd z hd, ← Int.add_emod]

theorem signExtend64_toNat {n : Nat} (b : BitVec n) (h : n ≤ 64) : ((b.signExtend 64).toNat : Int) = b.toInt % 2 ^ 64 := by
  have h1 := BitVec.toInt_signExtend_of_le (x := b) h
  rw [← h1, BitVec.toInt_eq_toNat_cond]
  have := (b.signExtend 64).isLt
  split <;> omega

/-! ### Integer registers -/

@[simp] theorem readX_zero (s : State) : s.readX 0#5 = 0#64 := rfl

theorem readX_congr {s t : State} (h : t.x = s.x) (r : XReg) : t.readX r = s.readX r := by
  unfold State.readX; simp [h]

/-- What a register reads as after a write: the value modulo 2^XLEN, and `x0` reads 0. -/
theorem readX_writeX (s : State) (rd r : XReg) (v : Word) :
    (s.writeX rd v).readX r = if r = rd ∧ r ≠ 0#5 then truncX s.cfg v else s.readX r := by
  unfold State.writeX State.readX
  by_cases h0 : r = 0#5
  · simp [h0]
  · by_cases hd : rd = 0#5
    · have : r ≠ rd := by rw [hd]; exact h0
      simp [h0, hd]
    · by_cases he : r = rd
      · subst he; simp [h0]
      · have hn : rd.toNat ≠ r.toNat := fun h => he (BitVec.eq_of_toNat_eq h.symm)
        simp [h0, hd, he, Vector.getElem_set_ne _ _ hn]

/-- A state whose integer registers are those of a register write. -/
theorem wroteX_of_writeX {s t u : State} {rd : XReg} {v : Word} {n : Nat} (hu : t.x = (u.writeX rd v).x) (hx : u.x = s.x)
    (hv : (truncX u.cfg v).toNat = n) : WroteX s t rd n := by
  intro r
  rw [readX_congr hu, readX_writeX]
  split
  · exact hv
  · rw [readX_congr hx]

/-! ### The program counter -/

/-- `advance` moves `pc` by 4 modulo 2^XLEN. -/
theorem advance_pcAdvanced (s : State) : PcAdvanced s (advance s) := by
  unfold PcAdvanced advance
  show (truncX s.cfg (s.pc + 4#64)).toNat = _
  rw [truncX_toNat, BitVec.toNat_add, Nat.mod_mod_of_dvd _ (two_pow_xlenBits_dvd s.cfg)]
  rfl

/-! ### Fields of a CSR word -/

theorem getLsbD_truncX (c : Config) (w : Word) (i : Nat) : (truncX c w).getLsbD i = (decide (i < c.xlenBits) && w.getLsbD i) := by
  unfold truncX Config.xlenBits
  cases c.xlen
  · have : (0xFFFFFFFF#64).getLsbD i = decide (i < 32) := by
      rcases Nat.lt_or_ge i 64 with h | h
      · interval_cases i <;> rfl
      · rw [BitVec.getLsbD_of_ge _ _ h]; simp; omega
    rw [BitVec.getLsbD_and, this, Bool.and_comm]
  · rcases Nat.lt_or_ge i 64 with h | h
    · simp [h]
    · rw [BitVec.getLsbD_of_ge _ _ h, Bool.and_false]

theorem getLsbD_bitAt (b : Bool) (pos i : Nat) : (bitAt b pos).getLsbD i = (decide (i = pos) && decide (pos < 64) && b) := by
  simp only [bitAt, BitVec.getLsbD_shiftLeft, BitVec.getLsbD_setWidth, BitVec.getLsbD_ofBool]
  by_cases h : i = pos
  · subst h; simp
  · have : ¬ (pos ≤ i ∧ i - pos = 0) := by omega
    by_cases h1 : pos ≤ i <;> simp [h, h1]
    omega

theorem getLsbD_statusAt (f : ContextStatus) (pos i : Nat) :
    (statusAt f pos).getLsbD i = (decide (pos ≤ i ∧ i < 64) && f.code.getLsbD (i - pos)) := by
  simp only [statusAt, BitVec.getLsbD_shiftLeft, BitVec.getLsbD_setWidth]
  by_cases h1 : pos ≤ i <;> by_cases h2 : i < 64 <;> simp [h1, h2, Nat.not_lt.2]
  omega

end Sys2Proof.Machine
end

