-- ==== Sys2Proof/Laws/Completion.lean ====
section
/-! SUPPORT. What the shared checks and ends of instructions do, each said once: `withXRegs`, `withConfigChecks`,
`withTileMemoryChecks`, `withMoveChecks`, `completeZvm`, the context-status transitions. -/

namespace Sys2Proof.Machine

/-! ### Frames -/

/-- A register write changes only the integer registers. -/
theorem writeX_frame (s : State) (r : XReg) (v : Word) : s.writeX r v = { s with x := (s.writeX r v).x } := by
  unfold State.writeX; split <;> rfl

/-- An instruction ends with `SetVSDirty()`, `vstart <- 0` and `pc + 4`: in terms of the state it started in. -/
theorem completeZvm_end {s u : State} (hc : u.cfg = s.cfg) (hp : u.pc = s.pc) (hv : u.virt = s.virt)
    (hg : u.vsstatus.vs = s.vsstatus.vs) : ZvmEnd s (completeZvm u) where
  pc := by
    have h := advance_pcAdvanced u
    simp only [PcAdvanced, completeZvm, advance] at h ⊢
    rw [← hp, ← hc]; exact h
  vstart := rfl
  vs := by cases h : u.mstatus.vs <;> simp [completeZvm, advance, dirtyVs, ContextStatus.dirtyIf, h]
  guestVs := by
    rw [← hg, ← hv]
    cases h : u.vsstatus.vs <;> cases h' : u.virt <;>
      simp [completeZvm, advance, dirtyVs, ContextStatus.dirtyIf, h, h']

@[simp] theorem dirtyIf_false (f : ContextStatus) : f.dirtyIf false = f := by cases f <;> rfl
@[simp] theorem dirtyIf_true (f : ContextStatus) : f.dirtyIf true = .on .dirty := by cases f <;> rfl

/-- A field made Dirty under a condition. -/
theorem dirtyIf_eq (b : Bool) (f : ContextStatus) : f.dirtyIf b = if b then .on .dirty else f := by cases b <;> simp

/-- A field that may go Dirty by itself is unchanged, or was not Off and is Dirty. -/
theorem mayGoDirty_cases (b : Bool) (f : ContextStatus) :
    f.mayGoDirty b = f ∨ b = true ∧ f ≠ .off ∧ f.mayGoDirty b = .on .dirty := by
  cases f <;> cases b <;> simp [ContextStatus.mayGoDirty]

@[simp] theorem isOff_iff (f : ContextStatus) : f.isOff = true ↔ f = .off := by cases f <;> simp [ContextStatus.isOff]

/-! ### The shared checks -/

theorem withXRegs_of_exist {s : State} {rs : List XReg} (h : xregsExist s.cfg rs = true) (i : Instr) (f : State → Result) :
    withXRegs i rs s f = f s := by simp [withXRegs, h]

theorem withXRegs_of_missing {s : State} {rs : List XReg} (h : xregsExist s.cfg rs = false) (i : Instr) (f : State → Result) :
    withXRegs i rs s f = .next (illegal (encode i) s) := by simp [withXRegs, h]

/-- Every answer of an instruction of the host subset: illegal for a missing register, else its effect. -/
theorem withXRegs_cases (i : Instr) (rs : List XReg) (s : State) (f : State → Result) :
    withXRegs i rs s f = .next (illegal (encode i) s) ∨ withXRegs i rs s f = f s := by
  unfold withXRegs; split
  · exact .inr rfl
  · exact .inl rfl

theorem withConfigChecks_run {s : State} {rs : List XReg} (hv : vsOff s = false) (h : xregsExist s.cfg rs = true) (i : Instr)
    (f : State → State) : withConfigChecks i rs s f = .next (completeZvm (f s)) := by simp [withConfigChecks, hv, h]

/-- Every answer of a configuration instruction. -/
theorem withConfigChecks_cases (i : Instr) (rs : List XReg) (s : State) (f : State → State) :
    withConfigChecks i rs s f = .next (illegal (encode i) s)
      ∨ vsOff s = false ∧ xregsExist s.cfg rs = true ∧ withConfigChecks i rs s f = .next (completeZvm (f s)) := by
  unfold withConfigChecks
  by_cases h : (vsOff s || !xregsExist s.cfg rs) = true
  · exact .inl (by rw [if_pos h])
  · refine .inr ?_
    simp only [Bool.or_eq_true, Bool.not_eq_true', not_or, Bool.not_eq_true, Bool.not_eq_false] at h
    simp [h]

theorem withTileMemoryChecks_run {s : State} {k : AccessKind} {w : Nat} {rs1 rs2 : XReg} {u : Subset}
    (h : TileAccessReady s k rs1 rs2 w u) (i : Instr) (f : Subset → State → State) :
    withTileMemoryChecks i k w rs1 rs2 s f = .next (f u s) := by
  have hi : ((bodyIndices s w).any fun j => touchesNonIdempotent s k (elemAddr s rs1 w j) (w / 8)) = false := by
    rw [List.any_eq_false]
    intro j hj
    have hj := List.mem_range'_1.1 hj
    simp [h.idempotent j hj.1 (by omega)]
  have hm : tileMemoryIllegal s w rs1 rs2 = false := by
    simp [tileMemoryIllegal, h.vs, h.ms, h.vill, h.regs, Nat.not_lt.2 h.width]
  simp [withTileMemoryChecks, hm, h.tss, h.endian, hi]

/-- Every next state of a tile load or store. -/
theorem withTileMemoryChecks_next {i : Instr} {k : AccessKind} {w : Nat} {rs1 rs2 : XReg} {s t : State}
    {f : Subset → State → State} (h : withTileMemoryChecks i k w rs1 rs2 s f = .next t) :
    t = illegal (encode i) s ∨ ∃ u, TileAccessReady s k rs1 rs2 w u ∧ t = f u s := by
  unfold withTileMemoryChecks at h
  split at h
  · injection h with h; exact .inl h.symm
  · rename_i hm
    split at h
    · injection h with h; exact .inl h.symm
    · cases h
    · rename_i u hu
      split at h
      · cases h
      · rename_i he
        split at h
        · cases h
        · rename_i hi
          injection h with h
          simp only [tileMemoryIllegal, Bool.or_eq_true, Bool.not_eq_true', decide_eq_true_eq, not_or, Bool.not_eq_true,
            Bool.not_eq_false, Nat.not_lt] at hm
          obtain ⟨⟨⟨⟨h1, h2⟩, h3⟩, h4⟩, h5⟩ := hm
          refine .inr ⟨u, ⟨h1, h2, h3, h4, h5, hu, by simpa using he, ?_⟩, h.symm⟩
          intro j hj1 hj2
          by_contra hn
          exact hi (List.any_eq_true.2 ⟨j, List.mem_range'_1.2 ⟨hj1, by omega⟩, by simpa using hn⟩)

/-- The checks of R190 pass for a vector operand, and the TSS names a subset. -/
structure MoveReady (s : State) (v : VReg) (rs1 : XReg) (u : Subset) : Prop where
  vs : vsOff s = false
  ms : msOff s = false
  vill : s.vtype.vill = false
  group : v.toNat % lmulRegs s.vtype = 0
  regs : xregsExist s.cfg [rs1] = true
  tss : tssDecode s.cfg (s.readX rs1) (sew s.vtype) = .subset u

theorem withMoveChecks_run {s : State} {v : VReg} {rs1 : XReg} {u : Subset} (h : MoveReady s v rs1 u) (i : Instr)
    (f : Subset → State → State) : withMoveChecks i v rs1 s f = .next (f u s) := by
  have hm : moveIllegal s v rs1 = false := by simp [moveIllegal, groupAligned, h.vs, h.ms, h.vill, h.group, h.regs]
  simp [withMoveChecks, hm, h.tss]

/-- Every next state of a move. -/
theorem withMoveChecks_next {i : Instr} {v : VReg} {rs1 : XReg} {s t : State} {f : Subset → State → State}
    (h : withMoveChecks i v rs1 s f = .next t) : t = illegal (encode i) s ∨ ∃ u, MoveReady s v rs1 u ∧ t = f u s := by
  unfold withMoveChecks at h
  split at h
  · injection h with h; exact .inl h.symm
  · rename_i hm
    split at h
    · injection h with h; exact .inl h.symm
    · cases h
    · rename_i u hu
      injection h with h
      simp only [moveIllegal, groupAligned, Bool.or_eq_true, Bool.not_eq_true', beq_eq_false_iff_ne, not_or, Bool.not_eq_true,
        Bool.not_eq_false, ne_eq, not_not] at hm
      obtain ⟨⟨⟨⟨h1, h2⟩, h3⟩, h4⟩, h5⟩ := hm
      exact .inr ⟨u, ⟨h1, h2, h3, h4, h5, hu⟩, h.symm⟩

/-- Every next state of a matrix instruction: a trap, a zero-size operation, or an accumulation. -/
theorem matrixMultiply_next {i : Instr} {f : MatrixForm} {mtd : Tile} {vs2 vs1 : VReg} {s t : State}
    (h : matrixMultiply i f mtd vs2 vs1 s = .next t) :
    t = illegal (encode i) s ∨ matrixStateIllegal s f.isFloat = false ∧ t = zeroSize f.isFloat s ∨
      ∃ twiden a, twidenOf s.cfg s.mtype.mtwiden = some twiden ∧
        matrixArith s.cfg f (sew s.vtype) twiden s.vtype.altfmt = some a ∧
        MatrixChecksPass s f.isFloat (sew s.vtype * twiden) mtd vs2 vs1 ∧ NotEmpty s (sew s.vtype * twiden) ∧
        t = matrixAccumulate a (sew s.vtype * twiden) mtd.toNat vs2 vs1 s := by
  unfold matrixMultiply at h
  split at h
  · injection h with h; exact .inl h.symm
  · rename_i hs
    split at h
    · unfold matrixUnconfigured at h
      split at h
      · injection h with h; exact .inl h.symm
      · split at h
        · injection h with h; exact .inl h.symm
        · injection h with h; exact .inr (.inl ⟨by simpa using hs, h.symm⟩)
    · rename_i twiden htw
      split at h
      · injection h with h; exact .inl h.symm
      · rename_i a ha
        simp only at h
        split at h
        · injection h with h; exact .inl h.symm
        · rename_i ho
          split at h
          · injection h with h; exact .inr (.inl ⟨by simpa using hs, h.symm⟩)
          · rename_i he
            injection h with h
            refine .inr (.inr ⟨twiden, a, htw, ha, ?_, ?_, h.symm⟩)
            · simp only [matrixStateIllegal, matrixTileIllegal, matrixSourceIllegal, matrixSpecifierValid, Bool.or_eq_true, Bool.and_eq_true,
                Bool.not_eq_true', not_or, Bool.not_eq_true, decide_eq_true_eq, Bool.and_eq_false_iff,
                decide_eq_false_iff_not, not_and, Nat.not_le, beq_eq_false_iff_ne, ne_eq, not_not] at hs ho
              exact ⟨⟨hs.1.1.1.1, hs.1.1.1.2, hs.1.1.2, hs.1.2, hs.2, ho.2.1.1, ho.2.1.2, ho.2.2⟩, ho.1⟩
            · simp only [matrixIsEmpty, Bool.or_eq_true, beq_iff_eq, not_or] at he
              exact ⟨he.1.1, he.1.2, he.2⟩

end Sys2Proof.Machine
end

