-- ==== Sys2Proof/Laws/Configuration.lean ====
section
/-! SUPPORT. The configuration quantities: bounds of SEW, LMUL, VLMAX and ETE, what `vsetvlVtype` and `setVl` answer, and the
LMUL that `matrixConfigure` sets (R25, R34, R51, R133 to R135). -/

namespace Sys2Proof.Machine

/-! ### Parameters -/

/-- The numeric bounds that a supported configuration meets (R8, R9). -/
structure ConfigBounds (c : Config) : Prop where
  te : 2 ≤ c.lgTe
  teMax : c.lgTe ≤ 13
  teVlen : c.lgTe + 2 ≤ c.lgVlen
  vlen : 5 ≤ c.lgVlen
  elen : c.elenBits = 64 → 6 ≤ c.lgVlen

theorem elenBits_cases (c : Config) : c.elenBits = 32 ∨ c.elenBits = 64 := by unfold Config.elenBits; cases c.elen <;> simp

theorem wf_bounds {c : Config} (h : c.wf = true) : ConfigBounds c := by
  simp only [Config.wf, Bool.and_eq_true, decide_eq_true_eq, Bool.or_eq_true, beq_iff_eq] at h
  obtain ⟨⟨⟨⟨⟨⟨⟨h1, h2⟩, h3⟩, h4⟩, h6⟩, -⟩, -⟩, -⟩ := h
  refine ⟨h1, h3, h2, h4, ?_⟩
  intro he
  rcases h6 with h6 | h6
  · simp [Config.elenBits, h6] at he
  · exact h6

/-- `altfmt` lies above the other fields of `vtype` and below `vill` (R25). -/
theorem wf_altfmt {c : Config} (h : c.wf = true) : 8 ≤ c.altfmtBit ∧ c.altfmtBit + 1 < c.xlenBits := by
  simp only [Config.wf, Bool.and_eq_true, decide_eq_true_eq, Bool.or_eq_true] at h
  exact ⟨h.1.2, h.2⟩

/-! ### SEW, LMUL and VLMAX -/

theorem sew_eq_pow (t : VType) : sew t = 2 ^ (3 + t.vsew.toNat) := by rw [sew, pow_add]; norm_num

theorem sew_pos (t : VType) : 0 < sew t := by rw [sew_eq_pow]; positivity

theorem vsew_of_supported {c : Config} {t : VType} (h : sew t ≤ c.elenBits) : t.vsew.toNat ≤ 3 := by
  by_contra hn
  have h4 : 2 ^ 7 ≤ sew t := by rw [sew_eq_pow]; exact Nat.pow_le_pow_right (by norm_num) (by omega)
  rcases elenBits_cases c with he | he <;> omega

/-- A supported SEW is 8, 16, 32 or 64. -/
theorem sew_cases {c : Config} {t : VType} (h : sew t ≤ c.elenBits) :
    sew t = 8 ∨ sew t = 16 ∨ sew t = 32 ∨ sew t = 64 := by
  have h3 := vsew_of_supported h
  rw [sew_eq_pow]
  interval_cases t.vsew.toNat <;> simp

theorem lmulEighths_le (t : VType) : lmulEighths t ≤ 64 := by unfold lmulEighths; split <;> norm_num

/-- VLMAX is at most VLEN. -/
theorem vlmax_le_vlen (c : Config) (t : VType) : vlmax c t ≤ c.vlen := by
  have h1 := lmulEighths_le t
  have h2 : 8 ≤ sew t := by rw [sew_eq_pow, pow_add]; have := Nat.one_le_two_pow (n := t.vsew.toNat); omega
  unfold vlmax
  apply Nat.div_le_of_le_mul
  exact Nat.mul_le_mul_right _ (by omega)

/-- `SetVL` answers at most VLMAX (R134). -/
theorem setVl_le (c : Config) (t : VType) (avl : Nat) : setVl c t avl ≤ vlmax c t := by
  unfold setVl
  split
  · exact Nat.zero_le _
  · simp only
    split_ifs with h1 h2
    · exact h1
    · exact le_rfl
    · unfold vlPolicy
      split
      · exact le_rfl
      · exact max_le (by omega) (min_le_left _ _)

/-- `SetVL` answers at most the AVL (R134). -/
theorem setVl_le_avl (c : Config) (t : VType) (avl : Nat) : setVl c t avl ≤ avl := by
  unfold setVl
  split
  · exact Nat.zero_le _
  · simp only
    split_ifs with h1 h2
    · exact le_rfl
    · omega
    · unfold vlPolicy
      split <;> omega

/-! ### `vsetvlVtype` -/

theorem vsetvlVtype_cases (c : Config) (w : Word) :
    vsetvlVtype c w = illegalVtype ∨ vtypeSupported c w = true ∧ vsetvlVtype c w = vtypeOfWord c w := by
  unfold vsetvlVtype
  split
  · exact .inr ⟨‹_›, rfl⟩
  · exact .inl rfl

/-- The SEW that `vsetvlVtype` answers is supported. -/
theorem vsetvlVtype_sew (c : Config) (w : Word) : sew (vsetvlVtype c w) ≤ c.elenBits := by
  rcases vsetvlVtype_cases c w with h | ⟨hs, h⟩
  · rw [h]; rcases elenBits_cases c with he | he <;> rw [he] <;> decide
  · rw [h]
    simp only [vtypeSupported, vsewSupported, Bool.and_eq_true, decide_eq_true_eq] at hs
    exact hs.1.1.2

/-- The reserved LMUL code is never answered. -/
theorem vsetvlVtype_vlmul (c : Config) (w : Word) : (vsetvlVtype c w).vlmul ≠ 0b100#3 := by
  rcases vsetvlVtype_cases c w with h | ⟨hs, h⟩
  · rw [h]; decide
  · rw [h]
    simp only [vtypeSupported, Bool.and_eq_true] at hs
    intro he
    have h1 := hs.1.2
    rw [vlmulSupported, he] at h1
    simp at h1

/-! ### Tile configuration -/

theorem twiden_mem {c : Config} {m : BitVec 2} {w : Nat} (h : twidenOf c m = some w) : w ∈ [1, 2, 4] := by
  have hf : ∀ t : Twiden, t.factor ∈ [1, 2, 4] := by intro t; cases t <;> decide
  unfold twidenOf at h
  split at h
  · cases h
  all_goals (injection h with h; rw [← h]; exact hf _)

theorem twidenOf_none_iff (c : Config) (m : BitVec 2) : twidenOf c m = none ↔ m = 0#2 := by
  unfold twidenOf
  split <;> simp_all

theorem kmax_cases (n : Nat) : kmax n = 1 ∨ kmax n = 2 ∨ kmax n = 4 := by unfold kmax; split_ifs <;> simp

/-- EVE is a power of two, and SEW divides VLEN. -/
theorem eve_eq_pow {c : Config} (hc : c.wf = true) {t : VType} (h : sew t ≤ c.elenBits) :
    eve c (sew t) = 2 ^ (c.lgVlen - (3 + t.vsew.toNat)) ∧ eve c (sew t) * sew t = c.vlen := by
  have hb := wf_bounds hc
  have h3 := vsew_of_supported h
  have hle : 3 + t.vsew.toNat ≤ c.lgVlen := by
    have h5 := hb.vlen
    rcases elenBits_cases c with he | he
    · rw [he, sew_eq_pow] at h
      have : 3 + t.vsew.toNat ≤ 5 := (Nat.pow_le_pow_iff_right (by norm_num : 1 < 2)).1 (by simpa using h)
      omega
    · have := hb.elen he; omega
  have he : eve c (sew t) = 2 ^ (c.lgVlen - (3 + t.vsew.toNat)) := by
    rw [eve, sew_eq_pow, Config.vlen, Nat.pow_div hle (by norm_num)]
  refine ⟨he, ?_⟩
  rw [he, sew_eq_pow, Config.vlen, ← pow_add, Nat.sub_add_cancel hle]

/-- ETE as a power of two. -/
theorem ete_eq_pow {c : Config} (hc : c.wf = true) (tew : Nat) :
    ete c tew = 2 ^ (if tew < 64 then c.lgTe else c.lgTe - 1) := by
  have hb := (wf_bounds hc).te
  unfold ete Config.te
  split
  · rfl
  · rw [Nat.div_eq_of_eq_mul_left (by norm_num)]
    rw [← pow_succ]; congr 1; omega

theorem ete_le_te (c : Config) (tew : Nat) : ete c tew ≤ c.te := by unfold ete; split <;> omega

/-- A tile edge is at most 8192 (R47). -/
theorem ete_le {c : Config} (hc : c.wf = true) (tew : Nat) : ete c tew ≤ 8192 :=
  (ete_le_te c tew).trans (le_trans (Nat.pow_le_pow_right (by norm_num) (wf_bounds hc).teMax) (by norm_num))

/-- A tile edge is below VLEN. -/
theorem ete_lt_vlen {c : Config} (hc : c.wf = true) (tew : Nat) : ete c tew < c.vlen := by
  refine lt_of_le_of_lt (ete_le_te c tew) ?_
  have := (wf_bounds hc).teVlen
  exact Nat.pow_lt_pow_right (by norm_num) (by omega)

/-- Dividing powers of two, rounding up. -/
theorem ceil_two_pow (a b : Nat) : (2 ^ a + 2 ^ b - 1) / 2 ^ b = 2 ^ (a - b) := by
  have hb : 0 < 2 ^ b := by positivity
  by_cases h : b ≤ a
  · obtain ⟨k, rfl⟩ := Nat.exists_eq_add_of_le h
    rw [Nat.add_sub_cancel_left, pow_add, show 2 ^ b * 2 ^ k + 2 ^ b - 1 = 2 ^ b * 2 ^ k + (2 ^ b - 1) by omega,
      Nat.mul_add_div hb, Nat.div_eq_of_lt (by omega), Nat.add_zero]
  · have h0 : a - b = 0 := by omega
    have hlt : 2 ^ a < 2 ^ b := Nat.pow_lt_pow_right (by norm_num) (by omega)
    have hp : 0 < 2 ^ a := by positivity
    rw [h0, pow_zero, Nat.div_eq_iff hb]; omega

/-- The LMUL that `matrixConfigure` sets is 1, 2, 4 or 8 (R135). -/
theorem matrixLmul_mem {c : Config} (hc : c.wf = true) {t : VType} (h : sew t ≤ c.elenBits) {w : Nat} (hw : w ∈ [1, 2, 4]) :
    matrixLmul c (sew t) w ∈ [1, 2, 4, 8] := by
  unfold matrixLmul
  simp only
  rw [(eve_eq_pow hc h).1, ete_eq_pow hc, ceil_two_pow]
  generalize (if sew t * w < 64 then c.lgTe else c.lgTe - 1) - (c.lgVlen - (3 + t.vsew.toNat)) = n
  have hn : 2 ^ n = 1 ∨ 2 ^ n = 2 ∨ 2 ^ n = 4 ∨ 8 ≤ 2 ^ n := by
    rcases n with - | - | - | n
    · simp
    · simp
    · simp
    · right; right; right; rw [pow_add]; have := Nat.one_le_two_pow (n := n); omega
  simp only [List.mem_cons, List.not_mem_nil, or_false] at hw ⊢
  rcases kmax_cases (sew t) with hk | hk | hk <;> rcases hw with rfl | rfl | rfl <;> rw [hk] <;> omega

/-- The `vlmul` code that `matrixConfigure` stores stands for its LMUL. -/
theorem lmulEighths_log2 {l : Nat} (h : l ∈ [1, 2, 4, 8]) {t : VType} (ht : t.vlmul = BitVec.ofNat 3 (Nat.log2 l)) :
    lmulEighths t = 8 * l ∧ t.vlmul.toNat ≤ 3 ∧ 2 ^ t.vlmul.toNat = l := by
  simp only [List.mem_cons, List.not_mem_nil, or_false] at h
  unfold lmulEighths
  rw [ht]
  rcases h with rfl | rfl | rfl | rfl <;> decide

/-- With an integer LMUL, VLMAX is LMUL*EVE (R51). -/
theorem vlmax_of_lmul {c : Config} (hc : c.wf = true) {t : VType} (h : sew t ≤ c.elenBits) {l : Nat}
    (hl : lmulEighths t = 8 * l) : vlmax c t = l * eve c (sew t) := by
  have he := (eve_eq_pow hc h).2
  have hp := sew_pos t
  unfold vlmax
  rw [hl, ← he, show 8 * l * (eve c (sew t) * sew t) = (l * eve c (sew t)) * (8 * sew t) by ring]
  exact Nat.mul_div_cancel _ (by omega)

end Sys2Proof.Machine
end

