-- ==== Sys2Proof/Laws/Effects.lean ====
section
/-! SUPPORT. Everything an instruction can do, said once: `Effect i s t` lists the next states that `exec i s` can answer, so that
a property of all instructions is proved by cases on it. -/

namespace Sys2Proof.Machine

/-- The next states of an instruction, by what it did. -/
inductive Effect (i : Instr) (s : State) : State → Prop where
  /-- an exception was taken, and nothing else happened -/
  | trapped (e : Exception) (v : Word) : Effect i s (takeException e v s)
  | vset (hv : vsOff s = false) (rd : XReg) (w : Word) (avl : Nat) : Effect i s (completeZvm (vsetvlEffect rd w avl s))
  | mset (hv : vsOff s = false) (m v : Word) : Effect i s (completeZvm (msetmtypeEffect m v s))
  | setN (hv : vsOff s = false) (rd rs1 : XReg) :
    Effect i s (completeZvm ({ s with vl := msettnLength s rd rs1 }.writeX rd (wordX s.cfg (msettnLength s rd rs1))))
  | setM (hv : vsOff s = false) (rd rs1 : XReg) :
    Effect i s (completeZvm ({ s with mtype := { s.mtype with tm := BitVec.ofNat 14 (msettmLength s rs1) } }.writeX rd
      (wordX s.cfg (msettmLength s rs1))))
  | setK (hv : vsOff s = false) (rd rs1 : XReg) :
    Effect i s (completeZvm ({ s with mtype := { s.mtype with tk := BitVec.ofNat 3 (msettkLength s rs1) } }.writeX rd
      (wordX s.cfg (msettkLength s rs1))))
  | load (rs1 rs2 : XReg) (w : Nat) (u : Subset) (hi : (i, w) ∈ tileLoads rs1 rs2)
    (h : TileAccessReady s .load rs1 rs2 w u) : Effect i s (tileLoad rs1 w u s)
  | store (rs1 rs2 : XReg) (w : Nat) (u : Subset) (hi : (i, w) ∈ tileStores rs1 rs2)
    (h : TileAccessReady s .store rs1 rs2 w u) : Effect i s (tileStore rs1 w u s)
  | toVector (vd : VReg) (rs1 : XReg) (u : Subset) (h : MoveReady s vd rs1 u) : Effect i s (moveToVector vd u s)
  | toTile (vs2 : VReg) (rs1 : XReg) (u : Subset) (h : MoveReady s vs2 rs1 u) : Effect i s (moveToTile vs2 u s)
  | zero (w : Nat) (mtd : Tile) (h : zeroIllegal s = false) (hw : twidenOf s.cfg s.mtype.mtwiden = some w)
    (ht : mtd.toNat % tileStep (sew s.vtype * w) = 0) : Effect i s (zeroTile (sew s.vtype * w) mtd.toNat s)
  | discard (hv : vsOff s = false) (hm : msOff s = false) : Effect i s (completeZvm (initialMs { s with ts := discardedTiles s }))
  /-- a matrix instruction of size zero -/
  | zeroSize (float : Bool) (h : matrixStateIllegal s float = false) : Effect i s (zeroSize float s)
  | accumulate (f : MatrixForm) (mtd : Tile) (vs2 vs1 : VReg) (w : Nat) (a : Arith)
    (hw : twidenOf s.cfg s.mtype.mtwiden = some w)
    (ha : matrixArith s.cfg f (sew s.vtype) w s.vtype.altfmt = some a)
    (h : MatrixChecksPass s f.isFloat (sew s.vtype * w) mtd vs2 vs1) (hn : NotEmpty s (sew s.vtype * w)) :
    Effect i s (matrixAccumulate a (sew s.vtype * w) mtd.toNat vs2 vs1 s)
  /-- a host instruction wrote a register -/
  | wrote (rd : XReg) (v : Word) : Effect i s (advance (s.writeX rd v))
  /-- a branch not taken -/
  | passed : Effect i s (advance s)
  /-- a branch taken -/
  | jumped (v : Word) (h : (truncX s.cfg v).toNat % 4 = 0) : Effect i s { s with pc := truncX s.cfg v }
  | csr (rd rs1 : XReg) (n : BitVec 12) (r : Csr) (hi : i = .csrrs rd n rs1) (hn : csrOfNumber n = some r)
    (ha : csrAccess s r (!(rs1 == 0#5)) = .granted) : Effect i s (csrSet (csrTarget s r) rd rs1 s)

theorem effect_illegal (i : Instr) (w : InstrWord) (s : State) : Effect i s (illegal w s) := .trapped _ _

theorem effect_of_config {i j : Instr} {rs : List XReg} {s t : State} {f : State → State}
    (hf : vsOff s = false → Effect i s (completeZvm (f s))) (h : withConfigChecks j rs s f = .next t) : Effect i s t := by
  rcases withConfigChecks_cases j rs s f with h' | ⟨hv, -, h'⟩ <;> rw [h'] at h <;> injection h with h <;> subst h
  · exact effect_illegal ..
  · exact hf hv

theorem effect_of_xregs {i j : Instr} {rs : List XReg} {s t : State} {f : State → Result}
    (hf : f s = .next t → Effect i s t) (h : withXRegs j rs s f = .next t) : Effect i s t := by
  rcases withXRegs_cases j rs s f with h' | h' <;> rw [h'] at h
  · injection h with h; subst h; exact effect_illegal ..
  · exact hf h

theorem effect_of_load {i j : Instr} {rs1 rs2 : XReg} {w : Nat} {s t : State} (hi : (i, w) ∈ tileLoads rs1 rs2)
    (h : withTileMemoryChecks j .load w rs1 rs2 s (tileLoad rs1 w) = .next t) : Effect i s t := by
  rcases withTileMemoryChecks_next h with rfl | ⟨u, hu, rfl⟩
  · exact effect_illegal ..
  · exact .load rs1 rs2 w u hi hu

theorem effect_of_store {i j : Instr} {rs1 rs2 : XReg} {w : Nat} {s t : State} (hi : (i, w) ∈ tileStores rs1 rs2)
    (h : withTileMemoryChecks j .store w rs1 rs2 s (tileStore rs1 w) = .next t) : Effect i s t := by
  rcases withTileMemoryChecks_next h with rfl | ⟨u, hu, rfl⟩
  · exact effect_illegal ..
  · exact .store rs1 rs2 w u hi hu

theorem effect_of_matrix {i j : Instr} {f : MatrixForm} {mtd : Tile} {vs2 vs1 : VReg} {s t : State}
    (h : matrixMultiply j f mtd vs2 vs1 s = .next t) : Effect i s t := by
  rcases matrixMultiply_next h with rfl | ⟨hs, rfl⟩ | ⟨w, a, hw, ha, hc, hn, rfl⟩
  · exact effect_illegal ..
  · exact .zeroSize _ hs
  · exact .accumulate f mtd vs2 vs1 w a hw ha hc hn

/-- Every next state of `exec` is one that `Effect` lists. -/
theorem exec_effect {i : Instr} {s t : State} (h : exec i s = .next t) : Effect i s t := by
  cases i with
  | vsetvli rd rs1 z =>
    simp only [exec, execVsetvli] at h
    refine effect_of_config (fun hv => ?_) h
    exact .vset hv ..
  | vsetivli rd u z =>
    simp only [exec, execVsetivli] at h
    refine effect_of_config (fun hv => ?_) h
    exact .vset hv ..
  | vsetvl rd rs1 rs2 =>
    simp only [exec, execVsetvl] at h
    refine effect_of_config (fun hv => ?_) h
    exact .vset hv ..
  | msetmtype rs1 rs2 => exact effect_of_config (fun hv => .mset hv ..) h
  | msetmtypei m v => exact effect_of_config (fun hv => .mset hv ..) h
  | msettn rd rs1 =>
    simp only [exec, execMsettn] at h
    refine effect_of_config (fun hv => ?_) h
    exact .setN hv rd rs1
  | msettm rd rs1 =>
    simp only [exec, execMsettm] at h
    refine effect_of_config (fun hv => ?_) h
    exact .setM hv rd rs1
  | msettk rd rs1 =>
    simp only [exec, execMsettk] at h
    refine effect_of_config (fun hv => ?_) h
    exact .setK hv rd rs1
  | vlte8 rs1 rs2 => exact effect_of_load (by simp [tileLoads]) h
  | vlte16 rs1 rs2 => exact effect_of_load (by simp [tileLoads]) h
  | vlte32 rs1 rs2 => exact effect_of_load (by simp [tileLoads]) h
  | vlte64 rs1 rs2 => exact effect_of_load (by simp [tileLoads]) h
  | vste8 rs1 rs2 => exact effect_of_store (by simp [tileStores]) h
  | vste16 rs1 rs2 => exact effect_of_store (by simp [tileStores]) h
  | vste32 rs1 rs2 => exact effect_of_store (by simp [tileStores]) h
  | vste64 rs1 rs2 => exact effect_of_store (by simp [tileStores]) h
  | vtmvVT vd rs1 =>
    rcases withMoveChecks_next h with rfl | ⟨u, hu, rfl⟩
    · exact effect_illegal ..
    · exact .toVector vd rs1 u hu
  | vtmvTV rs1 vs2 =>
    rcases withMoveChecks_next h with rfl | ⟨u, hu, rfl⟩
    · exact effect_illegal ..
    · exact .toTile vs2 rs1 u hu
  | vtzeroT mtd =>
    simp only [exec, execVtzeroT] at h
    split at h
    · injection h with h; subst h; exact effect_illegal ..
    · rename_i hz
      split at h
      · injection h with h; subst h; exact effect_illegal ..
      · rename_i w hw
        split at h
        · rename_i ht
          injection h with h; subst h
          exact .zero w mtd (by simpa using hz) hw ht
        · injection h with h; subst h; exact effect_illegal ..
  | vtdiscard =>
    simp only [exec, execVtdiscard] at h
    split at h
    · injection h with h; subst h; exact effect_illegal ..
    · rename_i hd
      injection h with h; subst h
      simp only [Bool.or_eq_true, not_or, Bool.not_eq_true] at hd
      exact .discard hd.1.1 hd.1.2
  | mmFF mtd vs2 vs1 => exact effect_of_matrix h
  | p2mmFF mtd vs2 vs1 => exact effect_of_matrix h
  | mmE5m2E5m2 mtd vs2 vs1 => exact effect_of_matrix h
  | mmE5m2E4m3 mtd vs2 vs1 => exact effect_of_matrix h
  | mmE4m3E5m2 mtd vs2 vs1 => exact effect_of_matrix h
  | mmE4m3E4m3 mtd vs2 vs1 => exact effect_of_matrix h
  | mmUU mtd vs2 vs1 => exact effect_of_matrix h
  | mmSU mtd vs2 vs1 => exact effect_of_matrix h
  | mmUS mtd vs2 vs1 => exact effect_of_matrix h
  | mmSS mtd vs2 vs1 => exact effect_of_matrix h
  | addi rd rs1 imm =>
    simp only [exec, execAddi] at h
    exact effect_of_xregs (fun h' => by injection h' with h'; subst h'; exact .wrote ..) h
  | slli rd rs1 shamt =>
    simp only [exec, execSlli] at h
    refine effect_of_xregs (fun h' => ?_) h
    split at h' <;> injection h' with h' <;> subst h'
    · exact effect_illegal ..
    · exact .wrote ..
  | add rd rs1 rs2 =>
    simp only [exec, execAdd] at h
    exact effect_of_xregs (fun h' => by injection h' with h'; subst h'; exact .wrote ..) h
  | bne rs1 rs2 offset =>
    simp only [exec, execBne] at h
    refine effect_of_xregs (fun h' => ?_) h
    split at h'
    · injection h' with h'; subst h'; exact .passed
    · split at h' <;> injection h' with h' <;> subst h'
      · exact .jumped _ ‹_›
      · exact .trapped ..
  | csrrs rd n rs1 =>
    simp only [exec, execCsrrs] at h
    refine effect_of_xregs (fun h' => ?_) h
    split at h'
    · cases h'
    · split at h' <;> injection h' with h' <;> subst h'
      · exact .csr rd rs1 n _ rfl ‹_› ‹_›
      · exact effect_illegal ..
      · exact .trapped ..

end Sys2Proof.Machine
end

