-- ==== Sys2Proof/Laws/Encoding.lean ====
section
/-! SUPPORT. The laws of instruction fields: a field placed in a word is read back, and touches no other bit. -/

namespace Sys2Proof

/-! ### Fields placed in a word -/

theorem getLsbD_place {n : Nat} (f : BitVec n) (lo i : Nat) :
    (place f lo).getLsbD i = (decide (i < 32) && decide (lo ≤ i) && f.getLsbD (i - lo)) := by
  simp only [place, BitVec.getLsbD_shiftLeft, BitVec.getLsbD_setWidth]
  by_cases h1 : i < 32 <;> by_cases h2 : lo ≤ i
  · simp [h1, h2, show i - lo < 32 by omega, show ¬ i < lo by omega]
  · simp [h2, show i < lo by omega]
  · simp [h1]
  · simp [h1, h2]

theorem getLsbD_field (w : InstrWord) (lo len i : Nat) :
    (field w lo len).getLsbD i = (decide (i < len) && w.getLsbD (lo + i)) := by
  simp [field, BitVec.getLsbD_extractLsb']

@[simp] theorem field_or (a b : InstrWord) (lo len : Nat) : field (a ||| b) lo len = field a lo len ||| field b lo len := by
  apply BitVec.eq_of_getLsbD_eq
  intro i hi
  simp only [getLsbD_field, hi, BitVec.getLsbD_or, decide_true, Bool.true_and]

/-- A placed field is read back. -/
theorem field_place_self {n : Nat} (f : BitVec n) (lo : Nat) (h : lo + n ≤ 32) : field (place f lo) lo n = f := by
  apply BitVec.eq_of_getLsbD_eq
  intro i hi
  rw [getLsbD_field, getLsbD_place]
  simp [hi, show lo + i < 32 by omega]

/-- A placed field does not show in a field beside it. -/
theorem field_place_other {n : Nat} (f : BitVec n) (lo lo' len : Nat) (h : lo' + len ≤ lo ∨ lo + n ≤ lo') :
    field (place f lo) lo' len = 0 := by
  apply BitVec.eq_of_getLsbD_eq
  intro i hi
  rw [getLsbD_field, getLsbD_place]
  by_cases h1 : lo ≤ lo' + i
  · simp [BitVec.getLsbD_of_ge f (lo' + i - lo) (by omega)]
  · simp [h1]

/-- A word whose bits at a field are clear does not show there. -/
theorem field_zero_or {w : InstrWord} {lo len : Nat} (h : field w lo len = 0) (f : BitVec len) : field w lo len ||| f = f := by
  rw [h]; exact BitVec.zero_or

@[simp] theorem place_zero (n lo : Nat) : place (0#n) lo = 0#32 := by simp [place]

/-- A placed field and a mask that is clear at its place have no bit in common. -/
theorem place_and_mask {n : Nat} (f : BitVec n) (lo : Nat) (mask : InstrWord) (h : mask.extractLsb' lo n = 0) :
    place f lo &&& mask = 0#32 := by
  apply BitVec.eq_of_getLsbD_eq
  intro i hi
  simp only [BitVec.getLsbD_and, getLsbD_place, BitVec.getLsbD_zero]
  by_cases h1 : lo ≤ i
  · by_cases h2 : i - lo < n
    · have h3 := congrArg (fun v => v.getLsbD (i - lo)) h
      simp only [BitVec.getLsbD_extractLsb', h2, decide_true, Bool.true_and] at h3
      rw [show lo + (i - lo) = i by omega] at h3
      simp [h3]
    · simp [BitVec.getLsbD_of_ge f (i - lo) (by omega)]
  · simp [h1]

/-- A field read from a word and placed again is the word's own bits there. -/
theorem place_field (w : InstrWord) (lo len : Nat) :
    place (field w lo len) lo = w &&& BitVec.ofNat 32 ((2 ^ len - 1) * 2 ^ lo) := by
  apply BitVec.eq_of_getLsbD_eq
  intro i hi
  rw [getLsbD_place, getLsbD_field, BitVec.getLsbD_and, BitVec.getLsbD_ofNat, Nat.testBit_mul_two_pow,
    Nat.testBit_two_pow_sub_one]
  by_cases h1 : lo ≤ i
  · simp [h1, hi, show lo + (i - lo) = i by omega, Bool.and_comm]
  · simp [h1]

/-! ### Tile fields and the branch offset -/

theorem tile3_roundtrip : ∀ t : Tile, tileHasThreeBits t = true → (t.extractLsb' 1 3).setWidth 4 <<< 1 = t := by decide

theorem tile2_roundtrip : ∀ t : Tile, tileHasTwoBits t = true → (t.extractLsb' 2 2).setWidth 4 <<< 2 = t := by decide

theorem tile3_read : ∀ f : BitVec 3,
    ((f.setWidth 4 <<< 1 : Tile).extractLsb' 1 3) = f ∧ tileHasThreeBits (f.setWidth 4 <<< 1) = true := by decide

theorem tile2_read : ∀ f : BitVec 2,
    ((f.setWidth 4 <<< 2 : Tile).extractLsb' 2 2) = f ∧ tileHasTwoBits (f.setWidth 4 <<< 2) = true := by decide

/-- The parts of a branch offset put together are read back. -/
theorem offset_read (a b : BitVec 1) (f : BitVec 6) (g : BitVec 4) :
    ∃ o : BitVec 13, o = a.setWidth 13 <<< 12 ||| b.setWidth 13 <<< 11 ||| f.setWidth 13 <<< 5 ||| g.setWidth 13 <<< 1 ∧
      o.extractLsb' 12 1 = a ∧ o.extractLsb' 11 1 = b ∧ o.extractLsb' 5 6 = f ∧ o.extractLsb' 1 4 = g
        ∧ offsetIsEven o = true := by
  refine ⟨_, rfl, ?_, ?_, ?_, ?_, ?_⟩
  · apply BitVec.eq_of_getLsbD_eq; intro i hi; interval_cases i; simp
  · apply BitVec.eq_of_getLsbD_eq; intro i hi; interval_cases i; simp
  · apply BitVec.eq_of_getLsbD_eq; intro i hi; interval_cases i <;> simp
  · apply BitVec.eq_of_getLsbD_eq; intro i hi; interval_cases i <;> simp
  · rw [offsetIsEven, beq_iff_eq]; apply BitVec.eq_of_getLsbD_eq; intro i hi; interval_cases i; simp

theorem offset_roundtrip (o : BitVec 13) (h : offsetIsEven o = true) :
    (o.extractLsb' 12 1).setWidth 13 <<< 12 ||| (o.extractLsb' 11 1).setWidth 13 <<< 11
      ||| (o.extractLsb' 5 6).setWidth 13 <<< 5 ||| (o.extractLsb' 1 4).setWidth 13 <<< 1 = o := by
  have h0 : o.getLsbD 0 = false := by
    have := congrArg (fun v => v.getLsbD 0) (beq_iff_eq.1 h)
    simpa [BitVec.getLsbD_extractLsb'] using this
  apply BitVec.eq_of_getLsbD_eq
  intro i hi
  rw [BitVec.getLsbD_eq_getElem (by omega)] at h0
  interval_cases i <;> simp [h0]

/-! ### Words and their bytes -/

/-- A word is put together again from its bytes (R71). -/
theorem wordOfBytes_bytesOfWord (w : InstrWord) :
    wordOfBytes (w.extractLsb' 0 8) (w.extractLsb' 8 8) (w.extractLsb' 16 8) (w.extractLsb' 24 8) = w := by
  apply BitVec.eq_of_getLsbD_eq
  intro i hi
  interval_cases i <;> simp [wordOfBytes]

end Sys2Proof
end

