-- ==== Sys2Proof/Laws/Exceptions.lean ====
section
/-! SUPPORT. What trap entry does, each said once: the cause word, the vector, and what `takeException` may change (R305, R308). -/

namespace Sys2Proof.Machine

/-- The cause register holds the code, and the top bit of XLEN for an interrupt (R305). -/
theorem causeWord_toNat (c : Config) (i : Bool) (code : Nat) (h : code < 64) :
    (causeWord c i code).toNat = code + (if i then 2 ^ (c.xlenBits - 1) else 0) := by
  unfold causeWord bitAt
  cases i
  · simp; omega
  · rcases xlenBits_cases c with h' | h' <;> rw [h'] <;> simp [BitVec.toNat_or]
    · rw [Nat.mod_eq_of_lt (by omega), Nat.lor_comm]
      have := Nat.two_pow_add_eq_or_of_lt (i := 31) (b := code) (by omega) 1
      simp at this; rw [← this]; omega
    · rw [Nat.mod_eq_of_lt (by omega), Nat.lor_comm]
      have := Nat.two_pow_add_eq_or_of_lt (i := 63) (b := code) (by omega) 1
      simp at this; rw [← this]; omega

/-- A cause word of an XLEN-bit code fits in XLEN bits. -/
theorem causeWord_lt (c : Config) (i : Bool) (code : Nat) (h : code < 64) : (causeWord c i code).toNat < 2 ^ c.xlenBits := by
  rw [causeWord_toNat c i code h]
  rcases xlenBits_cases c with h' | h' <;> rw [h'] <;> cases i <;> simp <;> omega

theorem and_not_add_and (w m : Word) : w = (w &&& ~~~m) + (w &&& m) := by
  rw [BitVec.add_eq_or_of_and_eq_zero]
  · ext i; simp; cases w[i] <;> simp
  · ext i; simp
    intro _ h _; exact h

theorem and_three_toNat (w : Word) : (w &&& 3#64).toNat = w.toNat % 4 := by
  have := Nat.and_two_pow_sub_one_eq_mod w.toNat 2
  simpa using this

/-- The base of a trap-vector register is its value rounded down to a multiple of 4. -/
theorem vectorBase_toNat (w : Word) : (vectorBase w).toNat = w.toNat - w.toNat % 4 := by
  unfold vectorBase
  have h : w &&& ~~~3#64 = w - (w &&& 3#64) := by
    conv => rhs; lhs; rw [and_not_add_and w 3#64]
    exact (BitVec.add_sub_cancel _ _).symm
  rw [h, BitVec.toNat_sub_of_le, and_three_toNat]
  rw [BitVec.le_def, and_three_toNat]; exact Nat.mod_le _ _

/-- Where a trap goes (R305). -/
theorem trapVector_toNat (c : Config) (tvec : Word) (i : Bool) (code : Nat) (hc : code < 64) :
    (trapVector c tvec i code).toNat = (tvec.toNat - tvec.toNat % 4
      + (if i = true ∧ tvec.toNat % 4 = 1 then 4 * code else 0)) % 2 ^ c.xlenBits := by
  unfold trapVector
  have h1 : (tvec.extractLsb' 0 2 == 1#2) = decide (tvec.toNat % 4 = 1) := by
    rw [Bool.eq_iff_iff, beq_iff_eq, decide_eq_true_eq, ← BitVec.toNat_inj]; simp
  rw [h1]
  by_cases h : i = true ∧ tvec.toNat % 4 = 1
  · rw [if_pos (by simpa using h), if_pos h, truncX_toNat, BitVec.toNat_add, vectorBase_toNat, BitVec.toNat_ofNat,
      Nat.mod_mod_of_dvd _ (two_pow_xlenBits_dvd c), Nat.mod_eq_of_lt (a := 4 * code) (by omega)]
  · rw [if_neg (by simpa using h), if_neg h, truncX_toNat, vectorBase_toNat, Nat.add_zero]

theorem trapVector_lt (c : Config) (tvec : Word) (i : Bool) (code : Nat) : (trapVector c tvec i code).toNat < 2 ^ c.xlenBits := by
  unfold trapVector; split <;> exact truncX_lt _ _

/-- A trap goes to a multiple of 4. -/
theorem trapVector_aligned (c : Config) (tvec : Word) (i : Bool) (code : Nat) (hc : code < 64) :
    (trapVector c tvec i code).toNat % 4 = 0 := by
  rw [trapVector_toNat c tvec i code hc]
  have hd : 4 ∣ 2 ^ c.xlenBits := by rcases xlenBits_cases c with h | h <;> norm_num [h]
  rw [Nat.mod_mod_of_dvd _ hd]
  split <;> omega

theorem exception_code_lt (e : Exception) : e.code < 64 := by cases e <;> simp [Exception.code]

/-- Every way of taking an exception: to machine mode, to supervisor mode from a less privileged one, to the guest's
supervisor mode from a guest (R308). -/
theorem takeException_cases (e : Exception) (tval : Word) (s : State) :
    takeException e tval s = enterMachine false e.code tval s
      ∨ s.priv ≠ .machine ∧ s.cfg.hasS = true ∧ takeException e tval s = enterSupervisor false e.code tval s
      ∨ s.priv ≠ .machine ∧ s.cfg.hasS = true ∧ s.cfg.hasH = true ∧ s.virt = true
        ∧ takeException e tval s = enterVirtualSupervisor false e.code tval s := by
  unfold takeException trapTarget
  split_ifs with h1 h2
  · exact .inl rfl
  · simp only [Bool.or_eq_true, decide_eq_true_eq, Bool.not_eq_true', not_or, Bool.not_eq_false, Bool.and_eq_true] at h1 h2
    exact .inr (.inr ⟨h1.1.1, h1.1.2, h2.1.1, h2.1.2, rfl⟩)
  · simp only [Bool.or_eq_true, decide_eq_true_eq, Bool.not_eq_true', not_or, Bool.not_eq_false] at h1
    exact .inr (.inl ⟨h1.1.1, h1.1.2, rfl⟩)

end Sys2Proof.Machine
end

