-- ==== Sys2Proof/Laws/Punning.lean ====
section
/-! SUPPORT. The laws of tile punning (10_state.md R36): elements lie inside the tile state and two elements never overlap. -/

namespace Sys2Proof.Machine

/-- The four tile element widths (R33). -/
def tileWidths : List Nat := [8, 16, 32, 64]

theorem and_two_div (x : Nat) : (x &&& 2) / 2 = x / 2 % 2 := by
  have h1 : (x &&& 2) % 4 = x % 4 &&& 2 := by
    have := @Nat.and_mod_two_pow x 2 2
    simpa using this
  have h2 : (x &&& 2) < 4 := lt_of_le_of_lt Nat.and_le_right (by norm_num)
  rw [Nat.mod_eq_of_lt h2] at h1
  rw [h1]
  have h3 : x % 4 < 4 := Nat.mod_lt _ (by norm_num)
  have h4 : x / 2 % 2 = x % 4 / 2 := by omega
  rw [h4]
  generalize x % 4 = y at h3 ⊢
  interval_cases y <;> rfl

theorem radix_inj {m a b a' b' : Nat} (hb : b < m) (hb' : b' < m) (h : a * m + b = a' * m + b') : a = a' ∧ b = b' := by
  have hm : 0 < m := by omega
  have h1 : (a * m + b) / m = a := by rw [Nat.mul_comm, Nat.mul_add_div hm, Nat.div_eq_of_lt hb]; simp
  have h2 : (a' * m + b') / m = a' := by rw [Nat.mul_comm, Nat.mul_add_div hm, Nat.div_eq_of_lt hb']; simp
  have h3 : a = a' := by rw [← h1, ← h2, h]
  subst h3
  exact ⟨rfl, by omega⟩

theorem radix_lt {m n a b : Nat} (ha : a < n) (hb : b < m) : a * m + b < n * m := by
  calc a * m + b < a * m + m := by omega
    _ = (a + 1) * m := by ring
    _ ≤ n * m := Nat.mul_le_mul_right m ha

/-- The slab of a tile element, one of sixteen (R36: `ptile`). -/
def punSlab (m t r c w : Nat) : Nat :=
  match w with
  | 8 => t
  | 16 => t + r / 2 % 2
  | 32 => t + 2 * (r / 2 / m) + c / 2 % 2
  | _ => t + r / m

/-- The row of blocks of a tile element in its slab. -/
def punRow (m r w : Nat) : Nat :=
  match w with
  | 8 => r / 4
  | 16 => r / 4
  | 32 => r / 2 % m
  | _ => r % m

/-- The column of blocks of a tile element in its slab. -/
def punCol (c w : Nat) : Nat :=
  match w with
  | 64 => c / 2
  | _ => c / 4

/-- The position of a tile element in its block (R36: `minor_offset`). -/
def punMinor (r c w : Nat) : Nat :=
  match w with
  | 8 => r % 4 * 4 + c % 4
  | 16 => r % 2 * 4 + c % 2 * 2 + c / 2 % 2 * 8
  | 32 => r % 2 * 8 + c % 2 * 4
  | _ => c % 2 * 8

theorem punning_split {w : Nat} (hw : w ∈ tileWidths) (m t r c : Nat) :
    punning (4 * m) t r c w = 16 * (punSlab m t r c w * (m * m) + (punRow m r w * m + punCol c w)) + punMinor r c w := by
  have h4 : 4 * m / 4 = m := by omega
  have h2 : 4 * m / 2 = 2 * m := by omega
  simp only [tileWidths, List.mem_cons, List.not_mem_nil, or_false] at hw
  rcases hw with rfl | rfl | rfl | rfl
  · simp only [punning, punSlab, punRow, punCol, punMinor, h4]; ring
  · simp only [punning, punSlab, punRow, punCol, punMinor, h4, and_two_div]; ring
  · simp only [punning, punSlab, punRow, punCol, punMinor, h4, h2, and_two_div, Nat.div_div_eq_div_mul]; ring
  · simp only [punning, punSlab, punRow, punCol, punMinor, h4]; ring

/-- The tile edge in elements for `TE = 4 * m`. -/
def punEdge (m w : Nat) : Nat := if w < 64 then 4 * m else 2 * m

theorem punRow_lt {w : Nat} (hw : w ∈ tileWidths) {m r : Nat} (hm : 0 < m) (hr : r < punEdge m w) : punRow m r w < m := by
  simp only [tileWidths, List.mem_cons, List.not_mem_nil, or_false] at hw
  rcases hw with rfl | rfl | rfl | rfl <;> simp only [punEdge, punRow] at hr ⊢
  · norm_num at hr; omega
  · norm_num at hr; omega
  · exact Nat.mod_lt _ hm
  · exact Nat.mod_lt _ hm

theorem punCol_lt {w : Nat} (hw : w ∈ tileWidths) {m c : Nat} (hc : c < punEdge m w) : punCol c w < m := by
  simp only [tileWidths, List.mem_cons, List.not_mem_nil, or_false] at hw
  rcases hw with rfl | rfl | rfl | rfl <;> simp only [punEdge, punCol] at hc ⊢ <;> norm_num at hc <;> omega

theorem punMinor_lt (r c w : Nat) : punMinor r c w < 16 := by
  unfold punMinor
  split <;> omega

theorem punSlab_lt {w : Nat} (hw : w ∈ tileWidths) {m t r c : Nat} (ht : t < 16) (hs : t % tileStep w = 0)
    (hr : r < punEdge m w) : punSlab m t r c w < 16 := by
  simp only [tileWidths, List.mem_cons, List.not_mem_nil, or_false] at hw
  rcases hw with rfl | rfl | rfl | rfl <;> simp only [punEdge, punSlab, tileStep] at hr hs ⊢ <;> norm_num at hr hs
  · omega
  · omega
  · have : r / 2 / m < 2 := Nat.div_lt_of_lt_mul (by omega)
    omega
  · have : r / m < 2 := Nat.div_lt_of_lt_mul (by omega)
    omega

theorem punMinor_aligned {w : Nat} (hw : w ∈ tileWidths) (r c : Nat) : punMinor r c w % (w / 8) = 0 := by
  simp only [tileWidths, List.mem_cons, List.not_mem_nil, or_false] at hw
  rcases hw with rfl | rfl | rfl | rfl <;> simp only [punMinor] <;> norm_num <;> omega

/-- An element's offset is a multiple of its size in bytes (R36). -/
theorem punning_aligned {w : Nat} (hw : w ∈ tileWidths) (m t r c : Nat) : punning (4 * m) t r c w % (w / 8) = 0 := by
  have h := punMinor_aligned hw r c
  rw [punning_split hw]
  generalize punSlab m t r c w * (m * m) + (punRow m r w * m + punCol c w) = X
  simp only [tileWidths, List.mem_cons, List.not_mem_nil, or_false] at hw
  rcases hw with rfl | rfl | rfl | rfl <;> norm_num at h ⊢ <;> omega

/-- A valid element lies inside the tile state (R36). -/
theorem punning_bound {w : Nat} (hw : w ∈ tileWidths) {m t r c : Nat} (hm : 0 < m) (ht : t < 16) (hs : t % tileStep w = 0)
    (hr : r < punEdge m w) (hc : c < punEdge m w) :
    punning (4 * m) t r c w + w / 8 ≤ 16 * (4 * m) * (4 * m) := by
  have h1 := radix_lt (punSlab_lt hw ht hs (c := c) hr) (radix_lt (punRow_lt hw hm hr) (punCol_lt hw hc))
  have h2 := punMinor_lt r c w
  have h3 := punMinor_aligned hw r c
  have h4 := punning_split hw m t r c
  have h5 : 16 * (4 * m) * (4 * m) = 16 * (16 * (m * m)) := by ring
  rw [h4, h5]
  generalize punSlab m t r c w * (m * m) + (punRow m r w * m + punCol c w) = X at h1 ⊢
  generalize 16 * (m * m) = Y at h1 ⊢
  simp only [tileWidths, List.mem_cons, List.not_mem_nil, or_false] at hw
  rcases hw with rfl | rfl | rfl | rfl <;> norm_num at h3 ⊢ <;> omega

/-- Two valid elements with the same offset are the same element (R36). -/
theorem punning_inj {w : Nat} (hw : w ∈ tileWidths) {m t r c t' r' c' : Nat} (hm : 0 < m)
    (hs : t % tileStep w = 0) (hr : r < punEdge m w) (hc : c < punEdge m w)
    (hs' : t' % tileStep w = 0) (hr' : r' < punEdge m w) (hc' : c' < punEdge m w)
    (h : punning (4 * m) t r c w = punning (4 * m) t' r' c' w) : t = t' ∧ r = r' ∧ c = c' := by
  rw [punning_split hw, punning_split hw] at h
  have hn := punMinor_lt r c w
  have hn' := punMinor_lt r' c' w
  have hX : punSlab m t r c w * (m * m) + (punRow m r w * m + punCol c w)
      = punSlab m t' r' c' w * (m * m) + (punRow m r' w * m + punCol c' w) := by omega
  have hminor : punMinor r c w = punMinor r' c' w := by omega
  obtain ⟨hslab, hM⟩ := radix_inj (radix_lt (punRow_lt hw hm hr) (punCol_lt hw hc))
    (radix_lt (punRow_lt hw hm hr') (punCol_lt hw hc')) hX
  obtain ⟨hrow, hcol⟩ := radix_inj (punCol_lt hw hc) (punCol_lt hw hc') hM
  simp only [tileWidths, List.mem_cons, List.not_mem_nil, or_false] at hw
  rcases hw with rfl | rfl | rfl | rfl <;>
    simp only [punSlab, punRow, punCol, punMinor, tileStep, punEdge] at hslab hrow hcol hminor hs hs' hr hr' <;>
    norm_num at hs hs' hr hr'
  · omega
  · omega
  · have e1 := Nat.div_add_mod (r / 2) m
    have e2 := Nat.div_add_mod (r' / 2) m
    have l1 : r / 2 / m < 2 := Nat.div_lt_of_lt_mul (by omega)
    have l2 : r' / 2 / m < 2 := Nat.div_lt_of_lt_mul (by omega)
    have hd : r / 2 / m = r' / 2 / m := by omega
    rw [hd, hrow] at e1
    omega
  · have e1 := Nat.div_add_mod r m
    have e2 := Nat.div_add_mod r' m
    have l1 : r / m < 2 := Nat.div_lt_of_lt_mul (by omega)
    have l2 : r' / m < 2 := Nat.div_lt_of_lt_mul (by omega)
    have hd : r / m = r' / m := by
      clear e1 e2
      generalize r / m = d at *
      generalize r' / m = d' at *
      omega
    rw [hd, hrow] at e1
    omega

/-- Two different valid elements do not overlap (R36). -/
theorem punning_apart {w : Nat} (hw : w ∈ tileWidths) {m t r c t' r' c' : Nat} (hm : 0 < m)
    (hs : t % tileStep w = 0) (hr : r < punEdge m w) (hc : c < punEdge m w)
    (hs' : t' % tileStep w = 0) (hr' : r' < punEdge m w) (hc' : c' < punEdge m w)
    (h : ¬ (t = t' ∧ r = r' ∧ c = c')) :
    punning (4 * m) t r c w + w / 8 ≤ punning (4 * m) t' r' c' w
      ∨ punning (4 * m) t' r' c' w + w / 8 ≤ punning (4 * m) t r c w := by
  have hne : punning (4 * m) t r c w ≠ punning (4 * m) t' r' c' w :=
    fun e => h (punning_inj hw hm hs hr hc hs' hr' hc' e)
  have a1 := punning_aligned hw m t r c
  have a2 := punning_aligned hw m t' r' c'
  generalize punning (4 * m) t r c w = p at *
  generalize punning (4 * m) t' r' c' w = q at *
  simp only [tileWidths, List.mem_cons, List.not_mem_nil, or_false] at hw
  rcases hw with rfl | rfl | rfl | rfl <;> norm_num at a1 a2 ⊢ <;> omega

/-! ### The same in the model's terms -/

/-- TE is a multiple of 4, at least 4 (R9). -/
theorem te_eq {c : Config} (hc : c.wf = true) : ∃ m, 0 < m ∧ c.te = 4 * m := by
  simp only [Config.wf, Bool.and_eq_true, decide_eq_true_eq] at hc
  obtain ⟨k, hk⟩ : ∃ k, c.lgTe = k + 2 := ⟨c.lgTe - 2, by omega⟩
  refine ⟨2 ^ k, by positivity, ?_⟩
  rw [Config.te, hk, pow_add]; ring

theorem ete_eq_punEdge {c : Config} {m w : Nat} (h : c.te = 4 * m) : ete c w = punEdge m w := by
  simp only [ete, punEdge, h]; split_ifs <;> omega

/-- A valid element lies inside the tile state (R36, R38). -/
theorem validElement_bound {c : Config} (hc : c.wf = true) {w : Nat} (hw : w ∈ tileWidths) {t r col : Nat}
    (h : ValidElement c w t r col) : punning c.te t r col w + w / 8 ≤ c.tileBytes := by
  obtain ⟨m, hm, hte⟩ := te_eq hc
  obtain ⟨ht, hs, hr, hcol⟩ := h
  rw [ete_eq_punEdge hte] at hr hcol
  have := punning_bound hw hm ht hs hr hcol
  simpa [Config.tileBytes, hte] using this

/-- Two different valid elements do not overlap (R36, R38). -/
theorem validElement_apart {c : Config} (hc : c.wf = true) {w : Nat} (hw : w ∈ tileWidths) {t r col t' r' col' : Nat}
    (h : ValidElement c w t r col) (h' : ValidElement c w t' r' col') (hne : ¬ (t = t' ∧ r = r' ∧ col = col')) :
    punning c.te t r col w + w / 8 ≤ punning c.te t' r' col' w
      ∨ punning c.te t' r' col' w + w / 8 ≤ punning c.te t r col w := by
  obtain ⟨m, hm, hte⟩ := te_eq hc
  obtain ⟨ht, hs, hr, hcol⟩ := h
  obtain ⟨ht', hs', hr', hcol'⟩ := h'
  rw [ete_eq_punEdge hte] at hr hcol hr' hcol'
  rw [hte]
  exact punning_apart hw hm hs hr hcol hs' hr' hcol' hne

end Sys2Proof.Machine
end

