-- ==== Sys2Proof/Laws/Tiles.lean ====
section
/-! SUPPORT. What the shared tile writes leave in the tile state, each said once: the writes of a row or column and those of a
whole tile (R36, R168, R170, R216, R260). -/

namespace Sys2Proof.Machine

/-! ### Subsets -/

/-- A row or column that exists at a width (R162, R164). -/
structure ValidSubset (c : Config) (w : Nat) (u : Subset) : Prop where
  tile : u.tile < 16
  step : u.tile % tileStep w = 0
  index : u.index < ete c w

theorem ete_pos {c : Config} (hc : c.wf = true) (w : Nat) : 0 < ete c w := by rw [ete_eq_pow hc]; positivity

/-- The subset that a TSS names exists (R164). -/
theorem tssSubset_valid {c : Config} (hc : c.wf = true) (v : Word) (w : Nat) : ValidSubset c w (tssSubset c v w) := by
  have ht := (v.extractLsb' 27 4).isLt
  refine ⟨?_, ?_, Nat.mod_lt _ (ete_pos hc w)⟩
  · show _ - _ < 16; omega
  · exact Nat.mod_eq_zero_of_dvd (Nat.dvd_sub_mod _)

theorem tssDecode_valid {c : Config} (hc : c.wf = true) {v : Word} {w : Nat} {u : Subset} (h : tssDecode c v w = .subset u) :
    ValidSubset c w u := by
  unfold tssDecode at h
  split at h
  · split at h
    · injection h with h; subst h; exact tssSubset_valid hc v w
    · cases h
    · cases h
  · injection h with h; subst h; exact tssSubset_valid hc v w

/-- The elements of a subset exist (R162). -/
theorem validSubset_element {c : Config} {w : Nat} {u : Subset} (h : ValidSubset c w u) {i : Nat} (hi : i < ete c w) :
    ValidElement c w u.tile (u.coord i).1 (u.coord i).2 := by
  refine ⟨h.tile, h.step, ?_, ?_⟩ <;> unfold Subset.coord <;> split <;> first | exact hi | exact h.index

theorem coord_inj {u : Subset} {i j : Nat} (h1 : (u.coord i).1 = (u.coord j).1) (h2 : (u.coord i).2 = (u.coord j).2) : i = j := by
  unfold Subset.coord at h1 h2; split at h1 <;> simp_all

/-! ### Writes of elements that do not overlap -/

/-- Writes of distinct elements at the offsets `off`, each of `n` bytes: what every element and every other byte reads after. -/
theorem overlay_elements {α : Type} {buf : List Byte} {n : Nat} {off : α → Nat} {is : List α} {g : α → List Byte}
    (hg : ∀ i ∈ is, (g i).length = n) (hn : is.Nodup) (hb : ∀ i ∈ is, off i + n ≤ buf.length)
    (hd : ∀ i ∈ is, ∀ j ∈ is, i ≠ j → off i + n ≤ off j ∨ off j + n ≤ off i) :
    (∀ i ∈ is, readBytes (overlay buf (is.map fun i => (off i, g i))) (off i) n = g i) ∧
    (∀ o, (∀ i ∈ is, ¬ (off i ≤ o ∧ o < off i + n)) →
      readByte (overlay buf (is.map fun i => (off i, g i))) o = readByte buf o) := by
  refine ⟨?_, ?_⟩
  · intro i hi
    have hp : (is.map fun i => (off i, g i)).Pairwise ApartWrites := by
      rw [List.pairwise_map]
      refine hn.imp_of_mem ?_
      intro a b ha hb' hab
      have := hd a ha b hb' hab
      simp only [ApartWrites, hg a ha, hg b hb']
      exact this
    have hm : (off i, g i) ∈ is.map fun i => (off i, g i) := List.mem_map.2 ⟨i, hi, rfl⟩
    have := readBytes_overlay_of_mem buf _ _ _ hp hm (by rw [hg i hi]; exact hb i hi)
    rwa [hg i hi] at this
  · intro o ho
    apply readByte_overlay_outside
    intro x hx
    obtain ⟨i, hi, rfl⟩ := List.mem_map.1 hx
    have := ho i hi
    simp only [hg i hi]; omega

/-- The element indices of a body and tail, each with its new bytes, as one list of writes. -/
theorem map_append_piecewise {α β : Type} [DecidableEq α] (is js : List α) (f g : α → β) (h : ∀ i ∈ js, i ∉ is) :
    is.map f ++ js.map g = (is ++ js).map fun i => if i ∈ is then f i else g i := by
  rw [List.map_append]
  congr 1
  · exact List.map_congr_left fun i hi => by simp [hi]
  · exact List.map_congr_left fun i hi => by simp [h i hi]

/-! ### Rows and columns -/

theorem mem_bodyIndices {s : State} {w i : Nat} : i ∈ bodyIndices s w ↔ s.vstart ≤ i ∧ i < tn s w := by
  rw [bodyIndices, List.mem_range'_1]; omega

theorem mem_tailIndices {s : State} {w i : Nat} : i ∈ tailIndices s w ↔ tn s w ≤ i ∧ i < ete s.cfg w := by
  rw [tailIndices, List.mem_range'_1]; omega

theorem tn_le_ete (s : State) (w : Nat) : tn s w ≤ ete s.cfg w := min_le_right _ _

/-- Distinct elements of a subset do not overlap, and each lies in the tile state. -/
theorem subset_apart {c : Config} (hc : c.wf = true) {w : Nat} (hw : w ∈ tileWidths) {u : Subset} (hu : ValidSubset c w u)
    {i j : Nat} (hi : i < ete c w) (hj : j < ete c w) (hne : i ≠ j) :
    u.offset c w i + w / 8 ≤ u.offset c w j ∨ u.offset c w j + w / 8 ≤ u.offset c w i :=
  validElement_apart hc hw (validSubset_element hu hi) (validSubset_element hu hj) fun h => hne (coord_inj h.2.1 h.2.2)

theorem subset_bound {c : Config} (hc : c.wf = true) {w : Nat} (hw : w ∈ tileWidths) {u : Subset} (hu : ValidSubset c w u)
    {i : Nat} (hi : i < ete c w) : u.offset c w i + w / 8 ≤ c.tileBytes :=
  validElement_bound hc hw (validSubset_element hu hi)

/-- Writes of elements of a subset: what each element and every other byte reads after. -/
theorem subset_writes {s : State} (hc : s.cfg.wf = true) (hl : s.ts.length = s.cfg.tileBytes) {w : Nat} (hw : w ∈ tileWidths)
    {u : Subset} (hu : ValidSubset s.cfg w u) {is : List Nat} {g : Nat → List Byte} (hi : ∀ i ∈ is, i < ete s.cfg w)
    (hn : is.Nodup) (hg : ∀ i ∈ is, (g i).length = w / 8) :
    (∀ i ∈ is, readBytes (overlay s.ts (is.map fun i => (u.offset s.cfg w i, g i))) (u.offset s.cfg w i) (w / 8) = g i) ∧
    (∀ o, (∀ i ∈ is, ¬ InElement s.cfg w u.tile (u.coord i).1 (u.coord i).2 o) →
      readByte (overlay s.ts (is.map fun i => (u.offset s.cfg w i, g i))) o = readByte s.ts o) ∧
    (∀ i, i < ete s.cfg w → i ∉ is →
      readBytes (overlay s.ts (is.map fun i => (u.offset s.cfg w i, g i))) (u.offset s.cfg w i) (w / 8)
        = readBytes s.ts (u.offset s.cfg w i) (w / 8)) := by
  have h := overlay_elements (buf := s.ts) (off := fun i => u.offset s.cfg w i) hg hn
    (fun i h => hl ▸ subset_bound hc hw hu (hi i h)) (fun i h j h' => subset_apart hc hw hu (hi i h) (hi j h'))
  refine ⟨h.1, h.2, ?_⟩
  intro i hie hin
  apply readBytes_congr
  intro k h1 h2
  apply h.2
  intro j hj hk
  have hne : i ≠ j := fun e => hin (e ▸ hj)
  have := subset_apart hc hw hu hie (hi j hj) hne
  omega

/-- The body and tail writes of a row or column leave what `SubsetResult` says (R166, R168, R170, R192). -/
theorem subsetResult_of_writes {s t : State} (hc : s.cfg.wf = true) (hl : s.ts.length = s.cfg.tileBytes) {w : Nat}
    (hw : w ∈ tileWidths) {u : Subset} (hu : ValidSubset s.cfg w u) {g : Nat → List Byte}
    (hg : ∀ i ∈ bodyIndices s w, (g i).length = w / 8) (ht : t.cfg = s.cfg)
    (hts : t.ts = overlay s.ts ((bodyIndices s w).map (fun i => (u.offset s.cfg w i, g i)) ++ subsetTailWrites s u w)) :
    SubsetResult s t u w g := by
  have hdis : ∀ i ∈ tailIndices s w, i ∉ bodyIndices s w := by
    intro i h1 h2; rw [mem_tailIndices] at h1; rw [mem_bodyIndices] at h2; omega
  have hnd : (bodyIndices s w ++ tailIndices s w).Nodup := by
    rw [List.nodup_append']
    exact ⟨List.nodup_range', List.nodup_range', fun i h1 h2 => hdis i h2 h1⟩
  have hlt : ∀ i ∈ bodyIndices s w ++ tailIndices s w, i < ete s.cfg w := by
    intro i hi
    rcases List.mem_append.1 hi with h | h
    · rw [mem_bodyIndices] at h; exact lt_of_lt_of_le h.2 (tn_le_ete s w)
    · rw [mem_tailIndices] at h; exact h.2
  set ag : Nat → List Byte := fun i => agnosticBytes (Config.agnosticOnes s.draws i) (readBytes s.ts (u.offset s.cfg w i) (w / 8))
    with hag
  have heq : (bodyIndices s w).map (fun i => (u.offset s.cfg w i, g i)) ++ subsetTailWrites s u w
      = (bodyIndices s w ++ tailIndices s w).map fun i => (u.offset s.cfg w i, if i ∈ bodyIndices s w then g i else ag i) := by
    rw [subsetTailWrites, map_append_piecewise _ _ _ _ hdis]
    apply List.map_congr_left
    intro i _
    split <;> rfl
  rw [heq] at hts
  have hlen : ∀ i ∈ bodyIndices s w ++ tailIndices s w, (if i ∈ bodyIndices s w then g i else ag i).length = w / 8 := by
    intro i _
    split
    · exact hg i ‹_›
    · simp [hag]
  obtain ⟨h1, h2, -⟩ := subset_writes hc hl hw hu hlt hnd hlen
  refine ⟨?_, ?_, ?_, ?_⟩
  · intro i hv hi
    have hm : i ∈ bodyIndices s w := mem_bodyIndices.2 ⟨hv, hi⟩
    have := h1 i (List.mem_append_left _ hm)
    rw [if_pos hm] at this
    rw [subsetElem, hts, ht]; exact this
  · intro i hi he
    have hm : i ∈ tailIndices s w := mem_tailIndices.2 ⟨hi, he⟩
    have := h1 i (List.mem_append_right _ hm)
    rw [if_neg (hdis i hm)] at this
    rw [AgnosticFrom, subsetElem, subsetElem, hts, ht, this]
    exact agnosticBytes_cases _ _
  · intro o ho
    rw [hts]
    apply h2
    intro i hi
    apply ho i (hlt i hi)
    rcases List.mem_append.1 hi with h | h
    · exact .inl (mem_bodyIndices.1 h).1
    · exact .inr (mem_tailIndices.1 h).1
  · rw [hts, overlay_length]

/-! ### Whole tiles -/

theorem mem_tileCoords {e : Nat} {p : Nat × Nat} : p ∈ tileCoords e ↔ p.1 < e ∧ p.2 < e := by
  obtain ⟨r, c⟩ := p
  simp [tileCoords]

theorem tileCoords_nodup (e : Nat) : (tileCoords e).Nodup := by
  rw [tileCoords, List.nodup_flatMap]
  refine ⟨fun r _ => List.nodup_range.map fun a b h => by simpa using h, ?_⟩
  refine List.nodup_range.imp ?_
  intro a b hab x hx hy
  simp only [List.mem_map] at hx hy
  obtain ⟨c, -, rfl⟩ := hx
  obtain ⟨d, -, h⟩ := hy
  exact hab (by simpa using (congrArg Prod.fst h).symm)

theorem inBody_iff {s : State} {tew : Nat} {p : Nat × Nat} :
    inBody s tew p = true ↔ p.1 < s.mtype.tm.toNat ∧ p.2 < tn s tew := by simp [inBody]

/-- The writes of a whole tile leave what `TileResult` says (R216, R260), where `tm` is at most ETE. -/
theorem tileResult_of_writes {s t : State} (hc : s.cfg.wf = true) (hl : s.ts.length = s.cfg.tileBytes) {tew : Nat}
    (hw : tew ∈ tileWidths) {tile : Nat} (h16 : tile < 16) (hs : tile % tileStep tew = 0)
    (htm : s.mtype.tm.toNat ≤ ete s.cfg tew) {body : Nat × Nat → List Byte} (hb : ∀ p, (body p).length = tew / 8)
    (ht : t.cfg = s.cfg) (hts : t.ts = overlay s.ts (tileWrites s tew tile body)) :
    TileResult s t tew tile (fun r c => leValue (body (r, c))) := by
  set off : Nat × Nat → Nat := fun p => punning s.cfg.te tile p.1 p.2 tew with hoff
  set ag : Nat × Nat → List Byte := fun p =>
    agnosticBytes (Config.agnosticOnes s.draws (p.1 * ete s.cfg tew + p.2)) (readBytes s.ts (off p) (tew / 8)) with hag
  have heq : tileWrites s tew tile body
      = (tileCoords (ete s.cfg tew)).map fun p => (off p, if inBody s tew p then body p else ag p) := by
    unfold tileWrites
    apply List.map_congr_left
    intro p _
    simp only
    split <;> rfl
  rw [heq] at hts
  have hv : ∀ p ∈ tileCoords (ete s.cfg tew), ValidElement s.cfg tew tile p.1 p.2 := fun p hp =>
    ⟨h16, hs, (mem_tileCoords.1 hp).1, (mem_tileCoords.1 hp).2⟩
  have h := overlay_elements (buf := s.ts) (n := tew / 8) (off := off) (is := tileCoords (ete s.cfg tew))
    (g := fun p => if inBody s tew p then body p else ag p)
    (fun p _ => by split; exact hb p; simp [hag]) (tileCoords_nodup _)
    (fun p hp => hl ▸ validElement_bound hc hw (hv p hp))
    (fun p hp q hq hne => validElement_apart hc hw (hv p hp) (hv q hq) fun h => hne (Prod.ext h.2.1 h.2.2))
  refine ⟨?_, ?_, ?_, ?_⟩
  · intro r c hr hcn
    have hm : (r, c) ∈ tileCoords (ete s.cfg tew) := mem_tileCoords.2 ⟨by omega, lt_of_lt_of_le hcn (tn_le_ete s tew)⟩
    have h1 := h.1 _ hm
    rw [if_pos (inBody_iff.2 ⟨hr, hcn⟩)] at h1
    rw [tileElem, hts, ht, h1]
  · intro r c hr hcn hor
    have hm : (r, c) ∈ tileCoords (ete s.cfg tew) := mem_tileCoords.2 ⟨hr, hcn⟩
    have h1 := h.1 _ hm
    rw [if_neg (by rw [inBody_iff]; simp only; omega)] at h1
    rw [AgnosticFrom, tileElem, tileElem, hts, ht, h1]
    exact agnosticBytes_cases _ _
  · intro o ho
    rw [hts]
    apply h.2
    intro p hp
    exact ho p.1 p.2 (mem_tileCoords.1 hp).1 (mem_tileCoords.1 hp).2
  · rw [hts, overlay_length]

end Sys2Proof.Machine
end

