-- ==== Sys2Proof/Laws/Matrix.lean ====
section
/-! SUPPORT. What the matrix operation leaves in the tile state and in the flags, each said once (R214 to R218). -/

namespace Sys2Proof.Machine

/-! ### The checks -/

theorem matrixSpecifierValid_iff (s : State) (v : VReg) : matrixSpecifierValid s.vtype v = true ↔ SpecifierAllowed s v := by
  simp [matrixSpecifierValid, SpecifierAllowed]

/-- A form has an arithmetic exactly under the rows of R213. -/
theorem matrixArith_isSome_iff (c : Config) (f : MatrixForm) (w tw : Nat) (alt : Bool) :
    (matrixArith c f w tw alt).isSome = true ↔ DefinedCombination c f w tw alt := by
  cases f <;> simp only [matrixArith, DefinedCombination] <;> (repeat' split) <;> simp_all

theorem matrixArith_isFloat {c : Config} {f : MatrixForm} {w tw : Nat} {alt : Bool} {a : Arith}
    (h : matrixArith c f w tw alt = some a) : a.isFloat = f.isFloat := by
  cases f <;> simp only [matrixArith] at h <;> split_ifs at h <;> injection h with h <;> subst h <;> rfl

theorem matrixStateIllegal_of_pass {s : State} {float : Bool} {vs2 vs1 : VReg} (h : MatrixSourcesPass s float vs2 vs1) :
    matrixStateIllegal s float = false := by
  have := h.fs
  cases float <;> simp [matrixStateIllegal, h.vs, h.ms, h.vill, h.vstart]
  exact this rfl

theorem matrixSourceIllegal_of_pass {s : State} {float : Bool} {vs2 vs1 : VReg} (h : MatrixSourcesPass s float vs2 vs1) :
    matrixSourceIllegal s float vs2 vs1 = false := by
  have := h.frm
  have ha := (matrixSpecifierValid_iff s vs2).2 h.a
  have hb := (matrixSpecifierValid_iff s vs1).2 h.b
  cases float <;> simp [matrixSourceIllegal, ha, hb]
  exact this rfl

theorem matrixFormPresent_iff (s : State) (f : MatrixForm) :
    matrixFormPresent s f = true ↔ ∃ w ∈ [1, 2, 4], DefinedCombination s.cfg f (sew s.vtype) w s.vtype.altfmt := by
  simp only [matrixFormPresent, List.any_eq_true, matrixArith_isSome_iff]

/-- What a matrix instruction answers when the checks of R214 pass. -/
theorem matrixMultiply_run {s : State} {f : MatrixForm} {w : Nat} {mtd : Tile} {vs2 vs1 : VReg} {a : Arith}
    (hw : twidenOf s.cfg s.mtype.mtwiden = some w) (ha : matrixArith s.cfg f (sew s.vtype) w s.vtype.altfmt = some a)
    (h : MatrixChecksPass s f.isFloat (sew s.vtype * w) mtd vs2 vs1) (i : Instr) :
    matrixMultiply i f mtd vs2 vs1 s =
      if matrixIsEmpty s (sew s.vtype * w) then .next (zeroSize f.isFloat s)
      else .next (matrixAccumulate a (sew s.vtype * w) mtd.toNat vs2 vs1 s) := by
  have h1 := matrixStateIllegal_of_pass h.toMatrixSourcesPass
  have h2 := matrixSourceIllegal_of_pass h.toMatrixSourcesPass
  simp [matrixMultiply, h1, hw, ha, h2, matrixTileIllegal, h.tile]

/-- What a matrix instruction answers when the unit is not configured and the policy is `nop` (R214 check 6; log 20). -/
theorem matrixMultiply_nop {s : State} {f : MatrixForm} {mtd : Tile} {vs2 vs1 : VReg} (hw : s.mtype.mtwiden = 0#2)
    (hp : s.cfg.mmUnconfigured = .nop) (hf : matrixFormPresent s f = true) (h : MatrixSourcesPass s f.isFloat vs2 vs1) (i : Instr) :
    matrixMultiply i f mtd vs2 vs1 s = .next (zeroSize f.isFloat s) := by
  have h1 := matrixStateIllegal_of_pass h
  have h2 := matrixSourceIllegal_of_pass h
  simp [matrixMultiply, h1, (twidenOf_none_iff s.cfg _).2 hw, matrixUnconfigured, hp, hf, h2]

theorem matrixIsEmpty_of_notEmpty {s : State} {tew : Nat} (h : NotEmpty s tew) : matrixIsEmpty s tew = false := by
  simp [matrixIsEmpty, h.tm, h.tn, h.tk]

/-! ### The tile -/

/-- A configured unit with a legal `vtype` has a supported tile element width, and `tm` is at most ETE (R50, R135). -/
theorem tew_of_inv {s : State} (hI : s.Inv) (hv : s.vtype.vill = false) {w : Nat}
    (hw : twidenOf s.cfg s.mtype.mtwiden = some w) :
    sew s.vtype * w ∈ tileWidths ∧ s.mtype.tm.toNat ≤ ete s.cfg (sew s.vtype * w) := by
  obtain ⟨-, -, -, h1, -, h2, -⟩ := hI.config.configured w hw
  have hs := sew_cases hI.config.vsew
  have hle := h1 hv
  have h64 : s.cfg.elenBits ≤ 64 := by rcases elenBits_cases s.cfg with h | h <;> omega
  have hm := twiden_mem hw
  refine ⟨?_, by omega⟩
  simp only [List.mem_cons, List.not_mem_nil, or_false] at hm
  simp only [tileWidths, List.mem_cons, List.not_mem_nil, or_false]
  rcases hs with h | h | h | h <;> rw [h] at hle ⊢ <;> rcases hm with rfl | rfl | rfl <;> omega

/-- What the accumulation leaves in the tile state (R216, R217): each body element's new value, in its width. -/
theorem matrixAccumulate_tile {s : State} (hI : s.Inv) {tew : Nat} (hw : tew ∈ tileWidths) {t : Nat} (ht : t < 16)
    (hs : t % tileStep tew = 0) (htm : s.mtype.tm.toNat ≤ ete s.cfg tew) (a : Arith) (vs2 vs1 : VReg) :
    TileResult s (matrixAccumulate a tew t vs2 vs1 s) tew t
      (fun i j => (matrixElem s a tew t vs2 vs1 (i, j)).1 % 256 ^ (tew / 8)) := by
  have h := tileResult_of_writes (t := matrixAccumulate a tew t vs2 vs1 s) hI.cfg hI.tsLength hw ht hs htm
    (body := fun p => leBytes (tew / 8) (matrixElem s a tew t vs2 vs1 p).1) (fun p => leBytes_length ..) rfl rfl
  simpa only [leValue_leBytes] using h

/-! ### The flags -/

theorem foldl_or_getLsbD {α : Type} (l : List α) (f : α → BitVec 5) (b : BitVec 5) (j : Nat) :
    (l.foldl (fun fl p => fl ||| f p) b).getLsbD j = true ↔ b.getLsbD j = true ∨ ∃ p ∈ l, (f p).getLsbD j = true := by
  induction l generalizing b with
  | nil => simp
  | cons x l ih => rw [List.foldl_cons, ih]; simp [or_assoc]

theorem matrixFlagMask_bit (j : Nat) : matrixFlagMask.getLsbD j = true ↔ j = 4 ∨ j = 2 := by
  rcases Nat.lt_or_ge j 5 with h | h
  · interval_cases j <;> simp [matrixFlagMask]
  · rw [BitVec.getLsbD_of_ge _ _ h]; simp; omega

/-- What a floating-point accumulation leaves in `fflags` (R217, R218), where `tm` is at most ETE. -/
theorem matrixAccumulate_flags {s : State} {a : Arith} (ha : a.isFloat = true) {tew : Nat}
    (htm : s.mtype.tm.toNat ≤ ete s.cfg tew) (t : Nat) (vs2 vs1 : VReg) :
    FlagsResult s (matrixAccumulate a tew t vs2 vs1 s) tew (fun i j => (matrixElem s a tew t vs2 vs1 (i, j)).2) := by
  intro j
  have hf : (matrixAccumulate a tew t vs2 vs1 s).fflags = orMatrixFlags s.fflags (matrixFlags s a tew t vs2 vs1) := by
    show (if a.isFloat then _ else _) = _
    rw [if_pos ha]
  rw [hf, orMatrixFlags, BitVec.getLsbD_or, BitVec.getLsbD_and, Bool.or_eq_true, Bool.and_eq_true, matrixFlagMask_bit, matrixFlags,
    foldl_or_getLsbD]
  constructor
  · rintro (h | ⟨h, hj⟩)
    · exact .inl h
    · refine .inr ⟨hj, ?_⟩
      rcases h with h | ⟨p, hp, h⟩
      · simp at h
      · have := inBody_iff.1 (List.mem_filter.1 hp).2
        exact ⟨p.1, p.2, this.1, this.2, h⟩
  · rintro (h | ⟨hj, r, c, hr, hc, h⟩)
    · exact .inl h
    · refine .inr ⟨.inr ⟨(r, c), List.mem_filter.2 ⟨mem_tileCoords.2 ⟨by omega, lt_of_lt_of_le hc (tn_le_ete s tew)⟩, ?_⟩, h⟩, hj⟩
      exact inBody_iff.2 ⟨hr, hc⟩

end Sys2Proof.Machine
end

