-- ==== Sys2Proof/Laws/Memory.lean ====
section
/-! SUPPORT. The laws of memory: its canonical form is kept, a read after a write. -/

namespace Sys2Proof.Machine

/-! ### The canonical form -/

theorem memory_wfFrom_mono {lo lo' : Nat} {m : Memory} (h : lo' ≤ lo) (hm : Memory.wfFrom lo m = true) :
    Memory.wfFrom lo' m = true := by
  cases m with
  | nil => rfl
  | cons p m =>
    obtain ⟨a, v⟩ := p
    simp only [Memory.wfFrom, Bool.and_eq_true, decide_eq_true_eq] at hm ⊢
    exact ⟨⟨h.trans hm.1.1, hm.1.2⟩, hm.2⟩

theorem memRead_below {m : Memory} {lo a : Nat} (hm : Memory.wfFrom lo m = true) (ha : a < lo) :
    memRead m a = unlistedByte := by
  induction m generalizing lo with
  | nil => rfl
  | cons p m ih =>
    obtain ⟨b, v⟩ := p
    simp only [Memory.wfFrom, Bool.and_eq_true, decide_eq_true_eq] at hm
    have hb : a ≠ b := by omega
    simp only [memRead, hb, if_false]
    exact ih hm.2 (by omega)

theorem memWrite_wfFrom {m : Memory} {lo a : Nat} (v : Byte) (hm : Memory.wfFrom lo m = true) (ha : lo ≤ a) :
    Memory.wfFrom lo (memWrite m a v) = true := by
  induction m generalizing lo with
  | nil => by_cases h : v = unlistedByte <;> simp [memWrite, Memory.wfFrom, h, ha]
  | cons p m ih =>
    obtain ⟨b, u⟩ := p
    simp only [Memory.wfFrom, Bool.and_eq_true, decide_eq_true_eq] at hm
    obtain ⟨⟨h1, h2⟩, h3⟩ := hm
    simp only [memWrite]
    split_ifs with hlt hv heq hv
    · simp [Memory.wfFrom, h1, h3]; simpa using h2
    · simp only [Memory.wfFrom, Bool.and_eq_true, decide_eq_true_eq]
      exact ⟨⟨ha, by simpa using hv⟩, ⟨by omega, h2⟩, h3⟩
    · exact memory_wfFrom_mono (by omega) h3
    · subst heq
      simp only [Memory.wfFrom, Bool.and_eq_true, decide_eq_true_eq]
      exact ⟨⟨h1, by simpa using hv⟩, h3⟩
    · simp only [Memory.wfFrom, Bool.and_eq_true, decide_eq_true_eq]
      exact ⟨⟨h1, h2⟩, ih h3 (by omega)⟩

/-- A write keeps the canonical form of memory. -/
theorem memWrite_wf {m : Memory} (a : Nat) (v : Byte) (hm : Memory.wf m = true) : Memory.wf (memWrite m a v) = true :=
  memWrite_wfFrom v hm (Nat.zero_le a)

/-- A list of writes keeps the canonical form of memory. -/
theorem memWrites_wf {m : Memory} (ws : List (Nat × Byte)) (hm : Memory.wf m = true) : Memory.wf (memWrites m ws) = true := by
  induction ws generalizing m with
  | nil => exact hm
  | cons w ws ih => exact ih (memWrite_wf w.1 w.2 hm)

/-- The memory of the reset state has the canonical form. -/
theorem resetOf_mem_wf (c : Config) : Memory.wf (State.resetOf c).mem = true := rfl

/-- The memory of `State.reset` has the canonical form. -/
theorem reset_mem_wf : Memory.wf State.reset.mem = true := rfl

/-! ### Reads after writes -/

theorem memRead_memWrite_from {m : Memory} {lo : Nat} (a : Nat) (v : Byte) (b : Nat) (hm : Memory.wfFrom lo m = true) :
    memRead (memWrite m a v) b = if b = a then v else memRead m b := by
  induction m generalizing lo with
  | nil =>
    by_cases hv : v = unlistedByte
    · by_cases hb : b = a <;> simp [memWrite, memRead, hv, hb]
    · by_cases hb : b = a <;> simp [memWrite, memRead, hv, hb]
  | cons p m ih =>
    obtain ⟨c, u⟩ := p
    simp only [Memory.wfFrom, Bool.and_eq_true, decide_eq_true_eq] at hm
    obtain ⟨⟨h1, h2⟩, h3⟩ := hm
    have below : ∀ d, d ≤ c → memRead m d = unlistedByte := fun d hd => memRead_below h3 (by omega)
    simp only [memWrite]
    by_cases hlt : a < c
    · by_cases hv : v = unlistedByte
      · simp only [hlt, hv, if_true, memRead]
        by_cases hb : b = a
        · simp [hb, show a ≠ c by omega, below a (by omega)]
        · simp [hb]
      · simp [hlt, hv, memRead]
    · by_cases heq : a = c
      · subst heq
        by_cases hv : v = unlistedByte
        · simp only [lt_irrefl, hv, if_true, if_false, memRead]
          by_cases hb : b = a
          · simp [hb, below a le_rfl]
          · simp [hb]
        · simp only [lt_irrefl, hv, if_true, if_false, memRead]
          by_cases hb : b = a <;> simp [hb]
      · simp only [hlt, heq, if_false, memRead, ih h3]
        by_cases hb : b = c
        · simp [hb, Ne.symm heq]
        · simp [hb]

/-- A read after a write: the value at the address written, the old value everywhere else. -/
theorem memRead_memWrite {m : Memory} (hm : Memory.wf m = true) (a : Nat) (v : Byte) (b : Nat) :
    memRead (memWrite m a v) b = if b = a then v else memRead m b := memRead_memWrite_from a v b hm

theorem memRead_memWrites_of_not_mem {m : Memory} (ws : List (Nat × Byte)) (hm : Memory.wf m = true) {a : Nat}
    (ha : ∀ w ∈ ws, w.1 ≠ a) : memRead (memWrites m ws) a = memRead m a := by
  induction ws generalizing m with
  | nil => rfl
  | cons w ws ih =>
    have h := ih (m := memWrite m w.1 w.2) (memWrite_wf w.1 w.2 hm) (fun x hx => ha x (List.mem_cons_of_mem _ hx))
    have hw : a ≠ w.1 := fun e => ha w (List.mem_cons_self ..) e.symm
    simpa [memWrites, memRead_memWrite hm, hw] using h

/-- A byte written by a list of writes to distinct addresses reads back. -/
theorem memRead_memWrites_of_mem {m : Memory} (ws : List (Nat × Byte)) (hm : Memory.wf m = true) {a : Nat} {v : Byte}
    (hd : (ws.map (·.1)).Nodup) (ha : (a, v) ∈ ws) : memRead (memWrites m ws) a = v := by
  induction ws generalizing m with
  | nil => simp at ha
  | cons w ws ih =>
    simp only [List.map_cons, List.nodup_cons] at hd
    rcases List.mem_cons.1 ha with rfl | ha
    · have h := memRead_memWrites_of_not_mem (m := memWrite m a v) ws (memWrite_wf a v hm) (a := a)
        (fun x hx e => hd.1 (List.mem_map.2 ⟨x, hx, e⟩))
      simpa [memWrites, memRead_memWrite hm] using h
    · exact ih (m := memWrite m w.1 w.2) (memWrite_wf w.1 w.2 hm) hd.2 ha

/-! ### The record of stored addresses -/

theorem risingFrom_mono {lo lo' : Nat} {l : List Nat} (h : lo' ≤ lo) (hl : risingFrom lo l = true) :
    risingFrom lo' l = true := by
  cases l with
  | nil => rfl
  | cons a l =>
    simp only [risingFrom, Bool.and_eq_true, decide_eq_true_eq] at hl ⊢
    exact ⟨h.trans hl.1, hl.2⟩

theorem insertAddr_risingFrom {l : List Nat} {lo a : Nat} (hl : risingFrom lo l = true) (ha : lo ≤ a) :
    risingFrom lo (insertAddr l a) = true := by
  induction l generalizing lo with
  | nil => simp [insertAddr, risingFrom, ha]
  | cons b l ih =>
    simp only [risingFrom, Bool.and_eq_true, decide_eq_true_eq] at hl
    simp only [insertAddr]
    split_ifs with h1 h2
    · simp only [risingFrom, Bool.and_eq_true, decide_eq_true_eq]
      exact ⟨ha, by omega, hl.2⟩
    · simp [risingFrom, hl]
    · simp only [risingFrom, Bool.and_eq_true, decide_eq_true_eq]
      exact ⟨hl.1, ih hl.2 (by omega)⟩

/-- Inserting addresses keeps the record in canonical form. -/
theorem foldl_insertAddr_rising (ws : List (Nat × Byte)) {l : List Nat} (hl : risingFrom 0 l = true) :
    risingFrom 0 (ws.foldl (fun l p => insertAddr l p.1) l) = true := by
  induction ws generalizing l with
  | nil => exact hl
  | cons w ws ih => exact ih (insertAddr_risingFrom hl (Nat.zero_le _))

theorem removeAddr_risingFrom {l : List Nat} {lo : Nat} (a : Nat) (hl : risingFrom lo l = true) :
    risingFrom lo (removeAddr l a) = true := by
  induction l generalizing lo with
  | nil => rfl
  | cons b l ih =>
    simp only [risingFrom, Bool.and_eq_true, decide_eq_true_eq] at hl
    simp only [removeAddr, List.filter_cons]
    split
    · simp only [risingFrom, Bool.and_eq_true, decide_eq_true_eq]
      exact ⟨hl.1, ih hl.2⟩
    · exact risingFrom_mono (by omega) (ih hl.2)

theorem mem_insertAddr {l : List Nat} {a b : Nat} : b ∈ insertAddr l a ↔ b = a ∨ b ∈ l := by
  induction l with
  | nil => simp [insertAddr]
  | cons c l ih =>
    simp only [insertAddr]
    split_ifs with h1 h2
    · simp
    · subst h2; simp
    · simp only [List.mem_cons, ih]; tauto

theorem mem_removeAddr {l : List Nat} {a b : Nat} : b ∈ removeAddr l a ↔ b ∈ l ∧ b ≠ a := by
  simp [removeAddr, List.mem_filter]

/-- The addresses a list of removals leaves. -/
theorem mem_foldl_insertAddr (ws : List (Nat × Byte)) {l : List Nat} {b : Nat} :
    b ∈ ws.foldl (fun l p => insertAddr l p.1) l ↔ b ∈ l ∨ ∃ w ∈ ws, w.1 = b := by
  induction ws generalizing l with
  | nil => simp
  | cons w ws ih =>
    simp only [List.foldl_cons, ih, mem_insertAddr, List.exists_mem_cons_iff, eq_comm (a := b)]
    tauto

theorem mem_foldl_removeAddr (ws : List (Nat × Byte)) {l : List Nat} {b : Nat} :
    b ∈ ws.foldl (fun l p => removeAddr l p.1) l ↔ b ∈ l ∧ ∀ w ∈ ws, w.1 ≠ b := by
  induction ws generalizing l with
  | nil => simp
  | cons w ws ih =>
    simp only [List.foldl_cons, ih, mem_removeAddr, List.forall_mem_cons, ne_eq]
    exact ⟨fun h => ⟨h.1.1, fun e => h.1.2 e.symm, h.2⟩, fun h => ⟨⟨h.1, fun e => h.2.1 e.symm⟩, h.2.2⟩⟩

/-! ### Addresses -/

/-- The addresses of fewer than 2^XLEN consecutive bytes differ (R72). -/
theorem addrX_inj {c : Config} {a k k' : Nat} (hk : k < 2 ^ c.xlenBits) (hk' : k' < 2 ^ c.xlenBits)
    (h : addrX c a k = addrX c a k') : k = k' := by
  have h1 : (a + k) ≡ (a + k') [MOD 2 ^ c.xlenBits] := h
  have h2 : k ≡ k' [MOD 2 ^ c.xlenBits] := Nat.ModEq.add_left_cancel' a h1
  rwa [Nat.ModEq, Nat.mod_eq_of_lt hk, Nat.mod_eq_of_lt hk'] at h2

/-- An offset from an address modulo 2^XLEN (R72). -/
theorem addrX_addrX (c : Config) (a j k : Nat) : addrX c (addrX c a j) k = addrX c a (j + k) := by
  unfold addrX; rw [Nat.mod_add_mod, Nat.add_assoc]

theorem mem_byteAddrs {c : Config} {a n b : Nat} : b ∈ byteAddrs c a n ↔ ∃ k, k < n ∧ b = addrX c a k := by
  simp [byteAddrs, eq_comm]

/-- The addresses of the bytes of one access differ. -/
theorem byteAddrs_nodup (c : Config) (a : Nat) {n : Nat} (hn : n ≤ 2 ^ c.xlenBits) : (byteAddrs c a n).Nodup := by
  refine List.Nodup.map_on ?_ List.nodup_range
  intro k hk k' hk' h
  exact addrX_inj (by have := List.mem_range.1 hk; omega) (by have := List.mem_range.1 hk'; omega) h

end Sys2Proof.Machine
end

