-- ==== Sys2Proof/Laws/Numerics.lean ====
section
/-! SUPPORT. Bounds of the numeric operations: every floating-point result is an encoding of its format (R219, R222), and the
integer accumulation is exact modulo 2^32 (R233). -/

namespace Sys2Proof.Machine

theorem fpSignBit_cases (f : FpFormat) (n : Bool) : fpSignBit f n = 0 ∨ fpSignBit f n = 2 ^ (fpFracBits f + fpExpBits f) := by
  cases n <;> simp [fpSignBit]

theorem fpInfinity_add (f : FpFormat) : fpInfinity f + 2 ^ fpFracBits f = 2 ^ (fpFracBits f + fpExpBits f) := by
  cases f <;> rfl

theorem fpCanonicalNan_lt (f : FpFormat) : fpCanonicalNan f < 2 ^ (fpFracBits f + fpExpBits f) := by cases f <;> decide

/-- A sign and a magnitude up to infinity make an encoding. -/
theorem sign_add_lt (f : FpFormat) (n : Bool) {r : Nat} (h : r ≤ fpInfinity f) : fpSignBit f n + r < 2 ^ fpBits f := by
  have h1 := fpInfinity_add f
  have h2 : 0 < 2 ^ fpFracBits f := by positivity
  have h3 : 2 ^ fpBits f = 2 * 2 ^ (fpFracBits f + fpExpBits f) := by rw [fpBits, pow_succ]; ring
  rcases fpSignBit_cases f n with h4 | h4 <;> omega

theorem fpNanResult_lt (f : FpFormat) (b : Bool) : (fpNanResult f b).1 < 2 ^ fpBits f := by
  have h1 := fpCanonicalNan_lt f
  have h3 : 2 ^ fpBits f = 2 * 2 ^ (fpFracBits f + fpExpBits f) := by rw [fpBits, pow_succ]; ring
  show fpCanonicalNan f < _
  omega

theorem overflowMagnitude_le (f : FpFormat) (rm : BitVec 3) (n : Bool) : overflowMagnitude f rm n ≤ fpInfinity f := by
  unfold overflowMagnitude
  split <;> (try split) <;> omega

theorem fpRound_lt (f : FpFormat) (rm : BitVec 3) (n : Bool) (m : Nat) (e : Int) : (fpRound f rm n m e).1 < 2 ^ fpBits f := by
  unfold fpRound
  split
  · exact sign_add_lt f n (r := 0) (Nat.zero_le _)
  · simp only
    split
    · exact sign_add_lt f n (overflowMagnitude_le f rm n)
    · exact sign_add_lt f n (by omega)

/-- The sum of two encodings is an encoding of the format (R219). -/
theorem fpAdd_lt (f : FpFormat) (rm : BitVec 3) (a b : Nat) : (fpAdd f rm a b).1 < 2 ^ fpBits f := by
  unfold fpAdd
  split
  · exact fpNanResult_lt ..
  · exact fpNanResult_lt ..
  · exact fpNanResult_lt ..
  · split
    · exact sign_add_lt f _ le_rfl
    · exact fpNanResult_lt ..
  · exact sign_add_lt f _ le_rfl
  · exact sign_add_lt f _ le_rfl
  · simp only
    split
    · exact sign_add_lt f _ (r := 0) (Nat.zero_le _)
    · exact fpRound_lt ..

/-- The product of two encodings is an encoding of the format (R219). -/
theorem fpMul_lt (f : FpFormat) (rm : BitVec 3) (a b : Nat) : (fpMul f rm a b).1 < 2 ^ fpBits f := by
  unfold fpMul
  split
  · exact fpNanResult_lt ..
  · exact fpNanResult_lt ..
  · exact fpNanResult_lt ..
  · exact sign_add_lt f _ le_rfl
  · split
    · exact fpNanResult_lt ..
    · exact sign_add_lt f _ le_rfl
  · split
    · exact fpNanResult_lt ..
    · exact sign_add_lt f _ le_rfl
  · exact fpRound_lt ..

/-- Every member of `NUMERICS` answers an encoding of the format. -/
theorem numericsMul_lt (n : NumericsPolicy) (f : FpFormat) (rm : BitVec 3) (a b : Nat) :
    (numericsMul n f rm a b).1 < 2 ^ fpBits f := by
  cases n
  · exact fpMul_lt f rm a b
  · exact Nat.mod_lt _ (by positivity)

theorem numericsAdd_lt (n : NumericsPolicy) (f : FpFormat) (rm : BitVec 3) (a b : Nat) :
    (numericsAdd n f rm a b).1 < 2 ^ fpBits f := by
  cases n
  · exact fpAdd_lt f rm a b
  · exact Nat.mod_lt _ (by positivity)

/-- An extended 8-bit element as an integer modulo 2^32 (R233). -/
theorem extend8_toInt (signed : Bool) {a : Nat} (ha : a < 256) : (extend8 signed a).toInt = int8 signed a := by
  cases signed
  · simp only [extend8, int8, Bool.false_eq_true, if_false]
    rw [BitVec.toInt_eq_toNat_of_lt (by rw [BitVec.toNat_setWidth, BitVec.toNat_ofNat]; omega), BitVec.toNat_setWidth,
      BitVec.toNat_ofNat, Nat.mod_eq_of_lt (a := a) (by omega), Nat.mod_eq_of_lt (by omega)]
  · simp only [extend8, int8, if_true]
    exact BitVec.toInt_signExtend_of_le (by norm_num)

theorem toNat_eq_emod (x : BitVec 32) (z : Int) (h : x.toInt % 2 ^ 32 = z % 2 ^ 32) : x.toNat = (z % 2 ^ 32).toNat := by
  rw [← h, BitVec.toInt_eq_toNat_cond]
  have := x.isLt
  split <;> omega

/-- The integer accumulation is the exact sum of products modulo 2^32 (R233). -/
theorem accInt_eq (sa sb : Bool) (acc : Nat) (ab : List (Nat × Nat)) (h : ∀ p ∈ ab, p.1 < 256 ∧ p.2 < 256) :
    accInt sa sb acc ab = (((acc : Int) + (ab.map fun (p : Nat × Nat) => int8 sa p.1 * int8 sb p.2).sum) % 2 ^ 32).toNat := by
  unfold accInt
  apply toNat_eq_emod
  have key : ∀ (t : BitVec 32) (z : Int), t.toInt % 2 ^ 32 = z % 2 ^ 32 →
      (ab.foldl (fun t (p : Nat × Nat) => t + extend8 sa p.1 * extend8 sb p.2) t).toInt % 2 ^ 32
        = (z + (ab.map fun (p : Nat × Nat) => int8 sa p.1 * int8 sb p.2).sum) % 2 ^ 32 := by
    induction ab with
    | nil => intro t z ht; simpa using ht
    | cons p l ih =>
      intro t z ht
      rw [List.foldl_cons, ih (fun q hq => h q (List.mem_cons_of_mem _ hq)) _ (z + int8 sa p.1 * int8 sb p.2), List.map_cons,
        List.sum_cons, Int.add_assoc]
      have hp := h p (List.mem_cons_self ..)
      rw [BitVec.toInt_add, BitVec.toInt_mul, extend8_toInt sa hp.1, extend8_toInt sb hp.2]
      rw [Int.add_bmod_bmod, show (2 : Int) ^ 32 = ((2 ^ 32 : Nat) : Int) by norm_num, Int.bmod_emod,
        show ((2 ^ 32 : Nat) : Int) = 2 ^ 32 by norm_num]
      omega
  refine key _ _ ?_
  rw [BitVec.toInt_eq_toNat_cond, BitVec.toNat_ofNat]
  split <;> omega

end Sys2Proof.Machine
end

