-- ==== Sys2Proof/Laws/PerInstr.lean ====
section
/-! SUPPORT. The family OwnRow, one lemma for each constructor of Instr: the word of a well-formed instruction selects a row of the
opcode table, and that row builds the instruction from it. -/

namespace Sys2Proof.Laws.OwnRow

/-- The word of a well-formed instruction selects a row of the opcode table that reads every operand back (R103 to R107). -/
def Statement (i : Instr) : Prop :=
  i.wellFormed = true → ∃ r ∈ rows, r.selects (encode i) = true ∧ r.build (encode i) = i

theorem vsetvli (rd rs1 : XReg) (zimm : BitVec 11) : Statement (.vsetvli rd rs1 zimm) := fun _ =>
  ⟨_, List.mem_of_getElem? (i := 0) rfl,
    by simp (disch := decide) [Row.selects, encode, BitVec.and_or_distrib_right, place_and_mask],
    by
      simp (disch := decide) only [encode, fieldRd, fieldRs1, field_or,
        field_place_self, field_place_other, field_zero_or, BitVec.or_zero, BitVec.ofNat_eq_ofNat]⟩

theorem vsetivli (rd : XReg) (uimm : BitVec 5) (zimm : BitVec 10) : Statement (.vsetivli rd uimm zimm) := fun _ =>
  ⟨_, List.mem_of_getElem? (i := 1) rfl,
    by simp (disch := decide) [Row.selects, encode, BitVec.and_or_distrib_right, place_and_mask],
    by
      simp (disch := decide) only [encode, fieldRd, fieldRs1, field_or,
        field_place_self, field_place_other, field_zero_or, BitVec.or_zero, BitVec.ofNat_eq_ofNat]⟩

theorem vsetvl (rd rs1 rs2 : XReg) : Statement (.vsetvl rd rs1 rs2) := fun _ =>
  ⟨_, List.mem_of_getElem? (i := 2) rfl,
    by simp (disch := decide) [Row.selects, encode, encR, BitVec.and_or_distrib_right, place_and_mask],
    by
      simp (disch := decide) only [encode, encR, fieldRd, fieldRs1, fieldRs2, field_or,
        field_place_self, field_place_other, field_zero_or, BitVec.or_zero, BitVec.ofNat_eq_ofNat]⟩

theorem msetmtype (rs1 rs2 : XReg) : Statement (.msetmtype rs1 rs2) := fun _ =>
  ⟨_, List.mem_of_getElem? (i := 3) rfl,
    by simp (disch := decide) [Row.selects, encode, encR, BitVec.and_or_distrib_right, place_and_mask],
    by
      simp (disch := decide) only [encode, encR, fieldRs1, fieldRs2, field_or,
        place_zero, field_place_self, field_place_other, field_zero_or, BitVec.or_zero, BitVec.ofNat_eq_ofNat]⟩

theorem msetmtypei (mtypei : BitVec 5) (vsewi : BitVec 2) : Statement (.msetmtypei mtypei vsewi) := fun _ =>
  ⟨_, List.mem_of_getElem? (i := 4) rfl,
    by simp (disch := decide) [Row.selects, encode, BitVec.and_or_distrib_right, place_and_mask],
    by
      simp (disch := decide) only [encode, fieldRs1, field_or,
        field_place_self, field_place_other, field_zero_or, BitVec.or_zero, BitVec.ofNat_eq_ofNat]⟩

theorem msettn (rd rs1 : XReg) : Statement (.msettn rd rs1) := fun _ =>
  ⟨_, List.mem_of_getElem? (i := 5) rfl,
    by simp (disch := decide) [Row.selects, encode, encR, BitVec.and_or_distrib_right, place_and_mask],
    by
      simp (disch := decide) only [encode, encR, fieldRd, fieldRs1, field_or,
        place_zero, field_place_self, field_place_other, field_zero_or, BitVec.or_zero, BitVec.ofNat_eq_ofNat]⟩

theorem msettm (rd rs1 : XReg) : Statement (.msettm rd rs1) := fun _ =>
  ⟨_, List.mem_of_getElem? (i := 6) rfl,
    by simp (disch := decide) [Row.selects, encode, encR, BitVec.and_or_distrib_right, place_and_mask],
    by
      simp (disch := decide) only [encode, encR, fieldRd, fieldRs1, field_or,
        place_zero, field_place_self, field_place_other, field_zero_or, BitVec.or_zero, BitVec.ofNat_eq_ofNat]⟩

theorem msettk (rd rs1 : XReg) : Statement (.msettk rd rs1) := fun _ =>
  ⟨_, List.mem_of_getElem? (i := 7) rfl,
    by simp (disch := decide) [Row.selects, encode, encR, BitVec.and_or_distrib_right, place_and_mask],
    by
      simp (disch := decide) only [encode, encR, fieldRd, fieldRs1, field_or,
        place_zero, field_place_self, field_place_other, field_zero_or, BitVec.or_zero, BitVec.ofNat_eq_ofNat]⟩

theorem vlte8 (rs1 rs2 : XReg) : Statement (.vlte8 rs1 rs2) := fun _ =>
  ⟨_, List.mem_of_getElem? (i := 8) rfl,
    by simp (disch := decide) [Row.selects, encode, encR, BitVec.and_or_distrib_right, place_and_mask],
    by
      simp (disch := decide) only [encode, encR, fieldRs1, fieldRs2, field_or,
        place_zero, field_place_self, field_place_other, field_zero_or, BitVec.or_zero, BitVec.ofNat_eq_ofNat]⟩

theorem vlte16 (rs1 rs2 : XReg) : Statement (.vlte16 rs1 rs2) := fun _ =>
  ⟨_, List.mem_of_getElem? (i := 9) rfl,
    by simp (disch := decide) [Row.selects, encode, encR, BitVec.and_or_distrib_right, place_and_mask],
    by
      simp (disch := decide) only [encode, encR, fieldRs1, fieldRs2, field_or,
        place_zero, field_place_self, field_place_other, field_zero_or, BitVec.or_zero, BitVec.ofNat_eq_ofNat]⟩

theorem vlte32 (rs1 rs2 : XReg) : Statement (.vlte32 rs1 rs2) := fun _ =>
  ⟨_, List.mem_of_getElem? (i := 10) rfl,
    by simp (disch := decide) [Row.selects, encode, encR, BitVec.and_or_distrib_right, place_and_mask],
    by
      simp (disch := decide) only [encode, encR, fieldRs1, fieldRs2, field_or,
        place_zero, field_place_self, field_place_other, field_zero_or, BitVec.or_zero, BitVec.ofNat_eq_ofNat]⟩

theorem vlte64 (rs1 rs2 : XReg) : Statement (.vlte64 rs1 rs2) := fun _ =>
  ⟨_, List.mem_of_getElem? (i := 11) rfl,
    by simp (disch := decide) [Row.selects, encode, encR, BitVec.and_or_distrib_right, place_and_mask],
    by
      simp (disch := decide) only [encode, encR, fieldRs1, fieldRs2, field_or,
        place_zero, field_place_self, field_place_other, field_zero_or, BitVec.or_zero, BitVec.ofNat_eq_ofNat]⟩

theorem vste8 (rs1 rs2 : XReg) : Statement (.vste8 rs1 rs2) := fun _ =>
  ⟨_, List.mem_of_getElem? (i := 12) rfl,
    by simp (disch := decide) [Row.selects, encode, encR, BitVec.and_or_distrib_right, place_and_mask],
    by
      simp (disch := decide) only [encode, encR, fieldRs1, fieldRs2, field_or,
        place_zero, field_place_self, field_place_other, field_zero_or, BitVec.or_zero, BitVec.ofNat_eq_ofNat]⟩

theorem vste16 (rs1 rs2 : XReg) : Statement (.vste16 rs1 rs2) := fun _ =>
  ⟨_, List.mem_of_getElem? (i := 13) rfl,
    by simp (disch := decide) [Row.selects, encode, encR, BitVec.and_or_distrib_right, place_and_mask],
    by
      simp (disch := decide) only [encode, encR, fieldRs1, fieldRs2, field_or,
        place_zero, field_place_self, field_place_other, field_zero_or, BitVec.or_zero, BitVec.ofNat_eq_ofNat]⟩

theorem vste32 (rs1 rs2 : XReg) : Statement (.vste32 rs1 rs2) := fun _ =>
  ⟨_, List.mem_of_getElem? (i := 14) rfl,
    by simp (disch := decide) [Row.selects, encode, encR, BitVec.and_or_distrib_right, place_and_mask],
    by
      simp (disch := decide) only [encode, encR, fieldRs1, fieldRs2, field_or,
        place_zero, field_place_self, field_place_other, field_zero_or, BitVec.or_zero, BitVec.ofNat_eq_ofNat]⟩

theorem vste64 (rs1 rs2 : XReg) : Statement (.vste64 rs1 rs2) := fun _ =>
  ⟨_, List.mem_of_getElem? (i := 15) rfl,
    by simp (disch := decide) [Row.selects, encode, encR, BitVec.and_or_distrib_right, place_and_mask],
    by
      simp (disch := decide) only [encode, encR, fieldRs1, fieldRs2, field_or,
        place_zero, field_place_self, field_place_other, field_zero_or, BitVec.or_zero, BitVec.ofNat_eq_ofNat]⟩

theorem vtmvVT (vd : VReg) (rs1 : XReg) : Statement (.vtmvVT vd rs1) := fun _ =>
  ⟨_, List.mem_of_getElem? (i := 16) rfl,
    by simp (disch := decide) [Row.selects, encode, encR, BitVec.and_or_distrib_right, place_and_mask],
    by
      simp (disch := decide) only [encode, encR, fieldRd, fieldRs1, field_or,
        place_zero, field_place_self, field_place_other, field_zero_or, BitVec.or_zero, BitVec.ofNat_eq_ofNat]⟩

theorem vtmvTV (rs1 : XReg) (vs2 : VReg) : Statement (.vtmvTV rs1 vs2) := fun _ =>
  ⟨_, List.mem_of_getElem? (i := 17) rfl,
    by simp (disch := decide) [Row.selects, encode, encR, BitVec.and_or_distrib_right, place_and_mask],
    by
      simp (disch := decide) only [encode, encR, fieldRs1, fieldRs2, field_or,
        place_zero, field_place_self, field_place_other, field_zero_or, BitVec.or_zero, BitVec.ofNat_eq_ofNat]⟩

theorem vtzeroT (mtd : Tile) : Statement (.vtzeroT mtd) := fun _ =>
  ⟨_, List.mem_of_getElem? (i := 18) rfl,
    by simp (disch := decide) [Row.selects, encode, BitVec.and_or_distrib_right, place_and_mask],
    by
      simp (disch := decide) only [encode, fieldTile4, field_or,
        field_place_self, field_zero_or]⟩

theorem vtdiscard : Statement .vtdiscard := fun _ =>
  ⟨_, List.mem_of_getElem? (i := 19) rfl,
    by decide,
    rfl⟩

theorem mmFF (mtd : Tile) (vs2 vs1 : VReg) : Statement (.mmFF mtd vs2 vs1) := fun hw =>
  ⟨_, List.mem_of_getElem? (i := 20) rfl,
    by simp (disch := decide) [Row.selects, encode, encMm3, BitVec.and_or_distrib_right, place_and_mask],
    by
      simp (disch := decide) only [encode, encMm3, fieldTile3, fieldRs1, fieldRs2, tile3_roundtrip _ hw, field_or,
        field_place_self, field_place_other, field_zero_or, BitVec.or_zero, BitVec.ofNat_eq_ofNat]⟩

theorem p2mmFF (mtd : Tile) (vs2 vs1 : VReg) : Statement (.p2mmFF mtd vs2 vs1) := fun hw =>
  ⟨_, List.mem_of_getElem? (i := 21) rfl,
    by simp (disch := decide) [Row.selects, encode, encMm3, BitVec.and_or_distrib_right, place_and_mask],
    by
      simp (disch := decide) only [encode, encMm3, fieldTile3, fieldRs1, fieldRs2, tile3_roundtrip _ hw, field_or,
        field_place_self, field_place_other, field_zero_or, BitVec.or_zero, BitVec.ofNat_eq_ofNat]⟩

theorem mmE5m2E5m2 (mtd : Tile) (vs2 vs1 : VReg) : Statement (.mmE5m2E5m2 mtd vs2 vs1) := fun hw =>
  ⟨_, List.mem_of_getElem? (i := 22) rfl,
    by simp (disch := decide) [Row.selects, encode, encMm2, BitVec.and_or_distrib_right, place_and_mask],
    by
      simp (disch := decide) only [encode, encMm2, fieldTile2, fieldRs1, fieldRs2, tile2_roundtrip _ hw, field_or,
        field_place_self, field_place_other, field_zero_or, BitVec.or_zero, BitVec.ofNat_eq_ofNat]⟩

theorem mmE5m2E4m3 (mtd : Tile) (vs2 vs1 : VReg) : Statement (.mmE5m2E4m3 mtd vs2 vs1) := fun hw =>
  ⟨_, List.mem_of_getElem? (i := 23) rfl,
    by simp (disch := decide) [Row.selects, encode, encMm2, BitVec.and_or_distrib_right, place_and_mask],
    by
      simp (disch := decide) only [encode, encMm2, fieldTile2, fieldRs1, fieldRs2, tile2_roundtrip _ hw, field_or,
        field_place_self, field_place_other, field_zero_or, BitVec.or_zero, BitVec.ofNat_eq_ofNat]⟩

theorem mmE4m3E5m2 (mtd : Tile) (vs2 vs1 : VReg) : Statement (.mmE4m3E5m2 mtd vs2 vs1) := fun hw =>
  ⟨_, List.mem_of_getElem? (i := 24) rfl,
    by simp (disch := decide) [Row.selects, encode, encMm2, BitVec.and_or_distrib_right, place_and_mask],
    by
      simp (disch := decide) only [encode, encMm2, fieldTile2, fieldRs1, fieldRs2, tile2_roundtrip _ hw, field_or,
        field_place_self, field_place_other, field_zero_or, BitVec.or_zero, BitVec.ofNat_eq_ofNat]⟩

theorem mmE4m3E4m3 (mtd : Tile) (vs2 vs1 : VReg) : Statement (.mmE4m3E4m3 mtd vs2 vs1) := fun hw =>
  ⟨_, List.mem_of_getElem? (i := 25) rfl,
    by simp (disch := decide) [Row.selects, encode, encMm2, BitVec.and_or_distrib_right, place_and_mask],
    by
      simp (disch := decide) only [encode, encMm2, fieldTile2, fieldRs1, fieldRs2, tile2_roundtrip _ hw, field_or,
        field_place_self, field_place_other, field_zero_or, BitVec.or_zero, BitVec.ofNat_eq_ofNat]⟩

theorem mmUU (mtd : Tile) (vs2 vs1 : VReg) : Statement (.mmUU mtd vs2 vs1) := fun hw =>
  ⟨_, List.mem_of_getElem? (i := 26) rfl,
    by simp (disch := decide) [Row.selects, encode, encMm2, BitVec.and_or_distrib_right, place_and_mask],
    by
      simp (disch := decide) only [encode, encMm2, fieldTile2, fieldRs1, fieldRs2, tile2_roundtrip _ hw, field_or,
        field_place_self, field_place_other, field_zero_or, BitVec.or_zero, BitVec.ofNat_eq_ofNat]⟩

theorem mmSU (mtd : Tile) (vs2 vs1 : VReg) : Statement (.mmSU mtd vs2 vs1) := fun hw =>
  ⟨_, List.mem_of_getElem? (i := 27) rfl,
    by simp (disch := decide) [Row.selects, encode, encMm2, BitVec.and_or_distrib_right, place_and_mask],
    by
      simp (disch := decide) only [encode, encMm2, fieldTile2, fieldRs1, fieldRs2, tile2_roundtrip _ hw, field_or,
        field_place_self, field_place_other, field_zero_or, BitVec.or_zero, BitVec.ofNat_eq_ofNat]⟩

theorem mmUS (mtd : Tile) (vs2 vs1 : VReg) : Statement (.mmUS mtd vs2 vs1) := fun hw =>
  ⟨_, List.mem_of_getElem? (i := 28) rfl,
    by simp (disch := decide) [Row.selects, encode, encMm2, BitVec.and_or_distrib_right, place_and_mask],
    by
      simp (disch := decide) only [encode, encMm2, fieldTile2, fieldRs1, fieldRs2, tile2_roundtrip _ hw, field_or,
        field_place_self, field_place_other, field_zero_or, BitVec.or_zero, BitVec.ofNat_eq_ofNat]⟩

theorem mmSS (mtd : Tile) (vs2 vs1 : VReg) : Statement (.mmSS mtd vs2 vs1) := fun hw =>
  ⟨_, List.mem_of_getElem? (i := 29) rfl,
    by simp (disch := decide) [Row.selects, encode, encMm2, BitVec.and_or_distrib_right, place_and_mask],
    by
      simp (disch := decide) only [encode, encMm2, fieldTile2, fieldRs1, fieldRs2, tile2_roundtrip _ hw, field_or,
        field_place_self, field_place_other, field_zero_or, BitVec.or_zero, BitVec.ofNat_eq_ofNat]⟩

theorem addi (rd rs1 : XReg) (imm : BitVec 12) : Statement (.addi rd rs1 imm) := fun _ =>
  ⟨_, List.mem_of_getElem? (i := 30) rfl,
    by simp (disch := decide) [Row.selects, encode, BitVec.and_or_distrib_right, place_and_mask],
    by
      simp (disch := decide) only [encode, fieldRd, fieldRs1, field_or,
        field_place_self, field_place_other, field_zero_or, BitVec.or_zero, BitVec.ofNat_eq_ofNat]⟩

theorem slli (rd rs1 : XReg) (shamt : BitVec 6) : Statement (.slli rd rs1 shamt) := fun _ =>
  ⟨_, List.mem_of_getElem? (i := 31) rfl,
    by simp (disch := decide) [Row.selects, encode, BitVec.and_or_distrib_right, place_and_mask],
    by
      simp (disch := decide) only [encode, fieldRd, fieldRs1, field_or,
        field_place_self, field_place_other, field_zero_or, BitVec.or_zero, BitVec.ofNat_eq_ofNat]⟩

theorem add (rd rs1 rs2 : XReg) : Statement (.add rd rs1 rs2) := fun _ =>
  ⟨_, List.mem_of_getElem? (i := 32) rfl,
    by simp (disch := decide) [Row.selects, encode, encR, BitVec.and_or_distrib_right, place_and_mask],
    by
      simp (disch := decide) only [encode, encR, fieldRd, fieldRs1, fieldRs2, field_or,
        field_place_self, field_place_other, field_zero_or, BitVec.or_zero, BitVec.ofNat_eq_ofNat]⟩

theorem bne (rs1 rs2 : XReg) (offset : BitVec 13) : Statement (.bne rs1 rs2 offset) := fun hw =>
  ⟨_, List.mem_of_getElem? (i := 33) rfl,
    by simp (disch := decide) [Row.selects, encode, BitVec.and_or_distrib_right, place_and_mask],
    by
      simp (disch := decide) only [encode, fieldBranchOffset, offset_roundtrip _ hw, fieldRs1, fieldRs2, field_or,
        field_place_self, field_place_other, field_zero_or, BitVec.or_zero, BitVec.ofNat_eq_ofNat]⟩

theorem csrrs (rd : XReg) (csr : BitVec 12) (rs1 : XReg) : Statement (.csrrs rd csr rs1) := fun _ =>
  ⟨_, List.mem_of_getElem? (i := 34) rfl,
    by simp (disch := decide) [Row.selects, encode, BitVec.and_or_distrib_right, place_and_mask],
    by
      simp (disch := decide) only [encode, fieldRd, fieldRs1, field_or,
        field_place_self, field_place_other, field_zero_or, BitVec.or_zero, BitVec.ofNat_eq_ofNat]⟩

end Sys2Proof.Laws.OwnRow
end

