-- ==== Sys2Proof/Laws/State.lean ====
section
/-! SUPPORT. One lemma for each field of State and each shared update of it, so that no proof unfolds a record update. -/

namespace Sys2Proof.Machine

/-! ### `writeX` -/

@[simp] theorem writeX_cfg (s : State) (r : XReg) (w : Word) :
    (s.writeX r w).cfg = s.cfg := by unfold State.writeX; split <;> rfl
@[simp] theorem writeX_pc (s : State) (r : XReg) (w : Word) :
    (s.writeX r w).pc = s.pc := by unfold State.writeX; split <;> rfl
@[simp] theorem writeX_v (s : State) (r : XReg) (w : Word) :
    (s.writeX r w).v = s.v := by unfold State.writeX; split <;> rfl
@[simp] theorem writeX_vl (s : State) (r : XReg) (w : Word) :
    (s.writeX r w).vl = s.vl := by unfold State.writeX; split <;> rfl
@[simp] theorem writeX_vtype (s : State) (r : XReg) (w : Word) :
    (s.writeX r w).vtype = s.vtype := by unfold State.writeX; split <;> rfl
@[simp] theorem writeX_vstart (s : State) (r : XReg) (w : Word) :
    (s.writeX r w).vstart = s.vstart := by unfold State.writeX; split <;> rfl
@[simp] theorem writeX_frm (s : State) (r : XReg) (w : Word) :
    (s.writeX r w).frm = s.frm := by unfold State.writeX; split <;> rfl
@[simp] theorem writeX_fflags (s : State) (r : XReg) (w : Word) :
    (s.writeX r w).fflags = s.fflags := by unfold State.writeX; split <;> rfl
@[simp] theorem writeX_vxsat (s : State) (r : XReg) (w : Word) :
    (s.writeX r w).vxsat = s.vxsat := by unfold State.writeX; split <;> rfl
@[simp] theorem writeX_vxrm (s : State) (r : XReg) (w : Word) :
    (s.writeX r w).vxrm = s.vxrm := by unfold State.writeX; split <;> rfl
@[simp] theorem writeX_ts (s : State) (r : XReg) (w : Word) :
    (s.writeX r w).ts = s.ts := by unfold State.writeX; split <;> rfl
@[simp] theorem writeX_mtype (s : State) (r : XReg) (w : Word) :
    (s.writeX r w).mtype = s.mtype := by unfold State.writeX; split <;> rfl
@[simp] theorem writeX_mstatus (s : State) (r : XReg) (w : Word) :
    (s.writeX r w).mstatus = s.mstatus := by unfold State.writeX; split <;> rfl
@[simp] theorem writeX_vsstatus (s : State) (r : XReg) (w : Word) :
    (s.writeX r w).vsstatus = s.vsstatus := by unfold State.writeX; split <;> rfl
@[simp] theorem writeX_priv (s : State) (r : XReg) (w : Word) :
    (s.writeX r w).priv = s.priv := by unfold State.writeX; split <;> rfl
@[simp] theorem writeX_virt (s : State) (r : XReg) (w : Word) :
    (s.writeX r w).virt = s.virt := by unfold State.writeX; split <;> rfl
@[simp] theorem writeX_mtvec (s : State) (r : XReg) (w : Word) :
    (s.writeX r w).mtvec = s.mtvec := by unfold State.writeX; split <;> rfl
@[simp] theorem writeX_mepc (s : State) (r : XReg) (w : Word) :
    (s.writeX r w).mepc = s.mepc := by unfold State.writeX; split <;> rfl
@[simp] theorem writeX_mcause (s : State) (r : XReg) (w : Word) :
    (s.writeX r w).mcause = s.mcause := by unfold State.writeX; split <;> rfl
@[simp] theorem writeX_mtval (s : State) (r : XReg) (w : Word) :
    (s.writeX r w).mtval = s.mtval := by unfold State.writeX; split <;> rfl
@[simp] theorem writeX_stvec (s : State) (r : XReg) (w : Word) :
    (s.writeX r w).stvec = s.stvec := by unfold State.writeX; split <;> rfl
@[simp] theorem writeX_sepc (s : State) (r : XReg) (w : Word) :
    (s.writeX r w).sepc = s.sepc := by unfold State.writeX; split <;> rfl
@[simp] theorem writeX_scause (s : State) (r : XReg) (w : Word) :
    (s.writeX r w).scause = s.scause := by unfold State.writeX; split <;> rfl
@[simp] theorem writeX_stval (s : State) (r : XReg) (w : Word) :
    (s.writeX r w).stval = s.stval := by unfold State.writeX; split <;> rfl
@[simp] theorem writeX_medeleg (s : State) (r : XReg) (w : Word) :
    (s.writeX r w).medeleg = s.medeleg := by unfold State.writeX; split <;> rfl
@[simp] theorem writeX_hedeleg (s : State) (r : XReg) (w : Word) :
    (s.writeX r w).hedeleg = s.hedeleg := by unfold State.writeX; split <;> rfl
@[simp] theorem writeX_mie (s : State) (r : XReg) (w : Word) :
    (s.writeX r w).mie = s.mie := by unfold State.writeX; split <;> rfl
@[simp] theorem writeX_mip (s : State) (r : XReg) (w : Word) :
    (s.writeX r w).mip = s.mip := by unfold State.writeX; split <;> rfl
@[simp] theorem writeX_vstvec (s : State) (r : XReg) (w : Word) :
    (s.writeX r w).vstvec = s.vstvec := by unfold State.writeX; split <;> rfl
@[simp] theorem writeX_vsepc (s : State) (r : XReg) (w : Word) :
    (s.writeX r w).vsepc = s.vsepc := by unfold State.writeX; split <;> rfl
@[simp] theorem writeX_vscause (s : State) (r : XReg) (w : Word) :
    (s.writeX r w).vscause = s.vscause := by unfold State.writeX; split <;> rfl
@[simp] theorem writeX_vstval (s : State) (r : XReg) (w : Word) :
    (s.writeX r w).vstval = s.vstval := by unfold State.writeX; split <;> rfl
@[simp] theorem writeX_hstatusSpv (s : State) (r : XReg) (w : Word) :
    (s.writeX r w).hstatusSpv = s.hstatusSpv := by unfold State.writeX; split <;> rfl
@[simp] theorem writeX_hstatusVsbe (s : State) (r : XReg) (w : Word) :
    (s.writeX r w).hstatusVsbe = s.hstatusVsbe := by unfold State.writeX; split <;> rfl
@[simp] theorem writeX_mem (s : State) (r : XReg) (w : Word) :
    (s.writeX r w).mem = s.mem := by unfold State.writeX; split <;> rfl
@[simp] theorem writeX_unsynced (s : State) (r : XReg) (w : Word) :
    (s.writeX r w).unsynced = s.unsynced := by unfold State.writeX; split <;> rfl
@[simp] theorem writeX_draws (s : State) (r : XReg) (w : Word) :
    (s.writeX r w).draws = s.draws := by unfold State.writeX; split <;> rfl

/-! ### `advance` -/

@[simp] theorem advance_cfg (s : State) : (advance s).cfg = s.cfg := rfl
@[simp] theorem advance_x (s : State) : (advance s).x = s.x := rfl
@[simp] theorem advance_v (s : State) : (advance s).v = s.v := rfl
@[simp] theorem advance_vl (s : State) : (advance s).vl = s.vl := rfl
@[simp] theorem advance_vtype (s : State) : (advance s).vtype = s.vtype := rfl
@[simp] theorem advance_vstart (s : State) : (advance s).vstart = s.vstart := rfl
@[simp] theorem advance_frm (s : State) : (advance s).frm = s.frm := rfl
@[simp] theorem advance_fflags (s : State) : (advance s).fflags = s.fflags := rfl
@[simp] theorem advance_vxsat (s : State) : (advance s).vxsat = s.vxsat := rfl
@[simp] theorem advance_vxrm (s : State) : (advance s).vxrm = s.vxrm := rfl
@[simp] theorem advance_ts (s : State) : (advance s).ts = s.ts := rfl
@[simp] theorem advance_mtype (s : State) : (advance s).mtype = s.mtype := rfl
@[simp] theorem advance_mstatus (s : State) : (advance s).mstatus = s.mstatus := rfl
@[simp] theorem advance_vsstatus (s : State) : (advance s).vsstatus = s.vsstatus := rfl
@[simp] theorem advance_priv (s : State) : (advance s).priv = s.priv := rfl
@[simp] theorem advance_virt (s : State) : (advance s).virt = s.virt := rfl
@[simp] theorem advance_mtvec (s : State) : (advance s).mtvec = s.mtvec := rfl
@[simp] theorem advance_mepc (s : State) : (advance s).mepc = s.mepc := rfl
@[simp] theorem advance_mcause (s : State) : (advance s).mcause = s.mcause := rfl
@[simp] theorem advance_mtval (s : State) : (advance s).mtval = s.mtval := rfl
@[simp] theorem advance_stvec (s : State) : (advance s).stvec = s.stvec := rfl
@[simp] theorem advance_sepc (s : State) : (advance s).sepc = s.sepc := rfl
@[simp] theorem advance_scause (s : State) : (advance s).scause = s.scause := rfl
@[simp] theorem advance_stval (s : State) : (advance s).stval = s.stval := rfl
@[simp] theorem advance_medeleg (s : State) : (advance s).medeleg = s.medeleg := rfl
@[simp] theorem advance_hedeleg (s : State) : (advance s).hedeleg = s.hedeleg := rfl
@[simp] theorem advance_mie (s : State) : (advance s).mie = s.mie := rfl
@[simp] theorem advance_mip (s : State) : (advance s).mip = s.mip := rfl
@[simp] theorem advance_vstvec (s : State) : (advance s).vstvec = s.vstvec := rfl
@[simp] theorem advance_vsepc (s : State) : (advance s).vsepc = s.vsepc := rfl
@[simp] theorem advance_vscause (s : State) : (advance s).vscause = s.vscause := rfl
@[simp] theorem advance_vstval (s : State) : (advance s).vstval = s.vstval := rfl
@[simp] theorem advance_hstatusSpv (s : State) : (advance s).hstatusSpv = s.hstatusSpv := rfl
@[simp] theorem advance_hstatusVsbe (s : State) : (advance s).hstatusVsbe = s.hstatusVsbe := rfl
@[simp] theorem advance_mem (s : State) : (advance s).mem = s.mem := rfl
@[simp] theorem advance_unsynced (s : State) : (advance s).unsynced = s.unsynced := rfl
@[simp] theorem advance_draws (s : State) : (advance s).draws = s.draws := rfl
@[simp] theorem advance_pc (s : State) : (advance s).pc = truncX s.cfg (s.pc + 4#64) := rfl

/-! ### `dirtyVs` -/

@[simp] theorem dirtyVs_cfg (b : Bool) (s : State) : (dirtyVs b s).cfg = s.cfg := rfl
@[simp] theorem dirtyVs_x (b : Bool) (s : State) : (dirtyVs b s).x = s.x := rfl
@[simp] theorem dirtyVs_pc (b : Bool) (s : State) : (dirtyVs b s).pc = s.pc := rfl
@[simp] theorem dirtyVs_v (b : Bool) (s : State) : (dirtyVs b s).v = s.v := rfl
@[simp] theorem dirtyVs_vl (b : Bool) (s : State) : (dirtyVs b s).vl = s.vl := rfl
@[simp] theorem dirtyVs_vtype (b : Bool) (s : State) : (dirtyVs b s).vtype = s.vtype := rfl
@[simp] theorem dirtyVs_vstart (b : Bool) (s : State) : (dirtyVs b s).vstart = s.vstart := rfl
@[simp] theorem dirtyVs_frm (b : Bool) (s : State) : (dirtyVs b s).frm = s.frm := rfl
@[simp] theorem dirtyVs_fflags (b : Bool) (s : State) : (dirtyVs b s).fflags = s.fflags := rfl
@[simp] theorem dirtyVs_vxsat (b : Bool) (s : State) : (dirtyVs b s).vxsat = s.vxsat := rfl
@[simp] theorem dirtyVs_vxrm (b : Bool) (s : State) : (dirtyVs b s).vxrm = s.vxrm := rfl
@[simp] theorem dirtyVs_ts (b : Bool) (s : State) : (dirtyVs b s).ts = s.ts := rfl
@[simp] theorem dirtyVs_mtype (b : Bool) (s : State) : (dirtyVs b s).mtype = s.mtype := rfl
@[simp] theorem dirtyVs_priv (b : Bool) (s : State) : (dirtyVs b s).priv = s.priv := rfl
@[simp] theorem dirtyVs_virt (b : Bool) (s : State) : (dirtyVs b s).virt = s.virt := rfl
@[simp] theorem dirtyVs_mtvec (b : Bool) (s : State) : (dirtyVs b s).mtvec = s.mtvec := rfl
@[simp] theorem dirtyVs_mepc (b : Bool) (s : State) : (dirtyVs b s).mepc = s.mepc := rfl
@[simp] theorem dirtyVs_mcause (b : Bool) (s : State) : (dirtyVs b s).mcause = s.mcause := rfl
@[simp] theorem dirtyVs_mtval (b : Bool) (s : State) : (dirtyVs b s).mtval = s.mtval := rfl
@[simp] theorem dirtyVs_stvec (b : Bool) (s : State) : (dirtyVs b s).stvec = s.stvec := rfl
@[simp] theorem dirtyVs_sepc (b : Bool) (s : State) : (dirtyVs b s).sepc = s.sepc := rfl
@[simp] theorem dirtyVs_scause (b : Bool) (s : State) : (dirtyVs b s).scause = s.scause := rfl
@[simp] theorem dirtyVs_stval (b : Bool) (s : State) : (dirtyVs b s).stval = s.stval := rfl
@[simp] theorem dirtyVs_medeleg (b : Bool) (s : State) : (dirtyVs b s).medeleg = s.medeleg := rfl
@[simp] theorem dirtyVs_hedeleg (b : Bool) (s : State) : (dirtyVs b s).hedeleg = s.hedeleg := rfl
@[simp] theorem dirtyVs_mie (b : Bool) (s : State) : (dirtyVs b s).mie = s.mie := rfl
@[simp] theorem dirtyVs_mip (b : Bool) (s : State) : (dirtyVs b s).mip = s.mip := rfl
@[simp] theorem dirtyVs_vstvec (b : Bool) (s : State) : (dirtyVs b s).vstvec = s.vstvec := rfl
@[simp] theorem dirtyVs_vsepc (b : Bool) (s : State) : (dirtyVs b s).vsepc = s.vsepc := rfl
@[simp] theorem dirtyVs_vscause (b : Bool) (s : State) : (dirtyVs b s).vscause = s.vscause := rfl
@[simp] theorem dirtyVs_vstval (b : Bool) (s : State) : (dirtyVs b s).vstval = s.vstval := rfl
@[simp] theorem dirtyVs_hstatusSpv (b : Bool) (s : State) : (dirtyVs b s).hstatusSpv = s.hstatusSpv := rfl
@[simp] theorem dirtyVs_hstatusVsbe (b : Bool) (s : State) : (dirtyVs b s).hstatusVsbe = s.hstatusVsbe := rfl
@[simp] theorem dirtyVs_mem (b : Bool) (s : State) : (dirtyVs b s).mem = s.mem := rfl
@[simp] theorem dirtyVs_unsynced (b : Bool) (s : State) : (dirtyVs b s).unsynced = s.unsynced := rfl
@[simp] theorem dirtyVs_draws (b : Bool) (s : State) : (dirtyVs b s).draws = s.draws := rfl
@[simp] theorem dirtyVs_mstatus (b : Bool) (s : State) :
    (dirtyVs b s).mstatus = { s.mstatus with vs := s.mstatus.vs.dirtyIf b } := rfl
@[simp] theorem dirtyVs_vsstatus (b : Bool) (s : State) :
    (dirtyVs b s).vsstatus = { s.vsstatus with vs := s.vsstatus.vs.dirtyIf (b && s.virt) } := rfl

/-! ### `dirtyMs` -/

@[simp] theorem dirtyMs_cfg (b : Bool) (s : State) : (dirtyMs b s).cfg = s.cfg := rfl
@[simp] theorem dirtyMs_x (b : Bool) (s : State) : (dirtyMs b s).x = s.x := rfl
@[simp] theorem dirtyMs_pc (b : Bool) (s : State) : (dirtyMs b s).pc = s.pc := rfl
@[simp] theorem dirtyMs_v (b : Bool) (s : State) : (dirtyMs b s).v = s.v := rfl
@[simp] theorem dirtyMs_vl (b : Bool) (s : State) : (dirtyMs b s).vl = s.vl := rfl
@[simp] theorem dirtyMs_vtype (b : Bool) (s : State) : (dirtyMs b s).vtype = s.vtype := rfl
@[simp] theorem dirtyMs_vstart (b : Bool) (s : State) : (dirtyMs b s).vstart = s.vstart := rfl
@[simp] theorem dirtyMs_frm (b : Bool) (s : State) : (dirtyMs b s).frm = s.frm := rfl
@[simp] theorem dirtyMs_fflags (b : Bool) (s : State) : (dirtyMs b s).fflags = s.fflags := rfl
@[simp] theorem dirtyMs_vxsat (b : Bool) (s : State) : (dirtyMs b s).vxsat = s.vxsat := rfl
@[simp] theorem dirtyMs_vxrm (b : Bool) (s : State) : (dirtyMs b s).vxrm = s.vxrm := rfl
@[simp] theorem dirtyMs_ts (b : Bool) (s : State) : (dirtyMs b s).ts = s.ts := rfl
@[simp] theorem dirtyMs_mtype (b : Bool) (s : State) : (dirtyMs b s).mtype = s.mtype := rfl
@[simp] theorem dirtyMs_priv (b : Bool) (s : State) : (dirtyMs b s).priv = s.priv := rfl
@[simp] theorem dirtyMs_virt (b : Bool) (s : State) : (dirtyMs b s).virt = s.virt := rfl
@[simp] theorem dirtyMs_mtvec (b : Bool) (s : State) : (dirtyMs b s).mtvec = s.mtvec := rfl
@[simp] theorem dirtyMs_mepc (b : Bool) (s : State) : (dirtyMs b s).mepc = s.mepc := rfl
@[simp] theorem dirtyMs_mcause (b : Bool) (s : State) : (dirtyMs b s).mcause = s.mcause := rfl
@[simp] theorem dirtyMs_mtval (b : Bool) (s : State) : (dirtyMs b s).mtval = s.mtval := rfl
@[simp] theorem dirtyMs_stvec (b : Bool) (s : State) : (dirtyMs b s).stvec = s.stvec := rfl
@[simp] theorem dirtyMs_sepc (b : Bool) (s : State) : (dirtyMs b s).sepc = s.sepc := rfl
@[simp] theorem dirtyMs_scause (b : Bool) (s : State) : (dirtyMs b s).scause = s.scause := rfl
@[simp] theorem dirtyMs_stval (b : Bool) (s : State) : (dirtyMs b s).stval = s.stval := rfl
@[simp] theorem dirtyMs_medeleg (b : Bool) (s : State) : (dirtyMs b s).medeleg = s.medeleg := rfl
@[simp] theorem dirtyMs_hedeleg (b : Bool) (s : State) : (dirtyMs b s).hedeleg = s.hedeleg := rfl
@[simp] theorem dirtyMs_mie (b : Bool) (s : State) : (dirtyMs b s).mie = s.mie := rfl
@[simp] theorem dirtyMs_mip (b : Bool) (s : State) : (dirtyMs b s).mip = s.mip := rfl
@[simp] theorem dirtyMs_vstvec (b : Bool) (s : State) : (dirtyMs b s).vstvec = s.vstvec := rfl
@[simp] theorem dirtyMs_vsepc (b : Bool) (s : State) : (dirtyMs b s).vsepc = s.vsepc := rfl
@[simp] theorem dirtyMs_vscause (b : Bool) (s : State) : (dirtyMs b s).vscause = s.vscause := rfl
@[simp] theorem dirtyMs_vstval (b : Bool) (s : State) : (dirtyMs b s).vstval = s.vstval := rfl
@[simp] theorem dirtyMs_hstatusSpv (b : Bool) (s : State) : (dirtyMs b s).hstatusSpv = s.hstatusSpv := rfl
@[simp] theorem dirtyMs_hstatusVsbe (b : Bool) (s : State) : (dirtyMs b s).hstatusVsbe = s.hstatusVsbe := rfl
@[simp] theorem dirtyMs_mem (b : Bool) (s : State) : (dirtyMs b s).mem = s.mem := rfl
@[simp] theorem dirtyMs_unsynced (b : Bool) (s : State) : (dirtyMs b s).unsynced = s.unsynced := rfl
@[simp] theorem dirtyMs_draws (b : Bool) (s : State) : (dirtyMs b s).draws = s.draws := rfl
@[simp] theorem dirtyMs_mstatus (b : Bool) (s : State) :
    (dirtyMs b s).mstatus = { s.mstatus with ms := s.mstatus.ms.dirtyIf b } := rfl
@[simp] theorem dirtyMs_vsstatus (b : Bool) (s : State) :
    (dirtyMs b s).vsstatus = { s.vsstatus with ms := s.vsstatus.ms.dirtyIf (b && s.virt) } := rfl

/-! ### `dirtyFs` -/

@[simp] theorem dirtyFs_cfg (b : Bool) (s : State) : (dirtyFs b s).cfg = s.cfg := rfl
@[simp] theorem dirtyFs_x (b : Bool) (s : State) : (dirtyFs b s).x = s.x := rfl
@[simp] theorem dirtyFs_pc (b : Bool) (s : State) : (dirtyFs b s).pc = s.pc := rfl
@[simp] theorem dirtyFs_v (b : Bool) (s : State) : (dirtyFs b s).v = s.v := rfl
@[simp] theorem dirtyFs_vl (b : Bool) (s : State) : (dirtyFs b s).vl = s.vl := rfl
@[simp] theorem dirtyFs_vtype (b : Bool) (s : State) : (dirtyFs b s).vtype = s.vtype := rfl
@[simp] theorem dirtyFs_vstart (b : Bool) (s : State) : (dirtyFs b s).vstart = s.vstart := rfl
@[simp] theorem dirtyFs_frm (b : Bool) (s : State) : (dirtyFs b s).frm = s.frm := rfl
@[simp] theorem dirtyFs_fflags (b : Bool) (s : State) : (dirtyFs b s).fflags = s.fflags := rfl
@[simp] theorem dirtyFs_vxsat (b : Bool) (s : State) : (dirtyFs b s).vxsat = s.vxsat := rfl
@[simp] theorem dirtyFs_vxrm (b : Bool) (s : State) : (dirtyFs b s).vxrm = s.vxrm := rfl
@[simp] theorem dirtyFs_ts (b : Bool) (s : State) : (dirtyFs b s).ts = s.ts := rfl
@[simp] theorem dirtyFs_mtype (b : Bool) (s : State) : (dirtyFs b s).mtype = s.mtype := rfl
@[simp] theorem dirtyFs_priv (b : Bool) (s : State) : (dirtyFs b s).priv = s.priv := rfl
@[simp] theorem dirtyFs_virt (b : Bool) (s : State) : (dirtyFs b s).virt = s.virt := rfl
@[simp] theorem dirtyFs_mtvec (b : Bool) (s : State) : (dirtyFs b s).mtvec = s.mtvec := rfl
@[simp] theorem dirtyFs_mepc (b : Bool) (s : State) : (dirtyFs b s).mepc = s.mepc := rfl
@[simp] theorem dirtyFs_mcause (b : Bool) (s : State) : (dirtyFs b s).mcause = s.mcause := rfl
@[simp] theorem dirtyFs_mtval (b : Bool) (s : State) : (dirtyFs b s).mtval = s.mtval := rfl
@[simp] theorem dirtyFs_stvec (b : Bool) (s : State) : (dirtyFs b s).stvec = s.stvec := rfl
@[simp] theorem dirtyFs_sepc (b : Bool) (s : State) : (dirtyFs b s).sepc = s.sepc := rfl
@[simp] theorem dirtyFs_scause (b : Bool) (s : State) : (dirtyFs b s).scause = s.scause := rfl
@[simp] theorem dirtyFs_stval (b : Bool) (s : State) : (dirtyFs b s).stval = s.stval := rfl
@[simp] theorem dirtyFs_medeleg (b : Bool) (s : State) : (dirtyFs b s).medeleg = s.medeleg := rfl
@[simp] theorem dirtyFs_hedeleg (b : Bool) (s : State) : (dirtyFs b s).hedeleg = s.hedeleg := rfl
@[simp] theorem dirtyFs_mie (b : Bool) (s : State) : (dirtyFs b s).mie = s.mie := rfl
@[simp] theorem dirtyFs_mip (b : Bool) (s : State) : (dirtyFs b s).mip = s.mip := rfl
@[simp] theorem dirtyFs_vstvec (b : Bool) (s : State) : (dirtyFs b s).vstvec = s.vstvec := rfl
@[simp] theorem dirtyFs_vsepc (b : Bool) (s : State) : (dirtyFs b s).vsepc = s.vsepc := rfl
@[simp] theorem dirtyFs_vscause (b : Bool) (s : State) : (dirtyFs b s).vscause = s.vscause := rfl
@[simp] theorem dirtyFs_vstval (b : Bool) (s : State) : (dirtyFs b s).vstval = s.vstval := rfl
@[simp] theorem dirtyFs_hstatusSpv (b : Bool) (s : State) : (dirtyFs b s).hstatusSpv = s.hstatusSpv := rfl
@[simp] theorem dirtyFs_hstatusVsbe (b : Bool) (s : State) : (dirtyFs b s).hstatusVsbe = s.hstatusVsbe := rfl
@[simp] theorem dirtyFs_mem (b : Bool) (s : State) : (dirtyFs b s).mem = s.mem := rfl
@[simp] theorem dirtyFs_unsynced (b : Bool) (s : State) : (dirtyFs b s).unsynced = s.unsynced := rfl
@[simp] theorem dirtyFs_draws (b : Bool) (s : State) : (dirtyFs b s).draws = s.draws := rfl
@[simp] theorem dirtyFs_mstatus (b : Bool) (s : State) :
    (dirtyFs b s).mstatus = { s.mstatus with fs := s.mstatus.fs.dirtyIf b } := rfl
@[simp] theorem dirtyFs_vsstatus (b : Bool) (s : State) :
    (dirtyFs b s).vsstatus = { s.vsstatus with fs := s.vsstatus.fs.dirtyIf (b && s.virt) } := rfl

/-! ### `initialMs` -/

@[simp] theorem initialMs_cfg (s : State) : (initialMs s).cfg = s.cfg := rfl
@[simp] theorem initialMs_x (s : State) : (initialMs s).x = s.x := rfl
@[simp] theorem initialMs_pc (s : State) : (initialMs s).pc = s.pc := rfl
@[simp] theorem initialMs_v (s : State) : (initialMs s).v = s.v := rfl
@[simp] theorem initialMs_vl (s : State) : (initialMs s).vl = s.vl := rfl
@[simp] theorem initialMs_vtype (s : State) : (initialMs s).vtype = s.vtype := rfl
@[simp] theorem initialMs_vstart (s : State) : (initialMs s).vstart = s.vstart := rfl
@[simp] theorem initialMs_frm (s : State) : (initialMs s).frm = s.frm := rfl
@[simp] theorem initialMs_fflags (s : State) : (initialMs s).fflags = s.fflags := rfl
@[simp] theorem initialMs_vxsat (s : State) : (initialMs s).vxsat = s.vxsat := rfl
@[simp] theorem initialMs_vxrm (s : State) : (initialMs s).vxrm = s.vxrm := rfl
@[simp] theorem initialMs_ts (s : State) : (initialMs s).ts = s.ts := rfl
@[simp] theorem initialMs_mtype (s : State) : (initialMs s).mtype = s.mtype := rfl
@[simp] theorem initialMs_priv (s : State) : (initialMs s).priv = s.priv := rfl
@[simp] theorem initialMs_virt (s : State) : (initialMs s).virt = s.virt := rfl
@[simp] theorem initialMs_mtvec (s : State) : (initialMs s).mtvec = s.mtvec := rfl
@[simp] theorem initialMs_mepc (s : State) : (initialMs s).mepc = s.mepc := rfl
@[simp] theorem initialMs_mcause (s : State) : (initialMs s).mcause = s.mcause := rfl
@[simp] theorem initialMs_mtval (s : State) : (initialMs s).mtval = s.mtval := rfl
@[simp] theorem initialMs_stvec (s : State) : (initialMs s).stvec = s.stvec := rfl
@[simp] theorem initialMs_sepc (s : State) : (initialMs s).sepc = s.sepc := rfl
@[simp] theorem initialMs_scause (s : State) : (initialMs s).scause = s.scause := rfl
@[simp] theorem initialMs_stval (s : State) : (initialMs s).stval = s.stval := rfl
@[simp] theorem initialMs_medeleg (s : State) : (initialMs s).medeleg = s.medeleg := rfl
@[simp] theorem initialMs_hedeleg (s : State) : (initialMs s).hedeleg = s.hedeleg := rfl
@[simp] theorem initialMs_mie (s : State) : (initialMs s).mie = s.mie := rfl
@[simp] theorem initialMs_mip (s : State) : (initialMs s).mip = s.mip := rfl
@[simp] theorem initialMs_vstvec (s : State) : (initialMs s).vstvec = s.vstvec := rfl
@[simp] theorem initialMs_vsepc (s : State) : (initialMs s).vsepc = s.vsepc := rfl
@[simp] theorem initialMs_vscause (s : State) : (initialMs s).vscause = s.vscause := rfl
@[simp] theorem initialMs_vstval (s : State) : (initialMs s).vstval = s.vstval := rfl
@[simp] theorem initialMs_hstatusSpv (s : State) : (initialMs s).hstatusSpv = s.hstatusSpv := rfl
@[simp] theorem initialMs_hstatusVsbe (s : State) : (initialMs s).hstatusVsbe = s.hstatusVsbe := rfl
@[simp] theorem initialMs_mem (s : State) : (initialMs s).mem = s.mem := rfl
@[simp] theorem initialMs_unsynced (s : State) : (initialMs s).unsynced = s.unsynced := rfl
@[simp] theorem initialMs_draws (s : State) : (initialMs s).draws = s.draws := rfl
@[simp] theorem initialMs_mstatus (s : State) : (initialMs s).mstatus = { s.mstatus with ms := .on .initial } := rfl
@[simp] theorem initialMs_vsstatus (s : State) :
    (initialMs s).vsstatus = { s.vsstatus with ms := if s.virt then .on .initial else s.vsstatus.ms } := rfl

/-! ### `endStep` -/

@[simp] theorem endStep_cfg (s : State) : (endStep s).cfg = s.cfg := rfl
@[simp] theorem endStep_x (s : State) : (endStep s).x = s.x := rfl
@[simp] theorem endStep_pc (s : State) : (endStep s).pc = s.pc := rfl
@[simp] theorem endStep_v (s : State) : (endStep s).v = s.v := rfl
@[simp] theorem endStep_vl (s : State) : (endStep s).vl = s.vl := rfl
@[simp] theorem endStep_vtype (s : State) : (endStep s).vtype = s.vtype := rfl
@[simp] theorem endStep_vstart (s : State) : (endStep s).vstart = s.vstart := rfl
@[simp] theorem endStep_frm (s : State) : (endStep s).frm = s.frm := rfl
@[simp] theorem endStep_fflags (s : State) : (endStep s).fflags = s.fflags := rfl
@[simp] theorem endStep_vxsat (s : State) : (endStep s).vxsat = s.vxsat := rfl
@[simp] theorem endStep_vxrm (s : State) : (endStep s).vxrm = s.vxrm := rfl
@[simp] theorem endStep_ts (s : State) : (endStep s).ts = s.ts := rfl
@[simp] theorem endStep_mtype (s : State) : (endStep s).mtype = s.mtype := rfl
@[simp] theorem endStep_priv (s : State) : (endStep s).priv = s.priv := rfl
@[simp] theorem endStep_virt (s : State) : (endStep s).virt = s.virt := rfl
@[simp] theorem endStep_mtvec (s : State) : (endStep s).mtvec = s.mtvec := rfl
@[simp] theorem endStep_mepc (s : State) : (endStep s).mepc = s.mepc := rfl
@[simp] theorem endStep_mcause (s : State) : (endStep s).mcause = s.mcause := rfl
@[simp] theorem endStep_mtval (s : State) : (endStep s).mtval = s.mtval := rfl
@[simp] theorem endStep_stvec (s : State) : (endStep s).stvec = s.stvec := rfl
@[simp] theorem endStep_sepc (s : State) : (endStep s).sepc = s.sepc := rfl
@[simp] theorem endStep_scause (s : State) : (endStep s).scause = s.scause := rfl
@[simp] theorem endStep_stval (s : State) : (endStep s).stval = s.stval := rfl
@[simp] theorem endStep_medeleg (s : State) : (endStep s).medeleg = s.medeleg := rfl
@[simp] theorem endStep_hedeleg (s : State) : (endStep s).hedeleg = s.hedeleg := rfl
@[simp] theorem endStep_mie (s : State) : (endStep s).mie = s.mie := rfl
@[simp] theorem endStep_mip (s : State) : (endStep s).mip = s.mip := rfl
@[simp] theorem endStep_vstvec (s : State) : (endStep s).vstvec = s.vstvec := rfl
@[simp] theorem endStep_vsepc (s : State) : (endStep s).vsepc = s.vsepc := rfl
@[simp] theorem endStep_vscause (s : State) : (endStep s).vscause = s.vscause := rfl
@[simp] theorem endStep_vstval (s : State) : (endStep s).vstval = s.vstval := rfl
@[simp] theorem endStep_hstatusSpv (s : State) : (endStep s).hstatusSpv = s.hstatusSpv := rfl
@[simp] theorem endStep_hstatusVsbe (s : State) : (endStep s).hstatusVsbe = s.hstatusVsbe := rfl
@[simp] theorem endStep_mem (s : State) : (endStep s).mem = s.mem := rfl
@[simp] theorem endStep_unsynced (s : State) : (endStep s).unsynced = s.unsynced := rfl
@[simp] theorem endStep_draws (s : State) : (endStep s).draws = s.draws + 1 := rfl
@[simp] theorem endStep_mstatus (s : State) :
    (endStep s).mstatus = { s.mstatus with ms := s.mstatus.ms.mayGoDirty (Config.msGoesDirty s.draws) } := rfl
@[simp] theorem endStep_vsstatus (s : State) :
    (endStep s).vsstatus = { s.vsstatus with ms := s.vsstatus.ms.mayGoDirty (s.cfg.hasH && Config.vsMsGoesDirty s.draws) } := rfl

/-! ### `completeZvm` -/

@[simp] theorem completeZvm_cfg (s : State) : (completeZvm s).cfg = s.cfg := rfl
@[simp] theorem completeZvm_x (s : State) : (completeZvm s).x = s.x := rfl
@[simp] theorem completeZvm_v (s : State) : (completeZvm s).v = s.v := rfl
@[simp] theorem completeZvm_vl (s : State) : (completeZvm s).vl = s.vl := rfl
@[simp] theorem completeZvm_vtype (s : State) : (completeZvm s).vtype = s.vtype := rfl
@[simp] theorem completeZvm_frm (s : State) : (completeZvm s).frm = s.frm := rfl
@[simp] theorem completeZvm_fflags (s : State) : (completeZvm s).fflags = s.fflags := rfl
@[simp] theorem completeZvm_vxsat (s : State) : (completeZvm s).vxsat = s.vxsat := rfl
@[simp] theorem completeZvm_vxrm (s : State) : (completeZvm s).vxrm = s.vxrm := rfl
@[simp] theorem completeZvm_ts (s : State) : (completeZvm s).ts = s.ts := rfl
@[simp] theorem completeZvm_mtype (s : State) : (completeZvm s).mtype = s.mtype := rfl
@[simp] theorem completeZvm_priv (s : State) : (completeZvm s).priv = s.priv := rfl
@[simp] theorem completeZvm_virt (s : State) : (completeZvm s).virt = s.virt := rfl
@[simp] theorem completeZvm_mtvec (s : State) : (completeZvm s).mtvec = s.mtvec := rfl
@[simp] theorem completeZvm_mepc (s : State) : (completeZvm s).mepc = s.mepc := rfl
@[simp] theorem completeZvm_mcause (s : State) : (completeZvm s).mcause = s.mcause := rfl
@[simp] theorem completeZvm_mtval (s : State) : (completeZvm s).mtval = s.mtval := rfl
@[simp] theorem completeZvm_stvec (s : State) : (completeZvm s).stvec = s.stvec := rfl
@[simp] theorem completeZvm_sepc (s : State) : (completeZvm s).sepc = s.sepc := rfl
@[simp] theorem completeZvm_scause (s : State) : (completeZvm s).scause = s.scause := rfl
@[simp] theorem completeZvm_stval (s : State) : (completeZvm s).stval = s.stval := rfl
@[simp] theorem completeZvm_medeleg (s : State) : (completeZvm s).medeleg = s.medeleg := rfl
@[simp] theorem completeZvm_hedeleg (s : State) : (completeZvm s).hedeleg = s.hedeleg := rfl
@[simp] theorem completeZvm_mie (s : State) : (completeZvm s).mie = s.mie := rfl
@[simp] theorem completeZvm_mip (s : State) : (completeZvm s).mip = s.mip := rfl
@[simp] theorem completeZvm_vstvec (s : State) : (completeZvm s).vstvec = s.vstvec := rfl
@[simp] theorem completeZvm_vsepc (s : State) : (completeZvm s).vsepc = s.vsepc := rfl
@[simp] theorem completeZvm_vscause (s : State) : (completeZvm s).vscause = s.vscause := rfl
@[simp] theorem completeZvm_vstval (s : State) : (completeZvm s).vstval = s.vstval := rfl
@[simp] theorem completeZvm_hstatusSpv (s : State) : (completeZvm s).hstatusSpv = s.hstatusSpv := rfl
@[simp] theorem completeZvm_hstatusVsbe (s : State) : (completeZvm s).hstatusVsbe = s.hstatusVsbe := rfl
@[simp] theorem completeZvm_mem (s : State) : (completeZvm s).mem = s.mem := rfl
@[simp] theorem completeZvm_unsynced (s : State) : (completeZvm s).unsynced = s.unsynced := rfl
@[simp] theorem completeZvm_draws (s : State) : (completeZvm s).draws = s.draws := rfl
@[simp] theorem completeZvm_vstart (s : State) : (completeZvm s).vstart = 0 := rfl
@[simp] theorem completeZvm_pc (s : State) : (completeZvm s).pc = truncX s.cfg (s.pc + 4#64) := rfl
@[simp] theorem completeZvm_mstatus (s : State) :
    (completeZvm s).mstatus = { s.mstatus with vs := s.mstatus.vs.dirtyIf true } := rfl
@[simp] theorem completeZvm_vsstatus (s : State) :
    (completeZvm s).vsstatus = { s.vsstatus with vs := s.vsstatus.vs.dirtyIf s.virt } := by simp [completeZvm]

/-! ### `enterMachine` -/

@[simp] theorem enterMachine_cfg (i : Bool) (n : Nat) (w : Word) (s : State) :
    (enterMachine i n w s).cfg = s.cfg := rfl
@[simp] theorem enterMachine_x (i : Bool) (n : Nat) (w : Word) (s : State) : (enterMachine i n w s).x = s.x := rfl
@[simp] theorem enterMachine_v (i : Bool) (n : Nat) (w : Word) (s : State) : (enterMachine i n w s).v = s.v := rfl
@[simp] theorem enterMachine_vl (i : Bool) (n : Nat) (w : Word) (s : State) : (enterMachine i n w s).vl = s.vl := rfl
@[simp] theorem enterMachine_vtype (i : Bool) (n : Nat) (w : Word) (s : State) :
    (enterMachine i n w s).vtype = s.vtype := rfl
@[simp] theorem enterMachine_vstart (i : Bool) (n : Nat) (w : Word) (s : State) :
    (enterMachine i n w s).vstart = s.vstart := rfl
@[simp] theorem enterMachine_frm (i : Bool) (n : Nat) (w : Word) (s : State) :
    (enterMachine i n w s).frm = s.frm := rfl
@[simp] theorem enterMachine_fflags (i : Bool) (n : Nat) (w : Word) (s : State) :
    (enterMachine i n w s).fflags = s.fflags := rfl
@[simp] theorem enterMachine_vxsat (i : Bool) (n : Nat) (w : Word) (s : State) :
    (enterMachine i n w s).vxsat = s.vxsat := rfl
@[simp] theorem enterMachine_vxrm (i : Bool) (n : Nat) (w : Word) (s : State) :
    (enterMachine i n w s).vxrm = s.vxrm := rfl
@[simp] theorem enterMachine_ts (i : Bool) (n : Nat) (w : Word) (s : State) : (enterMachine i n w s).ts = s.ts := rfl
@[simp] theorem enterMachine_mtype (i : Bool) (n : Nat) (w : Word) (s : State) :
    (enterMachine i n w s).mtype = s.mtype := rfl
@[simp] theorem enterMachine_vsstatus (i : Bool) (n : Nat) (w : Word) (s : State) :
    (enterMachine i n w s).vsstatus = s.vsstatus := rfl
@[simp] theorem enterMachine_mtvec (i : Bool) (n : Nat) (w : Word) (s : State) :
    (enterMachine i n w s).mtvec = s.mtvec := rfl
@[simp] theorem enterMachine_stvec (i : Bool) (n : Nat) (w : Word) (s : State) :
    (enterMachine i n w s).stvec = s.stvec := rfl
@[simp] theorem enterMachine_sepc (i : Bool) (n : Nat) (w : Word) (s : State) :
    (enterMachine i n w s).sepc = s.sepc := rfl
@[simp] theorem enterMachine_scause (i : Bool) (n : Nat) (w : Word) (s : State) :
    (enterMachine i n w s).scause = s.scause := rfl
@[simp] theorem enterMachine_stval (i : Bool) (n : Nat) (w : Word) (s : State) :
    (enterMachine i n w s).stval = s.stval := rfl
@[simp] theorem enterMachine_medeleg (i : Bool) (n : Nat) (w : Word) (s : State) :
    (enterMachine i n w s).medeleg = s.medeleg := rfl
@[simp] theorem enterMachine_hedeleg (i : Bool) (n : Nat) (w : Word) (s : State) :
    (enterMachine i n w s).hedeleg = s.hedeleg := rfl
@[simp] theorem enterMachine_mie (i : Bool) (n : Nat) (w : Word) (s : State) :
    (enterMachine i n w s).mie = s.mie := rfl
@[simp] theorem enterMachine_mip (i : Bool) (n : Nat) (w : Word) (s : State) :
    (enterMachine i n w s).mip = s.mip := rfl
@[simp] theorem enterMachine_vstvec (i : Bool) (n : Nat) (w : Word) (s : State) :
    (enterMachine i n w s).vstvec = s.vstvec := rfl
@[simp] theorem enterMachine_vsepc (i : Bool) (n : Nat) (w : Word) (s : State) :
    (enterMachine i n w s).vsepc = s.vsepc := rfl
@[simp] theorem enterMachine_vscause (i : Bool) (n : Nat) (w : Word) (s : State) :
    (enterMachine i n w s).vscause = s.vscause := rfl
@[simp] theorem enterMachine_vstval (i : Bool) (n : Nat) (w : Word) (s : State) :
    (enterMachine i n w s).vstval = s.vstval := rfl
@[simp] theorem enterMachine_hstatusSpv (i : Bool) (n : Nat) (w : Word) (s : State) :
    (enterMachine i n w s).hstatusSpv = s.hstatusSpv := rfl
@[simp] theorem enterMachine_hstatusVsbe (i : Bool) (n : Nat) (w : Word) (s : State) :
    (enterMachine i n w s).hstatusVsbe = s.hstatusVsbe := rfl
@[simp] theorem enterMachine_mem (i : Bool) (n : Nat) (w : Word) (s : State) :
    (enterMachine i n w s).mem = s.mem := rfl
@[simp] theorem enterMachine_unsynced (i : Bool) (n : Nat) (w : Word) (s : State) :
    (enterMachine i n w s).unsynced = s.unsynced := rfl
@[simp] theorem enterMachine_draws (i : Bool) (n : Nat) (w : Word) (s : State) :
    (enterMachine i n w s).draws = s.draws := rfl
@[simp] theorem enterMachine_mepc (i : Bool) (n : Nat) (w : Word) (s : State) :
    (enterMachine i n w s).mepc = s.pc := rfl
@[simp] theorem enterMachine_mcause (i : Bool) (n : Nat) (w : Word) (s : State) :
    (enterMachine i n w s).mcause = causeWord s.cfg i n := rfl
@[simp] theorem enterMachine_mtval (i : Bool) (n : Nat) (w : Word) (s : State) :
    (enterMachine i n w s).mtval = truncX s.cfg w := rfl
@[simp] theorem enterMachine_pc (i : Bool) (n : Nat) (w : Word) (s : State) :
    (enterMachine i n w s).pc = trapVector s.cfg s.mtvec i n := rfl
@[simp] theorem enterMachine_priv (i : Bool) (n : Nat) (w : Word) (s : State) :
    (enterMachine i n w s).priv = .machine := rfl
@[simp] theorem enterMachine_virt (i : Bool) (n : Nat) (w : Word) (s : State) :
    (enterMachine i n w s).virt = false := rfl

/-! ### `enterSupervisor` -/

@[simp] theorem enterSupervisor_cfg (i : Bool) (n : Nat) (w : Word) (s : State) :
    (enterSupervisor i n w s).cfg = s.cfg := rfl
@[simp] theorem enterSupervisor_x (i : Bool) (n : Nat) (w : Word) (s : State) :
    (enterSupervisor i n w s).x = s.x := rfl
@[simp] theorem enterSupervisor_v (i : Bool) (n : Nat) (w : Word) (s : State) :
    (enterSupervisor i n w s).v = s.v := rfl
@[simp] theorem enterSupervisor_vl (i : Bool) (n : Nat) (w : Word) (s : State) :
    (enterSupervisor i n w s).vl = s.vl := rfl
@[simp] theorem enterSupervisor_vtype (i : Bool) (n : Nat) (w : Word) (s : State) :
    (enterSupervisor i n w s).vtype = s.vtype := rfl
@[simp] theorem enterSupervisor_vstart (i : Bool) (n : Nat) (w : Word) (s : State) :
    (enterSupervisor i n w s).vstart = s.vstart := rfl
@[simp] theorem enterSupervisor_frm (i : Bool) (n : Nat) (w : Word) (s : State) :
    (enterSupervisor i n w s).frm = s.frm := rfl
@[simp] theorem enterSupervisor_fflags (i : Bool) (n : Nat) (w : Word) (s : State) :
    (enterSupervisor i n w s).fflags = s.fflags := rfl
@[simp] theorem enterSupervisor_vxsat (i : Bool) (n : Nat) (w : Word) (s : State) :
    (enterSupervisor i n w s).vxsat = s.vxsat := rfl
@[simp] theorem enterSupervisor_vxrm (i : Bool) (n : Nat) (w : Word) (s : State) :
    (enterSupervisor i n w s).vxrm = s.vxrm := rfl
@[simp] theorem enterSupervisor_ts (i : Bool) (n : Nat) (w : Word) (s : State) :
    (enterSupervisor i n w s).ts = s.ts := rfl
@[simp] theorem enterSupervisor_mtype (i : Bool) (n : Nat) (w : Word) (s : State) :
    (enterSupervisor i n w s).mtype = s.mtype := rfl
@[simp] theorem enterSupervisor_vsstatus (i : Bool) (n : Nat) (w : Word) (s : State) :
    (enterSupervisor i n w s).vsstatus = s.vsstatus := rfl
@[simp] theorem enterSupervisor_mtvec (i : Bool) (n : Nat) (w : Word) (s : State) :
    (enterSupervisor i n w s).mtvec = s.mtvec := rfl
@[simp] theorem enterSupervisor_mepc (i : Bool) (n : Nat) (w : Word) (s : State) :
    (enterSupervisor i n w s).mepc = s.mepc := rfl
@[simp] theorem enterSupervisor_mcause (i : Bool) (n : Nat) (w : Word) (s : State) :
    (enterSupervisor i n w s).mcause = s.mcause := rfl
@[simp] theorem enterSupervisor_mtval (i : Bool) (n : Nat) (w : Word) (s : State) :
    (enterSupervisor i n w s).mtval = s.mtval := rfl
@[simp] theorem enterSupervisor_stvec (i : Bool) (n : Nat) (w : Word) (s : State) :
    (enterSupervisor i n w s).stvec = s.stvec := rfl
@[simp] theorem enterSupervisor_medeleg (i : Bool) (n : Nat) (w : Word) (s : State) :
    (enterSupervisor i n w s).medeleg = s.medeleg := rfl
@[simp] theorem enterSupervisor_hedeleg (i : Bool) (n : Nat) (w : Word) (s : State) :
    (enterSupervisor i n w s).hedeleg = s.hedeleg := rfl
@[simp] theorem enterSupervisor_mie (i : Bool) (n : Nat) (w : Word) (s : State) :
    (enterSupervisor i n w s).mie = s.mie := rfl
@[simp] theorem enterSupervisor_mip (i : Bool) (n : Nat) (w : Word) (s : State) :
    (enterSupervisor i n w s).mip = s.mip := rfl
@[simp] theorem enterSupervisor_vstvec (i : Bool) (n : Nat) (w : Word) (s : State) :
    (enterSupervisor i n w s).vstvec = s.vstvec := rfl
@[simp] theorem enterSupervisor_vsepc (i : Bool) (n : Nat) (w : Word) (s : State) :
    (enterSupervisor i n w s).vsepc = s.vsepc := rfl
@[simp] theorem enterSupervisor_vscause (i : Bool) (n : Nat) (w : Word) (s : State) :
    (enterSupervisor i n w s).vscause = s.vscause := rfl
@[simp] theorem enterSupervisor_vstval (i : Bool) (n : Nat) (w : Word) (s : State) :
    (enterSupervisor i n w s).vstval = s.vstval := rfl
@[simp] theorem enterSupervisor_hstatusVsbe (i : Bool) (n : Nat) (w : Word) (s : State) :
    (enterSupervisor i n w s).hstatusVsbe = s.hstatusVsbe := rfl
@[simp] theorem enterSupervisor_mem (i : Bool) (n : Nat) (w : Word) (s : State) :
    (enterSupervisor i n w s).mem = s.mem := rfl
@[simp] theorem enterSupervisor_unsynced (i : Bool) (n : Nat) (w : Word) (s : State) :
    (enterSupervisor i n w s).unsynced = s.unsynced := rfl
@[simp] theorem enterSupervisor_draws (i : Bool) (n : Nat) (w : Word) (s : State) :
    (enterSupervisor i n w s).draws = s.draws := rfl
@[simp] theorem enterSupervisor_sepc (i : Bool) (n : Nat) (w : Word) (s : State) :
    (enterSupervisor i n w s).sepc = s.pc := rfl
@[simp] theorem enterSupervisor_scause (i : Bool) (n : Nat) (w : Word) (s : State) :
    (enterSupervisor i n w s).scause = causeWord s.cfg i n := rfl
@[simp] theorem enterSupervisor_stval (i : Bool) (n : Nat) (w : Word) (s : State) :
    (enterSupervisor i n w s).stval = truncX s.cfg w := rfl
@[simp] theorem enterSupervisor_pc (i : Bool) (n : Nat) (w : Word) (s : State) :
    (enterSupervisor i n w s).pc = trapVector s.cfg s.stvec i n := rfl
@[simp] theorem enterSupervisor_priv (i : Bool) (n : Nat) (w : Word) (s : State) :
    (enterSupervisor i n w s).priv = .supervisor := rfl
@[simp] theorem enterSupervisor_virt (i : Bool) (n : Nat) (w : Word) (s : State) :
    (enterSupervisor i n w s).virt = false := rfl

/-! ### `enterVirtualSupervisor` -/

@[simp] theorem enterVirtualSupervisor_cfg (i : Bool) (n : Nat) (w : Word) (s : State) :
    (enterVirtualSupervisor i n w s).cfg = s.cfg := rfl
@[simp] theorem enterVirtualSupervisor_x (i : Bool) (n : Nat) (w : Word) (s : State) :
    (enterVirtualSupervisor i n w s).x = s.x := rfl
@[simp] theorem enterVirtualSupervisor_v (i : Bool) (n : Nat) (w : Word) (s : State) :
    (enterVirtualSupervisor i n w s).v = s.v := rfl
@[simp] theorem enterVirtualSupervisor_vl (i : Bool) (n : Nat) (w : Word) (s : State) :
    (enterVirtualSupervisor i n w s).vl = s.vl := rfl
@[simp] theorem enterVirtualSupervisor_vtype (i : Bool) (n : Nat) (w : Word) (s : State) :
    (enterVirtualSupervisor i n w s).vtype = s.vtype := rfl
@[simp] theorem enterVirtualSupervisor_vstart (i : Bool) (n : Nat) (w : Word) (s : State) :
    (enterVirtualSupervisor i n w s).vstart = s.vstart := rfl
@[simp] theorem enterVirtualSupervisor_frm (i : Bool) (n : Nat) (w : Word) (s : State) :
    (enterVirtualSupervisor i n w s).frm = s.frm := rfl
@[simp] theorem enterVirtualSupervisor_fflags (i : Bool) (n : Nat) (w : Word) (s : State) :
    (enterVirtualSupervisor i n w s).fflags = s.fflags := rfl
@[simp] theorem enterVirtualSupervisor_vxsat (i : Bool) (n : Nat) (w : Word) (s : State) :
    (enterVirtualSupervisor i n w s).vxsat = s.vxsat := rfl
@[simp] theorem enterVirtualSupervisor_vxrm (i : Bool) (n : Nat) (w : Word) (s : State) :
    (enterVirtualSupervisor i n w s).vxrm = s.vxrm := rfl
@[simp] theorem enterVirtualSupervisor_ts (i : Bool) (n : Nat) (w : Word) (s : State) :
    (enterVirtualSupervisor i n w s).ts = s.ts := rfl
@[simp] theorem enterVirtualSupervisor_mtype (i : Bool) (n : Nat) (w : Word) (s : State) :
    (enterVirtualSupervisor i n w s).mtype = s.mtype := rfl
@[simp] theorem enterVirtualSupervisor_mstatus (i : Bool) (n : Nat) (w : Word) (s : State) :
    (enterVirtualSupervisor i n w s).mstatus = s.mstatus := rfl
@[simp] theorem enterVirtualSupervisor_virt (i : Bool) (n : Nat) (w : Word) (s : State) :
    (enterVirtualSupervisor i n w s).virt = s.virt := rfl
@[simp] theorem enterVirtualSupervisor_mtvec (i : Bool) (n : Nat) (w : Word) (s : State) :
    (enterVirtualSupervisor i n w s).mtvec = s.mtvec := rfl
@[simp] theorem enterVirtualSupervisor_mepc (i : Bool) (n : Nat) (w : Word) (s : State) :
    (enterVirtualSupervisor i n w s).mepc = s.mepc := rfl
@[simp] theorem enterVirtualSupervisor_mcause (i : Bool) (n : Nat) (w : Word) (s : State) :
    (enterVirtualSupervisor i n w s).mcause = s.mcause := rfl
@[simp] theorem enterVirtualSupervisor_mtval (i : Bool) (n : Nat) (w : Word) (s : State) :
    (enterVirtualSupervisor i n w s).mtval = s.mtval := rfl
@[simp] theorem enterVirtualSupervisor_stvec (i : Bool) (n : Nat) (w : Word) (s : State) :
    (enterVirtualSupervisor i n w s).stvec = s.stvec := rfl
@[simp] theorem enterVirtualSupervisor_sepc (i : Bool) (n : Nat) (w : Word) (s : State) :
    (enterVirtualSupervisor i n w s).sepc = s.sepc := rfl
@[simp] theorem enterVirtualSupervisor_scause (i : Bool) (n : Nat) (w : Word) (s : State) :
    (enterVirtualSupervisor i n w s).scause = s.scause := rfl
@[simp] theorem enterVirtualSupervisor_stval (i : Bool) (n : Nat) (w : Word) (s : State) :
    (enterVirtualSupervisor i n w s).stval = s.stval := rfl
@[simp] theorem enterVirtualSupervisor_medeleg (i : Bool) (n : Nat) (w : Word) (s : State) :
    (enterVirtualSupervisor i n w s).medeleg = s.medeleg := rfl
@[simp] theorem enterVirtualSupervisor_hedeleg (i : Bool) (n : Nat) (w : Word) (s : State) :
    (enterVirtualSupervisor i n w s).hedeleg = s.hedeleg := rfl
@[simp] theorem enterVirtualSupervisor_mie (i : Bool) (n : Nat) (w : Word) (s : State) :
    (enterVirtualSupervisor i n w s).mie = s.mie := rfl
@[simp] theorem enterVirtualSupervisor_mip (i : Bool) (n : Nat) (w : Word) (s : State) :
    (enterVirtualSupervisor i n w s).mip = s.mip := rfl
@[simp] theorem enterVirtualSupervisor_vstvec (i : Bool) (n : Nat) (w : Word) (s : State) :
    (enterVirtualSupervisor i n w s).vstvec = s.vstvec := rfl
@[simp] theorem enterVirtualSupervisor_hstatusSpv (i : Bool) (n : Nat) (w : Word) (s : State) :
    (enterVirtualSupervisor i n w s).hstatusSpv = s.hstatusSpv := rfl
@[simp] theorem enterVirtualSupervisor_hstatusVsbe (i : Bool) (n : Nat) (w : Word) (s : State) :
    (enterVirtualSupervisor i n w s).hstatusVsbe = s.hstatusVsbe := rfl
@[simp] theorem enterVirtualSupervisor_mem (i : Bool) (n : Nat) (w : Word) (s : State) :
    (enterVirtualSupervisor i n w s).mem = s.mem := rfl
@[simp] theorem enterVirtualSupervisor_unsynced (i : Bool) (n : Nat) (w : Word) (s : State) :
    (enterVirtualSupervisor i n w s).unsynced = s.unsynced := rfl
@[simp] theorem enterVirtualSupervisor_draws (i : Bool) (n : Nat) (w : Word) (s : State) :
    (enterVirtualSupervisor i n w s).draws = s.draws := rfl
@[simp] theorem enterVirtualSupervisor_vsepc (i : Bool) (n : Nat) (w : Word) (s : State) :
    (enterVirtualSupervisor i n w s).vsepc = s.pc := rfl
@[simp] theorem enterVirtualSupervisor_vscause (i : Bool) (n : Nat) (w : Word) (s : State) :
    (enterVirtualSupervisor i n w s).vscause = causeWord s.cfg i n := rfl
@[simp] theorem enterVirtualSupervisor_vstval (i : Bool) (n : Nat) (w : Word) (s : State) :
    (enterVirtualSupervisor i n w s).vstval = truncX s.cfg w := rfl
@[simp] theorem enterVirtualSupervisor_pc (i : Bool) (n : Nat) (w : Word) (s : State) :
    (enterVirtualSupervisor i n w s).pc = trapVector s.cfg s.vstvec i n := rfl
@[simp] theorem enterVirtualSupervisor_priv (i : Bool) (n : Nat) (w : Word) (s : State) :
    (enterVirtualSupervisor i n w s).priv = .supervisor := rfl

/-! ### `takeException` and `illegal`: what no trap entry changes -/

@[simp] theorem takeException_cfg (e : Exception) (w : Word) (s : State) :
    (takeException e w s).cfg = s.cfg := by unfold takeException; split <;> rfl
@[simp] theorem takeException_x (e : Exception) (w : Word) (s : State) :
    (takeException e w s).x = s.x := by unfold takeException; split <;> rfl
@[simp] theorem takeException_v (e : Exception) (w : Word) (s : State) :
    (takeException e w s).v = s.v := by unfold takeException; split <;> rfl
@[simp] theorem takeException_vl (e : Exception) (w : Word) (s : State) :
    (takeException e w s).vl = s.vl := by unfold takeException; split <;> rfl
@[simp] theorem takeException_vtype (e : Exception) (w : Word) (s : State) :
    (takeException e w s).vtype = s.vtype := by unfold takeException; split <;> rfl
@[simp] theorem takeException_vstart (e : Exception) (w : Word) (s : State) :
    (takeException e w s).vstart = s.vstart := by unfold takeException; split <;> rfl
@[simp] theorem takeException_frm (e : Exception) (w : Word) (s : State) :
    (takeException e w s).frm = s.frm := by unfold takeException; split <;> rfl
@[simp] theorem takeException_fflags (e : Exception) (w : Word) (s : State) :
    (takeException e w s).fflags = s.fflags := by unfold takeException; split <;> rfl
@[simp] theorem takeException_vxsat (e : Exception) (w : Word) (s : State) :
    (takeException e w s).vxsat = s.vxsat := by unfold takeException; split <;> rfl
@[simp] theorem takeException_vxrm (e : Exception) (w : Word) (s : State) :
    (takeException e w s).vxrm = s.vxrm := by unfold takeException; split <;> rfl
@[simp] theorem takeException_ts (e : Exception) (w : Word) (s : State) :
    (takeException e w s).ts = s.ts := by unfold takeException; split <;> rfl
@[simp] theorem takeException_mtype (e : Exception) (w : Word) (s : State) :
    (takeException e w s).mtype = s.mtype := by unfold takeException; split <;> rfl
@[simp] theorem takeException_mtvec (e : Exception) (w : Word) (s : State) :
    (takeException e w s).mtvec = s.mtvec := by unfold takeException; split <;> rfl
@[simp] theorem takeException_stvec (e : Exception) (w : Word) (s : State) :
    (takeException e w s).stvec = s.stvec := by unfold takeException; split <;> rfl
@[simp] theorem takeException_medeleg (e : Exception) (w : Word) (s : State) :
    (takeException e w s).medeleg = s.medeleg := by unfold takeException; split <;> rfl
@[simp] theorem takeException_hedeleg (e : Exception) (w : Word) (s : State) :
    (takeException e w s).hedeleg = s.hedeleg := by unfold takeException; split <;> rfl
@[simp] theorem takeException_mie (e : Exception) (w : Word) (s : State) :
    (takeException e w s).mie = s.mie := by unfold takeException; split <;> rfl
@[simp] theorem takeException_mip (e : Exception) (w : Word) (s : State) :
    (takeException e w s).mip = s.mip := by unfold takeException; split <;> rfl
@[simp] theorem takeException_vstvec (e : Exception) (w : Word) (s : State) :
    (takeException e w s).vstvec = s.vstvec := by unfold takeException; split <;> rfl
@[simp] theorem takeException_hstatusVsbe (e : Exception) (w : Word) (s : State) :
    (takeException e w s).hstatusVsbe = s.hstatusVsbe := by unfold takeException; split <;> rfl
@[simp] theorem takeException_mem (e : Exception) (w : Word) (s : State) :
    (takeException e w s).mem = s.mem := by unfold takeException; split <;> rfl
@[simp] theorem takeException_unsynced (e : Exception) (w : Word) (s : State) :
    (takeException e w s).unsynced = s.unsynced := by unfold takeException; split <;> rfl
@[simp] theorem takeException_draws (e : Exception) (w : Word) (s : State) :
    (takeException e w s).draws = s.draws := by unfold takeException; split <;> rfl
@[simp] theorem illegal_cfg (w : InstrWord) (s : State) : (illegal w s).cfg = s.cfg := takeException_cfg _ _ s
@[simp] theorem illegal_x (w : InstrWord) (s : State) : (illegal w s).x = s.x := takeException_x _ _ s
@[simp] theorem illegal_v (w : InstrWord) (s : State) : (illegal w s).v = s.v := takeException_v _ _ s
@[simp] theorem illegal_vl (w : InstrWord) (s : State) : (illegal w s).vl = s.vl := takeException_vl _ _ s
@[simp] theorem illegal_vtype (w : InstrWord) (s : State) : (illegal w s).vtype = s.vtype := takeException_vtype _ _ s
@[simp] theorem illegal_vstart (w : InstrWord) (s : State) :
    (illegal w s).vstart = s.vstart := takeException_vstart _ _ s
@[simp] theorem illegal_frm (w : InstrWord) (s : State) : (illegal w s).frm = s.frm := takeException_frm _ _ s
@[simp] theorem illegal_fflags (w : InstrWord) (s : State) :
    (illegal w s).fflags = s.fflags := takeException_fflags _ _ s
@[simp] theorem illegal_vxsat (w : InstrWord) (s : State) : (illegal w s).vxsat = s.vxsat := takeException_vxsat _ _ s
@[simp] theorem illegal_vxrm (w : InstrWord) (s : State) : (illegal w s).vxrm = s.vxrm := takeException_vxrm _ _ s
@[simp] theorem illegal_ts (w : InstrWord) (s : State) : (illegal w s).ts = s.ts := takeException_ts _ _ s
@[simp] theorem illegal_mtype (w : InstrWord) (s : State) : (illegal w s).mtype = s.mtype := takeException_mtype _ _ s
@[simp] theorem illegal_mtvec (w : InstrWord) (s : State) : (illegal w s).mtvec = s.mtvec := takeException_mtvec _ _ s
@[simp] theorem illegal_stvec (w : InstrWord) (s : State) : (illegal w s).stvec = s.stvec := takeException_stvec _ _ s
@[simp] theorem illegal_medeleg (w : InstrWord) (s : State) :
    (illegal w s).medeleg = s.medeleg := takeException_medeleg _ _ s
@[simp] theorem illegal_hedeleg (w : InstrWord) (s : State) :
    (illegal w s).hedeleg = s.hedeleg := takeException_hedeleg _ _ s
@[simp] theorem illegal_mie (w : InstrWord) (s : State) : (illegal w s).mie = s.mie := takeException_mie _ _ s
@[simp] theorem illegal_mip (w : InstrWord) (s : State) : (illegal w s).mip = s.mip := takeException_mip _ _ s
@[simp] theorem illegal_vstvec (w : InstrWord) (s : State) :
    (illegal w s).vstvec = s.vstvec := takeException_vstvec _ _ s
@[simp] theorem illegal_hstatusVsbe (w : InstrWord) (s : State) :
    (illegal w s).hstatusVsbe = s.hstatusVsbe := takeException_hstatusVsbe _ _ s
@[simp] theorem illegal_mem (w : InstrWord) (s : State) : (illegal w s).mem = s.mem := takeException_mem _ _ s
@[simp] theorem illegal_unsynced (w : InstrWord) (s : State) :
    (illegal w s).unsynced = s.unsynced := takeException_unsynced _ _ s
@[simp] theorem illegal_draws (w : InstrWord) (s : State) : (illegal w s).draws = s.draws := takeException_draws _ _ s

/-! ### `applyStores` and `withFetchWord` -/

@[simp] theorem applyStores_cfg (ws : List (Nat × Byte)) (s : State) : (applyStores ws s).cfg = s.cfg := rfl
@[simp] theorem applyStores_x (ws : List (Nat × Byte)) (s : State) : (applyStores ws s).x = s.x := rfl
@[simp] theorem applyStores_pc (ws : List (Nat × Byte)) (s : State) : (applyStores ws s).pc = s.pc := rfl
@[simp] theorem applyStores_v (ws : List (Nat × Byte)) (s : State) : (applyStores ws s).v = s.v := rfl
@[simp] theorem applyStores_vl (ws : List (Nat × Byte)) (s : State) : (applyStores ws s).vl = s.vl := rfl
@[simp] theorem applyStores_vtype (ws : List (Nat × Byte)) (s : State) : (applyStores ws s).vtype = s.vtype := rfl
@[simp] theorem applyStores_vstart (ws : List (Nat × Byte)) (s : State) : (applyStores ws s).vstart = s.vstart := rfl
@[simp] theorem applyStores_frm (ws : List (Nat × Byte)) (s : State) : (applyStores ws s).frm = s.frm := rfl
@[simp] theorem applyStores_fflags (ws : List (Nat × Byte)) (s : State) : (applyStores ws s).fflags = s.fflags := rfl
@[simp] theorem applyStores_vxsat (ws : List (Nat × Byte)) (s : State) : (applyStores ws s).vxsat = s.vxsat := rfl
@[simp] theorem applyStores_vxrm (ws : List (Nat × Byte)) (s : State) : (applyStores ws s).vxrm = s.vxrm := rfl
@[simp] theorem applyStores_ts (ws : List (Nat × Byte)) (s : State) : (applyStores ws s).ts = s.ts := rfl
@[simp] theorem applyStores_mtype (ws : List (Nat × Byte)) (s : State) : (applyStores ws s).mtype = s.mtype := rfl
@[simp] theorem applyStores_mstatus (ws : List (Nat × Byte)) (s : State) :
    (applyStores ws s).mstatus = s.mstatus := rfl
@[simp] theorem applyStores_vsstatus (ws : List (Nat × Byte)) (s : State) :
    (applyStores ws s).vsstatus = s.vsstatus := rfl
@[simp] theorem applyStores_priv (ws : List (Nat × Byte)) (s : State) : (applyStores ws s).priv = s.priv := rfl
@[simp] theorem applyStores_virt (ws : List (Nat × Byte)) (s : State) : (applyStores ws s).virt = s.virt := rfl
@[simp] theorem applyStores_mtvec (ws : List (Nat × Byte)) (s : State) : (applyStores ws s).mtvec = s.mtvec := rfl
@[simp] theorem applyStores_mepc (ws : List (Nat × Byte)) (s : State) : (applyStores ws s).mepc = s.mepc := rfl
@[simp] theorem applyStores_mcause (ws : List (Nat × Byte)) (s : State) : (applyStores ws s).mcause = s.mcause := rfl
@[simp] theorem applyStores_mtval (ws : List (Nat × Byte)) (s : State) : (applyStores ws s).mtval = s.mtval := rfl
@[simp] theorem applyStores_stvec (ws : List (Nat × Byte)) (s : State) : (applyStores ws s).stvec = s.stvec := rfl
@[simp] theorem applyStores_sepc (ws : List (Nat × Byte)) (s : State) : (applyStores ws s).sepc = s.sepc := rfl
@[simp] theorem applyStores_scause (ws : List (Nat × Byte)) (s : State) : (applyStores ws s).scause = s.scause := rfl
@[simp] theorem applyStores_stval (ws : List (Nat × Byte)) (s : State) : (applyStores ws s).stval = s.stval := rfl
@[simp] theorem applyStores_medeleg (ws : List (Nat × Byte)) (s : State) :
    (applyStores ws s).medeleg = s.medeleg := rfl
@[simp] theorem applyStores_hedeleg (ws : List (Nat × Byte)) (s : State) :
    (applyStores ws s).hedeleg = s.hedeleg := rfl
@[simp] theorem applyStores_mie (ws : List (Nat × Byte)) (s : State) : (applyStores ws s).mie = s.mie := rfl
@[simp] theorem applyStores_mip (ws : List (Nat × Byte)) (s : State) : (applyStores ws s).mip = s.mip := rfl
@[simp] theorem applyStores_vstvec (ws : List (Nat × Byte)) (s : State) : (applyStores ws s).vstvec = s.vstvec := rfl
@[simp] theorem applyStores_vsepc (ws : List (Nat × Byte)) (s : State) : (applyStores ws s).vsepc = s.vsepc := rfl
@[simp] theorem applyStores_vscause (ws : List (Nat × Byte)) (s : State) :
    (applyStores ws s).vscause = s.vscause := rfl
@[simp] theorem applyStores_vstval (ws : List (Nat × Byte)) (s : State) : (applyStores ws s).vstval = s.vstval := rfl
@[simp] theorem applyStores_hstatusSpv (ws : List (Nat × Byte)) (s : State) :
    (applyStores ws s).hstatusSpv = s.hstatusSpv := rfl
@[simp] theorem applyStores_hstatusVsbe (ws : List (Nat × Byte)) (s : State) :
    (applyStores ws s).hstatusVsbe = s.hstatusVsbe := rfl
@[simp] theorem applyStores_draws (ws : List (Nat × Byte)) (s : State) : (applyStores ws s).draws = s.draws := rfl
@[simp] theorem withFetchWord_cfg (s : State) (n w : Nat) : (s.withFetchWord n w).cfg = s.cfg := rfl
@[simp] theorem withFetchWord_x (s : State) (n w : Nat) : (s.withFetchWord n w).x = s.x := rfl
@[simp] theorem withFetchWord_pc (s : State) (n w : Nat) : (s.withFetchWord n w).pc = s.pc := rfl
@[simp] theorem withFetchWord_v (s : State) (n w : Nat) : (s.withFetchWord n w).v = s.v := rfl
@[simp] theorem withFetchWord_vl (s : State) (n w : Nat) : (s.withFetchWord n w).vl = s.vl := rfl
@[simp] theorem withFetchWord_vtype (s : State) (n w : Nat) : (s.withFetchWord n w).vtype = s.vtype := rfl
@[simp] theorem withFetchWord_vstart (s : State) (n w : Nat) : (s.withFetchWord n w).vstart = s.vstart := rfl
@[simp] theorem withFetchWord_frm (s : State) (n w : Nat) : (s.withFetchWord n w).frm = s.frm := rfl
@[simp] theorem withFetchWord_fflags (s : State) (n w : Nat) : (s.withFetchWord n w).fflags = s.fflags := rfl
@[simp] theorem withFetchWord_vxsat (s : State) (n w : Nat) : (s.withFetchWord n w).vxsat = s.vxsat := rfl
@[simp] theorem withFetchWord_vxrm (s : State) (n w : Nat) : (s.withFetchWord n w).vxrm = s.vxrm := rfl
@[simp] theorem withFetchWord_ts (s : State) (n w : Nat) : (s.withFetchWord n w).ts = s.ts := rfl
@[simp] theorem withFetchWord_mtype (s : State) (n w : Nat) : (s.withFetchWord n w).mtype = s.mtype := rfl
@[simp] theorem withFetchWord_mstatus (s : State) (n w : Nat) : (s.withFetchWord n w).mstatus = s.mstatus := rfl
@[simp] theorem withFetchWord_vsstatus (s : State) (n w : Nat) : (s.withFetchWord n w).vsstatus = s.vsstatus := rfl
@[simp] theorem withFetchWord_priv (s : State) (n w : Nat) : (s.withFetchWord n w).priv = s.priv := rfl
@[simp] theorem withFetchWord_virt (s : State) (n w : Nat) : (s.withFetchWord n w).virt = s.virt := rfl
@[simp] theorem withFetchWord_mtvec (s : State) (n w : Nat) : (s.withFetchWord n w).mtvec = s.mtvec := rfl
@[simp] theorem withFetchWord_mepc (s : State) (n w : Nat) : (s.withFetchWord n w).mepc = s.mepc := rfl
@[simp] theorem withFetchWord_mcause (s : State) (n w : Nat) : (s.withFetchWord n w).mcause = s.mcause := rfl
@[simp] theorem withFetchWord_mtval (s : State) (n w : Nat) : (s.withFetchWord n w).mtval = s.mtval := rfl
@[simp] theorem withFetchWord_stvec (s : State) (n w : Nat) : (s.withFetchWord n w).stvec = s.stvec := rfl
@[simp] theorem withFetchWord_sepc (s : State) (n w : Nat) : (s.withFetchWord n w).sepc = s.sepc := rfl
@[simp] theorem withFetchWord_scause (s : State) (n w : Nat) : (s.withFetchWord n w).scause = s.scause := rfl
@[simp] theorem withFetchWord_stval (s : State) (n w : Nat) : (s.withFetchWord n w).stval = s.stval := rfl
@[simp] theorem withFetchWord_medeleg (s : State) (n w : Nat) : (s.withFetchWord n w).medeleg = s.medeleg := rfl
@[simp] theorem withFetchWord_hedeleg (s : State) (n w : Nat) : (s.withFetchWord n w).hedeleg = s.hedeleg := rfl
@[simp] theorem withFetchWord_mie (s : State) (n w : Nat) : (s.withFetchWord n w).mie = s.mie := rfl
@[simp] theorem withFetchWord_mip (s : State) (n w : Nat) : (s.withFetchWord n w).mip = s.mip := rfl
@[simp] theorem withFetchWord_vstvec (s : State) (n w : Nat) : (s.withFetchWord n w).vstvec = s.vstvec := rfl
@[simp] theorem withFetchWord_vsepc (s : State) (n w : Nat) : (s.withFetchWord n w).vsepc = s.vsepc := rfl
@[simp] theorem withFetchWord_vscause (s : State) (n w : Nat) : (s.withFetchWord n w).vscause = s.vscause := rfl
@[simp] theorem withFetchWord_vstval (s : State) (n w : Nat) : (s.withFetchWord n w).vstval = s.vstval := rfl
@[simp] theorem withFetchWord_hstatusSpv (s : State) (n w : Nat) :
    (s.withFetchWord n w).hstatusSpv = s.hstatusSpv := rfl
@[simp] theorem withFetchWord_hstatusVsbe (s : State) (n w : Nat) :
    (s.withFetchWord n w).hstatusVsbe = s.hstatusVsbe := rfl
@[simp] theorem withFetchWord_draws (s : State) (n w : Nat) : (s.withFetchWord n w).draws = s.draws := rfl

end Sys2Proof.Machine
end

