-- ==== Sys2Proof/Laws/TileAccess.lean ====
section
/-! SUPPORT. The shared operations of the tile loads and stores, each said once: the lowest excepting element, a load without an exception, the addresses of
element bytes, the writes of a store (R72, R169, R175, R303c). -/

namespace Sys2Proof.Machine

/-! ### The lowest excepting element -/

theorem firstException_none {s : State} {k : AccessKind} {rs1 : XReg} {w : Nat} {is : List Nat}
    (h : ∀ i ∈ is, accessException s k (elemAddr s rs1 w i) (w / 8) = none) : firstException s k rs1 w is = none := by
  induction is with
  | nil => rfl
  | cons a l ih =>
    simp only [firstException, h a (List.mem_cons_self ..)]
    exact ih fun i hi => h i (List.mem_cons_of_mem _ hi)

theorem firstException_some {s : State} {k : AccessKind} {rs1 : XReg} {w n v i a : Nat} {e : Exception} (h1 : v ≤ i)
    (h2 : i < v + n) (h3 : ∀ j, v ≤ j → j < i → accessException s k (elemAddr s rs1 w j) (w / 8) = none)
    (h4 : accessException s k (elemAddr s rs1 w i) (w / 8) = some (e, a)) :
    firstException s k rs1 w (List.range' v n) = some (i, e, a) := by
  induction n generalizing v with
  | zero => omega
  | succ n ih =>
    rw [List.range'_succ]
    by_cases h : v = i
    · subst h; simp [firstException, h4]
    · simp only [firstException, h3 v le_rfl (by omega)]
      exact ih (by omega) (by omega) fun j a b => h3 j (by omega) b

/-- The excepting element is one of those accessed. -/
theorem firstException_range {s : State} {k : AccessKind} {rs1 : XReg} {w n v : Nat} {f : Nat × Exception × Nat}
    (h : firstException s k rs1 w (List.range' v n) = some f) : v ≤ f.1 ∧ f.1 < v + n := by
  induction n generalizing v with
  | zero => cases h
  | succ n ih =>
    rw [List.range'_succ] at h
    unfold firstException at h
    split at h
    · injection h with h; subst h; exact ⟨le_rfl, by simp⟩
    · have := ih h; omega

/-! ### A load without an exception -/

theorem bodyIndices_isEmpty (s : State) (w : Nat) : (bodyIndices s w).isEmpty = decide (tn s w ≤ s.vstart) := by
  rw [Bool.eq_iff_iff, List.isEmpty_iff, decide_eq_true_eq, bodyIndices, List.range'_eq_nil_iff]; omega

/-- With an empty body a load only ends (R171). -/
theorem loadComplete_empty {s : State} {w : Nat} (h : tn s w ≤ s.vstart) (u : Subset) (rs1 : XReg) :
    loadComplete u rs1 w s = completeZvm s := by
  simp [loadComplete, bodyIndices_isEmpty, h, overlay, dirtyMs]

/-- With a body element a load writes the body and the agnostic tail, and dirties MS (R168, R170, R60). -/
theorem loadComplete_body {s : State} {w : Nat} (h : s.vstart < tn s w) (u : Subset) (rs1 : XReg) :
    loadComplete u rs1 w s = completeZvm (dirtyMs true
      { s with ts := overlay s.ts (loadWrites s u rs1 w (bodyIndices s w) ++ subsetTailWrites s u w) }) := by
  simp [loadComplete, bodyIndices_isEmpty, Nat.not_le.2 h]

/-! ### The bytes of elements -/

/-- Byte `k` of element `i` in memory (R72). -/
def elemByteAddr (s : State) (rs1 : XReg) (w i k : Nat) : Nat := addrX s.cfg (elemAddr s rs1 w i) k

theorem elemByteAddr_eq (s : State) (rs1 : XReg) (w i k : Nat) :
    elemByteAddr s rs1 w i k = addrX s.cfg (s.readX rs1).toNat (i * (w / 8) + k) := by
  unfold elemByteAddr elemAddr; rw [addrX_addrX]

theorem isElementByte_iff (s : State) (rs1 : XReg) (w i k a : Nat) :
    IsElementByte s rs1 w i k a ↔ k < w / 8 ∧ a = elemByteAddr s rs1 w i k := by
  rw [elemByteAddr_eq]; unfold IsElementByte addrX; rw [Nat.add_assoc]

/-- The bytes of the elements of a row or column lie at different addresses. -/
theorem elemByteAddr_inj {s : State} (hc : s.cfg.wf = true) {rs1 : XReg} {w i j k l : Nat} (hw : w ∈ tileWidths)
    (hi : i < ete s.cfg w) (hj : j < ete s.cfg w) (hk : k < w / 8) (hl : l < w / 8)
    (h : elemByteAddr s rs1 w i k = elemByteAddr s rs1 w j l) : i = j ∧ k = l := by
  have hb := ete_le hc w
  have h32 := le_two_pow_xlenBits s.cfg
  have hw8 : w / 8 ≤ 8 := by
    simp only [tileWidths, List.mem_cons, List.not_mem_nil, or_false] at hw
    rcases hw with rfl | rfl | rfl | rfl <;> norm_num
  rw [elemByteAddr_eq, elemByteAddr_eq] at h
  have b : ∀ i k, i < ete s.cfg w → k < w / 8 → i * (w / 8) + k < 2 ^ s.cfg.xlenBits := by
    intro i k hi hk
    have : i * (w / 8) ≤ 8192 * 8 := Nat.mul_le_mul (by omega) hw8
    omega
  exact radix_inj hk hl (addrX_inj (b i k hi hk) (b j l hj hl) h)

/-- The byte writes of a store are the bytes of its elements (R169). -/
theorem mem_storeWrites {s : State} {u : Subset} {rs1 : XReg} {w : Nat} {is : List Nat} {p : Nat × Byte} :
    p ∈ storeWrites s u rs1 w is ↔
      ∃ i ∈ is, ∃ k < w / 8, p = (elemByteAddr s rs1 w i k, readByte s.ts (u.offset s.cfg w i + k)) := by
  have hz : ∀ i, (byteAddrs s.cfg (elemAddr s rs1 w i) (w / 8)).zip (subsetElem s u w i)
      = (List.range (w / 8)).map fun k => (elemByteAddr s rs1 w i k, readByte s.ts (u.offset s.cfg w i + k)) := by
    intro i; unfold byteAddrs subsetElem readBytes; rw [List.zip_map']; rfl
  unfold storeWrites
  simp only [List.mem_flatMap, hz, List.mem_map, List.mem_range]
  constructor <;> rintro ⟨i, hi, k, hk, rfl⟩ <;> exact ⟨i, hi, k, hk, rfl⟩

theorem subsetElem_getD (s : State) (u : Subset) {w k : Nat} (i : Nat) (hk : k < w / 8) :
    (subsetElem s u w i).getD k 0#8 = readByte s.ts (u.offset s.cfg w i + k) := by
  simp [subsetElem, readBytes, List.getD, hk]

end Sys2Proof.Machine
end

