-- ==== Sys2Proof/Tests/Slice0.lean ====
section
/-! SUPPORT. Tests: ill-formed terms refused, words decoded, vectors of 95_test_vectors.md, and for each statement of
Certificates/Slice0/Obligations.lean that has hypotheses a state and operands that meet them. -/

namespace Sys2Proof.Tests

open Sys2Proof Sys2Proof.Machine

set_option Elab.async false

/-! ### Well-formedness -/

/-- R107: `mm.f.f` cannot name an odd tile. -/
theorem test_wf_tile3 : (Instr.mmFF 5#4 0#5 8#5).wellFormed = false ∧ (Instr.p2mmFF 1#4 0#5 8#5).wellFormed = false := by decide

/-- R107: the FP8 and INT8 forms name only multiples of 4. -/
theorem test_wf_tile2 : (Instr.mmUU 2#4 8#5 16#5).wellFormed = false ∧ (Instr.mmE4m3E4m3 6#4 8#5 16#5).wellFormed = false := by decide

/-- R283: a branch offset is even. -/
theorem test_wf_branch : (Instr.bne 5#5 6#5 3#13).wellFormed = false := by decide

/-- The operands the encodings can hold are accepted. -/
theorem test_wf_accepts : (Instr.mmFF 14#4 0#5 8#5).wellFormed = true ∧ (Instr.mmSS 12#4 8#5 16#5).wellFormed = true
    ∧ (Instr.bne 6#5 5#5 0x1FF4#13).wellFormed = true := by decide

/-! ### Decoding: words of 95_test_vectors.md, and words put together from the fields of R103 to R106 and R280 to R284 -/

theorem test_decode_vsetvli : decode 0x0D12F357#32 = .instr (.vsetvli 6#5 5#5 0xD1#11) := by decide +kernel

theorem test_decode_vsetivli : decode 0xCC027057#32 = .instr (.vsetivli 0#5 4#5 0xC0#10) := by decide +kernel

theorem test_decode_vsetvl : decode 0x8063F2D7#32 = .instr (.vsetvl 5#5 7#5 6#5) := by decide +kernel

theorem test_decode_msetmtype : decode 0x82B57057#32 = .instr (.msetmtype 10#5 11#5) := by decide +kernel

theorem test_decode_msetmtypei : decode 0x8530F057#32 = .instr (.msetmtypei 1#5 2#2) := by decide +kernel

theorem test_decode_msettn : decode 0x8402F357#32 = .instr (.msettn 6#5 5#5) := by decide +kernel

theorem test_decode_msettm : decode 0x8412F357#32 = .instr (.msettm 6#5 5#5) := by decide +kernel

theorem test_decode_msettk : decode 0x8422F3D7#32 = .instr (.msettk 7#5 5#5) := by decide +kernel

/-- R104: `eee` 000 `1` `00` `1` rs2 rs1 `111` `00000` then LOAD-FP; `rs2` = x11 is the TSS, `rs1` = x10 the address. -/
theorem test_decode_vlte8 : decode 0b00010010101101010111000000000111#32 = .instr (.vlte8 10#5 11#5) := by decide +kernel

theorem test_decode_vlte16 : decode 0x32B57007#32 = .instr (.vlte16 10#5 11#5) := by decide +kernel

theorem test_decode_vlte32 : decode 0x52B57007#32 = .instr (.vlte32 10#5 11#5) := by decide +kernel

theorem test_decode_vlte64 : decode 0x72B57007#32 = .instr (.vlte64 10#5 11#5) := by decide +kernel

theorem test_decode_vste8 : decode 0x1262F027#32 = .instr (.vste8 5#5 6#5) := by decide +kernel

theorem test_decode_vste16 : decode 0x3262F027#32 = .instr (.vste16 5#5 6#5) := by decide +kernel

theorem test_decode_vste32 : decode 0x52D67027#32 = .instr (.vste32 12#5 13#5) := by decide +kernel

theorem test_decode_vste64 : decode 0x7262F027#32 = .instr (.vste64 5#5 6#5) := by decide +kernel

theorem test_decode_vtmvVT : decode 0x43F36257#32 = .instr (.vtmvVT 4#5 6#5) := by decide +kernel

theorem test_decode_vtmvTV : decode 0x5E836057#32 = .instr (.vtmvTV 6#5 8#5) := by decide +kernel

theorem test_decode_vtzeroT : decode 0x43E06557#32 = .instr (.vtzeroT 5#4) := by decide +kernel

theorem test_decode_vtdiscard : decode 0x43C06057#32 = .instr .vtdiscard := by decide +kernel

theorem test_decode_mmFF : decode 0xF2041277#32 = .instr (.mmFF 2#4 0#5 8#5) := by decide +kernel

theorem test_decode_p2mmFF : decode 0xF28810F7#32 = .instr (.p2mmFF 0#4 8#5 16#5) := by decide +kernel

theorem test_decode_mmE5m2E5m2 : decode 0xFA881077#32 = .instr (.mmE5m2E5m2 0#4 8#5 16#5) := by decide +kernel

theorem test_decode_mmE5m2E4m3 : decode 0xFA8810F7#32 = .instr (.mmE5m2E4m3 0#4 8#5 16#5) := by decide +kernel

theorem test_decode_mmE4m3E5m2 : decode 0xFE881077#32 = .instr (.mmE4m3E5m2 0#4 8#5 16#5) := by decide +kernel

theorem test_decode_mmE4m3E4m3 : decode 0xFE8810F7#32 = .instr (.mmE4m3E4m3 0#4 8#5 16#5) := by decide +kernel

theorem test_decode_mmUU : decode 0xF2988C77#32 = .instr (.mmUU 12#4 9#5 17#5) := by decide +kernel

theorem test_decode_mmSU : decode 0xF6880877#32 = .instr (.mmSU 8#4 8#5 16#5) := by decide +kernel

theorem test_decode_mmUS : decode 0xF28808F7#32 = .instr (.mmUS 8#4 8#5 16#5) := by decide +kernel

theorem test_decode_mmSS : decode 0xF68808F7#32 = .instr (.mmSS 8#4 8#5 16#5) := by decide +kernel

theorem test_decode_addi : decode 0xFFF28293#32 = .instr (.addi 5#5 5#5 0xFFF#12) := by decide +kernel

theorem test_decode_slli : decode 0x03F31313#32 = .instr (.slli 6#5 6#5 63#6) := by decide +kernel

theorem test_decode_add : decode 0x00C50533#32 = .instr (.add 10#5 10#5 12#5) := by decide +kernel

theorem test_decode_bne : decode 0xFE531AE3#32 = .instr (.bne 6#5 5#5 0x1FF4#13) := by decide +kernel

theorem test_decode_csrrs : decode 0xC232A4F3#32 = .instr (.csrrs 9#5 0xC23#12 5#5) := by decide +kernel

/-- The words of section 2.8 that are no instruction of the table. -/
theorem test_decode_reserved : [0x92007007#32, 0xD2007007#32, 0x12007807#32, 0x10007007#32, 0x43E064D7#32, 0x43C060D7#32,
    0x8431F0D7#32, 0x82B570D7#32, 0xF2881177#32, 0xF0881077#32, 0x43D06057#32].map decode = List.replicate 11 .reservedEncoding := by
  decide +kernel

/-- A table word is laid out lowest byte first. -/
theorem test_decode_table_word : decodeTableWord 32 0x43C06057 = some .vtdiscard ∧ decodeTableWord 32 0 = none := by
  decide +kernel

/-! ### Vectors of 95_test_vectors.md, parameter set P0 -/

/-- A state of P0 with the given `vtype`, `mtype` and `vl`, every tile byte 0x55 and `pc` = 0x100. -/
def start (vt mt vl : Nat) : State :=
  { State.reset with
    vtype := vtypeOfWord Config.p0 (BitVec.ofNat 64 vt)
    mtype := mtypeOfWord Config.p0 (BitVec.ofNat 64 mt)
    vl := vl
    ts := List.replicate 1024 0x55#8
    pc := 0x100#64 }

/-- A state with an integer register set. -/
def withX (s : State) (r v : Nat) : State := s.writeX (BitVec.ofNat 5 r) (BitVec.ofNat 64 v)

/-- A state with bytes of memory set. -/
def withMem (s : State) (a : Nat) (bs : List Nat) : State :=
  { s with mem := memWrites s.mem (bs.zipIdx.map fun p => (a + p.2, BitVec.ofNat 8 p.1)) }

/-- A state with the first bytes of a vector register set. -/
def withV (s : State) (r : Nat) (bs : List Nat) : State :=
  { s with v := writeBytes s.v (s.cfg.vlenb * r) (bs.map (BitVec.ofNat 8)) }

/-- A view of the next state of an instruction. -/
def after {α : Type} (i : Instr) (s : State) (view : State → α) : Option α :=
  match exec i s with
  | .next t => some (view t)
  | .fault _ => none
  | .refused _ => none

/-- The mark of an illegal-instruction exception: its cause, and the state that it keeps. -/
def trapView (t : State) : Nat × Word × Nat := (t.mcause.toNat, t.mepc, t.vl)

/-- Bytes of the tile state. -/
def tsBytes (o n : Nat) (t : State) : List Nat := (readBytes t.ts o n).map (·.toNat)

/-- Bytes of memory. -/
def memBytes (a n : Nat) (t : State) : List Nat := (memReadBytes t.cfg t.mem a n).map (·.toNat)

/-- `vtype`, `mtype`, `vl` and an integer register. -/
def configView (r : Nat) (t : State) : Nat × Nat × Nat × Nat :=
  ((vtypeWord t.cfg t.vtype).toNat, (mtypeWord t.cfg t.mtype).toNat, t.vl, (t.readX (BitVec.ofNat 5 r)).toNat)

theorem test_vsetvli : after (.vsetvli 6#5 5#5 0xD1#11) (withX (start 0xC0 0x2083 8) 5 100) (configView 6)
    = some (0xD1, 0, 8, 8) := by decide +kernel

/-- `vsew` = 100 is reserved: `vill`, `vl` = 0. -/
theorem test_vsetvli_vill : after (.vsetvli 6#5 5#5 0xE0#11) (withX (start 0xC0 0x2083 8) 5 3) (configView 6)
    = some (0x8000000000000000, 0, 0, 0) := by decide +kernel

theorem test_vsetivli : after (.vsetivli 0#5 4#5 0xC0#10) (start 0xC0 0x2083 8) (configView 0) = some (0xC0, 0, 4, 0) := by
  decide +kernel

theorem test_vsetvl : after (.vsetvl 5#5 7#5 6#5) (withX (withX (start 0xC0 0x2083 8) 6 0xD3) 7 3) (configView 5)
    = some (0xD3, 0, 3, 3) := by decide +kernel

theorem test_msetmtypei : after (.msetmtypei 1#5 2#2) (start 0 0 5) (configView 0) = some (0xD1, 1, 0, 0) := by decide +kernel

/-- TEW = 128 is above ELEN: `vill`. -/
theorem test_msetmtypei_vill : after (.msetmtypei 2#5 3#2) (start 0 0 5) (configView 0)
    = some (0x80000000000000D9, 2, 0, 0) := by decide +kernel

theorem test_msetmtype : after (.msetmtype 10#5 11#5) (withX (start 0 0 5) 10 0x190E3) (configView 0)
    = some (0xC0, 0x2083, 0, 0) := by decide +kernel

/-- `altfmt` = 1 is supported with SEW = 16. -/
theorem test_msetmtype_altfmt : after (.msetmtype 10#5 11#5) (withX (withX (start 0 0 5) 10 2) 11 0x108) (configView 0)
    = some (0x1C8, 2, 0, 0) := by decide +kernel

theorem test_msettm : after (.msettm 6#5 5#5) (withX (start 0xC0 3 0) 5 1000) (configView 6) = some (0xC0, 0x2003, 0, 8) := by
  decide +kernel

theorem test_msettk : after (.msettk 7#5 5#5) (withX (start 0xC8 0x1402 5) 5 5) (configView 7) = some (0xC8, 0x1442, 5, 2) := by
  decide +kernel

/-- SEW = 64: ETE is 4. -/
theorem test_msettn : after (.msettn 8#5 5#5) (withX (start 0xD9 1 0) 5 5) (configView 8) = some (0xD9, 1, 4, 4) := by
  decide +kernel

/-- Unconfigured: VLMAX of `vtype` 0x10 is 4. -/
theorem test_msettn_unconfigured : after (.msettn 8#5 5#5) (withX (start 0x10 0 0) 5 5) (configView 8) = some (0x10, 0, 4, 4) := by
  decide +kernel

/-- L1. -/
theorem test_vlte8 : after (.vlte8 10#5 11#5)
    (withMem (withX (withX (start 0xC0 0 8) 10 0x1000) 11 0x18000002) 0x1000 [0xA0, 0xA1, 0xA2, 0xA3, 0xA4, 0xA5, 0xA6, 0xA7])
    (fun t => (tsBytes 0xC8 4 t, tsBytes 0xD8 4 t, tsBytes 0xCC 1 t, t.mstatus.ms))
    = some ([0xA0, 0xA1, 0xA2, 0xA3], [0xA4, 0xA5, 0xA6, 0xA7], [0x55], .on .dirty) := by decide +kernel

/-- L5. -/
theorem test_vlte16 : after (.vlte16 10#5 11#5)
    (withMem (withX (withX (start 0xC8 0 8) 10 0x4000) 11 0x38000003) 0x4000 (List.range' 0x80 16))
    (fun t => (tsBytes 0x1C4 4 t, tsBytes 0x1DC 4 t)) = some ([0x80, 0x81, 0x82, 0x83], [0x8C, 0x8D, 0x8E, 0x8F]) := by
  decide +kernel

/-- L3: column 1 of mt4 from `vstart` = 2. -/
theorem test_vlte32 : after (.vlte32 10#5 11#5)
    { withMem (withX (withX (start 0xD1 0 5) 10 0x2000) 11 0x21000001) 0x2000 (List.range' 1 20) with vstart := 2 }
    (fun t => (tsBytes 0x10C 4 t, tsBytes 0x124 4 t, tsBytes 0x184 4 t, t.vstart))
    = some ([0x55, 0x55, 0x55, 0x55], [9, 10, 11, 12], [0x11, 0x12, 0x13, 0x14], 0) := by decide +kernel

/-- L10: the page of 0x2008 is unmapped. -/
theorem test_vlte32_trap : after (.vlte32 10#5 11#5)
    { withMem (withX (withX (start 0xD1 0 5) 10 0x2000) 11 0x21000001) 0x2000 (List.range' 1 20) with
      cfg := { Config.p0 with
        regions := [{ Region.everywhere with base := 0x2008, size := 0x1000, load := .pageFault }, Region.everywhere] }
      priv := .supervisor }
    (fun t => (t.mcause.toNat, t.vstart, t.mepc, t.mtval, tsBytes 0x10C 4 t))
    = some (13, 2, 0x100#64, 0x2008#64, [5, 6, 7, 8]) := by decide +kernel

/-- L4. -/
theorem test_vlte64 : after (.vlte64 10#5 11#5)
    (withMem (withX (withX (start 0xD1 0 8) 10 0x3000) 11 0x10000001) 0x3000 (List.range' 0x10 40))
    (fun t => (tsBytes 0xA0 32 t, tsBytes 0xC0 1 t)) = some (List.range' 0x10 32, [0x55]) := by decide +kernel

/-- The tile state of L6: word `c` of row 0 of mt0 holds bytes `4c` to `4c + 3`. -/
def punned (a tss : Nat) : State :=
  let s := withX (withX (start 0xD1 0 8) 5 a) 6 tss
  { s with ts := overlay (List.replicate 1024 0#8) ([0x000, 0x004, 0x040, 0x044, 0x010, 0x014, 0x050, 0x054].zipIdx.map fun p =>
      (p.1, (List.range' (4 * p.2) 4).map (BitVec.ofNat 8))) }

/-- L6: row 0 of mt1. -/
theorem test_vste8 : after (.vste8 5#5 6#5) (punned 0x6000 0x08000000) (memBytes 0x6000 9)
    = some [8, 9, 10, 11, 0x18, 0x19, 0x1A, 0x1B, 0] := by decide +kernel

/-- L6: row 1 of mt0. -/
theorem test_vste16 : after (.vste16 5#5 6#5) (punned 0x6000 1) (memBytes 0x6000 16)
    = some [4, 5, 6, 7, 0, 0, 0, 0, 0x14, 0x15, 0x16, 0x17, 0, 0, 0, 0] := by decide +kernel

/-- L6: column 0 of mt0. -/
theorem test_vste32 : after (.vste32 5#5 6#5) (punned 0x6000 0x01000000) (fun t => (memBytes 0x6000 5 t, t.mstatus.ms, t.vstart))
    = some ([0, 1, 2, 3, 0], .on .initial, 0) := by decide +kernel

/-- L6: four elements. -/
theorem test_vste64 : after (.vste64 5#5 6#5) (punned 0x6000 0) (memBytes 0x6000 24)
    = some [0, 1, 2, 3, 4, 5, 6, 7, 0, 0, 0, 0, 0, 0, 0, 0, 0x10, 0x11, 0x12, 0x13, 0x14, 0x15, 0x16, 0x17] := by decide +kernel

/-- M1: column 5 of mt2. -/
theorem test_vtmvTV : after (.vtmvTV 6#5 8#5)
    (withV (withX (start 0xC8 0 8) 6 0x11000005) 8 [0, 0x10, 1, 0x10, 2, 0x10, 3, 0x10, 4, 0x10, 5, 0x10, 6, 0x10, 7, 0x10])
    (fun t => (tsBytes 0x092 2 t, tsBytes 0x0D2 2 t, tsBytes 0x0F6 2 t, tsBytes 0x094 1 t, t.mstatus.ms))
    = some ([0, 0x10], [2, 0x10], [7, 0x10], [0x55], .on .dirty) := by decide +kernel

/-- M2: row 0 of mt2. -/
theorem test_vtmvVT : after (.vtmvVT 4#5 6#5)
    { withX (start 0xC8 0 6) 6 0x10000000 with ts := overlay (List.replicate 1024 0#8) [(0x092, [0#8, 0x10#8])] }
    (fun t => ((readBytes t.v 64 12).map (·.toNat), t.mstatus.ms))
    = some ([0, 0, 0, 0, 0, 0, 0, 0, 0, 0, 0, 0x10], .on .initial) := by decide +kernel

/-- M4: with LMUL = 2 an odd `vd` is illegal. -/
theorem test_vtmvVT_group : after (.vtmvVT 5#5 6#5) (start 0xD1 0 8) trapView = some (2, 0x100#64, 8) := by decide +kernel

/-- Z1. -/
theorem test_vtzeroT : after (.vtzeroT 4#4) (start 0xC0 0x883 3)
    (fun t => (tsBytes 0x100 16 t, tsBytes 0x140 4 t, tsBytes 0x148 4 t, tsBytes 0x0FF 1 t, tsBytes 0x200 1 t))
    = some (List.replicate 16 0, [0, 0, 0, 0], [0, 0, 0, 0], [0x55], [0x55]) := by decide +kernel

/-- Section 2.8: `vstart` = 1 is illegal for `vtzero.t`. -/
theorem test_vtzeroT_vstart : after (.vtzeroT 4#4) { start 0xC0 0x883 3 with vstart := 1 } trapView = some (2, 0x100#64, 3) := by
  decide +kernel

/-- Z4. -/
theorem test_vtdiscard : after .vtdiscard (start 0xC0 0x883 3)
    (fun t => (t.mstatus.ms, t.mstatus.vs, configView 0 t)) = some (.on .initial, .on .dirty, (0xC0, 0x883, 3, 0)) := by
  decide +kernel

/-- The parameter set P3, whose tiles are the smallest. -/
def p3 : Config := { Config.p0 with lgVlen := 8, lgTe := 2 }

/-- A state of P3 with the given `vtype`, `mtype` and `vl`. -/
def start3 (vt mt vl : Nat) : State :=
  { State.resetOf p3 with
    vtype := vtypeOfWord p3 (BitVec.ofNat 64 vt)
    mtype := mtypeOfWord p3 (BitVec.ofNat 64 mt)
    vl := vl
    ts := List.replicate 256 0x55#8
    pc := 0x100#64 }

/-- The operands of A1, under P3: no dimension is above its tile edge. -/
def a1 (tk : Nat) : State :=
  let s := start3 0xC0 (0x803 + 32 * tk) 3
  let s := [(8, [1, 0xFF]), (10, [2, 0x80]), (12, [0x7F, 0x10]), (14, [0x80, 0]), (16, [3, 0xFE, 0x80]), (18, [4, 0x7F, 0xFF]),
    (20, [5, 1, 0]), (22, [0xFF, 0x80, 0x7F])].foldl (fun s p => withV s p.1 p.2) s
  { s with ts := overlay s.ts ((tileCoords 3).map fun p =>
      (punning 4 8 p.1 p.2 32, leBytes 4 (0x100 * (p.1 + 1) + p.2))) }

/-- Elements (0,0) and (1,1) of mt8 at TEW = 32. -/
def mt8View (t : State) : Nat × Nat := (leValue (tileElem t 32 8 0 0), leValue (tileElem t 32 8 1 1))

theorem test_mmUU : after (.mmUU 8#4 8#5 16#5) (a1 4) mt8View = some (0x8306, 0x13E93) := by decide +kernel

theorem test_mmSU : after (.mmSU 8#4 8#5 16#5) (a1 4) mt8View = some (0xFFFF8406, 0xFFFFC193) := by decide +kernel

theorem test_mmUS : after (.mmUS 8#4 8#5 16#5) (a1 3) mt8View = some (0x386, 0x3F93) := by decide +kernel

theorem test_mmSS : after (.mmSS 8#4 8#5 16#5) (a1 4) mt8View = some (0x406, 0xFFFFC293) := by decide +kernel

/-- Section 2.8: `v10` is no row of a matrix operand. -/
theorem test_mmUU_specifier : after (.mmUU 0#4 10#5 16#5) (a1 4) trapView = some (2, 0x100#64, 3) := by decide +kernel

/-- The operands of A4, under P3: C, A and B. -/
def a4 (c a b : Nat) : State :=
  let bytes := fun v => (leBytes 4 v).map (·.toNat)
  let s := withV (withV (start3 0xD0 0x421 1) 0 (bytes a)) 8 (bytes b)
  { s with ts := overlay s.ts [(0x40, leBytes 4 c)] }

/-- A4: unfused, so the sum is exactly +0. -/
theorem test_mmFF_unfused : after (.mmFF 4#4 0#5 8#5) (a4 0xBF800002 0x3F800001 0x3F800001)
    (fun t => (leValue (tileElem t 32 4 0 0), t.fflags, t.mstatus.fs)) = some (0, 0#5, .on .dirty) := by decide +kernel

/-- A4: the product overflows. -/
theorem test_mmFF_overflow : after (.mmFF 4#4 0#5 8#5) (a4 0x3F800000 0x7F7FFFFF 0x40000000)
    (fun t => (leValue (tileElem t 32 4 0 0), t.fflags)) = some (0x7F800000, 4#5) := by decide +kernel

/-- A zero size changes no byte of the tile state (A6). -/
theorem test_p2mmFF_empty : after (.p2mmFF 0#4 8#5 16#5) (start 0xC0 0x83 3) (fun t => (tsBytes 0 8 t, t.mstatus.ms, t.pc))
    = some (List.replicate 8 0x55, .on .initial, 0x104#64) := by decide +kernel

/-- What the four FP8 forms share: they run at SEW = 8 with TWIDEN = 4 and dirty MS, VS and FS. -/
theorem test_fp8_complete : ∀ i ∈ [Instr.mmE5m2E5m2 0#4 8#5 16#5, .mmE5m2E4m3 0#4 8#5 16#5, .mmE4m3E5m2 0#4 8#5 16#5,
    .mmE4m3E4m3 0#4 8#5 16#5], after i (start 0xC0 0x423 1) (fun t => (t.mstatus.ms, t.mstatus.vs, t.mstatus.fs, t.pc))
    = some (.on .dirty, .on .dirty, .on .dirty, 0x104#64) := by decide +kernel

theorem test_addi : after (.addi 5#5 5#5 0xFFF#12) (start 0 0 0) (fun t => (t.readX 5#5, t.pc))
    = some (0xFFFFFFFFFFFFFFFF#64, 0x104#64) := by decide +kernel

theorem test_addi_x0 : after (.addi 0#5 0#5 5#12) (start 0 0 0) (fun t => (t.readX 0#5, t.x)) = some (0#64, (start 0 0 0).x) := by
  decide +kernel

theorem test_slli : after (.slli 6#5 6#5 63#6) (withX (start 0 0 0) 6 3) (fun t => t.readX 6#5) = some 0x8000000000000000#64 := by
  decide +kernel

/-- With XLEN = 32 a shift amount of 32 or more is reserved. -/
theorem test_slli_rv32 : after (.slli 6#5 6#5 63#6) { start 0 0 0 with cfg := { Config.p0 with xlen := .rv32 } } trapView
    = some (2, 0x100#64, 0) := by decide +kernel

theorem test_add : after (.add 10#5 10#5 12#5) (withX (withX (start 0 0 0) 10 0xFFFFFFFFFFFFFFF0) 12 0x20) (fun t => t.readX 10#5)
    = some 0x10#64 := by decide +kernel

theorem test_bne : after (.bne 6#5 5#5 0x1FF4#13) { withX (withX (start 0 0 0) 6 7) 5 8 with pc := 0x2C#64 } (fun t => t.pc)
    = some 0x20#64 := by decide +kernel

theorem test_csrrs : after (.csrrs 9#5 0xC23#12 0#5) (start 0xC0 0x2083 8) (configView 9) = some (0xC0, 0x2083, 8, 0x2083) := by
  decide +kernel

theorem test_csrrs_write : after (.csrrs 9#5 0xC23#12 5#5) (start 0xC0 0x2083 8) trapView = some (2, 0x100#64, 8) := by
  decide +kernel

/-- A step fetches, decodes and runs a stored word. -/
theorem test_step : (match step (State.reset.withFetchWord 32 0x06400293) with
    | .next t => (t.readX 5#5).toNat
    | .fault _ => 0
    | .refused _ => 0) = 100 := by decide +kernel

/-- A step on `mret` goes to MPP at `mepc` (R306). -/
theorem test_step_mret : (match step (State.withFetchWord { State.reset with mepc := 0x200#64 } 32 0x30200073) with
    | .next t => (t.priv, t.pc, t.mstatus.mpie)
    | .fault _ => (.machine, 0#64, false)
    | .refused _ => (.machine, 0#64, false)) = (.user, 0x200#64, true) := by decide +kernel

/-- A pending and enabled timer interrupt comes before the instruction (R305, R307). -/
theorem test_step_interrupt : (match step { start 0xC0 0 8 with priv := .user, mie := 0x80#64, mip := 0x80#64 } with
    | .next t => trapView t
    | .fault _ => (0, 0#64, 0)
    | .refused _ => (0, 0#64, 0)) = (2 ^ 63 + 7, 0x100#64, 8) := by decide +kernel

/-- With no body element a tile load changes no byte of the tile state (R171). -/
theorem test_vlte8_empty : after (.vlte8 10#5 11#5) (start 0xC0 0 0) (fun t => (tsBytes 0 16 t, t.mstatus.ms))
    = some (List.replicate 16 0x55, .on .initial) := by decide +kernel

/-- An absent extension faults in an unconfigured unit too, whatever the policy (93_implementation_defined.md I3). -/
theorem test_p2mmFF_absent : after (.p2mmFF 0#4 8#5 16#5)
    { start 0xC0 0 3 with cfg := { Config.p0 with mmUnconfigured := .nop, ext := { Config.p0.ext with zvm32a4f := false } } }
    trapView = some (2, 0x100#64, 3) := by decide +kernel

/-! ### Witnesses: the hypotheses of the statements can be met -/

/-- The invariant of a state, field by field, as a computation. -/
def invCheck (s : State) : Bool :=
  s.cfg.wf && decide (s.pc.toNat % 4 = 0) && decide (s.v.length = 32 * s.cfg.vlenb) && decide (s.ts.length = s.cfg.tileBytes)
    && decide (s.vstart < s.cfg.vlen) && Memory.wf s.mem && risingFrom 0 s.unsynced
    && decide (sew s.vtype ≤ s.cfg.elenBits) && decide (s.vtype.vlmul ≠ 0b100#3) && decide (s.vl ≤ vlmax s.cfg s.vtype)
    && decide (s.mtype.mtwiden = 0#2 → s.mtype.tm = 0#14 ∧ s.mtype.tk = 0#3)
    && (match twidenOf s.cfg s.mtype.mtwiden with
      | none => true
      | some w => decide (s.vtype.vlmul = BitVec.ofNat 3 (Nat.log2 (matrixLmul s.cfg (sew s.vtype) w)) ∧ s.vtype.vma = true
          ∧ s.vtype.vta = true ∧ (s.vtype.vill = false → sew s.vtype * w ≤ s.cfg.elenBits)
          ∧ s.mtype.tk.toNat ≤ kmax (sew s.vtype)
          ∧ s.mtype.tm.toNat ≤ min (vlmax s.cfg s.vtype) (ete s.cfg (sew s.vtype * w))
          ∧ s.vl ≤ ete s.cfg (sew s.vtype * w)))
    && decide (∀ r : Fin 32, s.x[r].toNat < 2 ^ s.cfg.xlenBits)
    && [s.pc, s.mepc, s.mcause, s.mtval, s.mtvec, s.sepc, s.scause, s.stval, s.stvec, s.vsepc, s.vscause, s.vstval, s.vstvec].all
      (fun w => decide (w.toNat < 2 ^ s.cfg.xlenBits))
    && decide (s.virt = true → s.cfg.hasH = true ∧ s.priv ≠ .machine) && decide (s.priv = .supervisor → s.cfg.hasS = true)
    && decide (s.mstatus.mpp = .supervisor → s.cfg.hasS = true)
    && decide (s.mepc.toNat % 4 = 0 ∧ s.sepc.toNat % 4 = 0 ∧ s.vsepc.toNat % 4 = 0)

/-- The computation answers for the invariant. -/
theorem inv_of_check {s : State} (h : invCheck s = true) : s.Inv := by
  simp only [invCheck, Bool.and_eq_true, decide_eq_true_eq, List.all_cons, List.all_nil] at h
  obtain ⟨⟨⟨⟨⟨⟨⟨⟨⟨⟨⟨⟨⟨⟨⟨⟨⟨h1, h2⟩, h3⟩, h4⟩, h5⟩, h6⟩, h7⟩, h8⟩, h9⟩, h10⟩, h11⟩, h12⟩, h13⟩, h14⟩, h15⟩, h16⟩, h17⟩, h18⟩ := h
  obtain ⟨w1, w2, w3, w4, w5, w6, w7, w8, w9, w10, w11, w12, w13, -⟩ := h14
  refine ⟨h1, h2, h3, h4, h5, h6, h7, ⟨h8, h9, h10, h11, fun w hw => ?_⟩,
    ⟨h13, w1, w2, w3, w4, w5, w6, w7, w8, w9, w10, w11, w12, w13⟩, ⟨h15, h16, h17⟩, ⟨h18.1, h18.2.1, h18.2.2⟩⟩
  rw [hw] at h12
  exact of_decide_eq_true h12

/-- P3 configured for SEW = 8, TWIDEN = 4, `tm` = 2, `tk` = 3, `vl` = 3. -/
def s8 : State := start3 0xC0 0x863 3

/-- P3 configured for SEW = 16, TWIDEN = 2, with `altfmt` or not. -/
def s16 (altfmt : Nat) : State := start3 (0xC8 + 0x100 * altfmt) 0x842 3

/-- P3 configured for SEW = 32, TWIDEN = 1. -/
def s32 : State := start3 0xD0 0x821 3

/-- P3 configured for SEW = 64, TWIDEN = 1. -/
def s64 : State := start3 0xD8 0x821 2

/-- P3 with the matrix unit not configured. -/
def sPlain : State := start3 0xC0 0 3

/-- `s8` in a guest's supervisor mode. -/
def sGuest : State := { s8 with priv := .supervisor, virt := true }

/-- P3 with a region at 0x2008 that pages out loads and stores. -/
def p3Paged : Config :=
  { p3 with regions := [{ Region.everywhere with base := 0x2008, size := 0x1000, load := .pageFault, store := .pageFault },
      Region.everywhere] }

theorem test_states_inv : s8.Inv ∧ (s16 0).Inv ∧ (s16 1).Inv ∧ s32.Inv ∧ s64.Inv ∧ sPlain.Inv ∧ sGuest.Inv :=
  ⟨inv_of_check (by decide +kernel), inv_of_check (by decide +kernel), inv_of_check (by decide +kernel),
    inv_of_check (by decide +kernel), inv_of_check (by decide +kernel), inv_of_check (by decide +kernel),
    inv_of_check (by decide +kernel)⟩

theorem test_witness_EncodeThenDecode : (Instr.mmSS 12#4 31#5 31#5).wellFormed = true := by decide

theorem test_witness_DecodeThenEncode : decode 0x43E06F57#32 = .instr (.vtzeroT 15#4) := by decide +kernel

theorem test_witness_OpcodeRowsDisjoint : ∃ r ∈ rows, r.selects 0x43C06057#32 = true := by decide +kernel

/-- `eee` = 100, a nonzero position, `vm` = 0, `mop` = 1; `msetmtype` with `rd` = 1, the bits 22:20 = 4, `vtzero.t` with bit 7 set,
another source code; then `vm` = 0, bit 8 of OP-VE, and bit 9 of an FP8 and of an INT8 form. -/
theorem test_witness_ReservedWords :
    ((field 0x92007007#32 0 7 = 0x07#7 ∧ field 0x92007007#32 12 3 = 7#3 ∧ field 0x92007007#32 28 1 = 1#1
        ∧ field 0x92007007#32 31 1 = 1#1)
      ∧ (field 0x120070A7#32 0 7 = 0x27#7 ∧ fieldRd 0x120070A7#32 ≠ 0#5)
      ∧ field 0x10007007#32 25 1 = 0#1 ∧ field 0x16007007#32 26 2 ≠ 0#2)
    ∧ (field 0xF0881077#32 0 7 = 0x77#7 ∧ field 0xF0881077#32 25 1 = 0#1)
    ∧ (field 0xF2881177#32 0 7 = 0x77#7 ∧ field 0xF2881177#32 8 1 = 1#1)
    ∧ (field 0x82B570D7#32 0 7 = 0x57#7 ∧ field 0x82B570D7#32 12 3 = 7#3 ∧ field 0x82B570D7#32 25 7 = 0b1000001#7
      ∧ fieldRd 0x82B570D7#32 ≠ 0#5)
    ∧ (field 0x8442F357#32 12 3 = 7#3 ∧ field 0x8442F357#32 25 7 = 0b1000010#7 ∧ field 0x8442F357#32 22 1 = 1#1)
    ∧ (field 0x43E060D7#32 12 3 = 6#3 ∧ field 0x43E060D7#32 26 6 = 0b010000#6 ∧ field 0x43E060D7#32 25 1 = 1#1
      ∧ fieldRs2 0x43E060D7#32 = 0b11110#5 ∧ field 0x43E060D7#32 7 1 = 1#1)
    ∧ (field 0x43D06057#32 26 6 = 0b010000#6 ∧ fieldRs2 0x43D06057#32 ∉ [0b00000#5, 0b11100#5, 0b11110#5, 0b11111#5])
    ∧ (field 0xFA881277#32 27 5 = 0b11111#5 ∧ field 0xFA881277#32 9 1 = 1#1)
    ∧ (field 0xF6881277#32 27 5 = 0b11110#5 ∧ field 0xF6880277#32 12 3 = 0#3 ∧ field 0xF6880277#32 9 1 = 1#1) := by
  decide +kernel

/-- The hypotheses on the bytes at `pc` in a state with a word stored there. -/
def fetchable (s : State) : Bool :=
  s.cfg.wf && decide (s.pc.toNat % 4 = 0) && (byteAddrs s.cfg s.pc.toNat 4).all fun a =>
    byteVerdict s .fetch a == .permitted && !s.unsynced.contains a

theorem test_witness_StepRunsDecodedInstruction : fetchable (s8.withFetchWord 32 0x43C06057) = true
    ∧ pendingInterrupt (s8.withFetchWord 32 0x43C06057) = none
    ∧ decodeBytes (memReadBytes p3 (s8.withFetchWord 32 0x43C06057).mem 0x100 4) = .instr .vtdiscard := by decide +kernel

/-- A reserved encoding, a word outside the subset, `mret` in and below machine mode, `sret` in each mode. -/
theorem test_witness_StepOnOtherWords :
    (∀ w ∈ [0xF0881077, 0x0000006F, 0x30200073, 0x10200073], fetchable (s8.withFetchWord 32 w) = true
      ∧ fetchable (sGuest.withFetchWord 32 w) = true ∧ pendingInterrupt (s8.withFetchWord 32 w) = none
      ∧ pendingInterrupt (sGuest.withFetchWord 32 w) = none)
    ∧ (s8.priv = .machine ∧ sGuest.priv = .supervisor ∧ s8.cfg.hasS = true ∧ s8.virt = false ∧ sGuest.virt = true)
    ∧ (memReadBytes p3 (s8.withFetchWord 32 0x30200073).mem 0x100 4 = bytesOfWord 0x30200073#32
      ∧ memReadBytes p3 (s8.withFetchWord 32 0x10200073).mem 0x100 4 = bytesOfWord 0x10200073#32)
    ∧ (fetchable (s8.withFetchWord 32 0xF0881077) = true
      ∧ memReadBytes p3 (s8.withFetchWord 32 0xF0881077).mem 0x100 4 = bytesOfWord 0xF0881077#32
      ∧ decode 0xF0881077#32 = .reservedEncoding)
    ∧ (fetchable (s8.withFetchWord 32 0x0000006F) = true
      ∧ memReadBytes p3 (s8.withFetchWord 32 0x0000006F).mem 0x100 4 = bytesOfWord 0x0000006F#32
      ∧ decode 0x0000006F#32 = .outsideSubset) := by decide +kernel

/-- A guest with the machine timer interrupt pending and enabled. -/
def sTimer : State := { sGuest with mip := 0x80#64, mie := 0x80#64 }

/-- The timer interrupt pending and enabled below machine mode, the same masked, a `pc` of 2, and a `pc` where no region is. -/
theorem test_witness_InterruptsAndFetchExceptionsComeFirst :
    (sTimer.cfg.wf = true ∧ [11, 3, 7, 9, 1, 5].getD 2 0 = 7 ∧ sTimer.priv ≠ .machine ∧ sTimer.mip.getLsbD 7 = true
      ∧ sTimer.mie.getLsbD 7 = true
      ∧ ∀ c ∈ [11, 3, 7, 9, 1, 5].take 2, sTimer.mip.getLsbD c = false ∨ sTimer.mie.getLsbD c = false)
    ∧ (s8.priv = .machine ∧ s8.mstatus.mie = false ∧ s8.mip &&& s8.mie = 0#64 ∧ pendingInterrupt { s8 with pc := 2#64 } = none)
    ∧ ({ s8 with pc := 2#64 }.cfg.wf = true ∧ { s8 with pc := 2#64 }.pc.toNat % 4 ≠ 0)
    ∧ ∃ a ∈ byteAddrs { p3 with regions := [] } 0x100 4,
      byteVerdict { s8 with cfg := { p3 with regions := [] } } .fetch a ≠ .permitted := by decide +kernel

/-- P3 with big-endian data accesses in machine mode. -/
def sBig : State := { sPlain with mstatus := { sPlain.mstatus with mbe := true } }

/-- P3 whose memory has side effects and whose reserved TSS values are refused. -/
def sStrict : State :=
  { withX sPlain 11 0x80000000 with
    cfg := { p3 with tssPolicy := .refuse, regions := [{ Region.everywhere with idempotent := false }] }
    unsynced := [0x103] }

theorem test_witness_StopsByName :
    (tileMemoryIllegal sStrict 32 10#5 11#5 = false ∧ tssReserved sStrict.cfg (sStrict.readX 11#5) 32 = true)
    ∧ (tileMemoryIllegal sBig 32 10#5 11#5 = false ∧ tssDecode p3 (sBig.readX 11#5) 32 = .subset ⟨0, false, 0⟩
      ∧ dataBigEndian sBig = true)
    ∧ (tileMemoryIllegal sStrict 32 10#5 12#5 = false ∧ tssDecode sStrict.cfg (sStrict.readX 12#5) 32 = .subset ⟨0, false, 0⟩
      ∧ dataBigEndian sStrict = false ∧ 0 < tn sStrict 32
      ∧ touchesNonIdempotent sStrict .load (elemAddr sStrict 10#5 32 0) 4 = true)
    ∧ (moveIllegal sStrict 8#5 11#5 = false ∧ tssReserved sStrict.cfg (sStrict.readX 11#5) (sew sStrict.vtype) = true)
    ∧ (xregsExist p3 [9#5, 0#5] = true ∧ csrOfNumber 0xC00#12 = none)
    ∧ (sStrict.cfg.wf = true ∧ pendingInterrupt sStrict = none ∧ sStrict.pc.toNat % 4 = 0
      ∧ (∀ a ∈ byteAddrs sStrict.cfg 0x100 4, byteVerdict sStrict .fetch a = .permitted)
      ∧ ∃ a ∈ byteAddrs sStrict.cfg 0x100 4, a ∈ sStrict.unsynced)
    ∧ { p3 with lgTe := 1 }.wf = false := by decide +kernel

theorem test_witness_ResetMeetsInvariant : Config.p0.wf = true ∧ p3.wf = true := by decide

/-- Whether an outcome is a next state. -/
def isNext : Result → Bool
  | .next _ => true
  | .fault _ => false
  | .refused _ => false

theorem next_of_isNext {o : Result} (h : isNext o = true) : ∃ t, o = .next t := by
  cases o with
  | next t => exact ⟨t, rfl⟩
  | fault r => cases h
  | refused r => cases h

theorem test_witness_StepKeepsInvariant : (s8.withFetchWord 32 0xF68800F7).Inv
    ∧ ∃ t, step (s8.withFetchWord 32 0xF68800F7) = .next t :=
  ⟨inv_of_check (by decide +kernel), next_of_isNext (by decide +kernel)⟩

theorem test_witness_ResetMode : 255 < p3.tileBytes ∧ ¬ 256 < p3.tileBytes := by decide

/-- The largest code and trap value, in machine mode and below it. -/
theorem test_witness_TrapEntry : s8.Inv ∧ sGuest.Inv ∧ (63 < 64) ∧ (0xFFFFFFFFFFFFFFFF#64).toNat < 2 ^ p3.xlenBits
    ∧ sGuest.priv ≠ .machine :=
  ⟨inv_of_check (by decide +kernel), inv_of_check (by decide +kernel), by decide, by decide, by decide⟩

/-- Bit 2, illegal-instruction, delegated to HS-mode and on to the guest. -/
theorem test_witness_ExceptionDelegation :
    (s8.priv = .machine ∧ { s8 with priv := .user }.medeleg.getLsbD 2 = false)
    ∧ (sGuest.priv ≠ .machine ∧ sGuest.cfg.hasS = true ∧ { sGuest with medeleg := 4#64 }.medeleg.getLsbD 2 = true)
    ∧ (sGuest.hedeleg.getLsbD 2 = false ∧ { sGuest with hedeleg := 4#64 }.hedeleg.getLsbD 2 = true)
    ∧ sGuest.cfg.hasH = true ∧ sGuest.virt = true ∧ s8.virt = false := by decide +kernel

theorem test_witness_TrapThenReturnResumes : s8.Inv ∧ sGuest.Inv ∧ sGuest.priv ≠ .machine ∧ sGuest.virt = true :=
  ⟨inv_of_check (by decide +kernel), inv_of_check (by decide +kernel), by decide, by decide⟩

/-- VS Off in `mstatus`, and in `vsstatus` with V = 1. -/
theorem test_witness_VsOffTraps : (Instr.vtdiscard).isZvm = true
    ∧ vsOff { s8 with mstatus := { s8.mstatus with vs := .off } } = true
    ∧ vsOff { sGuest with vsstatus := { sGuest.vsstatus with vs := .off } } = true := by decide +kernel

theorem test_witness_MsOffTraps : (Instr.vtdiscard).usesTiles = true
    ∧ { s8 with mstatus := { s8.mstatus with ms := .off } }.mstatus.ms = .off
    ∧ sGuest.virt = true ∧ { sGuest with vsstatus := { sGuest.vsstatus with ms := .off } }.vsstatus.ms = .off := by decide +kernel

/-- VLMAX is 32 for `vtype` 0xC0 of P3: the AVLs 32, 33, 63 and 64, and `vill`. -/
theorem test_witness_SetVlRule : vlmax p3 s8.vtype = 32 ∧ s8.vtype.vill = false ∧ illegalVtype.vill = true
    ∧ (32 ≤ vlmax p3 s8.vtype) ∧ (vlmax p3 s8.vtype < 33 ∧ 63 < 2 * vlmax p3 s8.vtype) ∧ 2 * vlmax p3 s8.vtype ≤ 64
    ∧ vlmax p3 { s8.vtype with vma := false } = vlmax p3 s8.vtype := by decide +kernel

/-- A reserved bit, SEW above ELEN, the reserved `vlmul`, `altfmt` at SEW = 8 and without its extension, an unsupported fraction;
then supported values with `altfmt` at SEW = 16, and with LMUL = 1/2 and 1/8. -/
theorem test_witness_VsetvlVtypeRule : p3.wf = true ∧ (0x200#64).getLsbD 9 = true ∧ (9 ≠ p3.altfmtBit)
    ∧ p3.elenBits < 8 * 2 ^ (0x20 / 8 % 8) ∧ 0x04 % 8 = 4 ∧ (0xDB < 256 ∧ 8 * 2 ^ (0xDB / 8 % 8) ≤ p3.elenBits ∧ 0xDB % 8 < 4)
    ∧ (0x100#64).getLsbD p3.altfmtBit = true ∧ (0x100#64).toNat / 8 % 8 ≠ 1
    ∧ { p3 with ext := { p3.ext with zvm32a16f := false } }.ext.zvm32a16f = false
    ∧ (p3.elenBits < 8 * 2 ^ (0x1F / 8 % 8) * 2 ^ (8 - 0x1F % 8) ∧ 4 < 0x1F % 8
      ∧ (BitVec.ofNat 3 (0x1F / 8 % 8), BitVec.ofNat 3 (0x1F % 8)) ∉ p3.moreFractional)
    ∧ (0x1C8 / 8 % 8 = 1 ∧ p3.ext.zvm32a16f = true ∧ p3.altfmtBit = 8)
    ∧ (8 * 2 ^ (0x17 / 8 % 8) * 2 ^ (8 - 0x17 % 8) ≤ p3.elenBits ∧ 8 * 2 ^ (0x05 / 8 % 8) * 2 ^ (8 - 0x05 % 8) ≤ p3.elenBits) := by
  decide +kernel

theorem test_witness_VsetResults : s8.cfg.wf = true ∧ WidthInv s8 ∧ vsOff s8 = false
    ∧ xregsExist s8.cfg [31#5, 0#5, 1#5] = true :=
  ⟨by decide, test_states_inv.1.width, by decide +kernel⟩

theorem test_witness_MsetmtypeResults : s8.cfg.wf = true ∧ vsOff s8 = false ∧ xregsExist s8.cfg [10#5, 11#5] = true
    ∧ (0x190E3#64).toNat % 4 ≠ 0 ∧ (0x190E0#64).toNat % 4 = 0 ∧ twidenOf p3 3#2 = some 4 ∧ twidenOf p3 1#2 = some 1 := by
  decide +kernel

theorem test_witness_ConfiguredGroupHoldsTileRow : p3.wf = true ∧ sew s64.vtype ≤ p3.elenBits
    ∧ (matrixConfigure p3 1 s64.vtype s64.mtype).1.vill = false ∧ (matrixConfigure p3 2 s64.vtype s64.mtype).1.vill = true := by
  decide +kernel

/-- Both branches of `msettn`. -/
theorem test_witness_MsettnResult : (WidthInv s8 ∧ WidthInv sPlain) ∧ s8.cfg.wf = true ∧ vsOff s8 = false ∧ xregsExist s8.cfg [0#5, 0#5] = true
    ∧ twidenOf s8.cfg s8.mtype.mtwiden = some 4 ∧ vsOff sPlain = false ∧ xregsExist sPlain.cfg [6#5, 5#5] = true
    ∧ twidenOf sPlain.cfg sPlain.mtype.mtwiden = none ∧ { p3 with msettnX0Special := true }.msettnX0Special = true :=
  ⟨⟨test_states_inv.1.width, test_states_inv.2.2.2.2.2.1.width⟩, by decide +kernel⟩

/-- Both branches of `msettm` and `msettk`. -/
theorem test_witness_MsettmMsettkResults : s8.cfg.wf = true ∧ vsOff s8 = false ∧ xregsExist s8.cfg [0#5, 0#5] = true
    ∧ twidenOf s8.cfg s8.mtype.mtwiden = some 4 ∧ vsOff sPlain = false ∧ xregsExist sPlain.cfg [6#5, 5#5] = true
    ∧ twidenOf sPlain.cfg sPlain.mtype.mtwiden = none := by decide +kernel

/-- The last byte of the tile state is in element (3,3) of mt12 at width 32. -/
theorem test_witness_ElementsPartitionTileState : p3.wf = true ∧ 255 < p3.tileBytes ∧ ValidElement p3 32 12 3 3
    ∧ InElement p3 32 12 3 3 255 :=
  ⟨by decide, by decide, ⟨by decide, by decide, by decide, by decide⟩, ⟨by decide, by decide⟩⟩

theorem test_witness_TileOccupiesItsSlabs : p3.wf = true ∧ ValidElement p3 64 14 1 1 ∧ InElement p3 64 14 1 1 248 :=
  ⟨by decide, ⟨by decide, by decide, by decide, by decide⟩, ⟨by decide, by decide⟩⟩

/-- The last index and the one past it, the last pattern that names something and the one past it, a bit above them, each policy. -/
theorem test_witness_TssNamesSubset : (1 < 2 ^ (p3.xlenBits - 31)) ∧ p3.wf = true ∧ (15 < 16) ∧ (1 < 2 ∧ 3 < ete p3 32) ∧ ete p3 32 ≤ 4 ∧ (2 ≤ 2) ∧ (2 < 8)
    ∧ p3.tssPolicy = .wrap ∧ { p3 with tssPolicy := .illegal }.tssPolicy = .illegal
    ∧ { p3 with tssPolicy := .refuse }.tssPolicy = .refuse := by decide +kernel

/-- `sPlain` with an address in `x10` and mt4's column 1 in `x11`. -/
def sAccess : State := withX (withX sPlain 10 0x2000) 11 0x21000001

/-- `sAccess` in supervisor mode, its third word paged out. -/
def sPaged : State := { sAccess with cfg := p3Paged, priv := .supervisor }

theorem test_access_idempotent : ∀ i < 3, touchesNonIdempotent sAccess .load (elemAddr sAccess 10#5 32 i) (32 / 8) = false
    ∧ touchesNonIdempotent sAccess .store (elemAddr sAccess 10#5 32 i) (32 / 8) = false
    ∧ accessException sAccess .load (elemAddr sAccess 10#5 32 i) (32 / 8) = none
    ∧ accessException sAccess .store (elemAddr sAccess 10#5 32 i) (32 / 8) = none := by decide +kernel

theorem test_paged_idempotent : ∀ i < 3, touchesNonIdempotent sPaged .load (elemAddr sPaged 10#5 32 i) (32 / 8) = false
    ∧ touchesNonIdempotent sPaged .store (elemAddr sPaged 10#5 32 i) (32 / 8) = false := by decide +kernel

theorem test_access_length : tn sAccess 32 = 3 ∧ tn sPaged 32 = 3 ∧ sAccess.vstart = 0 ∧ sPaged.vstart = 0 := by decide +kernel

theorem test_witness_TileLoadResult : sAccess.Inv ∧ (Instr.vlte32 10#5 11#5, 32) ∈ tileLoads 10#5 11#5
    ∧ TileAccessReady sAccess .load 10#5 11#5 32 ⟨4, true, 1⟩
    ∧ ∀ i, sAccess.vstart ≤ i → i < tn sAccess 32 → accessException sAccess .load (elemAddr sAccess 10#5 32 i) (32 / 8) = none :=
  ⟨inv_of_check (by decide +kernel), by decide,
    ⟨by decide +kernel, by decide +kernel, by decide +kernel, by decide +kernel, by decide +kernel, by decide +kernel,
      by decide +kernel, fun i _ h => (test_access_idempotent i (test_access_length.1 ▸ h)).1⟩,
    fun i _ h => (test_access_idempotent i (test_access_length.1 ▸ h)).2.2.1⟩

theorem test_witness_TileStoreResult : sAccess.Inv ∧ (Instr.vste32 10#5 11#5, 32) ∈ tileStores 10#5 11#5
    ∧ TileAccessReady sAccess .store 10#5 11#5 32 ⟨4, true, 1⟩
    ∧ ∀ i, sAccess.vstart ≤ i → i < tn sAccess 32 → accessException sAccess .store (elemAddr sAccess 10#5 32 i) (32 / 8) = none :=
  ⟨inv_of_check (by decide +kernel), by decide,
    ⟨by decide +kernel, by decide +kernel, by decide +kernel, by decide +kernel, by decide +kernel, by decide +kernel,
      by decide +kernel, fun i _ h => (test_access_idempotent i (test_access_length.1 ▸ h)).2.1⟩,
    fun i _ h => (test_access_idempotent i (test_access_length.1 ▸ h)).2.2.2⟩

/-- Element 2 is the lowest that raises an exception. -/
theorem test_witness_TileLoadTrapsAtElement : sPaged.Inv ∧ (Instr.vlte32 10#5 11#5, 32) ∈ tileLoads 10#5 11#5
    ∧ TileAccessReady sPaged .load 10#5 11#5 32 ⟨4, true, 1⟩ ∧ sPaged.vstart ≤ 2 ∧ 2 < tn sPaged 32
    ∧ (∀ j < 2, accessException sPaged .load (elemAddr sPaged 10#5 32 j) (32 / 8) = none)
    ∧ accessException sPaged .load (elemAddr sPaged 10#5 32 2) (32 / 8) = some (.loadPageFault, 0x2008) :=
  ⟨inv_of_check (by decide +kernel), by decide,
    ⟨by decide +kernel, by decide +kernel, by decide +kernel, by decide +kernel, by decide +kernel, by decide +kernel,
      by decide +kernel, fun i _ h => (test_paged_idempotent i (test_access_length.2.1 ▸ h)).1⟩,
    by decide +kernel, by decide +kernel, by decide +kernel, by decide +kernel⟩

theorem test_witness_TileStoreTrapsAtElement : sPaged.Inv ∧ (Instr.vste32 10#5 11#5, 32) ∈ tileStores 10#5 11#5
    ∧ TileAccessReady sPaged .store 10#5 11#5 32 ⟨4, true, 1⟩ ∧ sPaged.vstart ≤ 2 ∧ 2 < tn sPaged 32
    ∧ (∀ j < 2, accessException sPaged .store (elemAddr sPaged 10#5 32 j) (32 / 8) = none)
    ∧ accessException sPaged .store (elemAddr sPaged 10#5 32 2) (32 / 8) = some (.storePageFault, 0x2008) :=
  ⟨inv_of_check (by decide +kernel), by decide,
    ⟨by decide +kernel, by decide +kernel, by decide +kernel, by decide +kernel, by decide +kernel, by decide +kernel,
      by decide +kernel, fun i _ h => (test_paged_idempotent i (test_access_length.2.1 ▸ h)).2⟩,
    by decide +kernel, by decide +kernel, by decide +kernel, by decide +kernel⟩

/-- `vstart` at the length, and `vl` = 0. -/
theorem test_witness_EmptyBodyTouchesNoMemory :
    (tn { sPaged with vstart := 3 } 32 ≤ 3 ∧ tileMemoryIllegal { sPaged with vstart := 3 } 32 10#5 11#5 = false
      ∧ dataBigEndian sPaged = false ∧ tssDecode p3Paged (sPaged.readX 11#5) 32 = .subset ⟨4, true, 1⟩)
    ∧ tn { sPaged with vl := 0 } 32 ≤ 0 := by decide +kernel

theorem test_witness_TileAccessChecks : vsOff { s8 with mstatus := { s8.mstatus with vs := .off } } = true
    ∧ msOff { s8 with mstatus := { s8.mstatus with ms := .off } } = true ∧ { s8 with vtype := illegalVtype }.vtype.vill = true
    ∧ { p3 with elen := .e32 }.elenBits < 64 ∧ xregsExist { p3 with nxreg := .e16 } [10#5, 16#5] = false
    ∧ { p3 with tssPolicy := .illegal }.tssPolicy = .illegal ∧ tssReserved p3 4#64 32 = true := by decide +kernel

/-- Tail elements exist (`vl` = 3 of 32), an odd group number is allowed with LMUL = 1. -/
theorem test_witness_MoveTileToVector : s8.Inv ∧ vsOff s8 = false ∧ msOff s8 = false ∧ s8.vtype.vill = false
    ∧ (31#5).toNat % lmulRegs s8.vtype = 0 ∧ xregsExist s8.cfg [31#5] = true
    ∧ tssDecode s8.cfg (s8.readX 31#5) (sew s8.vtype) = .subset ⟨0, false, 0⟩ ∧ tn s8 8 < vlmax s8.cfg s8.vtype :=
  ⟨inv_of_check (by decide +kernel), by decide +kernel⟩

theorem test_witness_MoveVectorToTile : { s8 with vstart := 2 }.Inv ∧ vsOff s8 = false ∧ msOff s8 = false
    ∧ s8.vtype.vill = false ∧ (30#5).toNat % lmulRegs s8.vtype = 0 ∧ xregsExist s8.cfg [0#5] = true
    ∧ tssDecode s8.cfg (s8.readX 0#5) (sew s8.vtype) = .subset ⟨0, false, 0⟩ :=
  ⟨inv_of_check (by decide +kernel), by decide +kernel⟩

theorem test_witness_MoveChecks : (5#5).toNat % lmulRegs (start3 0xD1 0 8).vtype ≠ 0
    ∧ xregsExist { p3 with nxreg := .e16 } [16#5] = false ∧ tssReserved p3 (0x02000000#64) (sew s8.vtype) = true := by decide +kernel

theorem test_witness_VtzeroResult : s8.Inv ∧ vsOff s8 = false ∧ msOff s8 = false ∧ s8.vtype.vill = false ∧ s8.vstart = 0
    ∧ twidenOf s8.cfg s8.mtype.mtwiden = some 4 ∧ (12#4).toNat % tileStep (sew s8.vtype * 4) = 0
    ∧ s8.mtype.tm ≠ 0#14 ∧ tn s8 (sew s8.vtype * 4) ≠ 0 :=
  ⟨inv_of_check (by decide +kernel), by decide +kernel⟩

theorem test_witness_VtzeroChecks : { s8 with vstart := 1 }.vstart ≠ 0 ∧ sPlain.mtype.mtwiden = 0#2
    ∧ twidenOf s8.cfg s8.mtype.mtwiden = some 4 ∧ (5#4).toNat % tileStep (sew s8.vtype * 4) ≠ 0 := by decide +kernel

theorem test_witness_VtdiscardResult : vsOff sPlain = false ∧ msOff sPlain = false ∧ sPlain.vtype.vill = false
    ∧ msOff { sGuest with vsstatus := { sGuest.vsstatus with ms := .off } } = true := by decide +kernel

/-- `v10` with KMAX = 4, an odd tile, `frm` = 5, FS Off, and a SEW without a floating-point combination. -/
theorem test_witness_MatrixChecks : (Instr.mmUU 0#4 8#5 16#5, MatrixForm.int8 false false) ∈ matrixInstrs 0#4 8#5 16#5
    ∧ twidenOf s8.cfg s8.mtype.mtwiden = some 4 ∧ ¬ SpecifierAllowed s8 10#5
    ∧ ¬ DefinedCombination p3 .ieee 8 4 false ∧ (2#4).toNat % tileStep 32 ≠ 0
    ∧ fsOff { s32 with mstatus := { s32.mstatus with fs := .off } } = true ∧ (5 ≤ (5#3).toNat)
    ∧ sPlain.mtype.mtwiden = 0#2 ∧ sPlain.cfg.mmUnconfigured = .illegal :=
  ⟨by decide, by decide +kernel, fun h => absurd h.2 (by decide +kernel), by simp [DefinedCombination], by decide, by decide +kernel,
    by decide, by decide +kernel, by decide +kernel⟩

/-- The operand checks of the matrix instructions pass in `s8` for the odd specifiers too. -/
theorem test_matrix_s8 (f : Bool) : MatrixChecksPass s8 f 32 12#4 9#5 17#5 ∧ NotEmpty s8 32 :=
  ⟨⟨⟨by decide +kernel, by decide +kernel, fun _ => by decide +kernel, by decide +kernel, by decide +kernel,
    ⟨by decide +kernel, by decide +kernel⟩, ⟨by decide +kernel, by decide +kernel⟩, fun _ => by decide +kernel⟩, by decide⟩,
    ⟨by decide +kernel, by decide +kernel, by decide +kernel⟩⟩

/-- `tk` = 0, and the unconfigured unit under the policy `nop`. -/
theorem test_witness_ZeroSizeMatrixOperation :
    (∃ s, s = { s8 with mtype := { s8.mtype with tk := 0#3 } } ∧ twidenOf s.cfg s.mtype.mtwiden = some 4
      ∧ DefinedCombination s.cfg .packed (sew s.vtype) 4 s.vtype.altfmt ∧ MatrixChecksPass s true 32 0#4 8#5 16#5
      ∧ s.mtype.tk = 0#3)
    ∧ ∃ s, s = { sPlain with cfg := { p3 with mmUnconfigured := .nop } } ∧ s.mtype.mtwiden = 0#2
      ∧ s.cfg.mmUnconfigured = .nop ∧ MatrixSourcesPass s true 8#5 16#5
      ∧ DefinedCombination s.cfg .packed (sew s.vtype) 4 s.vtype.altfmt :=
  ⟨⟨_, rfl, by decide +kernel, ⟨by decide +kernel, by decide, by decide +kernel, by decide +kernel⟩,
    ⟨⟨by decide +kernel, by decide +kernel, fun _ => by decide +kernel, by decide +kernel, by decide +kernel,
      ⟨by decide +kernel, by decide +kernel⟩, ⟨by decide +kernel, by decide +kernel⟩, fun _ => by decide +kernel⟩, by decide⟩,
    by decide⟩, ⟨_, rfl, by decide +kernel, by decide +kernel,
    ⟨by decide +kernel, by decide +kernel, fun _ => by decide +kernel, by decide +kernel, by decide +kernel,
      ⟨by decide +kernel, by decide +kernel⟩, ⟨by decide +kernel, by decide +kernel⟩, fun _ => by decide +kernel⟩,
    by decide +kernel, by decide, by decide +kernel, by decide +kernel⟩⟩

theorem test_witness_IntegerMatrixAccumulates : s8.Inv ∧ twidenOf s8.cfg s8.mtype.mtwiden = some 4 ∧ sew s8.vtype = 8
    ∧ s8.vtype.altfmt = false ∧ s8.cfg.ext.zvm32a8i = true ∧ MatrixChecksPass s8 false 32 12#4 9#5 17#5 ∧ NotEmpty s8 32 :=
  ⟨inv_of_check (by decide +kernel), by decide +kernel, by decide +kernel, by decide +kernel, by decide +kernel, test_matrix_s8 false⟩

theorem test_matrix_s32 : MatrixChecksPass s32 true 32 4#4 0#5 7#5 ∧ NotEmpty s32 32 :=
  ⟨⟨⟨by decide +kernel, by decide +kernel, fun _ => by decide +kernel, by decide +kernel, by decide +kernel,
    ⟨by decide +kernel, by decide +kernel⟩, ⟨by decide +kernel, by decide +kernel⟩, fun _ => by decide +kernel⟩, by decide⟩,
    ⟨by decide +kernel, by decide +kernel, by decide +kernel⟩⟩

theorem test_matrix_s64 : MatrixChecksPass s64 true 64 14#4 0#5 31#5 ∧ NotEmpty s64 64 :=
  ⟨⟨⟨by decide +kernel, by decide +kernel, fun _ => by decide +kernel, by decide +kernel, by decide +kernel,
    ⟨by decide +kernel, by decide +kernel⟩, ⟨by decide +kernel, by decide +kernel⟩, fun _ => by decide +kernel⟩, by decide⟩,
    ⟨by decide +kernel, by decide +kernel, by decide +kernel⟩⟩

/-- Both formats. -/
theorem test_witness_IeeeMatrixAccumulates :
    (s32.Inv ∧ s32.cfg.ext.zvm32a32f = true ∧ twidenOf s32.cfg s32.mtype.mtwiden = some 1 ∧ sew s32.vtype = 32
      ∧ s32.vtype.altfmt = false ∧ MatrixChecksPass s32 true 32 4#4 0#5 7#5 ∧ NotEmpty s32 32)
    ∧ (s64.Inv ∧ s64.cfg.ext.zvm64a64f = true ∧ twidenOf s64.cfg s64.mtype.mtwiden = some 1 ∧ sew s64.vtype = 64
      ∧ s64.vtype.altfmt = false ∧ MatrixChecksPass s64 true 64 14#4 0#5 31#5 ∧ NotEmpty s64 64) :=
  ⟨⟨inv_of_check (by decide +kernel), by decide +kernel, by decide +kernel, by decide +kernel, by decide +kernel, test_matrix_s32⟩,
    ⟨inv_of_check (by decide +kernel), by decide +kernel, by decide +kernel, by decide +kernel, by decide +kernel,
      test_matrix_s64⟩⟩

theorem test_matrix_s16 (n : Nat) (h : n < 2) : MatrixChecksPass (s16 n) true 32 4#4 0#5 9#5 ∧ NotEmpty (s16 n) 32 := by
  interval_cases n <;>
  exact ⟨⟨⟨by decide +kernel, by decide +kernel, fun _ => by decide +kernel, by decide +kernel, by decide +kernel,
    ⟨by decide +kernel, by decide +kernel⟩, ⟨by decide +kernel, by decide +kernel⟩, fun _ => by decide +kernel⟩, by decide⟩,
    ⟨by decide +kernel, by decide +kernel, by decide +kernel⟩⟩

/-- FP16, BF16 and an OCP FP8 form. -/
theorem test_witness_BulkMatrixAccumulates :
    ((s16 0).Inv ∧ (s16 1).Inv ∧ (∀ n < 2, twidenOf p3 (s16 n).mtype.mtwiden = some 2 ∧ sew (s16 n).vtype * 2 = 32)
      ∧ (s16 0).vtype.altfmt = false ∧ (s16 1).vtype.altfmt = true ∧ p3.ext.zvm32a16f = true
      ∧ ∀ n < 2, MatrixChecksPass (s16 n) true 32 4#4 0#5 9#5 ∧ NotEmpty (s16 n) 32)
    ∧ (s8.Inv ∧ twidenOf s8.cfg s8.mtype.mtwiden = some 4 ∧ sew s8.vtype * 4 = 32 ∧ s8.vtype.altfmt = false
      ∧ p3.ext.zvm32a8f = true ∧ MatrixChecksPass s8 true 32 12#4 9#5 17#5 ∧ NotEmpty s8 32) :=
  ⟨⟨inv_of_check (by decide +kernel), inv_of_check (by decide +kernel), by decide +kernel, by decide +kernel, by decide +kernel,
      by decide, test_matrix_s16⟩,
    ⟨inv_of_check (by decide +kernel), by decide +kernel, by decide +kernel, by decide +kernel, by decide, test_matrix_s8 true⟩⟩

theorem test_witness_PackedMatrixAccumulates : s8.Inv ∧ twidenOf s8.cfg s8.mtype.mtwiden = some 4 ∧ sew s8.vtype = 8
    ∧ s8.vtype.altfmt = false ∧ s8.cfg.ext.zvm32a4f = true ∧ MatrixChecksPass s8 true 32 12#4 9#5 17#5 ∧ NotEmpty s8 32 :=
  ⟨inv_of_check (by decide +kernel), by decide +kernel, by decide +kernel, by decide +kernel, by decide +kernel, test_matrix_s8 true⟩

theorem test_witness_MatrixFlags : (Instr.mmFF 4#4 0#5 8#5).isFloatMatrix = true ∧ (Instr.mmSS 4#4 8#5 16#5).isIntMatrix = true
    ∧ (∃ t, exec (.mmFF 4#4 0#5 8#5) s32 = .next t) ∧ ∃ t, exec (.mmSS 4#4 8#5 16#5) s8 = .next t :=
  ⟨by decide, by decide, next_of_isNext (by decide +kernel), next_of_isNext (by decide +kernel)⟩

/-- A signalling and a quiet NaN, infinity and zero, and two infinities of opposite signs. -/
theorem test_witness_IeeeInvalidOperations : fpDecode .fp32 0x7F800001 = .nan true ∧ fpDecode .fp32 0x7FC00000 = .nan false
    ∧ (∃ e, fpDecode .fp32 0 = .finite false 0 e) ∧ fpDecode .fp32 0x7F800000 = .inf false
    ∧ fpDecode .fp32 0xFF800000 = .inf true :=
  ⟨by decide +kernel, by decide +kernel, ⟨_, rfl⟩, by decide +kernel, by decide +kernel⟩

/-- 1 + 2^-23 squared and added to itself, which are inexact and exact; and an exact zero sum. -/
theorem test_witness_IeeeRounding : FpFormat.fp32 ∈ [FpFormat.fp32, .fp64] ∧ ((4#3).toNat < 5)
    ∧ fpDecode .fp32 0x3F800001 = .finite false 0x800001 (-23) ∧ fpDecode .fp32 0xBF800001 = .finite true 0x800001 (-23)
    ∧ fpDecode .fp64 0x7FEFFFFFFFFFFFFF = .finite false 0x1FFFFFFFFFFFFF 971
    ∧ signedValue false 0x800001 (-23) + signedValue false 0x800001 (-23) ≠ 0
    ∧ signedValue false 0x800001 (-23) + signedValue true 0x800001 (-23) = 0 :=
  ⟨by decide, by decide, by decide +kernel, by decide +kernel, by decide +kernel, by norm_num [signedValue], by norm_num [signedValue]⟩

/-- The largest shift amounts of both widths. -/
theorem test_witness_HostArithmetic : xregsExist p3 [31#5, 0#5, 30#5] = true ∧ (63#6).toNat < p3.xlenBits
    ∧ (31#6).toNat < { p3 with xlen := .rv32 }.xlenBits := by decide +kernel

theorem test_witness_ReservedShiftsAndRegisters : { p3 with xlen := .rv32 }.xlenBits ≤ (32#6).toNat
    ∧ { p3 with nxreg := .e16 }.nxregs ≤ (16#5).toNat ∧ (16#5) ∈ (Instr.msetmtype 1#5 16#5).xregs := by decide +kernel

/-- Equal registers; then a taken branch to an aligned and to a misaligned target. -/
theorem test_witness_BranchResult : xregsExist s8.cfg [6#5, 5#5] = true ∧ s8.readX 6#5 = s8.readX 5#5
    ∧ (withX s8 6 7).readX 6#5 ≠ (withX s8 6 7).readX 5#5
    ∧ ((s8.pc.toNat : Int) + (0x1FF4#13).toInt) % 4 = 0 ∧ ((s8.pc.toNat : Int) + (0x1FF2#13).toInt) % 4 ≠ 0 := by decide +kernel

/-- `csrrw`, `csrrc` with a source and `csrrsi` of `mtype`; VS Off. -/
theorem test_witness_CsrReadOfMtype : s8.cfg.wf = true ∧ xregsExist s8.cfg [9#5, 5#5] = true
    ∧ vsOff { s8 with mstatus := { s8.mstatus with vs := .off } } = true ∧ vsOff s8 = false
    ∧ (field 0xC2301073#32 0 7 = 0x73#7 ∧ field 0xC2301073#32 20 12 = 0xC23#12 ∧ field 0xC2301073#32 12 3 = 1#3)
    ∧ (field 0xC230B073#32 12 3 = 3#3 ∧ fieldRs1 0xC230B073#32 ≠ 0#5)
    ∧ (field 0xC230E073#32 12 3 = 6#3 ∧ fieldRs1 0xC230E073#32 ≠ 0#5) := by decide +kernel

/-- A read of `vl` and of the three status registers, a write of `vstart`, of `frm` and of `fflags`. -/
theorem test_witness_CsrAccessCompletes : s8.cfg.wf = true ∧ xregsExist s8.cfg [9#5, 5#5] = true
    ∧ (csrOfNumber 0xC20#12 = some .vl ∧ csrAccess s8 .vl (!((0#5 : XReg) == 0#5)) = .granted)
    ∧ (csrOfNumber 0x008#12 = some .vstart ∧ csrAccess s8 .vstart (!((5#5 : XReg) == 0#5)) = .granted)
    ∧ (csrOfNumber 0x002#12 = some .frm ∧ csrAccess s8 .frm (!((5#5 : XReg) == 0#5)) = .granted)
    ∧ (csrOfNumber 0x001#12 = some .fflags ∧ csrAccess s8 .fflags (!((5#5 : XReg) == 0#5)) = .granted)
    ∧ (csrOfNumber 0x300#12 = some .mstatus ∧ csrOfNumber 0x100#12 = some .sstatus ∧ csrAccess s8 .mstatus false = .granted
      ∧ csrTarget s8 .mstatus = .mstatus ∧ csrAccess s8 .sstatus false = .granted ∧ csrTarget s8 .sstatus = .sstatus
      ∧ csrAccess sGuest .sstatus false = .granted ∧ csrTarget sGuest .sstatus = .vsstatus) := by decide +kernel

theorem test_witness_CsrPrivilegeTraps : csrOfNumber 0x100#12 = some .sstatus ∧ csrLevel .sstatus ≠ .user
    ∧ { s8 with priv := .user }.priv = .user ∧ csrOfNumber 0x300#12 = some .mstatus ∧ csrLevel .mstatus = .machine
    ∧ sGuest.priv = .supervisor := by decide +kernel

theorem test_witness_MsOffHidesTileState : msOff { s8 with mstatus := { s8.mstatus with ms := .off } } = true := by decide +kernel

/-- A guest whose `mstatus` fields are Off takes a step. -/
theorem test_witness_OffFieldsStayOff : ∃ s, s = ({ sGuest with mstatus := { sGuest.mstatus with
      ms := .off, vs := .off, fs := .off } }.withFetchWord 32 0x06400293) ∧ ModeInv s ∧ s.virt = true
    ∧ s.mstatus.ms = .off ∧ s.mstatus.vs = .off ∧ s.mstatus.fs = .off ∧ ∃ t, step s = .next t :=
  ⟨_, rfl, (inv_of_check (by decide +kernel)).mode, by decide +kernel, by decide +kernel, by decide +kernel, by decide +kernel,
    next_of_isNext (by decide +kernel)⟩

theorem test_witness_OnlyTileStoresWriteMemory : ∃ t, exec (.vlte32 10#5 11#5) sAccess = .next t :=
  next_of_isNext (by decide +kernel)

end Sys2Proof.Tests
end

section
/-! PROOFS of the statements of 00_scope.md: where the model stops by name, reserved shifts and registers, the LMUL that
`MatrixConfigure` sets, and the floating-point matrix instructions. -/

namespace Sys2Proof.Machine

/-! ### What the shared checks answer when one fails -/

theorem xregsExist_of_mem {c : Config} {rs : List XReg} {r : XReg} (hr : r ∈ rs) (hn : c.nxregs ≤ r.toNat) :
    xregsExist c rs = false :=
  List.all_eq_false.2 ⟨r, hr, by simpa using hn⟩

theorem withConfigChecks_of_missing {s : State} {rs : List XReg} (h : xregsExist s.cfg rs = false) (i : Instr)
    (f : State → State) : withConfigChecks i rs s f = .next (illegal (encode i) s) := by
  simp [withConfigChecks, h]

theorem withTileMemoryChecks_of_illegal {s : State} {w : Nat} {rs1 rs2 : XReg} (h : tileMemoryIllegal s w rs1 rs2 = true)
    (i : Instr) (k : AccessKind) (f : Subset → State → State) :
    withTileMemoryChecks i k w rs1 rs2 s f = .next (illegal (encode i) s) := by
  simp [withTileMemoryChecks, h]

theorem withMoveChecks_of_illegal {s : State} {v : VReg} {rs1 : XReg} (h : moveIllegal s v rs1 = true) (i : Instr)
    (f : Subset → State → State) : withMoveChecks i v rs1 s f = .next (illegal (encode i) s) := by
  simp [withMoveChecks, h]

theorem tileMemoryIllegal_of_missing {s : State} {rs1 rs2 : XReg} (h : xregsExist s.cfg [rs1, rs2] = false) (w : Nat) :
    tileMemoryIllegal s w rs1 rs2 = true := by
  simp [tileMemoryIllegal, h]

theorem moveIllegal_of_missing {s : State} {rs1 : XReg} (h : xregsExist s.cfg [rs1] = false) (v : VReg) :
    moveIllegal s v rs1 = true := by
  simp [moveIllegal, h]

/-! ### Reserved shifts and registers -/

/-- An instruction that names a missing integer register is illegal, whatever else its checks would say (log 60). -/
theorem exec_of_missing_xreg {i : Instr} {s : State} (h : xregsExist s.cfg i.xregs = false) :
    exec i s = .next (illegal (encode i) s) := by
  cases i with
  | vsetvli | vsetivli | vsetvl | msetmtype | msettn | msettm | msettk =>
    simp only [exec, execVsetvli, execVsetivli, execVsetvl, execMsetmtype, execMsettn, execMsettm, execMsettk]
    exact withConfigChecks_of_missing h _ _
  | vlte8 | vlte16 | vlte32 | vlte64 | vste8 | vste16 | vste32 | vste64 =>
    exact withTileMemoryChecks_of_illegal (tileMemoryIllegal_of_missing h _) _ _ _
  | vtmvVT | vtmvTV => exact withMoveChecks_of_illegal (moveIllegal_of_missing h _) _ _
  | addi | slli | add | bne | csrrs =>
    simp only [exec, execAddi, execSlli, execAdd, execBne, execCsrrs]
    exact withXRegs_of_missing h _ _
  | msetmtypei | vtzeroT | vtdiscard | mmFF | p2mmFF | mmE5m2E5m2 | mmE5m2E4m3 | mmE4m3E5m2 | mmE4m3E4m3
  | mmUU | mmSU | mmUS | mmSS => simp [Instr.xregs, xregsExist] at h

/-- A shift amount of XLEN or more is reserved (R281). -/
theorem exec_slli_reserved {s : State} {shamt : BitVec 6} (h : s.cfg.xlenBits ≤ shamt.toNat) (rd rs1 : XReg) :
    exec (.slli rd rs1 shamt) s = .next (illegal (encode (.slli rd rs1 shamt)) s) := by
  simp only [exec, execSlli]
  rcases withXRegs_cases (.slli rd rs1 shamt) [rd, rs1] s _ with hx | hx
  · exact hx
  · exact hx.trans (if_pos h)

/-- Settles O53: the shift amount by `slli`'s own check, the registers by the shared checks of each group of instructions. -/
theorem reservedShiftsAndRegisters : Obligations.ReservedShiftsAndRegisters := fun _ =>
  ⟨fun rd rs1 _ h => exec_slli_reserved h rd rs1, fun _ _ hr hn => exec_of_missing_xreg (xregsExist_of_mem hr hn)⟩

/-! ### Stops by name -/

theorem tssDecode_refuse {c : Config} {v : Word} {w : Nat} (hp : c.tssPolicy = .refuse) (hr : tssReserved c v w = true) :
    tssDecode c v w = .refuse := by
  simp [tssDecode, hp, hr]

section
variable {s : State} {w : Nat} {rs1 rs2 : XReg} (hm : tileMemoryIllegal s w rs1 rs2 = false) (i : Instr) (k : AccessKind)
  (f : Subset → State → State)
include hm

theorem withTileMemoryChecks_reservedTss (ht : tssDecode s.cfg (s.readX rs2) w = .refuse) :
    withTileMemoryChecks i k w rs1 rs2 s f = .refused .reservedTss := by
  simp [withTileMemoryChecks, hm, ht]

theorem withTileMemoryChecks_bigEndian {u : Subset} (ht : tssDecode s.cfg (s.readX rs2) w = .subset u)
    (he : dataBigEndian s = true) : withTileMemoryChecks i k w rs1 rs2 s f = .refused .bigEndianData := by
  simp [withTileMemoryChecks, hm, ht, he]

theorem withTileMemoryChecks_nonIdempotent {u : Subset} (ht : tssDecode s.cfg (s.readX rs2) w = .subset u)
    (he : dataBigEndian s = false) {j : Nat} (hj : j ∈ bodyIndices s w)
    (hn : touchesNonIdempotent s k (elemAddr s rs1 w j) (w / 8) = true) :
    withTileMemoryChecks i k w rs1 rs2 s f = .refused .nonIdempotentMemory := by
  have ha : ((bodyIndices s w).any fun j => touchesNonIdempotent s k (elemAddr s rs1 w j) (w / 8)) = true :=
    List.any_eq_true.2 ⟨j, hj, hn⟩
  simp [withTileMemoryChecks, hm, ht, he, ha]

end

theorem withMoveChecks_reservedTss {s : State} {v : VReg} {rs1 : XReg} (hm : moveIllegal s v rs1 = false)
    (ht : tssDecode s.cfg (s.readX rs1) (sew s.vtype) = .refuse) (i : Instr) (f : Subset → State → State) :
    withMoveChecks i v rs1 s f = .refused .reservedTss := by
  simp [withMoveChecks, hm, ht]

/-- Every tile load is a transfer by loads after the shared checks (R171 to R174). -/
theorem exec_tileLoad {rs1 rs2 : XReg} {p : Instr × Nat} (hp : p ∈ tileLoads rs1 rs2) (s : State) :
    exec p.1 s = withTileMemoryChecks p.1 .load p.2 rs1 rs2 s (tileLoad rs1 p.2) := by
  simp only [tileLoads, List.mem_cons, List.not_mem_nil, or_false] at hp
  rcases hp with rfl | rfl | rfl | rfl <;> rfl

/-- Every tile store is a transfer by stores after the shared checks (R177 to R180). -/
theorem exec_tileStore {rs1 rs2 : XReg} {p : Instr × Nat} (hp : p ∈ tileStores rs1 rs2) (s : State) :
    exec p.1 s = withTileMemoryChecks p.1 .store p.2 rs1 rs2 s (tileStore rs1 p.2) := by
  simp only [tileStores, List.mem_cons, List.not_mem_nil, or_false] at hp
  rcases hp with rfl | rfl | rfl | rfl <;> rfl

theorem not_mem_tileLoads_of_mem_tileStores {rs1 rs2 : XReg} {p : Instr × Nat} (hp : p ∈ tileStores rs1 rs2) :
    p ∉ tileLoads rs1 rs2 := by
  simp only [tileStores, List.mem_cons, List.not_mem_nil, or_false] at hp
  rcases hp with rfl | rfl | rfl | rfl <;> simp [tileLoads]

/-- A tile load or store runs the shared checks for its own kind of access. -/
theorem exec_tileAccess {rs1 rs2 : XReg} {p : Instr × Nat} (hp : p ∈ tileLoads rs1 rs2 ++ tileStores rs1 rs2) (s : State) :
    ∃ f, exec p.1 s
      = withTileMemoryChecks p.1 (if p ∈ tileLoads rs1 rs2 then .load else .store) p.2 rs1 rs2 s f := by
  rcases List.mem_append.1 hp with h | h
  · exact ⟨_, by rw [if_pos h]; exact exec_tileLoad h s⟩
  · exact ⟨_, by rw [if_neg (not_mem_tileLoads_of_mem_tileStores h)]; exact exec_tileStore h s⟩

theorem exec_csrrs_outsideSpec {s : State} {rd rs1 : XReg} {n : BitVec 12} (hx : xregsExist s.cfg [rd, rs1] = true)
    (hn : csrOfNumber n = none) : exec (.csrrs rd n rs1) s = .refused .csrOutsideSpec := by
  simp only [exec, execCsrrs]
  rw [withXRegs_of_exist hx, hn]

/-- An aligned access whose every byte is permitted meets no page or access fault (R75, R79). -/
theorem mapFault_of_permitted {s : State} {k : AccessKind} {a n : Nat} (ha : a % n = 0)
    (h : ∀ b ∈ byteAddrs s.cfg a n, byteVerdict s k b = .permitted) : mapFault s k a n = none := by
  have ht : (byteAddrs s.cfg a n).findSome? (translationFault s k) = none :=
    List.findSome?_eq_none_iff.2 fun b hb => by simp [translationFault, h b hb]
  have hq : (byteAddrs s.cfg a n).findSome? (protectionFault s k) = none :=
    List.findSome?_eq_none_iff.2 fun b hb => by simp [protectionFault, h b hb]
  simp [mapFault, ht, accessFaultAt, alignmentPolicy, ha, hq]

/-- Bytes that a tile store wrote are not fetched (R84, log 34). -/
theorem fetch_storedText {s : State} (ha : s.pc.toNat % 4 = 0)
    (h : ∀ b ∈ byteAddrs s.cfg s.pc.toNat 4, byteVerdict s .fetch b = .permitted)
    (hs : ∃ b ∈ byteAddrs s.cfg s.pc.toNat 4, b ∈ s.unsynced) : fetch s = .refused .storedText := by
  have hu : ((byteAddrs s.cfg s.pc.toNat 4).any fun b => s.unsynced.contains b) = true := by
    simpa [List.any_eq_true] using hs
  simp only [fetch, ha, ne_eq, not_true_eq_false, if_false, mapFault_of_permitted ha h, hu, if_true]

theorem step_of_fetch_refused {s : State} {r : Refusal} (hc : s.cfg.wf = true) (hi : pendingInterrupt s = none)
    (hf : fetch s = .refused r) : step s = .refused r := by
  simp [step, hc, hi, fetchAndExec, hf, finishStep]

/-- Settles O10: each stop is the branch of a shared check, of `csrrs`, of the fetch or of the step that its hypotheses select. -/
theorem stopsByName : Obligations.StopsByName := by
  intro s rs1 rs2
  refine ⟨fun p hp hm => ?_, fun v hm hp hr => ?_, fun rd n => exec_csrrs_outsideSpec, fun hc hi ha h hs => ?_,
    fun hc => by simp [step, hc]⟩
  · obtain ⟨f, hx⟩ := exec_tileAccess hp s
    rw [hx]
    exact ⟨fun hp hr => withTileMemoryChecks_reservedTss hm _ _ _ (tssDecode_refuse hp hr), fun u ht =>
      ⟨withTileMemoryChecks_bigEndian hm _ _ _ ht, fun he i hv hi =>
        withTileMemoryChecks_nonIdempotent hm _ _ _ ht he (mem_bodyIndices.2 ⟨hv, hi⟩)⟩⟩
  · have ht := tssDecode_refuse hp hr
    exact ⟨withMoveChecks_reservedTss hm ht _ _, withMoveChecks_reservedTss hm ht _ _⟩
  · exact step_of_fetch_refused hc hi (fetch_storedText ha h hs)

/-! ### The LMUL that `MatrixConfigure` sets -/

/-- A vector register holds at least four tile edges of bits (R9). -/
theorem four_mul_te_le_vlen {c : Config} (hc : c.wf = true) : 4 * c.te ≤ c.vlen := by
  have h : 2 ^ (c.lgTe + 2) ≤ 2 ^ c.lgVlen := Nat.pow_le_pow_right (by norm_num) (wf_bounds hc).teVlen
  rw [pow_add] at h
  unfold Config.te Config.vlen
  omega

/-- A row of a tile fits in a group of eight vector registers (R9, R34). -/
theorem ete_mul_tew_le {c : Config} (hc : c.wf = true) {tew : Nat} (hw : tew ∈ tileWidths) :
    ete c tew * tew ≤ 8 * c.vlen := by
  have h := four_mul_te_le_vlen hc
  simp only [tileWidths, List.mem_cons, List.not_mem_nil, or_false] at hw
  rcases hw with rfl | rfl | rfl | rfl <;> simp only [ete] <;> norm_num <;> omega

/-- A supported SEW and a TWIDEN within ELEN give a tile element width (R33, R50). -/
theorem sew_mul_twiden_mem {c : Config} {t : VType} {w : Nat} (hw : w ∈ [1, 2, 4]) (hle : sew t * w ≤ c.elenBits) :
    sew t * w ∈ tileWidths := by
  have h64 : c.elenBits ≤ 64 := by rcases elenBits_cases c with h | h <;> omega
  have hs : sew t ≤ c.elenBits := by
    refine le_trans (Nat.le_mul_of_pos_right _ ?_) hle
    simp only [List.mem_cons, List.not_mem_nil, or_false] at hw; omega
  simp only [tileWidths, List.mem_cons, List.not_mem_nil, or_false] at hw ⊢
  rcases sew_cases hs with h | h | h | h <;> rw [h] at hle ⊢ <;> rcases hw with rfl | rfl | rfl <;> omega

theorem le_eight_div_mul {k e n : Nat} (hk : k = 1 ∨ k = 2 ∨ k = 4) (h : e * k ≤ 8 * n) : e ≤ 8 / k * n := by
  rcases hk with rfl | rfl | rfl <;> omega

section
variable {c : Config} (hc : c.wf = true) {t : VType} (hs : sew t ≤ c.elenBits) {w : Nat} (hw : w ∈ [1, 2, 4])
  (hle : sew t * w ≤ c.elenBits)
include hc hs hw hle

/-- TWIDEN tile edges of SEW-wide elements fit in eight vector registers. -/
theorem ete_mul_twiden_le : ete c (sew t * w) * w ≤ 8 * eve c (sew t) := by
  have hrow := ete_mul_tew_le hc (sew_mul_twiden_mem hw hle)
  rw [← (eve_eq_pow hc hs).2] at hrow
  exact Nat.le_of_mul_le_mul_right (by linarith) (sew_pos t)

/-- KMAX tile edges fit in eight vector registers: KMAX*SEW is 32, or KMAX is 1 (R52). -/
theorem ete_mul_kmax_le : ete c (sew t * w) * kmax (sew t) ≤ 8 * eve c (sew t) := by
  have hkmax : kmax (sew t) * sew t = 32 ∨ kmax (sew t) = 1 := by
    rcases sew_cases hs with h | h | h | h <;> simp [h, kmax]
  rcases hkmax with hk | hk
  · have hete := ete_le_te c (sew t * w)
    have hte := four_mul_te_le_vlen hc
    rw [← (eve_eq_pow hc hs).2] at hte
    refine Nat.le_of_mul_le_mul_right ?_ (sew_pos t)
    calc ete c (sew t * w) * kmax (sew t) * sew t = 32 * ete c (sew t * w) := by rw [Nat.mul_assoc, hk, Nat.mul_comm]
      _ ≤ 8 * (eve c (sew t) * sew t) := by omega
      _ = 8 * eve c (sew t) * sew t := (Nat.mul_assoc ..).symm
  · have hpos : 0 < w := by
      simp only [List.mem_cons, List.not_mem_nil, or_false] at hw
      omega
    rw [hk, Nat.mul_one]
    exact (Nat.le_mul_of_pos_right _ hpos).trans (ete_mul_twiden_le hc hs hw hle)

/-- Each of the three bounds that L is the least of holds a tile row in L vector registers (R135). -/
theorem ete_le_matrixLmul_mul_eve : ete c (sew t * w) ≤ matrixLmul c (sew t) w * eve c (sew t) := by
  have hk : ete c (sew t * w) ≤ 8 / kmax (sew t) * eve c (sew t) :=
    le_eight_div_mul (kmax_cases _) (ete_mul_kmax_le hc hs hw hle)
  have ht : ete c (sew t * w) ≤ 8 / w * eve c (sew t) :=
    le_eight_div_mul (by simpa using hw) (ete_mul_twiden_le hc hs hw hle)
  have he : ete c (sew t * w) ≤ (ete c (sew t * w) + eve c (sew t) - 1) / eve c (sew t) * eve c (sew t) := by
    have hpos : 0 < eve c (sew t) := by rw [(eve_eq_pow hc hs).1]; positivity
    have := Nat.lt_div_mul_add (a := ete c (sew t * w) + eve c (sew t) - 1) hpos
    omega
  simp only [matrixLmul, min_mul_of_nonneg _ _ (Nat.zero_le _)]
  exact le_min hk (le_min ht he)

end

/-- Settles O24: the stored code stands for L, an integer LMUL, so VLMAX is L*EVE, which holds a row of the tile. -/
theorem configuredGroupHoldsTileRow : Obligations.ConfiguredGroupHoldsTileRow := by
  intro c t m w hc hs hw
  refine ⟨_, rfl, ?_⟩
  have hl := matrixLmul_mem hc hs hw
  obtain ⟨hcode, hle, -⟩ := lmulEighths_log2 hl (t := (matrixConfigure c w t m).1) rfl
  refine ⟨hle, fun hv => ?_⟩
  have htew : sew t * w ≤ c.elenBits := by
    have : (t.vill || decide (c.elenBits < sew t * w)) = false := hv
    simp only [Bool.or_eq_false_iff, decide_eq_false_iff_not, not_lt] at this
    exact this.2
  rw [vlmax_of_lmul hc (t := (matrixConfigure c w t m).1) hs hcode]
  exact ete_le_matrixLmul_mul_eve hc hs hw htew

end Sys2Proof.Machine
end

section
/-! PROOFS of the floating-point matrix instructions of 00_scope.md: what `matrixAccumulate` leaves beside the tile and the flags,
and the element function of each arithmetic. -/

namespace Sys2Proof.Machine

/-! ### The checks pass -/

/-- Each of the ten matrix instructions is the common skeleton for its form (R210). -/
theorem exec_matrixInstr {mtd : Tile} {vs2 vs1 : VReg} {p : Instr × MatrixForm} (hp : p ∈ matrixInstrs mtd vs2 vs1)
    (s : State) : exec p.1 s = matrixMultiply p.1 p.2 mtd vs2 vs1 s := by
  simp only [matrixInstrs, List.mem_cons, List.not_mem_nil, or_false] at hp
  rcases hp with rfl | rfl | rfl | rfl | rfl | rfl | rfl | rfl | rfl | rfl <;> rfl

/-- When every check passes and no dimension is zero, a matrix instruction accumulates (R214, R217). -/
theorem exec_matrixInstr_accumulate {s : State} {f : MatrixForm} {w : Nat} {mtd : Tile} {vs2 vs1 : VReg} {a : Arith} {i : Instr}
    (hi : (i, f) ∈ matrixInstrs mtd vs2 vs1) (hw : twidenOf s.cfg s.mtype.mtwiden = some w)
    (ha : matrixArith s.cfg f (sew s.vtype) w s.vtype.altfmt = some a)
    (h : MatrixChecksPass s f.isFloat (sew s.vtype * w) mtd vs2 vs1) (hn : NotEmpty s (sew s.vtype * w)) :
    exec i s = .next (matrixAccumulate a (sew s.vtype * w) mtd.toNat vs2 vs1 s) := by
  rw [exec_matrixInstr hi, matrixMultiply_run hw ha h, matrixIsEmpty_of_notEmpty hn]
  rfl

/-! ### What the accumulation leaves beside the tile and the flags -/

theorem matrixAccumulate_msDirtied (a : Arith) (tew t : Nat) (vs2 vs1 : VReg) (s : State) :
    MsDirtied s (matrixAccumulate a tew t vs2 vs1 s) where
  ms := by simp [matrixAccumulate]
  guestMs := by simp [matrixAccumulate, dirtyIf_eq]

theorem matrixAccumulate_fsDirtied {a : Arith} (ha : a.isFloat = true) (tew t : Nat) (vs2 vs1 : VReg) (s : State) :
    FsDirtied s (matrixAccumulate a tew t vs2 vs1 s) where
  fs := by simp [matrixAccumulate, ha]
  guestFs := by simp [matrixAccumulate, ha, dirtyIf_eq]

theorem matrixAccumulate_zvmEnd (a : Arith) (tew t : Nat) (vs2 vs1 : VReg) (s : State) :
    ZvmEnd s (matrixAccumulate a tew t vs2 vs1 s) :=
  completeZvm_end rfl rfl rfl rfl

theorem matrixAccumulate_frame (a : Arith) (tew t : Nat) (vs2 vs1 : VReg) (s : State) :
    matrixAccumulate a tew t vs2 vs1 s = { s.endFromFs (matrixAccumulate a tew t vs2 vs1 s) with
      ts := (matrixAccumulate a tew t vs2 vs1 s).ts, fflags := (matrixAccumulate a tew t vs2 vs1 s).fflags } := rfl

/-! ### A floating-point instruction that accumulates -/

/-- What every floating-point matrix instruction leaves, for an element function that agrees with the model's and answers
encodings of the tile element width (R217, R218). -/
theorem exec_floatMatrix {s : State} (hI : s.Inv) {f : MatrixForm} {w tew : Nat} {mtd : Tile} {vs2 vs1 : VReg} {a : Arith}
    {i : Instr} (hi : (i, f) ∈ matrixInstrs mtd vs2 vs1) (hw : twidenOf s.cfg s.mtype.mtwiden = some w)
    (ha : matrixArith s.cfg f (sew s.vtype) w s.vtype.altfmt = some a) (haf : a.isFloat = true) (htew : sew s.vtype * w = tew)
    (h : MatrixChecksPass s true tew mtd vs2 vs1) (hn : NotEmpty s tew) {elem : Nat → Nat → Nat × BitVec 5}
    (he : ∀ i j, matrixElem s a tew mtd.toNat vs2 vs1 (i, j) = elem i j) (hb : ∀ i j, (elem i j).1 < 256 ^ (tew / 8)) :
    ∃ t, exec i s = .next t ∧ TileResult s t tew mtd.toNat (fun i j => (elem i j).1) ∧
      FlagsResult s t tew (fun i j => (elem i j).2) ∧
      MsDirtied s t ∧ FsDirtied s t ∧ ZvmEnd s t ∧ t = { s.endFromFs t with ts := t.ts, fflags := t.fflags } := by
  subst htew
  obtain ⟨hwidth, htm⟩ := tew_of_inv hI h.vill hw
  have hff : f.isFloat = true := (matrixArith_isFloat ha).symm.trans haf
  have htile := matrixAccumulate_tile hI hwidth mtd.isLt h.tile htm a vs2 vs1
  have hflags := matrixAccumulate_flags haf htm mtd.toNat vs2 vs1
  simp only [he, fun i j => Nat.mod_eq_of_lt (hb i j)] at htile hflags
  exact ⟨_, exec_matrixInstr_accumulate hi hw ha (hff ▸ h) hn, htile, hflags, matrixAccumulate_msDirtied ..,
    matrixAccumulate_fsDirtied haf .., matrixAccumulate_zvmEnd .., matrixAccumulate_frame ..⟩

/-! ### The element functions -/

/-- With a pair to multiply, `Acc_ieee` is the product of the first, then a sum (R219). -/
theorem matrixElem_ieee {s : State} (hk : s.mtype.tk ≠ 0#3) (f : FpFormat) (tew t : Nat) (vs2 vs1 : VReg) (i j : Nat) :
    matrixElem s (.ieee f) tew t vs2 vs1 (i, j) =
      ((numericsAdd s.cfg.numerics f s.frm (leValue (tileElem s tew t i j))
          (numericsMul s.cfg.numerics f s.frm (opnd s vs2 0 i) (opnd s vs1 0 j)).1).1,
        (numericsMul s.cfg.numerics f s.frm (opnd s vs2 0 i) (opnd s vs1 0 j)).2 |||
          (numericsAdd s.cfg.numerics f s.frm (leValue (tileElem s tew t i j))
            (numericsMul s.cfg.numerics f s.frm (opnd s vs2 0 i) (opnd s vs1 0 j)).1).2) := by
  obtain ⟨n, hn⟩ : ∃ n, s.mtype.tk.toNat = n + 1 :=
    Nat.exists_eq_succ_of_ne_zero fun h => hk (BitVec.eq_of_toNat_eq h)
  have hp : ∃ ps, matrixPairs s vs2 vs1 (i, j) = (opnd s vs2 0 i, opnd s vs1 0 j) :: ps :=
    ⟨_, by rw [matrixPairs, hn, List.range_succ_eq_map, List.map_cons]⟩
  obtain ⟨ps, hp⟩ := hp
  simp only [matrixElem, accumulate, hp, accIeee]

/-- `Acc_bulk` is `BulkDot` of the pairs, then a binary32 sum (R220). -/
theorem matrixElem_bulk (s : State) (fa fb : FpFormat) (tew t : Nat) (vs2 vs1 : VReg) (i j : Nat) :
    matrixElem s (.bulk fa fb) tew t vs2 vs1 (i, j) =
      ((numericsAdd s.cfg.numerics .fp32 s.frm (leValue (tileElem s tew t i j))
          (Config.bulkDot fa fb (bulkPairs s vs2 vs1 i j)).1.toNat).1,
        (Config.bulkDot fa fb (bulkPairs s vs2 vs1 i j)).2 |||
          (numericsAdd s.cfg.numerics .fp32 s.frm (leValue (tileElem s tew t i j))
            (Config.bulkDot fa fb (bulkPairs s vs2 vs1 i j)).1.toNat).2) := by
  have hp : (matrixPairs s vs2 vs1 (i, j)).map (fun p => (BitVec.ofNat 16 p.1, BitVec.ofNat 16 p.2))
      = bulkPairs s vs2 vs1 i j := by
    simp [matrixPairs, bulkPairs]
  simp only [matrixElem, accumulate, accBulk, hp]

/-- The element function of `p2mm.f.f` is `BulkDot` of the FP4 pairs, then a binary32 sum (R224). -/
theorem matrixElem_packed (s : State) (tew t : Nat) (vs2 vs1 : VReg) (i j : Nat) :
    matrixElem s .packed tew t vs2 vs1 (i, j) =
      numericsAdd s.cfg.numerics .fp32 s.frm (leValue (tileElem s tew t i j))
        (Config.bulkDot .fp4 .fp4 (packedPairs s vs2 vs1 i j)).1.toNat := by
  have hp : ((matrixPairs s vs2 vs1 (i, j)).flatMap fp4Pairs).map (fun p => (BitVec.ofNat 16 p.1, BitVec.ofNat 16 p.2))
      = packedPairs s vs2 vs1 i j := by
    simp [matrixPairs, packedPairs, List.flatMap_map, List.map_flatMap, fp4Pairs]
  simp only [matrixElem, accumulate, accPacked, hp]

/-! ### The three statements -/

/-- Settles O45: the row of R213 gives `Acc_ieee` in the accumulator's format, whose encodings fill the element. -/
theorem ieeeMatrixAccumulates : Obligations.IeeeMatrixAccumulates := by
  intro s mtd vs2 vs1 f w hI hf htw hsew halt hc hn
  have hi : (Instr.mmFF mtd vs2 vs1, MatrixForm.ieee) ∈ matrixInstrs mtd vs2 vs1 := by simp [matrixInstrs]
  have ha : matrixArith s.cfg .ieee (sew s.vtype) 1 s.vtype.altfmt = some (.ieee f) := by
    rcases hf with ⟨rfl, rfl, hx⟩ | ⟨rfl, rfl, hx⟩ <;> simp [matrixArith, hsew, halt, hx]
  have hbits : 256 ^ (w / 8) = 2 ^ fpBits f := by rcases hf with ⟨rfl, rfl, -⟩ | ⟨rfl, rfl, -⟩ <;> rfl
  exact exec_floatMatrix hI hi htw ha rfl (by rw [hsew, Nat.mul_one]) hc hn
    (fun i j => matrixElem_ieee hn.tk f w mtd.toNat vs2 vs1 i j) (fun _ _ => hbits ▸ numericsAdd_lt ..)

/-- The form of a matrix instruction whose arithmetic is `BulkDot` on the formats `fa` and `fb` at SEW `w` (R213). -/
def bulkForm (fa fb : FpFormat) (w : Nat) : MatrixForm := if w = 16 then .ieee else .fp8 fa fb

/-- The rows of R213 whose arithmetic is `BulkDot` on the elements themselves: the two formats and SEW. -/
def bulkRows : List (FpFormat × FpFormat × Nat) :=
  [(.fp16, .fp16, 16), (.bf16, .bf16, 16), (.e5m2, .e5m2, 8), (.e5m2, .e4m3, 8), (.e4m3, .e5m2, 8), (.e4m3, .e4m3, 8)]

/-- Under each of those rows, its extension and its `altfmt`, the form's arithmetic is `BulkDot` on the row's formats (R213). -/
theorem matrixArith_bulkForm {c : Config} {r : FpFormat × FpFormat × Nat} {alt : Bool} (hr : r ∈ bulkRows)
    (halt : alt = true ↔ r.1 = .bf16) (h16 : r.2.2 = 16 → c.ext.zvm32a16f = true) (h8 : r.2.2 = 8 → c.ext.zvm32a8f = true) :
    matrixArith c (bulkForm r.1 r.2.1 r.2.2) r.2.2 (32 / r.2.2) alt = some (.bulk r.1 r.2.1) := by
  simp only [bulkRows, List.mem_cons, List.not_mem_nil, or_false] at hr
  rcases hr with rfl | rfl | rfl | rfl | rfl | rfl <;> simp_all [bulkForm, matrixArith]

/-- Settles O46: each row of R213 gives `Acc_bulk` on its formats, whose binary32 results fill the element. -/
theorem bulkMatrixAccumulates : Obligations.BulkMatrixAccumulates := by
  intro s mtd vs2 vs1 twiden hI htw htew hc hn p hp hsew halt h16 h8
  have hi : (p.1, bulkForm p.2.1 p.2.2.1 p.2.2.2) ∈ matrixInstrs mtd vs2 vs1 := by
    simp only [List.mem_cons, List.not_mem_nil, or_false] at hp
    rcases hp with rfl | rfl | rfl | rfl | rfl | rfl <;> simp [bulkForm, matrixInstrs]
  have hdiv : twiden = 32 / p.2.2.2 := by rw [← hsew, ← htew, Nat.mul_div_cancel_left _ (sew_pos _)]
  have ha : matrixArith s.cfg (bulkForm p.2.1 p.2.2.1 p.2.2.2) (sew s.vtype) twiden s.vtype.altfmt
      = some (.bulk p.2.1 p.2.2.1) := by
    rw [hsew, hdiv]
    exact matrixArith_bulkForm (List.mem_map_of_mem (f := Prod.snd) hp) halt h16 h8
  exact exec_floatMatrix hI hi htw ha rfl htew hc hn (fun i j => matrixElem_bulk s p.2.1 p.2.2.1 32 mtd.toNat vs2 vs1 i j)
    (fun _ _ => numericsAdd_lt _ .fp32 ..)

/-- Settles O47: the row of R213 for `p2mm.f.f` gives `BulkDot` on the FP4 pairs, whose binary32 sums fill the element. -/
theorem packedMatrixAccumulates : Obligations.PackedMatrixAccumulates := by
  intro s mtd vs2 vs1 hI htw hsew halt hx hc hn
  have hi : (Instr.p2mmFF mtd vs2 vs1, MatrixForm.packed) ∈ matrixInstrs mtd vs2 vs1 := by simp [matrixInstrs]
  have ha : matrixArith s.cfg .packed (sew s.vtype) 4 s.vtype.altfmt = some .packed := by
    simp [matrixArith, hsew, halt, hx]
  exact exec_floatMatrix hI hi htw ha rfl (by rw [hsew]) hc hn (matrixElem_packed s 32 mtd.toNat vs2 vs1)
    (fun _ _ => numericsAdd_lt _ .fp32 ..)

end Sys2Proof.Machine
end

section
/-! PROOFS of the invariant of 10_state.md: what a step can do, that each shared update of the state keeps the invariant, and so
that every step does. -/

namespace Sys2Proof.Machine

/-! ### What a step can do -/

/-- The states that a step can reach before it ends, by what it did. -/
inductive StepEffect (s : State) : State → Prop where
  | interrupted (code : Nat) (h : pendingInterrupt s = some code) : StepEffect s (takeInterrupt code s)
  | trapped (e : Exception) (v : Word) : StepEffect s (takeException e v s)
  | ran (i : Instr) {u : State} (h : Effect i s u) : StepEffect s u
  | machineReturned (h : s.priv = .machine) : StepEffect s (returnFromMachine s)
  | supervisorReturned (h : s.cfg.hasS = true) : StepEffect s (returnFromSupervisor s)

theorem stepEffect_machineReturn (w : InstrWord) (s : State) : StepEffect s (machineReturn w s) := by
  unfold machineReturn
  split
  · exact .machineReturned ‹_›
  · exact .trapped _ _

theorem stepEffect_supervisorReturn (w : InstrWord) (s : State) : StepEffect s (supervisorReturn w s) := by
  unfold supervisorReturn
  split
  · exact .trapped _ _
  · split
    · split <;> exact .trapped _ _
    · exact .supervisorReturned (by simpa using ‹¬ (!s.cfg.hasS) = true›)

theorem execWord_effect {w : InstrWord} {s u : State} (h : execWord w s = .next u) : StepEffect s u := by
  unfold execWord at h
  split at h
  · exact .ran _ (exec_effect h)
  · injection h with h; subst h; exact .trapped _ _
  · injection h with h; subst h; exact stepEffect_machineReturn w s
  · injection h with h; subst h; exact stepEffect_supervisorReturn w s
  · cases h
  · cases h

theorem fetchAndExec_effect {s u : State} (h : fetchAndExec s = .next u) : StepEffect s u := by
  unfold fetchAndExec at h
  split at h
  · exact execWord_effect h
  · injection h with h; subst h; exact .trapped _ _
  · cases h

theorem finishStep_next {o : Result} {t : State} (h : finishStep o = .next t) : ∃ u, o = .next u ∧ t = endStep u := by
  cases o with
  | next u => injection h with h; exact ⟨u, rfl, h.symm⟩
  | fault => cases h
  | refused => cases h

/-- Every next state of a step is the end of one of the listed effects. -/
theorem step_effect {s t : State} (h : step s = .next t) : ∃ u, StepEffect s u ∧ t = endStep u := by
  unfold step at h
  split at h
  · split at h
    · obtain ⟨u, hu, rfl⟩ := finishStep_next h
      injection hu with hu; subst hu
      exact ⟨_, .interrupted _ ‹_›, rfl⟩
    · obtain ⟨u, hu, rfl⟩ := finishStep_next h
      exact ⟨u, fetchAndExec_effect hu, rfl⟩
  · cases h

/-- The cause code of an interrupt is one of the six of R307. -/
theorem pendingInterrupt_mem {s : State} {code : Nat} (h : pendingInterrupt s = some code) : code ∈ interruptOrder := by
  unfold pendingInterrupt at h
  split at h
  · cases h
  · exact List.mem_of_find?_eq_some h

/-! ### Updates that keep the invariant -/

/-- An update of the fields that the invariant does not speak of keeps it, and so does one of MPP that names a supported mode. -/
theorem inv_of_frame {s t : State} (h : s.Inv) (hm : t.mstatus.mpp = .supervisor → s.cfg.hasS = true)
    (ht : t = { s with
      mstatus := t.mstatus, vsstatus := t.vsstatus, frm := t.frm, fflags := t.fflags, vxsat := t.vxsat, vxrm := t.vxrm
      medeleg := t.medeleg, hedeleg := t.hedeleg, mie := t.mie, mip := t.mip
      hstatusSpv := t.hstatusSpv, hstatusVsbe := t.hstatusVsbe, draws := t.draws }) : t.Inv := by
  rw [ht]
  exact { h with
    config := { h.config with }, width := { h.width with }, mode := { h.mode with mpp := hm }, savedPc := { h.savedPc with } }

theorem inv_endStep {s : State} (h : s.Inv) : (endStep s).Inv := inv_of_frame h h.mode.mpp rfl

theorem inv_dirtyVs {s : State} (b : Bool) (h : s.Inv) : (dirtyVs b s).Inv := inv_of_frame h h.mode.mpp rfl

theorem inv_dirtyMs {s : State} (b : Bool) (h : s.Inv) : (dirtyMs b s).Inv := inv_of_frame h h.mode.mpp rfl

theorem inv_dirtyFs {s : State} (b : Bool) (h : s.Inv) : (dirtyFs b s).Inv := inv_of_frame h h.mode.mpp rfl

theorem inv_initialMs {s : State} (h : s.Inv) : (initialMs s).Inv := inv_of_frame h h.mode.mpp rfl

theorem inv_setPc {s : State} {p : Word} (h : s.Inv) (ha : p.toNat % 4 = 0) (hp : p.toNat < 2 ^ s.cfg.xlenBits) :
    State.Inv { s with pc := p } :=
  { h with
    pcAligned := ha
    config := { h.config with }, width := { h.width with pc := hp }, mode := { h.mode with }, savedPc := { h.savedPc with } }

theorem inv_setVstart {s : State} {n : Nat} (h : s.Inv) (hn : n < s.cfg.vlen) : State.Inv { s with vstart := n } :=
  { h with
    vstart := hn
    config := { h.config with }, width := { h.width with }, mode := { h.mode with }, savedPc := { h.savedPc with } }

theorem inv_setTs {s : State} {ts : List Byte} (h : s.Inv) (hl : ts.length = s.ts.length) : State.Inv { s with ts := ts } :=
  { h with
    tsLength := hl.trans h.tsLength
    config := { h.config with }, width := { h.width with }, mode := { h.mode with }, savedPc := { h.savedPc with } }

theorem inv_setV {s : State} {v : List Byte} (h : s.Inv) (hl : v.length = s.v.length) : State.Inv { s with v := v } :=
  { h with
    vLength := hl.trans h.vLength
    config := { h.config with }, width := { h.width with }, mode := { h.mode with }, savedPc := { h.savedPc with } }

theorem inv_applyStores {s : State} (ws : List (Nat × Byte)) (h : s.Inv) : (applyStores ws s).Inv :=
  { h with
    mem := memWrites_wf ws h.mem
    unsynced := foldl_insertAddr_rising ws h.unsynced
    config := { h.config with }, width := { h.width with }, mode := { h.mode with }, savedPc := { h.savedPc with } }

/-- A write of the configuration state keeps the invariant when it leaves what R24, R44 and R135 allow. -/
theorem inv_setConfig {s : State} {vt : VType} {n : Nat} {mt : MType} (h : s.Inv)
    (hc : ConfigInv { s with vtype := vt, vl := n, mtype := mt }) : State.Inv { s with vtype := vt, vl := n, mtype := mt } :=
  { h with config := hc, width := { h.width with }, mode := { h.mode with }, savedPc := { h.savedPc with } }

/-- A register write keeps every register XLEN bits wide. -/
theorem writeX_x_lt {s : State} (hx : ∀ r : Fin 32, s.x[r].toNat < 2 ^ s.cfg.xlenBits) (rd : XReg) (v : Word) (r : Fin 32) :
    (s.writeX rd v).x[r].toNat < 2 ^ s.cfg.xlenBits := by
  unfold State.writeX
  split
  · exact hx r
  · by_cases he : rd.toNat = r.val
    · simpa [Fin.getElem_fin, ← he] using truncX_lt s.cfg v
    · simpa [Fin.getElem_fin, Vector.getElem_set_ne _ _ he] using hx r

theorem inv_writeX {s : State} (rd : XReg) (v : Word) (h : s.Inv) : (s.writeX rd v).Inv := by
  have hx := writeX_x_lt h.width.x rd v
  rw [writeX_frame]
  exact { h with
    config := { h.config with }, width := { h.width with x := hx }, mode := { h.mode with }, savedPc := { h.savedPc with } }

theorem four_dvd_two_pow_xlenBits (c : Config) : 4 ∣ 2 ^ c.xlenBits := by
  rcases xlenBits_cases c with h | h <;> norm_num [h]

theorem truncX_aligned {c : Config} {w : Word} (h : w.toNat % 4 = 0) : (truncX c w).toNat % 4 = 0 := by
  rw [truncX_toNat, Nat.mod_mod_of_dvd _ (four_dvd_two_pow_xlenBits c), h]

theorem inv_advance {s : State} (h : s.Inv) : (advance s).Inv := by
  refine inv_setPc h (truncX_aligned ?_) (truncX_lt _ _)
  have := h.pcAligned
  bv_omega

theorem inv_completeZvm {s : State} (h : s.Inv) : (completeZvm s).Inv :=
  inv_advance (inv_setVstart (inv_dirtyVs true h) (Nat.two_pow_pos _))

/-! ### Traps and returns keep the invariant -/

theorem inv_enterMachine {s : State} (i : Bool) {code : Nat} (hc : code < 64) (v : Word) (h : s.Inv) :
    (enterMachine i code v s).Inv :=
  { h with
    pcAligned := trapVector_aligned _ _ _ _ hc
    config := { h.config with }
    width := { h.width with
      pc := trapVector_lt _ _ _ _, mepc := h.width.pc, mcause := causeWord_lt _ _ _ hc, mtval := truncX_lt _ _ }
    mode := ⟨by simp, by simp, h.mode.supervisor⟩
    savedPc := { h.savedPc with mepc := h.pcAligned } }

theorem inv_enterSupervisor {s : State} (hs : s.cfg.hasS = true) (i : Bool) {code : Nat} (hc : code < 64) (v : Word)
    (h : s.Inv) : (enterSupervisor i code v s).Inv :=
  { h with
    pcAligned := trapVector_aligned _ _ _ _ hc
    config := { h.config with }
    width := { h.width with
      pc := trapVector_lt _ _ _ _, sepc := h.width.pc, scause := causeWord_lt _ _ _ hc, stval := truncX_lt _ _ }
    mode := ⟨nofun, fun _ => hs, h.mode.mpp⟩
    savedPc := { h.savedPc with sepc := h.pcAligned } }

theorem inv_enterVirtualSupervisor {s : State} (hs : s.cfg.hasS = true) (i : Bool) {code : Nat} (hc : code < 64) (v : Word)
    (h : s.Inv) : (enterVirtualSupervisor i code v s).Inv :=
  { h with
    pcAligned := trapVector_aligned _ _ _ _ hc
    config := { h.config with }
    width := { h.width with
      pc := trapVector_lt _ _ _ _, vsepc := h.width.pc, vscause := causeWord_lt _ _ _ hc, vstval := truncX_lt _ _ }
    mode := ⟨fun hv => ⟨(h.mode.virt hv).1, nofun⟩, fun _ => hs, h.mode.mpp⟩
    savedPc := { h.savedPc with vsepc := h.pcAligned } }

theorem inv_takeException {s : State} (e : Exception) (v : Word) (h : s.Inv) : (takeException e v s).Inv := by
  have hc := exception_code_lt e
  rcases takeException_cases e v s with ht | ⟨-, hs, ht⟩ | ⟨-, hs, -, -, ht⟩ <;> rw [ht]
  · exact inv_enterMachine _ hc v h
  · exact inv_enterSupervisor hs _ hc v h
  · exact inv_enterVirtualSupervisor hs _ hc v h

theorem inv_takeInterrupt {s : State} {code : Nat} (hp : pendingInterrupt s = some code) (h : s.Inv) :
    (takeInterrupt code s).Inv := by
  have hb : ∀ n ∈ interruptOrder, n < 64 := by decide
  exact inv_enterMachine _ (hb code (pendingInterrupt_mem hp)) _ h

theorem inv_returnFromMachine {s : State} (h : s.Inv) : (returnFromMachine s).Inv := by
  have hv : (s.cfg.hasH && s.mstatus.mpv && !(s.mstatus.mpp == .machine)) = true →
      s.cfg.hasH = true ∧ s.mstatus.mpp ≠ .machine := by
    simp only [Bool.and_eq_true, Bool.not_eq_true', beq_eq_false_iff_ne]
    exact fun hb => ⟨hb.1.1, hb.2⟩
  exact { h with
    pcAligned := h.savedPc.mepc
    config := { h.config with }
    width := { h.width with pc := h.width.mepc }
    mode := ⟨hv, h.mode.mpp, fun hp => by cases hp⟩
    savedPc := { h.savedPc with } }

theorem inv_returnFromSupervisor {s : State} (hs : s.cfg.hasS = true) (h : s.Inv) : (returnFromSupervisor s).Inv := by
  have hp : ∀ b : Bool, (if b then Priv.supervisor else .user) ≠ .machine := by decide
  unfold returnFromSupervisor
  split
  · exact { h with
      pcAligned := h.savedPc.vsepc
      config := { h.config with }
      width := { h.width with pc := h.width.vsepc }
      mode := ⟨fun hv => ⟨(h.mode.virt hv).1, hp _⟩, fun _ => hs, h.mode.mpp⟩
      savedPc := { h.savedPc with } }
  · exact { h with
      pcAligned := h.savedPc.sepc
      config := { h.config with }
      width := { h.width with pc := h.width.sepc }
      mode := ⟨fun hv => ⟨(Bool.and_eq_true_iff.1 hv).1, hp _⟩, fun _ => hs, h.mode.mpp⟩
      savedPc := { h.savedPc with } }

/-! ### CSR writes keep the invariant -/

theorem writeMpp_supervisor {c : Config} {old : Priv} {b : BitVec 2} (h : old = .supervisor → c.hasS = true)
    (hw : writeMpp c old b = .supervisor) : c.hasS = true := by
  unfold writeMpp at hw
  split_ifs at hw with h0 h3 h1
  · exact (Bool.and_eq_true_iff.1 h1).2
  · exact h hw

theorem writeMstatus_mpp (c : Config) (m : MStatus) (w : Word) :
    (writeMstatus c m w).mpp = writeMpp c m.mpp (w.extractLsb' 11 2) := by
  unfold writeMstatus
  cases c.xlen <;> rfl

theorem writeEpc_aligned (c : Config) (w : Word) : (writeEpc c w).toNat % 4 = 0 := by
  have h := vectorBase_toNat w
  exact truncX_aligned (by unfold vectorBase at h; omega)

/-- An update of trap registers that keeps their width and the alignment of the saved `pc`s keeps the invariant. -/
theorem inv_of_trapRegs {s t : State} (h : s.Inv) (hw : WidthInv t) (hp : SavedPcInv t)
    (ht : t = { s with
      mtvec := t.mtvec, mepc := t.mepc, mcause := t.mcause, mtval := t.mtval
      stvec := t.stvec, sepc := t.sepc, scause := t.scause, stval := t.stval
      vstvec := t.vstvec, vsepc := t.vsepc, vscause := t.vscause, vstval := t.vstval }) : t.Inv := by
  rw [ht] at hw hp ⊢
  exact { h with config := { h.config with }, width := hw, mode := { h.mode with }, savedPc := hp }

theorem inv_csrWrite {s : State} (r : Csr) (w : Word) (h : s.Inv) : (csrWrite s r w).Inv := by
  cases r with
  | fflags | frm | fcsr => exact inv_dirtyFs true (inv_of_frame h h.mode.mpp rfl)
  | vstart => exact inv_dirtyVs true (inv_setVstart h (Nat.mod_lt _ (Nat.two_pow_pos _)))
  | vxsat | vxrm => exact inv_dirtyVs true (inv_of_frame h h.mode.mpp rfl)
  | vl | vtype | vlenb | mtype => exact h
  | sstatus | hstatus | hedeleg | vsstatus | medeleg | mie | mip => exact inv_of_frame h h.mode.mpp rfl
  | mstatus =>
    exact inv_of_frame h (fun hp => writeMpp_supervisor h.mode.mpp ((writeMstatus_mpp s.cfg s.mstatus w).symm.trans hp)) rfl
  | stvec => exact inv_of_trapRegs h { h.width with stvec := truncX_lt _ _ } { h.savedPc with } rfl
  | scause => exact inv_of_trapRegs h { h.width with scause := truncX_lt _ _ } { h.savedPc with } rfl
  | stval => exact inv_of_trapRegs h { h.width with stval := truncX_lt _ _ } { h.savedPc with } rfl
  | vstvec => exact inv_of_trapRegs h { h.width with vstvec := truncX_lt _ _ } { h.savedPc with } rfl
  | vscause => exact inv_of_trapRegs h { h.width with vscause := truncX_lt _ _ } { h.savedPc with } rfl
  | vstval => exact inv_of_trapRegs h { h.width with vstval := truncX_lt _ _ } { h.savedPc with } rfl
  | mtvec => exact inv_of_trapRegs h { h.width with mtvec := truncX_lt _ _ } { h.savedPc with } rfl
  | mcause => exact inv_of_trapRegs h { h.width with mcause := truncX_lt _ _ } { h.savedPc with } rfl
  | mtval => exact inv_of_trapRegs h { h.width with mtval := truncX_lt _ _ } { h.savedPc with } rfl
  | sepc =>
    exact inv_of_trapRegs h { h.width with sepc := truncX_lt _ _ } { h.savedPc with sepc := writeEpc_aligned _ _ } rfl
  | vsepc =>
    exact inv_of_trapRegs h { h.width with vsepc := truncX_lt _ _ } { h.savedPc with vsepc := writeEpc_aligned _ _ } rfl
  | mepc =>
    exact inv_of_trapRegs h { h.width with mepc := truncX_lt _ _ } { h.savedPc with mepc := writeEpc_aligned _ _ } rfl

theorem inv_csrSet {s : State} (r : Csr) (rd rs1 : XReg) (h : s.Inv) : (csrSet r rd rs1 s).Inv := by
  refine inv_advance (inv_writeX _ _ ?_)
  split
  · exact h
  · exact inv_csrWrite _ _ h

/-! ### The configuration instructions keep the invariant -/

/-- The `mtype` that an unconfigured unit holds (R44). -/
theorem configInv_unconfigured {s : State} (hs : sew s.vtype ≤ s.cfg.elenBits) (hl : s.vtype.vlmul ≠ 0b100#3)
    (hv : s.vl ≤ vlmax s.cfg s.vtype) (hw : s.mtype.mtwiden = 0#2) (hz : s.mtype.tm = 0#14 ∧ s.mtype.tk = 0#3) :
    ConfigInv s where
  vsew := hs
  vlmul := hl
  vl := hv
  unconfigured := fun _ => hz
  configured := fun w h => by rw [(twidenOf_none_iff _ _).2 hw] at h; cases h

theorem inv_vsetvlEffect {s : State} (rd : XReg) (w : Word) (avl : Nat) (h : s.Inv) : (vsetvlEffect rd w avl s).Inv :=
  inv_writeX _ _ (inv_setConfig h (configInv_unconfigured (vsetvlVtype_sew _ _) (vsetvlVtype_vlmul _ _) (setVl_le _ _ _) rfl
    ⟨rfl, rfl⟩))

/-- What `MatrixConfigure` leaves (R135), with `vl` = 0. -/
theorem configInv_matrixConfigure {s : State} (hc : s.cfg.wf = true) {vt : VType} (hs : sew vt ≤ s.cfg.elenBits) {mt : MType}
    {w : Nat} (hw : twidenOf s.cfg mt.mtwiden = some w) :
    ConfigInv { s with
      vtype := (matrixConfigure s.cfg w vt mt).1, vl := 0, mtype := (matrixConfigure s.cfg w vt mt).2 } := by
  have hl := matrixLmul_mem hc hs (twiden_mem hw)
  obtain ⟨hcode, hle, -⟩ := lmulEighths_log2 hl (t := (matrixConfigure s.cfg w vt mt).1) rfl
  have hmax : vlmax s.cfg (matrixConfigure s.cfg w vt mt).1 = matrixLmul s.cfg (sew vt) w * eve s.cfg (sew vt) :=
    vlmax_of_lmul hc (t := (matrixConfigure s.cfg w vt mt).1) hs hcode
  refine ⟨hs, fun h4 => ?_, Nat.zero_le _, fun h0 => ?_, fun w' hw' => ?_⟩
  · have : (matrixConfigure s.cfg w vt mt).1.vlmul.toNat = 4 := congrArg BitVec.toNat h4
    omega
  · rw [(twidenOf_none_iff s.cfg mt.mtwiden).2 h0] at hw
    cases hw
  · obtain rfl : w = w' := Option.some.inj (hw.symm.trans hw')
    refine ⟨rfl, rfl, rfl, fun hv => ?_, ?_, ?_, Nat.zero_le _⟩
    · simp only [matrixConfigure, Bool.or_eq_false_iff, decide_eq_false_iff_not, not_lt] at hv
      exact hv.2
    · exact (BitVec.toNat_ofNat .. ▸ Nat.mod_le _ _).trans (min_le_right _ _)
    · show (BitVec.ofNat 14 _).toNat ≤ min (vlmax s.cfg (matrixConfigure s.cfg w vt mt).1) _
      rw [hmax]
      exact (BitVec.toNat_ofNat .. ▸ Nat.mod_le _ _).trans (min_le_right _ _)

theorem inv_msetmtypeEffect {s : State} (m v : Word) (h : s.Inv) : (msetmtypeEffect m v s).Inv := by
  unfold msetmtypeEffect
  simp only
  split
  · exact inv_setConfig h (configInv_unconfigured (vsetvlVtype_sew _ _) (vsetvlVtype_vlmul _ _) (Nat.zero_le _)
      ((twidenOf_none_iff _ _).1 ‹_›) ⟨rfl, rfl⟩)
  · exact inv_setConfig h (configInv_matrixConfigure h.cfg (vsetvlVtype_sew _ _) ‹_›)

theorem inv_msettn {s : State} (rd rs1 : XReg) (h : s.Inv) : State.Inv { s with vl := msettnLength s rd rs1 } := by
  have hn : msettnLength s rd rs1 ≤ vlmax s.cfg s.vtype := by
    unfold msettnLength
    split
    · exact setVl_le _ _ _
    · exact (min_le_right _ _).trans (min_le_left _ _)
  refine inv_setConfig h ⟨h.config.vsew, h.config.vlmul, hn, h.config.unconfigured, fun w hw => ?_⟩
  obtain ⟨hm, ha, ht, hle, htk, htm, -⟩ := h.config.configured w hw
  refine ⟨hm, ha, ht, hle, htk, htm, ?_⟩
  have : msettnLength s rd rs1 = clampToTile s w (s.readX rs1).toNat := by
    simp only at hw
    simp [msettnLength, hw]
  exact this ▸ (min_le_right _ _).trans (min_le_right _ _)

theorem inv_msettm {s : State} (rs1 : XReg) (h : s.Inv) :
    State.Inv { s with mtype := { s.mtype with tm := BitVec.ofNat 14 (msettmLength s rs1) } } := by
  refine inv_setConfig h ⟨h.config.vsew, h.config.vlmul, h.config.vl, fun h0 => ?_, fun w hw => ?_⟩
  · have h0' : s.mtype.mtwiden = 0#2 := h0
    exact ⟨by simp [msettmLength, (twidenOf_none_iff s.cfg _).2 h0'], (h.config.unconfigured h0').2⟩
  · have hw' : twidenOf s.cfg s.mtype.mtwiden = some w := hw
    obtain ⟨hm, ha, ht, hle, htk, -, hvl⟩ := h.config.configured w hw'
    refine ⟨hm, ha, ht, hle, htk, ?_, hvl⟩
    refine (BitVec.toNat_ofNat .. ▸ Nat.mod_le _ _).trans ?_
    simp only [msettmLength, hw']
    exact min_le_right _ _

theorem inv_msettk {s : State} (rs1 : XReg) (h : s.Inv) :
    State.Inv { s with mtype := { s.mtype with tk := BitVec.ofNat 3 (msettkLength s rs1) } } := by
  refine inv_setConfig h ⟨h.config.vsew, h.config.vlmul, h.config.vl, fun h0 => ?_, fun w hw => ?_⟩
  · have h0' : s.mtype.mtwiden = 0#2 := h0
    exact ⟨(h.config.unconfigured h0').1, by simp [msettkLength, (twidenOf_none_iff s.cfg _).2 h0']⟩
  · have hw' : twidenOf s.cfg s.mtype.mtwiden = some w := hw
    obtain ⟨hm, ha, ht, hle, -, htm, hvl⟩ := h.config.configured w hw'
    refine ⟨hm, ha, ht, hle, ?_, htm, hvl⟩
    refine (BitVec.toNat_ofNat .. ▸ Nat.mod_le _ _).trans ?_
    simp only [msettkLength, hw']
    exact min_le_right _ _

/-! ### The tile instructions keep the invariant -/

/-- The excepting element of a tile access is below VLEN (R26). -/
theorem firstException_lt_vlen {s : State} (hc : s.cfg.wf = true) {k : AccessKind} {rs1 : XReg} {w : Nat}
    {f : Nat × Exception × Nat} (h : firstException s k rs1 w (bodyIndices s w) = some f) : f.1 < s.cfg.vlen := by
  have hr := firstException_range h
  have ht := tn_le_ete s w
  have hl := ete_lt_vlen hc w
  omega

theorem inv_tileLoad {s : State} (rs1 : XReg) (w : Nat) (u : Subset) (h : s.Inv) : (tileLoad rs1 w u s).Inv := by
  unfold tileLoad
  split
  · exact inv_completeZvm (inv_dirtyMs _ (inv_setTs h (overlay_length _ _)))
  · exact inv_takeException _ _ (inv_dirtyVs true (inv_dirtyMs _
      (inv_setVstart (inv_setTs h (overlay_length _ _)) (firstException_lt_vlen h.cfg ‹_›))))

theorem inv_tileStore {s : State} (rs1 : XReg) (w : Nat) (u : Subset) (h : s.Inv) : (tileStore rs1 w u s).Inv := by
  unfold tileStore
  split
  · exact inv_completeZvm (inv_applyStores _ h)
  · exact inv_takeException _ _ (inv_dirtyVs true
      (inv_setVstart (inv_applyStores _ h) (firstException_lt_vlen h.cfg ‹_›)))

theorem inv_zeroSize {s : State} (float : Bool) (h : s.Inv) : (zeroSize float s).Inv :=
  inv_advance (inv_setVstart (inv_dirtyFs _ (inv_dirtyVs _ h)) (Nat.two_pow_pos _))

theorem inv_matrixAccumulate {s : State} (a : Arith) (tew t : Nat) (vs2 vs1 : VReg) (h : s.Inv) :
    (matrixAccumulate a tew t vs2 vs1 s).Inv :=
  inv_completeZvm (inv_dirtyFs _ (inv_dirtyMs true
    (inv_of_frame (inv_setTs h (overlay_length s.ts (tileWrites s tew t fun p =>
      leBytes (tew / 8) (matrixElem s a tew t vs2 vs1 p).1))) h.mode.mpp rfl)))

/-! ### Every step keeps the invariant -/

theorem inv_effect {i : Instr} {s t : State} (h : s.Inv) (he : Effect i s t) : t.Inv := by
  cases he with
  | trapped e v => exact inv_takeException e v h
  | vset _ rd w avl => exact inv_completeZvm (inv_vsetvlEffect rd w avl h)
  | mset _ m v => exact inv_completeZvm (inv_msetmtypeEffect m v h)
  | setN _ rd rs1 => exact inv_completeZvm (inv_writeX _ _ (inv_msettn rd rs1 h))
  | setM _ rd rs1 => exact inv_completeZvm (inv_writeX _ _ (inv_msettm rs1 h))
  | setK _ rd rs1 => exact inv_completeZvm (inv_writeX _ _ (inv_msettk rs1 h))
  | load rs1 _ w u => exact inv_tileLoad rs1 w u h
  | store rs1 _ w u => exact inv_tileStore rs1 w u h
  | toVector => exact inv_completeZvm (inv_setV h (overlay_length _ _))
  | toTile => exact inv_completeZvm (inv_dirtyMs _ (inv_setTs h (overlay_length _ _)))
  | zero => exact inv_completeZvm (inv_dirtyMs _ (inv_setTs h (overlay_length _ _)))
  | discard => exact inv_completeZvm (inv_initialMs (inv_setTs h (by simp [discardedTiles])))
  | zeroSize float => exact inv_zeroSize float h
  | accumulate _ _ vs2 vs1 _ a => exact inv_matrixAccumulate a _ _ vs2 vs1 h
  | wrote rd v => exact inv_advance (inv_writeX rd v h)
  | passed => exact inv_advance h
  | jumped v ha => exact inv_setPc h ha (truncX_lt _ _)
  | csr rd rs1 _ r => exact inv_csrSet _ rd rs1 h

theorem inv_stepEffect {s u : State} (h : s.Inv) (he : StepEffect s u) : u.Inv := by
  cases he with
  | interrupted code hp => exact inv_takeInterrupt hp h
  | trapped e v => exact inv_takeException e v h
  | ran _ hi => exact inv_effect h hi
  | machineReturned => exact inv_returnFromMachine h
  | supervisorReturned hs => exact inv_returnFromSupervisor hs h

/-- Settles O12: a step is the end of a listed effect, each effect is made of updates that keep the invariant, and so is the end. -/
theorem stepKeepsInvariant : Obligations.StepKeepsInvariant := by
  intro s t h hs
  obtain ⟨u, hu, rfl⟩ := step_effect hs
  exact inv_endStep (inv_stepEffect h hu)

end Sys2Proof.Machine
end

section
/-! PROOFS about reset, the order inside a step, and the Off fields of 10_state.md: what comes before the instruction, what the
checks of VS and MS answer, and what an Off field hides. -/

namespace Sys2Proof.Machine

/-! ### Reset -/

theorem inv_resetOf {c : Config} (hc : c.wf = true) : (State.resetOf c).Inv := by
  have hx : 0 < 2 ^ c.xlenBits := Nat.two_pow_pos _
  have h8 : sew (State.resetOf c).vtype = 8 := rfl
  have hs : sew (State.resetOf c).vtype ≤ c.elenBits := by rcases elenBits_cases c with h | h <;> omega
  exact {
    cfg := hc
    pcAligned := rfl
    vLength := List.length_replicate
    tsLength := by simp [State.resetOf]
    vstart := Nat.two_pow_pos _
    mem := rfl
    unsynced := rfl
    config := configInv_unconfigured hs (by simp [State.resetOf]) (Nat.zero_le _) rfl ⟨rfl, rfl⟩
    width := ⟨fun r => by simp [State.resetOf], hx, hx, hx, hx, hx, hx, hx, hx, hx, hx, hx, hx, hx⟩
    mode := ⟨nofun, nofun, nofun⟩
    savedPc := ⟨rfl, rfl, rfl⟩ }

/-- Settles O11: field by field; the unit is unconfigured and `vtype` is the illegal one. -/
theorem resetMeetsInvariant : Obligations.ResetMeetsInvariant := ⟨fun _ => inv_resetOf, inv_resetOf (by decide)⟩

/-- Settles O13: the fields are those of `State.resetOf`, and byte `o` of the tile state is the `o`-th draw. -/
theorem resetMode : Obligations.ResetMode := by
  refine fun c => ⟨rfl, rfl, rfl, fun o ho => ?_⟩
  simp [State.resetOf, readByte, List.getD, ho]

/-! ### The order inside a step -/

/-- Settles O9: the frame is `endStep`'s own, and each field follows `mayGoDirty`. -/
theorem msOnlyGoesDirtyByItself : Obligations.MsOnlyGoesDirtyByItself := by
  refine fun s => ⟨rfl, ?_, ?_⟩
  · exact (mayGoDirty_cases _ _).imp id And.right
  · exact (mayGoDirty_cases _ _).imp id fun ⟨hb, h⟩ => ⟨(Bool.and_eq_true_iff.1 hb).1, h⟩

theorem finishStep_eq_mapNext (o : Result) : finishStep o = mapNext endStep o := by cases o <;> rfl

/-- A step with no interrupt to take is what the fetched instruction does, and the end of the step. -/
theorem step_of_no_interrupt {s : State} (hc : s.cfg.wf = true) (hi : pendingInterrupt s = none) :
    step s = finishStep (fetchAndExec s) := by
  simp [step, hc, hi]

/-- An aligned fetch that the map admits, of bytes that no tile store wrote, reads the four bytes at `pc` (R22, R71, R84). -/
theorem fetch_word {s : State} (ha : s.pc.toNat % 4 = 0)
    (h : ∀ a ∈ byteAddrs s.cfg s.pc.toNat 4, byteVerdict s .fetch a = .permitted ∧ a ∉ s.unsynced) :
    ∃ w, fetch s = .word w ∧ decodeBytes (memReadBytes s.cfg s.mem s.pc.toNat 4) = decode w := by
  have hu : ((byteAddrs s.cfg s.pc.toNat 4).any fun b => s.unsynced.contains b) = false := by
    simpa [List.any_eq_false] using fun a ha => (h a ha).2
  refine ⟨_, ?_, rfl⟩
  simp only [fetch, ha, ne_eq, not_true_eq_false, if_false, mapFault_of_permitted ha fun a ha => (h a ha).1, hu,
    Bool.false_eq_true]

/-- Settles O6: the fetch reads the bytes that decode to the instruction, and `execWord` runs it. -/
theorem stepRunsDecodedInstruction : Obligations.StepRunsDecodedInstruction := by
  intro s i hc hi ha h hd _
  obtain ⟨w, hw, hdw⟩ := fetch_word ha h
  have hx : fetchAndExec s = exec i s := by simp only [fetchAndExec, hw, execWord, ← hdw, hd]
  rw [step_of_no_interrupt hc hi, hx, finishStep_eq_mapNext]

/-- The interrupt taken is the first of the order that is pending and enabled (R307; log 52). -/
theorem pendingInterrupt_eq_some {s : State} {n code : Nat} (hn : n < interruptOrder.length) (hcode : code = interruptOrder[n])
    (hp : s.priv ≠ .machine ∨ s.mstatus.mie = true) (hi : s.mip.getLsbD code = true) (he : s.mie.getLsbD code = true)
    (hb : ∀ c ∈ interruptOrder.take n, s.mip.getLsbD c = false ∨ s.mie.getLsbD c = false) :
    pendingInterrupt s = some code := by
  have hm : (decide (s.priv = .machine) && !s.mstatus.mie) = false := by
    rcases hp with h | h <;> simp [h]
  rw [pendingInterrupt, if_neg (by simpa using hm), List.find?_eq_some_iff_getElem]
  refine ⟨by simp [hi, he], n, hn, hcode.symm, fun j hj => ?_⟩
  have hjm : interruptOrder[j] ∈ interruptOrder.take n := List.mem_take_iff_getElem.2 ⟨j, by omega, rfl⟩
  rcases hb _ hjm with h | h <;> simp [h]

theorem pendingInterrupt_eq_none {s : State} (h : s.priv = .machine ∧ s.mstatus.mie = false ∨ s.mip &&& s.mie = 0#64) :
    pendingInterrupt s = none := by
  rcases h with ⟨hp, hm⟩ | h
  · simp [pendingInterrupt, hp, hm]
  · simp [pendingInterrupt, h]

theorem translationFault_mem {s : State} {k : AccessKind} {b : Nat} {g : Exception × Nat}
    (h : translationFault s k b = some g) : g.1 ∈ [accessFaultOf k, pageFaultOf k, guestPageFaultOf k] := by
  unfold translationFault at h
  split at h
  · injection h with h; simp [← h]
  · injection h with h; simp [← h]
  · cases h

theorem protectionFault_mem {s : State} {k : AccessKind} {b : Nat} {g : Exception × Nat}
    (h : protectionFault s k b = some g) : g.1 ∈ [accessFaultOf k, pageFaultOf k, guestPageFaultOf k] := by
  unfold protectionFault at h
  split at h
  · injection h with h; simp [← h]
  · cases h

theorem accessFaultAt_mem {s : State} {k : AccessKind} {a n : Nat} {g : Exception × Nat} (h : accessFaultAt s k a n = some g) :
    g.1 ∈ [accessFaultOf k, pageFaultOf k, guestPageFaultOf k] := by
  unfold accessFaultAt at h
  split at h
  · injection h with h; simp [← h]
  · obtain ⟨b, -, hb⟩ := List.exists_of_findSome?_eq_some h
    exact protectionFault_mem hb

/-- A page or access fault is one of the three of its kind of access (R300). -/
theorem mapFault_mem {s : State} {k : AccessKind} {a n : Nat} {f : Exception × Nat} (h : mapFault s k a n = some f) :
    f.1 ∈ [accessFaultOf k, pageFaultOf k, guestPageFaultOf k] := by
  unfold mapFault at h
  obtain ⟨g, hg, hf⟩ := Option.map_eq_some_iff.1 h
  have hfg : f.1 = g.1 := by rw [← hf]; split <;> rfl
  rw [hfg]
  rcases ht : (byteAddrs s.cfg a n).findSome? (translationFault s k) with - | f'
  · rw [ht] at hg
    exact accessFaultAt_mem hg
  · rw [ht] at hg
    obtain ⟨b, -, hb⟩ := List.exists_of_findSome?_eq_some (ht.trans hg)
    exact translationFault_mem hb

/-- An access without a page or access fault reaches permitted bytes alone (R79, R80). -/
theorem permitted_of_mapFault_none {s : State} {k : AccessKind} {a n : Nat} (h : mapFault s k a n = none) :
    ∀ b ∈ byteAddrs s.cfg a n, byteVerdict s k b = .permitted := by
  unfold mapFault at h
  have h := Option.map_eq_none_iff.1 h
  rcases ht : (byteAddrs s.cfg a n).findSome? (translationFault s k) with - | f'
  · rw [ht] at h
    have ha : accessFaultAt s k a n = none := h
    unfold accessFaultAt at ha
    split at ha
    · cases ha
    · intro b hb
      have h1 := List.findSome?_eq_none_iff.1 ht b hb
      have h2 := List.findSome?_eq_none_iff.1 ha b hb
      cases hv : byteVerdict s k b <;> simp [translationFault, protectionFault, hv] at h1 h2 ⊢
  · rw [ht] at h
    cases h

theorem step_of_fetch_exception {s : State} {e : Exception} {a : Nat} (hc : s.cfg.wf = true) (hi : pendingInterrupt s = none)
    (hf : fetch s = .exception e a) : step s = .next (endStep (takeException e (BitVec.ofNat 64 a) s)) := by
  simp [step_of_no_interrupt hc hi, fetchAndExec, hf, finishStep]

theorem fetch_misaligned {s : State} (h : s.pc.toNat % 4 ≠ 0) : fetch s = .exception .instrAddressMisaligned s.pc.toNat := by
  simp [fetch, h]

/-- An aligned fetch of a byte that the map denies raises one of the three fetch faults (R300, R303a). -/
theorem fetch_denied {s : State} (ha : s.pc.toNat % 4 = 0)
    (h : ∃ a ∈ byteAddrs s.cfg s.pc.toNat 4, byteVerdict s .fetch a ≠ .permitted) :
    ∃ e a, e ∈ [Exception.instrAccessFault, .instrPageFault, .instrGuestPageFault] ∧ fetch s = .exception e a := by
  rcases hf : mapFault s .fetch s.pc.toNat 4 with - | f
  · obtain ⟨b, hb, hn⟩ := h
    exact absurd (permitted_of_mapFault_none hf b hb) hn
  · exact ⟨f.1, f.2, mapFault_mem hf, by simp only [fetch, ha, ne_eq, not_true_eq_false, if_false, hf]⟩

/-- Settles O8: `step` asks for an interrupt first, and `fetch` checks the alignment, then the map, before it reads a word. -/
theorem interruptsAndFetchExceptionsComeFirst : Obligations.InterruptsAndFetchExceptionsComeFirst := by
  refine fun s hc => ⟨fun n code hcode hp hi he hb => ?_, pendingInterrupt_eq_none, fun hi => ⟨fun ha => ?_, fun ha hd => ?_⟩⟩
  · have hn : n.val < interruptOrder.length := n.isLt
    have hg : code = interruptOrder[n.val] := by rw [hcode]; exact List.getD_eq_getElem _ _ hn
    have := pendingInterrupt_eq_some hn hg hp hi he hb
    simp [step, hc, this, finishStep, takeInterrupt]
  · simpa using step_of_fetch_exception hc hi (fetch_misaligned ha)
  · obtain ⟨e, a, he, hf⟩ := fetch_denied ha hd
    exact ⟨e, _, he, step_of_fetch_exception hc hi hf⟩

/-! ### The checks of VS and MS -/

theorem withConfigChecks_of_vsOff {s : State} (h : vsOff s = true) (i : Instr) (rs : List XReg) (f : State → State) :
    withConfigChecks i rs s f = .next (illegal (encode i) s) := by
  simp [withConfigChecks, h]

theorem matrixMultiply_of_illegal {s : State} {f : MatrixForm} (h : matrixStateIllegal s f.isFloat = true) (i : Instr)
    (mtd : Tile) (vs2 vs1 : VReg) : matrixMultiply i f mtd vs2 vs1 s = .next (illegal (encode i) s) := by
  simp [matrixMultiply, h]

section
variable {s : State} (h : vsOff s = true ∨ msOff s = true)
include h

theorem tileMemoryIllegal_of_off (w : Nat) (rs1 rs2 : XReg) : tileMemoryIllegal s w rs1 rs2 = true := by
  rcases h with h | h <;> simp [tileMemoryIllegal, h]

theorem moveIllegal_of_off (v : VReg) (rs1 : XReg) : moveIllegal s v rs1 = true := by
  rcases h with h | h <;> simp [moveIllegal, h]

theorem zeroIllegal_of_off : zeroIllegal s = true := by
  rcases h with h | h <;> simp [zeroIllegal, h]

theorem matrixStateIllegal_of_off (float : Bool) : matrixStateIllegal s float = true := by
  rcases h with h | h <;> simp [matrixStateIllegal, h]

/-- A tile instruction with VS or MS Off is illegal (R59, R61). -/
theorem exec_tiles_of_off {i : Instr} (hi : i.usesTiles = true) : exec i s = .next (illegal (encode i) s) := by
  cases i with
  | vsetvli | vsetivli | vsetvl | msetmtype | msetmtypei | msettn | msettm | msettk | addi | slli | add | bne | csrrs => cases hi
  | vlte8 | vlte16 | vlte32 | vlte64 | vste8 | vste16 | vste32 | vste64 =>
    exact withTileMemoryChecks_of_illegal (tileMemoryIllegal_of_off h _ _ _) _ _ _
  | vtmvVT | vtmvTV => exact withMoveChecks_of_illegal (moveIllegal_of_off h _ _) _ _
  | vtzeroT => simp [exec, execVtzeroT, zeroIllegal_of_off h]
  | vtdiscard => rcases h with h | h <;> simp [exec, execVtdiscard, h]
  | mmFF | p2mmFF | mmE5m2E5m2 | mmE5m2E4m3 | mmE4m3E5m2 | mmE4m3E4m3 | mmUU | mmSU | mmUS | mmSS =>
    exact matrixMultiply_of_illegal (matrixStateIllegal_of_off h _) _ _ _ _

end

/-- The Zvm instructions are the configuration instructions and the tile instructions (R7). -/
theorem exec_config_of_vsOff {i : Instr} {s : State} (hz : i.isZvm = true) (ht : i.usesTiles = false) (h : vsOff s = true) :
    exec i s = .next (illegal (encode i) s) := by
  cases i with
  | vsetvli | vsetivli | vsetvl | msetmtype | msetmtypei | msettn | msettm | msettk =>
    simp only [exec, execVsetvli, execVsetivli, execVsetvl, execMsetmtype, execMsetmtypei, execMsettn, execMsettm, execMsettk]
    exact withConfigChecks_of_vsOff h _ _ _
  | addi | slli | add | bne | csrrs => cases hz
  | _ => cases ht

/-- Settles O17: the configuration instructions by R141's check, the tile instructions by their own. -/
theorem vsOffTraps : Obligations.VsOffTraps := by
  intro i s hz h
  cases ht : i.usesTiles
  · exact exec_config_of_vsOff hz ht h
  · exact exec_tiles_of_off (.inl h) ht

theorem msOff_iff (s : State) : msOff s = true ↔ s.mstatus.ms = .off ∨ s.virt = true ∧ s.vsstatus.ms = .off := by
  simp [msOff]

/-- Settles O18: R301's `MSOff` is the first or second check of every tile instruction. -/
theorem msOffTraps : Obligations.MsOffTraps := fun _ s hi h => exec_tiles_of_off (.inr ((msOff_iff s).2 h)) hi

/-! ### The other checks of the tile accesses and moves -/

theorem tssDecode_illegal {c : Config} {v : Word} {w : Nat} (hp : c.tssPolicy = .illegal) (hr : tssReserved c v w = true) :
    tssDecode c v w = .illegal := by
  simp [tssDecode, hp, hr]

/-- Settles O35: the shared checks refuse the first five, and TSS decoding the last. -/
theorem tileAccessChecks : Obligations.TileAccessChecks := by
  intro s rs1 rs2 p hp h
  obtain ⟨f, hx⟩ := exec_tileAccess hp s
  rw [hx]
  by_cases hm : tileMemoryIllegal s p.2 rs1 rs2 = true
  · exact withTileMemoryChecks_of_illegal hm _ _ _
  · have ht : tssDecode s.cfg (s.readX rs2) p.2 = .illegal := by
      rcases h with h | h | h | h | h | ⟨h1, h2⟩
      case inr.inr.inr.inr.inr => exact tssDecode_illegal h1 h2
      all_goals exact absurd (by simp [tileMemoryIllegal, h]) hm
    simp [withTileMemoryChecks, hm, ht]

theorem withMoveChecks_illegalTss {s : State} {v : VReg} {rs1 : XReg}
    (ht : tssDecode s.cfg (s.readX rs1) (sew s.vtype) = .illegal) (i : Instr) (f : Subset → State → State) :
    withMoveChecks i v rs1 s f = .next (illegal (encode i) s) := by
  simp [withMoveChecks, ht]

/-- Settles O38: the shared checks refuse the first five, and TSS decoding the last. -/
theorem moveChecks : Obligations.MoveChecks := by
  intro s v rs1 i hi h
  have hx : ∃ f, exec i s = withMoveChecks i v rs1 s f := by
    simp only [List.mem_cons, List.not_mem_nil, or_false] at hi
    rcases hi with rfl | rfl <;> exact ⟨_, rfl⟩
  obtain ⟨f, hx⟩ := hx
  rw [hx]
  rcases h with h | h | h | h | h | ⟨h1, h2⟩
  case inr.inr.inr.inr.inr => exact withMoveChecks_illegalTss (tssDecode_illegal h1 h2) _ _
  all_goals exact withMoveChecks_of_illegal (by simp [moveIllegal, groupAligned, h]) _ _

/-! ### Off fields stay Off -/

/-- No Off field of `mstatus` among MS, VS and FS is turned on. -/
structure OffStays (s t : State) : Prop where
  ms : s.mstatus.ms = .off → t.mstatus.ms = .off
  vs : s.mstatus.vs = .off → t.mstatus.vs = .off
  fs : s.mstatus.fs = .off → t.mstatus.fs = .off

theorem ms_ne_off {s : State} (h : msOff s = false) : s.mstatus.ms ≠ .off := fun he => by simp [msOff, he, ContextStatus.isOff] at h

theorem vs_ne_off {s : State} (h : vsOff s = false) : s.mstatus.vs ≠ .off := fun he => by simp [vsOff, he, ContextStatus.isOff] at h

theorem fs_ne_off {s : State} (h : fsOff s = false) : s.mstatus.fs ≠ .off := fun he => by simp [fsOff, he, ContextStatus.isOff] at h

/-- Each field is kept, or is not Off. -/
theorem offStays_of {s t : State} (hm : t.mstatus.ms = s.mstatus.ms ∨ msOff s = false)
    (hv : t.mstatus.vs = s.mstatus.vs ∨ vsOff s = false) (hf : t.mstatus.fs = s.mstatus.fs ∨ fsOff s = false) :
    OffStays s t where
  ms h := hm.elim (fun e => e.trans h) fun e => absurd h (ms_ne_off e)
  vs h := hv.elim (fun e => e.trans h) fun e => absurd h (vs_ne_off e)
  fs h := hf.elim (fun e => e.trans h) fun e => absurd h (fs_ne_off e)

theorem offStays_of_mstatus_eq {s t : State} (h : t.mstatus = s.mstatus) : OffStays s t :=
  offStays_of (.inl (by rw [h])) (.inl (by rw [h])) (.inl (by rw [h]))

theorem offStays_trans {s t u : State} (h : OffStays s t) (h' : OffStays t u) : OffStays s u :=
  ⟨h'.ms ∘ h.ms, h'.vs ∘ h.vs, h'.fs ∘ h.fs⟩

theorem offStays_endStep (s : State) : OffStays s (endStep s) where
  ms h := by simp [h, ContextStatus.mayGoDirty]
  vs h := h
  fs h := h

theorem offStays_takeException (e : Exception) (v : Word) (s : State) : OffStays s (takeException e v s) := by
  rcases takeException_cases e v s with h | ⟨-, -, h⟩ | ⟨-, -, -, -, h⟩ <;> rw [h] <;> exact ⟨id, id, id⟩

theorem offStays_returnFromSupervisor (s : State) : OffStays s (returnFromSupervisor s) := by
  unfold returnFromSupervisor
  split <;> exact ⟨id, id, id⟩

theorem offStays_completeZvm {s : State} (h : vsOff s = false) {t : State} (ht : t.mstatus = s.mstatus) :
    OffStays s (completeZvm t) :=
  offStays_of (.inl (by simp [ht])) (.inr h) (.inl (by simp [ht]))

/-- What a granted access of a CSR says (R41, R48, R309). -/
theorem csrAccess_granted {s : State} {r : Csr} {write : Bool} (h : csrAccess s r write = .granted) :
    csrPrivilege s (csrLevel r) = .granted ∧ csrGateOff s r = false ∧ (write && csrReadOnly r) = false := by
  unfold csrAccess at h
  split at h
  · split at h
    · cases h
    · rename_i hp hn
      exact ⟨hp, by simpa using hn⟩
  · rename_i hn
    exact absurd h hn

theorem csrGateOff_csrTarget (s : State) (r : Csr) : csrGateOff s (csrTarget s r) = csrGateOff s r := by
  unfold csrTarget
  split
  · cases r <;> rfl
  · rfl

/-- User mode reaches no status register, and a guest neither `mstatus` nor its view (R309; log 51). -/
theorem csrTarget_ne_status {s : State} (hm : ModeInv s) (hu : s.priv = .user ∨ s.virt = true) {r : Csr}
    (h : csrPrivilege s (csrLevel r) = .granted) : csrTarget s r ≠ .sstatus ∧ csrTarget s r ≠ .mstatus := by
  have hmachine : csrPrivilege s .machine ≠ .granted := by
    have hp : s.priv ≠ .machine := hu.elim (fun e => by simp [e]) fun e => (hm.virt e).2
    simp [csrPrivilege, hp]
  have hguest : csrPrivilege s .supervisor = .granted → s.virt = true := by
    intro hs
    rcases hu with hp | hv
    · simp only [csrPrivilege, hp, if_true] at hs
      split_ifs at hs
    · exact hv
  cases r with
  | sstatus => simp [csrTarget, hguest h]
  | mstatus => exact absurd h hmachine
  | _ => unfold csrTarget; split <;> simp

/-- A write of a CSR that its gate admits turns no Off field on, unless it is a write of `mstatus` or its view. -/
theorem offStays_csrWrite {s : State} {r : Csr} (hg : csrGateOff s r = false) (hn : r ≠ .sstatus ∧ r ≠ .mstatus) (w : Word) :
    OffStays s (csrWrite s r w) := by
  cases r with
  | fflags | frm | fcsr => exact offStays_of (.inl rfl) (.inl rfl) (.inr hg)
  | vstart | vxsat | vxrm => exact offStays_of (.inl rfl) (.inr hg) (.inl rfl)
  | sstatus => exact absurd rfl hn.1
  | mstatus => exact absurd rfl hn.2
  | _ => exact ⟨id, id, id⟩

theorem offStays_csrSet {s : State} {r : Csr} (hg : csrGateOff s r = false) (hn : r ≠ .sstatus ∧ r ≠ .mstatus) (rd rs1 : XReg) :
    OffStays s (csrSet r rd rs1 s) := by
  have hx : OffStays s (if rs1 = 0#5 then s else csrWrite s r (csrRead s r ||| s.readX rs1)) := by
    split
    · exact ⟨id, id, id⟩
    · exact offStays_csrWrite hg hn _
  exact offStays_trans hx (offStays_of_mstatus_eq (by simp [csrSet]))

theorem matrixStateIllegal_false {s : State} {float : Bool} (h : matrixStateIllegal s float = false) :
    vsOff s = false ∧ msOff s = false ∧ (float && fsOff s) = false := by
  simp only [matrixStateIllegal, Bool.or_eq_false_iff] at h
  exact ⟨h.1.1.1.1, h.1.1.1.2, h.1.1.2⟩

/-- The FS field after a floating-point operation may dirty it, when the check of FS passes. -/
theorem fs_kept_or_checked {s : State} {float : Bool} (h : (float && fsOff s) = false) (b : Bool) :
    s.mstatus.fs.dirtyIf (float && b) = s.mstatus.fs ∨ fsOff s = false := by
  cases float
  · exact .inl (by simp)
  · exact .inr h

/-- The state in which a tile load takes the exception of element `i` (R175). -/
def loadTrapState (u : Subset) (rs1 : XReg) (w i : Nat) (s : State) : State :=
  let done := List.range' s.vstart (i - s.vstart)
  dirtyVs true (dirtyMs (!done.isEmpty || Config.trapDisturbsTile s.draws)
    { s with ts := overlay s.ts (loadWrites s u rs1 w done ++ disturbedWrites s u w i), vstart := i })

theorem loadTrapped_eq (u : Subset) (rs1 : XReg) (w i : Nat) (e : Exception) (a : Nat) (s : State) :
    loadTrapped u rs1 w i e a s = takeException e (BitVec.ofNat 64 a) (loadTrapState u rs1 w i s) := rfl

/-- The state in which a tile store takes the exception of element `i` (R175). -/
def storeTrapState (u : Subset) (rs1 : XReg) (w i : Nat) (s : State) : State :=
  dirtyVs true
    { applyStores (storeWrites s u rs1 w (List.range' s.vstart (i - s.vstart))
        ++ (List.range' i (tn s w - i)).flatMap (trappedStoreWrites s u rs1 w)) s with vstart := i }

theorem storeTrapped_eq (u : Subset) (rs1 : XReg) (w i : Nat) (e : Exception) (a : Nat) (s : State) :
    storeTrapped u rs1 w i e a s = takeException e (BitVec.ofNat 64 a) (storeTrapState u rs1 w i s) := rfl

theorem offStays_tileLoad {s : State} {k : AccessKind} {rs1 rs2 : XReg} {w : Nat} {u : Subset}
    (h : TileAccessReady s k rs1 rs2 w u) : OffStays s (tileLoad rs1 w u s) := by
  unfold tileLoad
  split
  · exact offStays_of (.inr h.ms) (.inr h.vs) (.inl rfl)
  · exact offStays_trans (t := loadTrapState u rs1 w _ s) (offStays_of (.inr h.ms) (.inr h.vs) (.inl rfl)) (offStays_takeException _ _ _)

theorem offStays_tileStore {s : State} {k : AccessKind} {rs1 rs2 : XReg} {w : Nat} {u : Subset}
    (h : TileAccessReady s k rs1 rs2 w u) : OffStays s (tileStore rs1 w u s) := by
  unfold tileStore
  split
  · exact offStays_of (.inr h.ms) (.inr h.vs) (.inl rfl)
  · exact offStays_trans (t := storeTrapState u rs1 w _ s) (offStays_of (.inr h.ms) (.inr h.vs) (.inl rfl)) (offStays_takeException _ _ _)

/-- An instruction of user mode or of a guest turns no Off field on. -/
theorem offStays_effect {i : Instr} {s t : State} (hm : ModeInv s) (hu : s.priv = .user ∨ s.virt = true) (h : Effect i s t) :
    OffStays s t := by
  cases h with
  | trapped e v => exact offStays_takeException e v s
  | vset hv rd w avl => exact offStays_completeZvm hv (by simp [vsetvlEffect])
  | mset hv m v => exact offStays_completeZvm hv (by unfold msetmtypeEffect; simp only; split <;> rfl)
  | setN hv | setM hv | setK hv => exact offStays_completeZvm hv (by simp)
  | load rs1 rs2 w u _ hr => exact offStays_tileLoad hr
  | store rs1 rs2 w u _ hr => exact offStays_tileStore hr
  | toVector vd rs1 u hr => exact offStays_completeZvm hr.vs rfl
  | toTile vs2 rs1 u hr => exact offStays_of (.inr hr.ms) (.inr hr.vs) (.inl rfl)
  | zero w mtd hz =>
    simp only [zeroIllegal, Bool.or_eq_false_iff] at hz
    obtain ⟨⟨⟨hv, hms⟩, -⟩, -⟩ := hz
    exact offStays_of (.inr hms) (.inr hv) (.inl rfl)
  | discard hv hms => exact offStays_of (.inr hms) (.inr hv) (.inl rfl)
  | zeroSize float hz =>
    obtain ⟨hv, hms, hf⟩ := matrixStateIllegal_false hz
    exact offStays_of (.inr hms) (.inr hv) (fs_kept_or_checked hf _)
  | accumulate f mtd vs2 vs1 w a _ ha hc =>
    obtain ⟨-, -, hf⟩ := matrixStateIllegal_false (matrixStateIllegal_of_pass hc.toMatrixSourcesPass)
    have hfs := fs_kept_or_checked hf true
    rw [← matrixArith_isFloat ha, Bool.and_true] at hfs
    exact offStays_of (.inr hc.ms) (.inr hc.vs) hfs
  | wrote rd v => exact offStays_of_mstatus_eq (by simp)
  | passed | jumped => exact offStays_of_mstatus_eq rfl
  | csr rd rs1 n r _ _ ha =>
    obtain ⟨hp, hg, -⟩ := csrAccess_granted ha
    exact offStays_csrSet ((csrGateOff_csrTarget s r).trans hg) (csrTarget_ne_status hm hu hp) rd rs1

/-- Settles O59: an instruction by its effect; traps, returns and the end of the step write none of the fields that are Off. -/
theorem offFieldsStayOff : Obligations.OffFieldsStayOff := by
  intro s t hm hu hs
  obtain ⟨u, he, rfl⟩ := step_effect hs
  have h : OffStays s u := by
    cases he with
    | interrupted | machineReturned => exact ⟨id, id, id⟩
    | trapped e v => exact offStays_takeException e v s
    | ran _ hi => exact offStays_effect hm hu hi
    | supervisorReturned => exact offStays_returnFromSupervisor s
  have := offStays_trans h (offStays_endStep u)
  exact ⟨this.ms, this.vs, this.fs⟩

/-! ### While MS is Off the tile state is hidden -/

/-- A state with its tile state replaced. -/
def withTs (ts : List Byte) (s : State) : State := { s with ts := ts }

/-- An update that neither reads nor writes the tile state commutes with its replacement. -/
def TsBlind (f : State → State) : Prop := ∀ ts s, f (withTs ts s) = withTs ts (f s)

theorem tsBlind_takeException (e : Exception) (v : Word) : TsBlind (takeException e v) := by
  intro ts s
  have ht : trapTarget (withTs ts s) e.code = trapTarget s e.code := rfl
  unfold takeException
  rw [ht]
  split <;> rfl

theorem illegal_withTs (w : InstrWord) (ts : List Byte) (s : State) : illegal w (withTs ts s) = withTs ts (illegal w s) :=
  tsBlind_takeException _ _ ts s

theorem writeX_withTs (ts : List Byte) (s : State) (r : XReg) (v : Word) :
    (withTs ts s).writeX r v = withTs ts (s.writeX r v) := by
  unfold State.writeX
  split <;> rfl

theorem tsBlind_vsetvlEffect (rd : XReg) (w : State → Word) (avl : State → Nat) (hw : ∀ ts s, w (withTs ts s) = w s)
    (ha : ∀ ts s, avl (withTs ts s) = avl s) : TsBlind fun s => vsetvlEffect rd (w s) (avl s) s := by
  intro ts s
  simp only [hw, ha]
  unfold vsetvlEffect State.writeX
  simp only
  split <;> rfl

theorem tsBlind_msetmtypeEffect (m v : State → Word) (hm : ∀ ts s, m (withTs ts s) = m s)
    (hv : ∀ ts s, v (withTs ts s) = v s) : TsBlind fun s => msetmtypeEffect (m s) (v s) s := by
  intro ts s
  have hc : (withTs ts s).cfg = s.cfg := rfl
  simp only [hm, hv]
  unfold msetmtypeEffect
  simp only [hc]
  split <;> rfl

theorem tsBlind_msetLength (f : Nat → State → State) (hf : ∀ n, TsBlind (f n)) (len : State → Nat)
    (hl : ∀ ts s, len (withTs ts s) = len s) (rd : XReg) :
    TsBlind fun s => (f (len s) s).writeX rd (wordX s.cfg (len s)) := by
  intro ts s
  simp only [hl, hf _ ts s]
  exact writeX_withTs ts _ rd _

theorem csrWrite_withTs (ts : List Byte) (s : State) (r : Csr) (w : Word) :
    csrWrite (withTs ts s) r w = withTs ts (csrWrite s r w) := by
  cases r <;> rfl

theorem tsBlind_csrSet (r : Csr) (rd rs1 : XReg) : TsBlind (csrSet r rd rs1) := by
  intro ts s
  have hr : csrRead (withTs ts s) r = csrRead s r := by cases r <;> rfl
  have hx : (withTs ts s).readX rs1 = s.readX rs1 := rfl
  unfold csrSet
  simp only [hr, hx, csrWrite_withTs]
  split <;> exact congrArg advance (writeX_withTs ts _ rd _)

/-- A configuration instruction commutes with a replacement of the tile state when its effect does. -/
theorem withConfigChecks_withTs {f : State → State} (hf : TsBlind f) (i : Instr) (rs : List XReg) (ts : List Byte) (s : State) :
    withConfigChecks i rs (withTs ts s) f = mapNext (withTs ts) (withConfigChecks i rs s f) := by
  have hv : vsOff (withTs ts s) = vsOff s := rfl
  have hc : (withTs ts s).cfg = s.cfg := rfl
  unfold withConfigChecks
  rw [hv, hc, hf ts s, illegal_withTs]
  split <;> rfl

theorem withXRegs_withTs {f : State → Result} {ts : List Byte} {s : State} (hf : f (withTs ts s) = mapNext (withTs ts) (f s))
    (i : Instr) (rs : List XReg) : withXRegs i rs (withTs ts s) f = mapNext (withTs ts) (withXRegs i rs s f) := by
  have hc : (withTs ts s).cfg = s.cfg := rfl
  unfold withXRegs
  rw [hc, hf, illegal_withTs]
  split <;> rfl

/-- A register write of a host instruction, and the advance of `pc`. -/
theorem wrote_withTs (ts : List Byte) (s : State) (rd : XReg) (v : Word) :
    advance ((withTs ts s).writeX rd v) = withTs ts (advance (s.writeX rd v)) :=
  congrArg advance (writeX_withTs ts s rd v)

/-- An instruction that is no tile instruction neither reads nor writes the tile state (R59). -/
theorem exec_withTs {i : Instr} (hi : i.usesTiles = false) (ts : List Byte) (s : State) :
    exec i (withTs ts s) = mapNext (withTs ts) (exec i s) := by
  have hx : ∀ r, (withTs ts s).readX r = s.readX r := fun _ => rfl
  have hc : (withTs ts s).cfg = s.cfg := rfl
  have hp : (withTs ts s).pc = s.pc := rfl
  cases i with
  | vsetvli rd rs1 zimm =>
    exact withConfigChecks_withTs (tsBlind_vsetvlEffect rd (fun _ => zimm.setWidth 64) (fun s => vsetAvl s rd rs1)
      (fun _ _ => rfl) fun _ _ => rfl) _ _ ts s
  | vsetivli rd uimm zimm =>
    exact withConfigChecks_withTs (tsBlind_vsetvlEffect rd (fun _ => zimm.setWidth 64) (fun _ => uimm.toNat)
      (fun _ _ => rfl) fun _ _ => rfl) _ _ ts s
  | vsetvl rd rs1 rs2 =>
    exact withConfigChecks_withTs (tsBlind_vsetvlEffect rd (fun s => s.readX rs2) (fun s => vsetAvl s rd rs1)
      (fun _ _ => rfl) fun _ _ => rfl) _ _ ts s
  | msetmtype rs1 rs2 =>
    exact withConfigChecks_withTs (tsBlind_msetmtypeEffect (fun s => s.readX rs1) (fun s => s.readX rs2)
      (fun _ _ => rfl) fun _ _ => rfl) _ _ ts s
  | msetmtypei mtypei vsewi =>
    exact withConfigChecks_withTs (tsBlind_msetmtypeEffect (fun _ => mtypei.setWidth 64) (fun _ => vsewi.setWidth 64 <<< 3)
      (fun _ _ => rfl) fun _ _ => rfl) _ _ ts s
  | msettn rd rs1 =>
    simp only [exec, execMsettn]
    exact withConfigChecks_withTs (tsBlind_msetLength (fun n s => { s with vl := n }) (fun _ _ _ => rfl)
      (fun s => msettnLength s rd rs1) (fun _ _ => rfl) rd) _ _ ts s
  | msettm rd rs1 =>
    simp only [exec, execMsettm]
    exact withConfigChecks_withTs (tsBlind_msetLength (fun n s => { s with mtype := { s.mtype with tm := BitVec.ofNat 14 n } })
      (fun _ _ _ => rfl) (fun s => msettmLength s rs1) (fun _ _ => rfl) rd) _ _ ts s
  | msettk rd rs1 =>
    simp only [exec, execMsettk]
    exact withConfigChecks_withTs (tsBlind_msetLength (fun n s => { s with mtype := { s.mtype with tk := BitVec.ofNat 3 n } })
      (fun _ _ _ => rfl) (fun s => msettkLength s rs1) (fun _ _ => rfl) rd) _ _ ts s
  | addi | add =>
    simp only [exec, execAddi, execAdd]
    refine withXRegs_withTs ?_ _ _
    simp only [hx, wrote_withTs]
    rfl
  | slli rd rs1 shamt =>
    simp only [exec, execSlli]
    refine withXRegs_withTs ?_ _ _
    simp only [hx, hc, wrote_withTs, illegal_withTs]
    split <;> rfl
  | bne rs1 rs2 offset =>
    simp only [exec, execBne]
    refine withXRegs_withTs ?_ _ _
    simp only [hx, hc, hp, tsBlind_takeException _ _ ts s]
    split
    · rfl
    · split <;> rfl
  | csrrs rd n rs1 =>
    have ha : ∀ r b, csrAccess (withTs ts s) r b = csrAccess s r b := fun r b => by cases r <;> rfl
    have ht : ∀ r, csrTarget (withTs ts s) r = csrTarget s r := fun _ => rfl
    simp only [exec, execCsrrs]
    refine withXRegs_withTs ?_ _ _
    simp only [ha, ht, hc, tsBlind_csrSet _ _ _ ts s, illegal_withTs, tsBlind_takeException _ _ ts s]
    split
    · rfl
    · split <;> rfl
  | _ => cases hi

/-- Settles O58: with MS Off a tile instruction traps, and no other instruction has to do with the tile state. -/
theorem msOffHidesTileState : Obligations.MsOffHidesTileState := by
  intro i s ts h
  cases hi : i.usesTiles
  · exact exec_withTs hi ts s
  · have h' : msOff (withTs ts s) = true := h
    show exec i (withTs ts s) = mapNext (withTs ts) (exec i s)
    rw [exec_tiles_of_off (.inr h') hi, exec_tiles_of_off (.inr h) hi, illegal_withTs]
    rfl

end Sys2Proof.Machine
end

section
/-! PROOFS about the tile state of 10_state.md: that the elements of a width partition it, and what the instructions that write it
leave there. -/

namespace Sys2Proof.Machine

/-! ### Elements and slabs -/

/-- An element's bytes end inside its block of 16 (R36). -/
theorem punMinor_add_le {w : Nat} (hw : w ∈ tileWidths) (r c : Nat) : punMinor r c w + w / 8 ≤ 16 := by
  have h1 := punMinor_lt r c w
  have h2 := punMinor_aligned hw r c
  simp only [tileWidths, List.mem_cons, List.not_mem_nil, or_false] at hw
  rcases hw with rfl | rfl | rfl | rfl <;> norm_num at h2 ⊢ <;> omega

/-- The slab of an element is one of those of its tile (R35). -/
theorem punSlab_bounds {w : Nat} (hw : w ∈ tileWidths) {m t r c : Nat} (hr : r < punEdge m w) :
    t ≤ punSlab m t r c w ∧ punSlab m t r c w < t + tileStep w := by
  simp only [tileWidths, List.mem_cons, List.not_mem_nil, or_false] at hw
  rcases hw with rfl | rfl | rfl | rfl <;> simp only [punEdge, punSlab, tileStep] at hr ⊢ <;> norm_num at hr ⊢
  · omega
  · have : r / 2 / m < 2 := Nat.div_lt_of_lt_mul (by omega)
    omega
  · have : r / m < 2 := Nat.div_lt_of_lt_mul (by omega)
    omega

/-- Settles O28: an element lies in one block of one slab, and that slab is one of its tile's. -/
theorem tileOccupiesItsSlabs : Obligations.TileOccupiesItsSlabs := by
  rintro c w t r col o hc hw ⟨-, -, hr, hcol⟩ ⟨ho1, ho2⟩
  obtain ⟨m, hm, hte⟩ := te_eq hc
  rw [ete_eq_punEdge hte] at hr hcol
  rw [hte] at ho1 ho2 ⊢
  obtain ⟨hs1, hs2⟩ := punSlab_bounds hw (t := t) (c := col) hr
  have hblock := radix_lt (punRow_lt hw hm hr) (punCol_lt hw hcol)
  have hminor := punMinor_add_le hw r col
  have hlow := Nat.mul_le_mul_right (m * m) hs1
  have hhigh : (punSlab m t r col w + 1) * (m * m) ≤ (t + tileStep w) * (m * m) := Nat.mul_le_mul_right _ hs2
  rw [punning_split hw] at ho1 ho2
  have e1 : t * (4 * m) * (4 * m) = 16 * (t * (m * m)) := by ring
  have e2 : (t + tileStep w) * (4 * m) * (4 * m) = 16 * ((t + tileStep w) * (m * m)) := by ring
  rw [Nat.succ_mul] at hhigh
  omega

/-- The row of the element of width `w` that holds byte `n` of the block in row `a` of slab `q` (R36 read backwards). -/
def rowOfByte (m q a n w : Nat) : Nat :=
  match w with
  | 8 => 4 * a + n / 4
  | 16 => 4 * a + 2 * (q % 2) + n / 4 % 2
  | 32 => 2 * (m * (q % 4 / 2) + a) + n / 8
  | _ => m * (q % 2) + a

/-- The column of the element of width `w` that holds byte `n` of the block in column `b` of slab `q` (R36 read backwards). -/
def colOfByte (q b n w : Nat) : Nat :=
  match w with
  | 8 => 4 * b + n % 4
  | 16 => 4 * b + 2 * (n / 8) + n / 2 % 2
  | 32 => 4 * b + 2 * (q % 2) + n / 4 % 2
  | _ => 2 * b + n / 8

section
variable {w : Nat} (hw : w ∈ tileWidths) {m q a b n : Nat} (hq : q < 16) (ha : a < m) (hb : b < m) (hn : n < 16)
include hw

include ha hn in
theorem rowOfByte_lt : rowOfByte m q a n w < punEdge m w := by
  simp only [tileWidths, List.mem_cons, List.not_mem_nil, or_false] at hw
  rcases hw with rfl | rfl | rfl | rfl <;> simp only [rowOfByte, punEdge] <;> norm_num
  · omega
  · omega
  · have : m * (q % 4 / 2) ≤ m * 1 := Nat.mul_le_mul_left m (by omega)
    omega
  · have : m * (q % 2) ≤ m * 1 := Nat.mul_le_mul_left m (by omega)
    omega

include hb hn in
theorem colOfByte_lt : colOfByte q b n w < punEdge m w := by
  simp only [tileWidths, List.mem_cons, List.not_mem_nil, or_false] at hw
  rcases hw with rfl | rfl | rfl | rfl <;> simp only [colOfByte, punEdge] <;> norm_num <;> omega

include hq ha hn in
/-- The element found for a byte starts at the byte's place, rounded down to the width. -/
theorem punning_ofByte :
    punning (4 * m) (q - q % tileStep w) (rowOfByte m q a n w) (colOfByte q b n w) w
      = 16 * (q * (m * m) + (a * m + b)) + (n - n % (w / 8)) := by
  rw [punning_split hw]
  simp only [tileWidths, List.mem_cons, List.not_mem_nil, or_false] at hw
  have hrow : ∀ k, (m * k + a) / m = k ∧ (m * k + a) % m = a := fun k =>
    ⟨by rw [Nat.mul_add_div (by omega), Nat.div_eq_of_lt ha, Nat.add_zero], by rw [Nat.mul_add_mod, Nat.mod_eq_of_lt ha]⟩
  have ham : a % m = a := Nat.mod_eq_of_lt ha
  have hplaces : ∀ {sl ro co mi sl' ro' co' mi' : Nat}, sl = sl' → ro = ro' → co = co' → mi = mi' →
      16 * (sl * (m * m) + (ro * m + co)) + mi = 16 * (sl' * (m * m) + (ro' * m + co')) + mi' := by
    rintro _ _ _ _ _ _ _ _ rfl rfl rfl rfl; rfl
  rcases hw with rfl | rfl | rfl | rfl <;> apply hplaces <;>
    simp only [punSlab, punRow, punCol, punMinor, rowOfByte, colOfByte, tileStep] <;> norm_num
  case inr.inr.inl.a | inr.inr.inl.a =>
    rw [show (2 * (m * (q % 4 / 2) + a) + n / 8) / 2 = m * (q % 4 / 2) + a by omega]
    have := hrow (q % 4 / 2)
    omega
  case inr.inr.inr.a =>
    rw [(hrow _).1]
    omega
  all_goals omega

end

/-- A byte of the tile state by its slab, the row and column of its block there, and its place in the block (R36). -/
theorem byte_place {m o : Nat} (hm : 0 < m) (ho : o < 16 * (m * m * 16)) :
    ∃ q a b n, q < 16 ∧ a < m ∧ b < m ∧ n < 16 ∧ o = 16 * (q * (m * m) + (a * m + b)) + n := by
  refine ⟨o / 16 / (m * m), o / 16 % (m * m) / m, o / 16 % (m * m) % m, o % 16, ?_, ?_, Nat.mod_lt _ hm,
    Nat.mod_lt _ (by norm_num), ?_⟩
  · exact Nat.div_lt_of_lt_mul (Nat.div_lt_of_lt_mul ho)
  · exact Nat.div_lt_of_lt_mul (Nat.mod_lt _ (Nat.mul_pos hm hm))
  · rw [Nat.div_add_mod', Nat.div_add_mod', Nat.div_add_mod]

/-- Every byte of the tile state lies in a valid element (R36). -/
theorem exists_element_of_byte {c : Config} (hc : c.wf = true) {w : Nat} (hw : w ∈ tileWidths) {o : Nat} (ho : o < c.tileBytes) :
    ∃ t r col, ValidElement c w t r col ∧ InElement c w t r col o := by
  obtain ⟨m, hm, hte⟩ := te_eq hc
  have hbytes : c.tileBytes = 16 * (m * m * 16) := by rw [Config.tileBytes, hte]; ring
  obtain ⟨q, a, b, n, hq, ha, hb, hn, rfl⟩ := byte_place hm (hbytes ▸ ho)
  have hstart := punning_ofByte hw hq ha (b := b) hn
  have hin : n % (w / 8) < w / 8 := by
    refine Nat.mod_lt _ ?_
    simp only [tileWidths, List.mem_cons, List.not_mem_nil, or_false] at hw
    omega
  have hle := Nat.mod_le n (w / 8)
  refine ⟨q - q % tileStep w, rowOfByte m q a n w, colOfByte q b n w,
    ⟨by omega, Nat.mod_eq_zero_of_dvd (Nat.dvd_sub_mod q), ?_, ?_⟩, ?_⟩
  · rw [ete_eq_punEdge hte]
    exact rowOfByte_lt hw ha hn
  · rw [ete_eq_punEdge hte]
    exact colOfByte_lt hw hb hn
  · rw [InElement, hte, hstart]
    omega

/-- Settles O27: the element is read off the byte's slab, block and place, and two elements that share a byte are one. -/
theorem elementsPartitionTileState : Obligations.ElementsPartitionTileState := by
  intro c w o hc hw ho
  obtain ⟨t, r, col, hv, he⟩ := exists_element_of_byte hc hw ho
  refine ⟨t, r, col, hv, he, fun t' r' col' hv' he' => ?_⟩
  by_contra hne
  have := validElement_apart hc hw hv' hv hne
  unfold InElement at he he'
  omega

/-! ### An instruction that writes tile elements and ends -/

/-- A Zvm instruction that leaves the tile state `ts`, does `SetMSDirty()` when `b` holds, and ends (R13, R60). -/
def tileEnd (b : Bool) (ts : List Byte) (s : State) : State := completeZvm (dirtyMs b { s with ts := ts })

theorem tileEnd_zvmEnd (b : Bool) (ts : List Byte) (s : State) : ZvmEnd s (tileEnd b ts s) := completeZvm_end rfl rfl rfl rfl

theorem tileEnd_frame (b : Bool) (ts : List Byte) (s : State) :
    tileEnd b ts s = { s.endFromMs (tileEnd b ts s) with ts := (tileEnd b ts s).ts } := rfl

theorem tileEnd_msDirtied (ts : List Byte) (s : State) : MsDirtied s (tileEnd true ts s) where
  ms := by simp [tileEnd]
  guestMs := by simp [tileEnd, dirtyIf_eq]

theorem tileEnd_msKept (ts : List Byte) (s : State) : MsKept s (tileEnd false ts s) := by
  constructor <;> simp [tileEnd]

/-- MS follows the tile state when the instruction dirties it unless it wrote nothing (R60). -/
theorem tileEnd_msFollowsTile {b : Bool} {ts : List Byte} {s : State} (h : b = false → ts = s.ts) :
    MsFollowsTile s (tileEnd b ts s) := by
  cases b
  · exact .inl ⟨tileEnd_msKept ts s, fun o => by rw [h rfl]; rfl⟩
  · exact .inr (tileEnd_msDirtied ts s)

/-- Writing back every byte of elements changes nothing. -/
theorem overlay_agnostic_false {s : State} {α : Type} {is : List α} {off num : α → Nat} {n : Nat}
    (h : ∀ i ∈ is, Config.agnosticOnes s.draws (num i) = false) :
    overlay s.ts (is.map fun i => agnosticWrite s s.ts (off i) n (num i)) = s.ts := by
  refine overlay_self fun w hw => ?_
  obtain ⟨i, hi, rfl⟩ := List.mem_map.1 hw
  exact ⟨n, by simp [agnosticWrite, h i hi, agnosticBytes_false]⟩

/-! ### `vtmv.t.v` -/

theorem bodyIndices_eq_nil {s : State} {w : Nat} (h : tn s w ≤ s.vstart) : bodyIndices s w = [] := by
  rw [bodyIndices, Nat.sub_eq_zero_of_le h, List.range'_zero]

theorem subsetWritten_of_body {s : State} {w : Nat} (h : s.vstart < tn s w) : subsetWritten s w = true := by
  simp [subsetWritten, bodyIndices_isEmpty, Nat.not_le.2 h]

/-- A move that writes no tile element writes back what the tail holds. -/
theorem overlay_of_not_subsetWritten {s : State} {u : Subset} {vs2 : VReg} (h : subsetWritten s (sew s.vtype) = false) :
    overlay s.ts (moveToTileWrites s u vs2 ++ subsetTailWrites s u (sew s.vtype)) = s.ts := by
  simp only [subsetWritten, Bool.or_eq_false_iff, Bool.not_eq_false', List.isEmpty_iff, List.any_eq_false,
    Bool.not_eq_true] at h
  obtain ⟨hbody, htail⟩ := h
  rw [moveToTileWrites, hbody]
  exact overlay_agnostic_false htail

/-- Settles O37: the checks pass, and the move writes the body and the tail of the subset. -/
theorem moveVectorToTile : Obligations.MoveVectorToTile := by
  intro s vs2 rs1 u hI hvs hms hvill hgroup hregs htss
  have hw : sew s.vtype ∈ tileWidths := by
    simpa [tileWidths] using sew_cases hI.config.vsew
  refine ⟨moveToTile vs2 u s, withMoveChecks_run ⟨hvs, hms, hvill, hgroup, hregs, htss⟩ _ _, ?_, fun hb => ?_, ?_, ?_, ?_⟩
  · exact subsetResult_of_writes hI.cfg hI.tsLength hw (tssDecode_valid hI.cfg htss)
      (g := fun i => velem s vs2.toNat i (sew s.vtype)) (fun _ _ => readBytes_length _ _ _) rfl rfl
  · have := tileEnd_msDirtied (overlay s.ts (moveToTileWrites s u vs2 ++ subsetTailWrites s u (sew s.vtype))) s
    rw [← subsetWritten_of_body hb] at this
    exact this
  · exact tileEnd_msFollowsTile overlay_of_not_subsetWritten
  · exact tileEnd_zvmEnd _ _ s
  · exact tileEnd_frame _ _ s

/-! ### `vtzero.t` -/

theorem leValue_replicate_zero (n : Nat) : leValue (List.replicate n 0#8) = 0 := by
  induction n with
  | zero => rfl
  | succ n ih => simp [List.replicate_succ, leValue, ih]

theorem zeroWritten_of_body {s : State} {tew : Nat} (hc : s.cfg.wf = true) (htm : s.mtype.tm ≠ 0#14) (htn : tn s tew ≠ 0) :
    zeroWritten s tew = true := by
  have hpos : 0 < s.mtype.tm.toNat := Nat.pos_of_ne_zero fun h => htm (BitVec.eq_of_toNat_eq h)
  have hmem : (0, 0) ∈ tileCoords (ete s.cfg tew) := mem_tileCoords.2 ⟨ete_pos hc _, ete_pos hc _⟩
  have hbody : (tileCoords (ete s.cfg tew)).any (inBody s tew) = true :=
    List.any_eq_true.2 ⟨_, hmem, inBody_iff.2 ⟨hpos, Nat.pos_of_ne_zero htn⟩⟩
  simp [zeroWritten, hbody]

/-- A `vtzero.t` that writes no tile element writes back what the tail holds. -/
theorem overlay_of_not_zeroWritten {s : State} {tew t : Nat} {body : Nat × Nat → List Byte} (h : zeroWritten s tew = false) :
    overlay s.ts (tileWrites s tew t body) = s.ts := by
  simp only [zeroWritten, Bool.or_eq_false_iff, List.any_eq_false, Bool.not_eq_true] at h
  obtain ⟨hbody, htail⟩ := h
  have heq : tileWrites s tew t body = (tileCoords (ete s.cfg tew)).map fun p =>
      agnosticWrite s s.ts (punning s.cfg.te t p.1 p.2 tew) (tew / 8) (p.1 * ete s.cfg tew + p.2) :=
    List.map_congr_left fun p hp => by simp [hbody p hp]
  rw [heq]
  exact overlay_agnostic_false htail

/-- What `vtzero.t` answers when its checks pass (R260). -/
theorem exec_vtzeroT {s : State} {mtd : Tile} {w : Nat} (h : zeroIllegal s = false)
    (hw : twidenOf s.cfg s.mtype.mtwiden = some w) (ht : mtd.toNat % tileStep (sew s.vtype * w) = 0) :
    exec (.vtzeroT mtd) s = .next (zeroTile (sew s.vtype * w) mtd.toNat s) := by
  simp [exec, execVtzeroT, h, hw, ht]

/-- Settles O39: the checks pass, and the whole tile is written, its body with zeros. -/
theorem vtzeroResult : Obligations.VtzeroResult := by
  intro s mtd w hI hvs hms hvill hvstart hw ht
  obtain ⟨hwidth, htm⟩ := tew_of_inv hI hvill hw
  have hz : zeroIllegal s = false := by simp [zeroIllegal, hvs, hms, hvill, hvstart]
  refine ⟨_, exec_vtzeroT hz hw ht, ?_, fun hm hn => ?_, ?_, ?_, ?_⟩
  · have := tileResult_of_writes (t := zeroTile (sew s.vtype * w) mtd.toNat s) hI.cfg hI.tsLength hwidth mtd.isLt ht htm
      (body := fun _ => List.replicate (sew s.vtype * w / 8) 0#8) (fun _ => List.length_replicate) rfl rfl
    simpa only [leValue_replicate_zero] using this
  · have := tileEnd_msDirtied
      (overlay s.ts (tileWrites s (sew s.vtype * w) mtd.toNat fun _ => List.replicate (sew s.vtype * w / 8) 0#8)) s
    rw [← zeroWritten_of_body hI.cfg hm hn] at this
    exact this
  · exact tileEnd_msFollowsTile overlay_of_not_zeroWritten
  · exact tileEnd_zvmEnd _ _ s
  · exact tileEnd_frame _ _ s

end Sys2Proof.Machine
end

section
/-! PROOFS about the tile loads and stores of 10_state.md: a load that completes, and what a load or store leaves when an element
raises an exception. -/

namespace Sys2Proof.Machine

theorem mem_tileWidths_of_tileLoads {rs1 rs2 : XReg} {p : Instr × Nat} (hp : p ∈ tileLoads rs1 rs2) : p.2 ∈ tileWidths := by
  simp only [tileLoads, List.mem_cons, List.not_mem_nil, or_false] at hp
  rcases hp with rfl | rfl | rfl | rfl <;> simp [tileWidths]

theorem mem_tileWidths_of_tileStores {rs1 rs2 : XReg} {p : Instr × Nat} (hp : p ∈ tileStores rs1 rs2) : p.2 ∈ tileWidths := by
  simp only [tileStores, List.mem_cons, List.not_mem_nil, or_false] at hp
  rcases hp with rfl | rfl | rfl | rfl <;> simp [tileWidths]

@[simp] theorem memReadBytes_length (c : Config) (m : Memory) (a n : Nat) : (memReadBytes c m a n).length = n := by
  simp [memReadBytes, byteAddrs]

/-! ### A load that completes -/

/-- Without an exception a load answers `loadComplete` (R168). -/
theorem exec_tileLoad_complete {s : State} {rs1 rs2 : XReg} {p : Instr × Nat} (hp : p ∈ tileLoads rs1 rs2) {u : Subset}
    (h : TileAccessReady s .load rs1 rs2 p.2 u)
    (hn : ∀ i, s.vstart ≤ i → i < tn s p.2 → accessException s .load (elemAddr s rs1 p.2 i) (p.2 / 8) = none) :
    exec p.1 s = .next (loadComplete u rs1 p.2 s) := by
  have hf : firstException s .load rs1 p.2 (bodyIndices s p.2) = none :=
    firstException_none fun i hi => hn i (mem_bodyIndices.1 hi).1 (mem_bodyIndices.1 hi).2
  rw [exec_tileLoad hp, withTileMemoryChecks_run h, tileLoad, hf]

/-- With an empty body a load leaves the whole subset as it was, which its agnostic tail may be. -/
theorem subsetResult_of_empty {s t : State} {w : Nat} (h : tn s w ≤ s.vstart) (u : Subset) (g : Nat → List Byte)
    (hc : t.cfg = s.cfg) (hts : t.ts = s.ts) : SubsetResult s t u w g where
  body i h1 h2 := by omega
  tail i _ _ := .inl (by rw [subsetElem, subsetElem, hts, hc])
  rest o _ := by rw [hts]
  length := by rw [hts]

/-- Settles O30: with a body the load writes body and tail and dirties MS; without one it only ends. -/
theorem tileLoadResult : Obligations.TileLoadResult := by
  intro s rs1 rs2 u hI p hp hr hn
  have hx := exec_tileLoad_complete hp hr hn
  rcases Nat.lt_or_ge s.vstart (tn s p.2) with hb | hb
  · rw [loadComplete_body hb] at hx
    refine ⟨_, hx, ?_, fun _ => tileEnd_msDirtied _ s, fun h => absurd hb (Nat.not_lt.2 h), tileEnd_zvmEnd _ _ s,
      tileEnd_frame _ _ s⟩
    exact subsetResult_of_writes hI.cfg hI.tsLength (mem_tileWidths_of_tileLoads hp) (tssDecode_valid hI.cfg hr.tss)
      (fun _ _ => memReadBytes_length ..) rfl rfl
  · rw [loadComplete_empty hb] at hx
    exact ⟨_, hx, subsetResult_of_empty hb u _ rfl rfl, fun h => absurd h (Nat.not_lt.2 hb), fun _ => ⟨⟨rfl, by simp⟩, rfl⟩,
      completeZvm_end rfl rfl rfl rfl, rfl⟩

/-! ### A load that traps -/

section
variable {s : State} {rs1 rs2 : XReg} {p : Instr × Nat} {i a : Nat} {e : Exception} (h1 : s.vstart ≤ i) (h2 : i < tn s p.2)
  {u : Subset}
include h1 h2

/-- A load whose lowest excepting element is `i` takes that exception (R175, R303c). -/
theorem exec_tileLoad_trapped (hp : p ∈ tileLoads rs1 rs2) (h : TileAccessReady s .load rs1 rs2 p.2 u)
    (h3 : ∀ j, s.vstart ≤ j → j < i → accessException s .load (elemAddr s rs1 p.2 j) (p.2 / 8) = none)
    (h4 : accessException s .load (elemAddr s rs1 p.2 i) (p.2 / 8) = some (e, a)) :
    exec p.1 s = .next (takeException e (BitVec.ofNat 64 a) (loadTrapState u rs1 p.2 i s)) := by
  have hf : firstException s .load rs1 p.2 (bodyIndices s p.2) = some (i, e, a) := firstException_some h1 (by omega) h3 h4
  rw [exec_tileLoad hp, withTileMemoryChecks_run h, tileLoad, hf]
  rfl

/-- A store whose lowest excepting element is `i` takes that exception (R175, R303c). -/
theorem exec_tileStore_trapped (hp : p ∈ tileStores rs1 rs2) (h : TileAccessReady s .store rs1 rs2 p.2 u)
    (h3 : ∀ j, s.vstart ≤ j → j < i → accessException s .store (elemAddr s rs1 p.2 j) (p.2 / 8) = none)
    (h4 : accessException s .store (elemAddr s rs1 p.2 i) (p.2 / 8) = some (e, a)) :
    exec p.1 s = .next (takeException e (BitVec.ofNat 64 a) (storeTrapState u rs1 p.2 i s)) := by
  have hf : firstException s .store rs1 p.2 (bodyIndices s p.2) = some (i, e, a) := firstException_some h1 (by omega) h3 h4
  rw [exec_tileStore hp, withTileMemoryChecks_run h, tileStore, hf]
  rfl

end

theorem loadTrapState_vsDirtied (u : Subset) (rs1 : XReg) (w i : Nat) (s : State) : VsDirtied s (loadTrapState u rs1 w i s) where
  vs := by simp [loadTrapState]
  guestVs := by simp [loadTrapState, dirtyIf_eq]

theorem loadTrapState_frame (u : Subset) (rs1 : XReg) (w i : Nat) (s : State) :
    loadTrapState u rs1 w i s
      = { s.endFromMs (loadTrapState u rs1 w i s) with ts := (loadTrapState u rs1 w i s).ts } := rfl

/-- A trapped load dirties MS when it loaded an element or its draw disturbed the tile (R60). -/
theorem loadTrapState_msDirtied {u : Subset} {rs1 : XReg} {w i : Nat} {s : State}
    (h : s.vstart < i ∨ Config.trapDisturbsTile s.draws = true) : MsDirtied s (loadTrapState u rs1 w i s) := by
  have hb : (!(List.range' s.vstart (i - s.vstart)).isEmpty || Config.trapDisturbsTile s.draws) = true := by
    rcases h with h | h
    · have : i - s.vstart ≠ 0 := by omega
      simp [this]
    · simp [h]
  constructor <;> simp [loadTrapState, hb, dirtyIf_eq]

/-- The bytes that a trapped load leaves in an element at or above the excepting one: drawn, or those of before (log 43). -/
def disturbedBytes (s : State) (u : Subset) (w j : Nat) : List Byte :=
  (List.range (w / 8)).map fun k =>
    if Config.trapDisturbsTile s.draws then Config.trapTileByte s.draws (u.offset s.cfg w j + k)
    else readByte s.ts (u.offset s.cfg w j + k)

theorem disturbedWrites_eq (s : State) (u : Subset) (w i : Nat) :
    disturbedWrites s u w i
      = (List.range' i (ete s.cfg w - i)).map fun j => (u.offset s.cfg w j, disturbedBytes s u w j) := rfl

/-- A trapped load that loaded no element and did not disturb the tile leaves the tile state as it was. -/
theorem loadTrapState_ts_eq {u : Subset} {rs1 : XReg} {w i : Nat} {s : State} (hi : i ≤ s.vstart)
    (hd : Config.trapDisturbsTile s.draws = false) : (loadTrapState u rs1 w i s).ts = s.ts := by
  have hdone : List.range' s.vstart (i - s.vstart) = [] := by rw [Nat.sub_eq_zero_of_le hi, List.range'_zero]
  show overlay s.ts (loadWrites s u rs1 w (List.range' s.vstart (i - s.vstart)) ++ disturbedWrites s u w i) = s.ts
  rw [hdone]
  refine overlay_self fun x hx => ?_
  obtain ⟨j, -, rfl⟩ := List.mem_map.1 hx
  exact ⟨w / 8, by simp [hd, readBytes]⟩

theorem loadTrapState_msFollowsTile (u : Subset) (rs1 : XReg) (w i : Nat) (s : State) :
    MsFollowsTile s (loadTrapState u rs1 w i s) := by
  by_cases h : s.vstart < i ∨ Config.trapDisturbsTile s.draws = true
  · exact .inr (loadTrapState_msDirtied h)
  · simp only [not_or, Nat.not_lt, Bool.not_eq_true] at h
    obtain ⟨hi, hd⟩ := h
    have hz : i - s.vstart = 0 := by omega
    refine .inl ⟨?_, fun o => by rw [loadTrapState_ts_eq hi hd]⟩
    constructor <;> simp [loadTrapState, hd, hz]

section
variable {s : State} (hI : s.Inv) {w : Nat} (hw : w ∈ tileWidths) {u : Subset} (hu : ValidSubset s.cfg w u) {i : Nat}
  (h1 : s.vstart ≤ i) (h2 : i < tn s w) (rs1 : XReg)
include hI hw hu h1 h2

/-- What a trapped load leaves in the tile state: the elements below the excepting one, and the bytes of no element from
`vstart` on (R175). -/
theorem loadTrapState_tile :
    (∀ j, s.vstart ≤ j → j < i → subsetElem (loadTrapState u rs1 w i s) u w j
      = memReadBytes s.cfg s.mem (elemAddr s rs1 w j) (w / 8)) ∧
    (∀ o, (∀ j, s.vstart ≤ j → j < ete s.cfg w → ¬ InElement s.cfg w u.tile (u.coord j).1 (u.coord j).2 o) →
      readByte (loadTrapState u rs1 w i s).ts o = readByte s.ts o) := by
  have hie : i < ete s.cfg w := lt_of_lt_of_le h2 (tn_le_ete s w)
  set done := List.range' s.vstart (i - s.vstart) with hdone
  set above := List.range' i (ete s.cfg w - i) with habove
  have memDone : ∀ {j}, j ∈ done ↔ s.vstart ≤ j ∧ j < i := by intro j; rw [hdone, List.mem_range'_1]; omega
  have memAbove : ∀ {j}, j ∈ above ↔ i ≤ j ∧ j < ete s.cfg w := by intro j; rw [habove, List.mem_range'_1]; omega
  have hdis : ∀ j ∈ above, j ∉ done := fun j ha hd => by rw [memAbove] at ha; rw [memDone] at hd; omega
  have hlt : ∀ j ∈ done ++ above, j < ete s.cfg w := by
    intro j hj
    rcases List.mem_append.1 hj with h | h
    · exact lt_trans (memDone.1 h).2 hie
    · exact (memAbove.1 h).2
  have hnd : (done ++ above).Nodup :=
    List.nodup_append'.2 ⟨List.nodup_range', List.nodup_range', fun j h h' => hdis j h' h⟩
  have hlen : ∀ j ∈ done ++ above, (if j ∈ done then memReadBytes s.cfg s.mem (elemAddr s rs1 w j) (w / 8)
      else disturbedBytes s u w j).length = w / 8 := by
    intro j _
    split <;> simp [disturbedBytes]
  have hts : (loadTrapState u rs1 w i s).ts = overlay s.ts ((done ++ above).map fun j => (u.offset s.cfg w j,
      if j ∈ done then memReadBytes s.cfg s.mem (elemAddr s rs1 w j) (w / 8) else disturbedBytes s u w j)) := by
    show overlay s.ts (loadWrites s u rs1 w done ++ disturbedWrites s u w i) = _
    rw [loadWrites, disturbedWrites_eq, map_append_piecewise _ _ _ _ hdis]
    refine congrArg (overlay s.ts) (List.map_congr_left fun j _ => ?_)
    split <;> rfl
  obtain ⟨hread, hrest, -⟩ := subset_writes hI.cfg hI.tsLength hw hu hlt hnd hlen
  refine ⟨fun j hj1 hj2 => ?_, fun o ho => ?_⟩
  · have hj := memDone.2 ⟨hj1, hj2⟩
    have := hread j (List.mem_append_left _ hj)
    rw [if_pos hj, ← hts] at this
    exact this
  · rw [hts]
    refine hrest o fun j hj => ho j ?_ (hlt j hj)
    rcases List.mem_append.1 hj with h | h
    · exact (memDone.1 h).1
    · exact h1.trans (memAbove.1 h).1

end

/-- Settles O32: the load takes the exception in `loadTrapState`, which wrote elements of the subset from `vstart` on alone. -/
theorem tileLoadTrapsAtElement : Obligations.TileLoadTrapsAtElement := by
  intro s rs1 rs2 u hI p hp hr i a e h1 h2 h3 h4
  obtain ⟨hread, hrest⟩ := loadTrapState_tile hI (mem_tileWidths_of_tileLoads hp) (tssDecode_valid hI.cfg hr.tss) h1 h2 rs1
  exact ⟨_, exec_tileLoad_trapped h1 h2 hp hr h3 h4, rfl, rfl, loadTrapState_vsDirtied .., fun h => loadTrapState_msDirtied (.inl h),
    loadTrapState_msFollowsTile .., hread, hrest, loadTrapState_frame ..⟩

/-! ### A store that traps -/

/-- A byte whose every write has one value reads as that value, once it is written. -/
theorem memRead_memWrites_of_unique {m : Memory} (ws : List (Nat × Byte)) (hm : Memory.wf m = true) {a : Nat} {v : Byte}
    (hv : ∀ w ∈ ws, w.1 = a → w.2 = v) (ha : ∃ w ∈ ws, w.1 = a) : memRead (memWrites m ws) a = v := by
  induction ws generalizing m with
  | nil => simp at ha
  | cons w ws ih =>
    have hm' := memWrite_wf w.1 w.2 hm
    by_cases hlater : ∃ x ∈ ws, x.1 = a
    · exact ih hm' (fun x hx => hv x (List.mem_cons_of_mem _ hx)) hlater
    · have hw : w.1 = a := by
        obtain ⟨x, hx, hxa⟩ := ha
        rcases List.mem_cons.1 hx with rfl | hx
        · exact hxa
        · exact absurd ⟨x, hx, hxa⟩ hlater
      have hnot := memRead_memWrites_of_not_mem ws hm' (a := a) fun x hx hxa => hlater ⟨x, hx, hxa⟩
      show memRead (memWrites (memWrite m w.1 w.2) ws) a = v
      rw [hnot, memRead_memWrite hm, if_pos hw.symm, hv w (List.mem_cons_self ..) hw]

/-- The byte writes of a store that traps at element `i` (R175): all below it, and some at or above it. -/
def trapStoreWrites (s : State) (u : Subset) (rs1 : XReg) (w i : Nat) : List (Nat × Byte) :=
  storeWrites s u rs1 w (List.range' s.vstart (i - s.vstart))
    ++ (List.range' i (tn s w - i)).flatMap (trappedStoreWrites s u rs1 w)

theorem storeTrapState_eq (u : Subset) (rs1 : XReg) (w i : Nat) (s : State) :
    storeTrapState u rs1 w i s = dirtyVs true { applyStores (trapStoreWrites s u rs1 w i) s with vstart := i } := rfl

section
variable {s : State} {w : Nat} {u : Subset} {rs1 : XReg} {i : Nat}

/-- Every byte of an element below the excepting one is written. -/
theorem mem_trapStoreWrites_below {j k : Nat} (h1 : s.vstart ≤ j) (h2 : j < i) (hk : k < w / 8) :
    (elemByteAddr s rs1 w j k, readByte s.ts (u.offset s.cfg w j + k)) ∈ trapStoreWrites s u rs1 w i :=
  List.mem_append_left _ (mem_storeWrites.2 ⟨j, List.mem_range'_1.2 ⟨h1, by omega⟩, k, hk, rfl⟩)

variable (h1 : s.vstart ≤ i) (h2 : i < tn s w)
include h1 h2

/-- Every write of a trapped store is one of a byte of a body element. -/
theorem trapStoreWrites_mem {x : Nat × Byte} (hx : x ∈ trapStoreWrites s u rs1 w i) :
    ∃ j k, s.vstart ≤ j ∧ j < tn s w ∧ k < w / 8 ∧
      x = (elemByteAddr s rs1 w j k, readByte s.ts (u.offset s.cfg w j + k)) := by
  rcases List.mem_append.1 hx with hx | hx
  · obtain ⟨j, hj, k, hk, rfl⟩ := mem_storeWrites.1 hx
    have hj := List.mem_range'_1.1 hj
    exact ⟨j, k, hj.1, by omega, hk, rfl⟩
  · obtain ⟨j, hj, hx⟩ := List.mem_flatMap.1 hx
    obtain ⟨k, hk, rfl⟩ := List.mem_map.1 hx
    have hj := List.mem_range'_1.1 hj
    exact ⟨j, k, by omega, by omega, List.mem_range.1 (List.mem_filter.1 hk).1, rfl⟩

/-- Every write of a byte of a body element writes the element's byte. -/
theorem trapStoreWrites_value (hc : s.cfg.wf = true) (hw : w ∈ tileWidths) {j k : Nat} (hj : j < tn s w) (hk : k < w / 8) :
    ∀ x ∈ trapStoreWrites s u rs1 w i, x.1 = elemByteAddr s rs1 w j k → x.2 = readByte s.ts (u.offset s.cfg w j + k) := by
  intro x hx hxa
  obtain ⟨j', k', -, hj', hk', rfl⟩ := trapStoreWrites_mem h1 h2 hx
  have hle := tn_le_ete s w
  obtain ⟨rfl, rfl⟩ := elemByteAddr_inj hc hw (lt_of_lt_of_le hj' hle) (lt_of_lt_of_le hj hle) hk' hk hxa
  rfl

/-- A byte of a body element holds its old or its final value after a trapped store, the final one if it was written. -/
theorem storeTrapState_memRead (hI : s.Inv) (hw : w ∈ tileWidths) {j k : Nat} (hj : j < tn s w) (hk : k < w / 8) :
    memRead (storeTrapState u rs1 w i s).mem (elemByteAddr s rs1 w j k)
      = if ∃ x ∈ trapStoreWrites s u rs1 w i, x.1 = elemByteAddr s rs1 w j k then readByte s.ts (u.offset s.cfg w j + k)
        else memRead s.mem (elemByteAddr s rs1 w j k) := by
  show memRead (memWrites s.mem (trapStoreWrites s u rs1 w i)) _ = _
  split
  · exact memRead_memWrites_of_unique _ hI.mem (trapStoreWrites_value h1 h2 hI.cfg hw hj hk) ‹_›
  · rename_i hn
    exact memRead_memWrites_of_not_mem _ hI.mem fun x hx hxa => hn ⟨x, hx, hxa⟩

end

/-- The record of stored addresses after a trapped store (R84). -/
theorem mem_storeTrapState_unsynced {s : State} {u : Subset} {rs1 : XReg} {w i b : Nat} :
    b ∈ (storeTrapState u rs1 w i s).unsynced ↔ b ∈ s.unsynced ∨ ∃ x ∈ trapStoreWrites s u rs1 w i, x.1 = b :=
  mem_foldl_insertAddr _

theorem storeTrapState_vsDirtied (u : Subset) (rs1 : XReg) (w i : Nat) (s : State) : VsDirtied s (storeTrapState u rs1 w i s) where
  vs := by simp [storeTrapState]
  guestVs := by simp [storeTrapState, dirtyIf_eq]

/-- Settles O33: the store takes the exception in `storeTrapState`, whose writes are of bytes of body elements, with their values. -/
theorem tileStoreTrapsAtElement : Obligations.TileStoreTrapsAtElement := by
  intro s rs1 rs2 u hI p hp hr i a e h1 h2 h3 h4
  have hw := mem_tileWidths_of_tileStores hp
  refine ⟨_, exec_tileStore_trapped h1 h2 hp hr h3 h4, rfl, rfl, storeTrapState_vsDirtied .., fun j k b hj1 hj2 hb => ?_,
    fun j k b hj1 hj2 hb => ?_, fun b hb => ?_, fun b hb => ?_, fun j k b hj1 hj2 hb => ?_, fun b hb => ?_, rfl⟩
  · obtain ⟨hk, rfl⟩ := (isElementByte_iff ..).1 hb
    rw [storeTrapState_memRead h1 h2 hI hw (by omega) hk, if_pos ⟨_, mem_trapStoreWrites_below hj1 hj2 hk, rfl⟩,
      subsetElem_getD s u j hk]
  · obtain ⟨hk, rfl⟩ := (isElementByte_iff ..).1 hb
    rw [storeTrapState_memRead h1 h2 hI hw hj2 hk, subsetElem_getD s u j hk]
    split
    · exact .inr rfl
    · exact .inl rfl
  · refine memRead_memWrites_of_not_mem (trapStoreWrites s u rs1 p.2 i) hI.mem fun x hx hxb => ?_
    obtain ⟨j, k, hj1, hj2, hk, rfl⟩ := trapStoreWrites_mem h1 h2 hx
    exact hb j k hj1 hj2 ((isElementByte_iff ..).2 ⟨hk, hxb.symm⟩)
  · rw [mem_storeTrapState_unsynced]
    refine hb.imp id fun hne => ?_
    by_contra hn
    exact hne (memRead_memWrites_of_not_mem (trapStoreWrites s u rs1 p.2 i) hI.mem fun x hx hxb => hn ⟨x, hx, hxb⟩)
  · obtain ⟨hk, rfl⟩ := (isElementByte_iff ..).1 hb
    exact mem_storeTrapState_unsynced.2 (.inr ⟨_, mem_trapStoreWrites_below hj1 hj2 hk, rfl⟩)
  · refine (mem_storeTrapState_unsynced.1 hb).imp id fun ⟨x, hx, hxb⟩ => ?_
    obtain ⟨j, k, hj1, hj2, hk, rfl⟩ := trapStoreWrites_mem h1 h2 hx
    exact ⟨j, k, hj1, hj2, (isElementByte_iff ..).2 ⟨hk, hxb.symm⟩⟩

end Sys2Proof.Machine
end

section
/-! PROOFS about the flags, the host arithmetic and the CSRs of 10_state.md. -/

namespace Sys2Proof.Machine

/-! ### The flags that a matrix instruction may change -/

/-- A matrix instruction has a form, floating point or integer as its family says (R62, R210, R233). -/
theorem matrixInstr_of_family {i : Instr} (h : i.isFloatMatrix = true ∨ i.isIntMatrix = true) :
    ∃ f mtd vs2 vs1, (i, f) ∈ matrixInstrs mtd vs2 vs1 ∧ f.isFloat = !i.isIntMatrix := by
  cases i with
  | mmFF t a b => exact ⟨.ieee, t, a, b, by simp [matrixInstrs], rfl⟩
  | p2mmFF t a b => exact ⟨.packed, t, a, b, by simp [matrixInstrs], rfl⟩
  | mmE5m2E5m2 t a b => exact ⟨.fp8 .e5m2 .e5m2, t, a, b, by simp [matrixInstrs], rfl⟩
  | mmE5m2E4m3 t a b => exact ⟨.fp8 .e5m2 .e4m3, t, a, b, by simp [matrixInstrs], rfl⟩
  | mmE4m3E5m2 t a b => exact ⟨.fp8 .e4m3 .e5m2, t, a, b, by simp [matrixInstrs], rfl⟩
  | mmE4m3E4m3 t a b => exact ⟨.fp8 .e4m3 .e4m3, t, a, b, by simp [matrixInstrs], rfl⟩
  | mmUU t a b => exact ⟨.int8 false false, t, a, b, by simp [matrixInstrs], rfl⟩
  | mmSU t a b => exact ⟨.int8 true false, t, a, b, by simp [matrixInstrs], rfl⟩
  | mmUS t a b => exact ⟨.int8 false true, t, a, b, by simp [matrixInstrs], rfl⟩
  | mmSS t a b => exact ⟨.int8 true true, t, a, b, by simp [matrixInstrs], rfl⟩
  | _ => simp [Instr.isFloatMatrix, Instr.isIntMatrix] at h

/-- The flags and `vxsat` after a matrix instruction: only a floating-point accumulation ORs flags in (R28, R218). -/
theorem matrixMultiply_flags {i : Instr} {f : MatrixForm} {mtd : Tile} {vs2 vs1 : VReg} {s t : State}
    (h : matrixMultiply i f mtd vs2 vs1 s = .next t) :
    t.vxsat = s.vxsat ∧ (t.fflags = s.fflags ∨ f.isFloat = true ∧ ∃ fl, t.fflags = orMatrixFlags s.fflags fl) := by
  rcases matrixMultiply_next h with rfl | ⟨-, rfl⟩ | ⟨w, a, -, ha, -, -, rfl⟩
  · exact ⟨by simp, .inl (by simp)⟩
  · exact ⟨rfl, .inl rfl⟩
  · refine ⟨rfl, ?_⟩
    rw [← matrixArith_isFloat ha]
    have hfl : (matrixAccumulate a (sew s.vtype * w) mtd.toNat vs2 vs1 s).fflags
        = if a.isFloat then orMatrixFlags s.fflags (matrixFlags s a (sew s.vtype * w) mtd.toNat vs2 vs1) else s.fflags := rfl
    rw [hfl]
    split
    · exact .inr ⟨‹_›, _, rfl⟩
    · exact .inl rfl

/-- Flags ORed in by a matrix instruction leave NX, UF and DZ alone and clear none (R218). -/
theorem orMatrixFlags_spec (old fl : BitVec 5) :
    orMatrixFlags old fl &&& 0b01011#5 = old &&& 0b01011#5 ∧ orMatrixFlags old fl &&& old = old := by
  have hmask : ∀ j < 5, (matrixFlagMask.getLsbD j && (0b01011#5).getLsbD j) = false := by decide
  constructor <;> refine BitVec.eq_of_getLsbD_eq fun j hj => ?_ <;>
    simp only [orMatrixFlags, BitVec.getLsbD_and, BitVec.getLsbD_or]
  · rw [Bool.and_or_distrib_right, Bool.and_assoc, hmask j hj, Bool.and_false, Bool.or_false]
  · cases old.getLsbD j <;> simp

/-- Settles O48: a matrix instruction keeps `vxsat`, and keeps the flags or, in a floating-point form, ORs in what R218 allows.
(The plain name is the model's function.) -/
theorem matrixFlags' : Obligations.MatrixFlags := by
  intro i s t h
  have key : i.isFloatMatrix = true ∨ i.isIntMatrix = true → t.vxsat = s.vxsat ∧
      (t.fflags = s.fflags ∨ i.isIntMatrix = false ∧ ∃ fl, t.fflags = orMatrixFlags s.fflags fl) := by
    intro hi
    obtain ⟨f, mtd, vs2, vs1, hm, hf⟩ := matrixInstr_of_family hi
    rw [exec_matrixInstr hm] at h
    simpa [hf] using matrixMultiply_flags h
  refine ⟨fun hi => ?_, fun hi => ?_, fun hi => (key hi).1⟩
  · rcases (key (.inl hi)).2 with he | ⟨-, fl, he⟩
    · rw [he]
      exact ⟨rfl, BitVec.and_self⟩
    · rw [he]
      exact orMatrixFlags_spec s.fflags fl
  · rcases (key (.inr hi)).2 with he | ⟨hn, -⟩
    · exact he
    · rw [hi] at hn
      cases hn

/-! ### Host arithmetic -/

theorem xregsExist_cons {c : Config} {r : XReg} {rs : List XReg} :
    xregsExist c (r :: rs) = true ↔ r.toNat < c.nxregs ∧ xregsExist c rs = true := by
  simp [xregsExist]

/-- What a register write and the advance of `pc` leave (R21, R22). -/
theorem wrote_spec {s : State} (rd : XReg) {v : Word} {n : Nat} (hv : (truncX s.cfg v).toNat = n) :
    WroteX s (advance (s.writeX rd v)) rd n ∧ PcAdvanced s (advance (s.writeX rd v)) ∧
      advance (s.writeX rd v) = { s with x := (advance (s.writeX rd v)).x, pc := (advance (s.writeX rd v)).pc } := by
  refine ⟨wroteX_of_writeX rfl rfl hv, ?_, ?_⟩
  · simpa [PcAdvanced] using advance_pcAdvanced (s.writeX rd v)
  · rw [writeX_frame]
    rfl

theorem truncX_toNat_eq {c : Config} {w : Word} {z : Int} (h : ((truncX c w).toNat : Int) = z % 2 ^ c.xlenBits) :
    (truncX c w).toNat = (z % 2 ^ c.xlenBits).toNat := by
  omega

/-- A shift left as a register value (R281). -/
theorem truncX_shiftLeft_toNat (c : Config) (a : Word) (k : Nat) :
    ((truncX c (a <<< k)).toNat : Int) = ((a.toNat : Int) * 2 ^ k) % 2 ^ c.xlenBits := by
  rw [truncX_toNat, BitVec.toNat_shiftLeft, Nat.shiftLeft_eq, Nat.mod_mod_of_dvd _ (two_pow_xlenBits_dvd c)]
  push_cast
  rfl

theorem exec_addi {s : State} {rd rs1 : XReg} (hx : xregsExist s.cfg [rd, rs1] = true) (imm : BitVec 12) :
    exec (.addi rd rs1 imm) s = .next (advance (s.writeX rd (s.readX rs1 + imm.signExtend 64))) := by
  simp only [exec, execAddi, withXRegs_of_exist hx]

theorem exec_slli {s : State} {rd rs1 : XReg} (hx : xregsExist s.cfg [rd, rs1] = true) {shamt : BitVec 6}
    (h : shamt.toNat < s.cfg.xlenBits) :
    exec (.slli rd rs1 shamt) s = .next (advance (s.writeX rd (s.readX rs1 <<< shamt.toNat))) := by
  simp only [exec, execSlli, withXRegs_of_exist hx, Nat.not_le.2 h, if_false]

theorem exec_add {s : State} {rd rs1 rs2 : XReg} (hx : xregsExist s.cfg [rd, rs1, rs2] = true) :
    exec (.add rd rs1 rs2) s = .next (advance (s.writeX rd (s.readX rs1 + s.readX rs2))) := by
  simp only [exec, execAdd, withXRegs_of_exist hx]

/-- Settles O52: each instruction writes its word to `rd` and advances, and the word is the result modulo 2^XLEN. -/
theorem hostArithmetic : Obligations.HostArithmetic := by
  intro s rd rs1 rs2 imm shamt hx hsh p hp
  obtain ⟨hrd, hx1⟩ := xregsExist_cons.1 hx
  obtain ⟨hrs1, -⟩ := xregsExist_cons.1 hx1
  have hx2 : xregsExist s.cfg [rd, rs1] = true := xregsExist_cons.2 ⟨hrd, xregsExist_cons.2 ⟨hrs1, rfl⟩⟩
  simp only [List.mem_cons, List.not_mem_nil, or_false] at hp
  rcases hp with rfl | rfl | rfl
  · exact ⟨_, exec_addi hx2 imm, wrote_spec rd (truncX_toNat_eq
      (truncX_add_toNat _ _ _ _ (signExtend64_toNat imm (by norm_num))))⟩
  · exact ⟨_, exec_slli hx2 hsh, wrote_spec rd (truncX_toNat_eq (truncX_shiftLeft_toNat _ _ _))⟩
  · refine ⟨_, exec_add hx, wrote_spec rd (truncX_toNat_eq (truncX_add_toNat _ _ _ _ ?_))⟩
    exact (Int.emod_eq_of_lt (by omega) (by exact_mod_cast (s.readX rs2).isLt)).symm

/-! ### `csrrs` -/

/-- A granted `csrrs` sets the bits of `x[rs1]` in the CSR that the number reaches (R284). -/
theorem exec_csrrs_granted {s : State} {rd rs1 : XReg} {n : BitVec 12} {r : Csr} (hx : xregsExist s.cfg [rd, rs1] = true)
    (hn : csrOfNumber n = some r) (ha : csrAccess s r (!(rs1 == 0#5)) = .granted) :
    exec (.csrrs rd n rs1) s = .next (csrSet (csrTarget s r) rd rs1 s) := by
  simp only [exec, execCsrrs]
  rw [withXRegs_of_exist hx, hn]
  simp only [ha]

theorem exec_csrrs_illegal {s : State} {rd rs1 : XReg} {n : BitVec 12} {r : Csr} (hx : xregsExist s.cfg [rd, rs1] = true)
    (hn : csrOfNumber n = some r) (ha : csrAccess s r (!(rs1 == 0#5)) = .illegal) :
    exec (.csrrs rd n rs1) s = .next (illegal (encode (.csrrs rd n rs1)) s) := by
  simp only [exec, execCsrrs]
  rw [withXRegs_of_exist hx, hn]
  simp only [ha]

/-- `csrrs` with `rs1` = `x0` only reads (R284). -/
theorem csrSet_x0 (r : Csr) (rd : XReg) (s : State) : csrSet r rd 0#5 s = advance (s.writeX rd (csrRead s r)) := rfl

/-- The value of `mtype` is the sum of its fields at their places (R42). -/
theorem mtypeWord_toNat (c : Config) (m : MType) :
    (mtypeWord c m).toNat = m.tm.toNat * 2 ^ 10 + m.tk.toNat * 2 ^ tkLsb c + m.mtwiden.toNat := by
  have htm := m.tm.isLt
  have htk := m.tk.isLt
  have hmw := m.mtwiden.isLt
  have hl : tkLsb c = 4 ∨ tkLsb c = 5 := by unfold tkLsb; split <;> simp
  have hor : m.tm.toNat <<< 10 ||| (m.tk.toNat <<< tkLsb c ||| m.mtwiden.toNat)
      = m.tm.toNat <<< 10 + (m.tk.toNat <<< tkLsb c + m.mtwiden.toNat) := by
    have h1 : m.mtwiden.toNat < 2 ^ tkLsb c := by rcases hl with h | h <;> rw [h] <;> omega
    have h2 : m.tk.toNat <<< tkLsb c + m.mtwiden.toNat < 2 ^ 10 := by
      rcases hl with h | h <;> rw [h, Nat.shiftLeft_eq] <;> omega
    rw [← Nat.shiftLeft_add_eq_or_of_lt h1, ← Nat.shiftLeft_add_eq_or_of_lt h2]
  have hword : (mtypeWord c m).toNat = m.tm.toNat <<< 10 ||| (m.tk.toNat <<< tkLsb c ||| m.mtwiden.toNat) := by
    have h3 : m.tm.toNat <<< 10 < 2 ^ 64 := by rw [Nat.shiftLeft_eq]; omega
    have h4 : m.tk.toNat <<< tkLsb c < 2 ^ 64 := by rcases hl with h | h <;> rw [h, Nat.shiftLeft_eq] <;> omega
    simp only [mtypeWord, BitVec.toNat_or, BitVec.toNat_shiftLeft, BitVec.toNat_setWidth]
    rw [Nat.mod_eq_of_lt (a := m.tm.toNat) (by omega), Nat.mod_eq_of_lt (a := m.tk.toNat) (by omega),
      Nat.mod_eq_of_lt (a := m.mtwiden.toNat) (by omega), Nat.mod_eq_of_lt h3, Nat.mod_eq_of_lt h4, Nat.lor_assoc]
  rw [hword, hor, Nat.shiftLeft_eq, Nat.shiftLeft_eq, Nat.add_assoc]

/-- The fields of `mtype` fit in XLEN bits (R42). -/
theorem truncX_mtypeWord_toNat (c : Config) (m : MType) :
    (truncX c (mtypeWord c m)).toNat = m.tm.toNat * 2 ^ 10 + m.tk.toNat * 2 ^ tkLsb c + m.mtwiden.toNat := by
  have htm := m.tm.isLt
  have htk := m.tk.isLt
  have hmw := m.mtwiden.isLt
  have h32 := le_two_pow_xlenBits c
  have hl : tkLsb c = 4 ∨ tkLsb c = 5 := by unfold tkLsb; split <;> simp
  rw [truncX_toNat, mtypeWord_toNat]
  refine Nat.mod_eq_of_lt (lt_of_lt_of_le ?_ h32)
  rcases hl with h | h <;> rw [h] <;> omega

/-- `mtype` is read-only, and its gate is VS (R41, R48). -/
theorem csrAccess_mtype (s : State) (write : Bool) :
    csrAccess s .mtype write = if vsOff s || write then .illegal else .granted := by
  simp [csrAccess, csrPrivilege, csrLevel, csrGateOff, csrReadOnly]

theorem csrTarget_mtype (s : State) : csrTarget s .mtype = .mtype := by unfold csrTarget; split <;> rfl

/-! ### The other words that name `mtype` -/

/-- A selected row fixes each field that its mask covers. -/
theorem field_of_selects {r : Row} {w : InstrWord} (h : r.selects w = true) {lo len : Nat}
    (hm : field r.mask lo len = BitVec.allOnes len) : field w lo len = field r.mtch lo len := by
  have hw : w &&& r.mask = r.mtch := by simpa [Row.selects] using h
  rw [← hw]
  refine BitVec.eq_of_getLsbD_eq fun j hj => ?_
  have hj' := congrArg (fun b => b.getLsbD j) hm
  simp only [field, BitVec.getLsbD_extractLsb', BitVec.getLsbD_allOnes, hj, decide_true, Bool.true_and,
    BitVec.getLsbD_and] at hj' ⊢
  rw [hj', Bool.and_true]

/-- No row but that of `csrrs`, whose funct3 is 2, has the SYSTEM opcode (R103 to R106, R280 to R284). -/
theorem rows_system : ∀ r ∈ rows, field r.mask 0 7 = BitVec.allOnes 7 ∧
    (field r.mtch 0 7 ≠ 0x73#7 ∨ field r.mask 12 3 = BitVec.allOnes 3 ∧ field r.mtch 12 3 = 2#3) := by
  decide

/-- A SYSTEM word whose funct3 is not 2 is no instruction of the table. -/
theorem decode_system {w : InstrWord} (hop : field w 0 7 = 0x73#7) (hf : field w 12 3 ≠ 2#3) : decode w = decodeOther w := by
  have hnone : rows.find? (·.selects w) = none := by
    rw [List.find?_eq_none]
    intro r hr hs
    obtain ⟨hmask, hne | ⟨hmask3, heq⟩⟩ := rows_system r hr
    · exact hne ((field_of_selects hs hmask).symm.trans hop)
    · exact hf ((field_of_selects hs hmask3).trans heq)
  simp [decode, hnone]

/-- The CSR instructions that would write `mtype` are reserved (R284). -/
theorem decode_writesMtype {w : InstrWord} (h : writesMtype w = true) (hf : field w 12 3 ≠ 2#3) :
    decode w = .reservedEncoding := by
  have hparts := h
  simp only [writesMtype, Bool.and_eq_true, beq_iff_eq] at hparts
  obtain ⟨⟨hop, hcsr⟩, -⟩ := hparts
  have hmret : w ≠ mretWord := by rintro rfl; exact absurd hcsr (by decide)
  have hsret : w ≠ sretWord := by rintro rfl; exact absurd hcsr (by decide)
  simp [decode_system hop hf, decodeOther, hmret, hsret, isReserved, h]

/-- Settles O55: the access check refuses VS Off and a write; a read returns the fields; the other words are `writesMtype`'s. -/
theorem csrReadOfMtype : Obligations.CsrReadOfMtype := by
  refine ⟨fun s rd rs1 _ hx => ⟨fun hv => ?_, fun hr => ?_, fun hv => ?_⟩, fun w hop hcsr hw => ?_⟩
  · exact exec_csrrs_illegal hx rfl (by simp [csrAccess_mtype, hv])
  · exact exec_csrrs_illegal hx rfl (by simp [csrAccess_mtype, hr])
  · have hx0 : xregsExist s.cfg [rd, 0#5] = true :=
      xregsExist_cons.2 ⟨(xregsExist_cons.1 hx).1, xregsExist_cons.2 ⟨by unfold Config.nxregs; split <;> decide, rfl⟩⟩
    have h := exec_csrrs_granted (n := 0xC23#12) hx0 rfl (by simp [csrAccess_mtype, hv])
    rw [csrTarget_mtype, csrSet_x0] at h
    exact ⟨_, h, wrote_spec rd (truncX_mtypeWord_toNat s.cfg s.mtype)⟩
  · have hwrites : writesMtype w = true := by
      rcases hw with h | h | ⟨h | h | h, hrs1⟩ <;> simp_all [writesMtype]
    have hf : field w 12 3 ≠ 2#3 := by
      rcases hw with h | h | ⟨h | h | h, -⟩ <;> rw [h] <;> decide
    exact decode_writesMtype hwrites hf

/-! ### Every CSR -/

/-- What a CSR write leaves of the registers, `pc` and the parameters. -/
theorem csrWrite_kept (s : State) (r : Csr) (w : Word) :
    (csrWrite s r w).x = s.x ∧ (csrWrite s r w).pc = s.pc ∧ (csrWrite s r w).cfg = s.cfg := by
  cases r <;> exact ⟨rfl, rfl, rfl⟩

/-- What every `csrrs` leaves (R284): the value in `x[rd]`, `pc` + 4, and the CSR written when `rs1` is not `x0`. -/
theorem csrSet_spec (s : State) (r : Csr) (rd rs1 : XReg) :
    WroteX s (csrSet r rd rs1 s) rd (truncX s.cfg (csrRead s r)).toNat ∧ PcAdvanced s (csrSet r rd rs1 s) ∧
      csrSet r rd rs1 s = { (if rs1 = 0#5 then s else csrWrite s r (csrRead s r ||| s.readX rs1)) with
        x := (csrSet r rd rs1 s).x, pc := (csrSet r rd rs1 s).pc } := by
  set u := if rs1 = 0#5 then s else csrWrite s r (csrRead s r ||| s.readX rs1) with hu
  have hset : csrSet r rd rs1 s = advance (u.writeX rd (csrRead s r)) := rfl
  obtain ⟨hx, hp, hc⟩ : u.x = s.x ∧ u.pc = s.pc ∧ u.cfg = s.cfg := by
    rw [hu]
    split
    · exact ⟨rfl, rfl, rfl⟩
    · exact csrWrite_kept ..
  rw [hset]
  obtain ⟨-, hpc, hframe⟩ := wrote_spec (s := u) rd (v := csrRead s r) rfl
  refine ⟨wroteX_of_writeX rfl hx (by rw [hc]), ?_, hframe⟩
  rw [PcAdvanced, ← hp, ← hc]
  exact hpc

theorem csrTarget_of_user {r : Csr} (h : csrLevel r = .user) (s : State) : csrTarget s r = r := by
  unfold csrTarget
  split
  · cases r <;> simp [csrLevel] at h <;> rfl
  · rfl

/-! ### The status registers -/

theorem getLsbD_code_of_le (f : ContextStatus) {j : Nat} (h : 2 ≤ j) : f.code.getLsbD j = false :=
  BitVec.getLsbD_of_ge _ _ h

/-- The bits of a supervisor status word (R30, R55). -/
theorem getLsbD_supervisorStatusWord (c : Config) (sie spie ube spp : Bool) (vs fs xs ms : ContextStatus) (sd : Bool) (j : Nat) :
    (supervisorStatusWord c sie spie ube spp vs fs xs ms sd).getLsbD j =
      ((bitAt sie 1).getLsbD j || (bitAt spie 5).getLsbD j || (bitAt ube 6).getLsbD j || (bitAt spp 8).getLsbD j
        || (statusAt vs 9).getLsbD j || (statusAt fs 13).getLsbD j || (statusAt xs 15).getLsbD j
        || (statusAt ms 29).getLsbD j || (bitAt sd (c.xlenBits - 1)).getLsbD j) := by
  simp only [supervisorStatusWord, BitVec.getLsbD_or]

/-- A two-bit field of a register value, bit by bit. -/
theorem extractLsb'_truncX_eq {c : Config} {w : Word} {lo : Nat} {f : ContextStatus} (hlo : lo + 2 ≤ 32)
    (h0 : w.getLsbD lo = f.code.getLsbD 0) (h1 : w.getLsbD (lo + 1) = f.code.getLsbD 1) :
    (truncX c w).extractLsb' lo 2 = f.code := by
  have hx : 32 ≤ c.xlenBits := by rcases xlenBits_cases c with h | h <;> omega
  refine BitVec.eq_of_getLsbD_eq fun j hj => ?_
  rw [BitVec.getLsbD_extractLsb', getLsbD_truncX]
  have hlt : lo + j < c.xlenBits := by omega
  simp only [hj, hlt, decide_true, Bool.true_and]
  interval_cases j
  · exact h0
  · exact h1

theorem isDirty_or_iff (fs vs xs ms : ContextStatus) :
    (fs.isDirty || vs.isDirty || xs.isDirty || ms.isDirty) = true ↔ ContextStatus.on .dirty ∈ [fs, vs, xs, ms] := by
  simp only [ContextStatus.isDirty, Bool.or_eq_true, beq_iff_eq, List.mem_cons, List.not_mem_nil, or_false, or_assoc,
    eq_comm (a := ContextStatus.on .dirty)]

/-- A word whose bits at the places of VS, FS and MS, and bit XLEN-1, are those of a supervisor status word reads as one. -/
theorem statusRead_of_bits {c : Config} {w : Word} {sie spie ube spp : Bool} {vs fs xs ms : ContextStatus}
    (h : ∀ j ∈ [9, 10, 13, 14, 29, 30, c.xlenBits - 1], w.getLsbD j = (supervisorStatusWord c sie spie ube spp vs fs xs ms
      (fs.isDirty || vs.isDirty || xs.isDirty || ms.isDirty)).getLsbD j) : StatusRead c (truncX c w) vs fs xs ms := by
  have hx := xlenBits_cases c
  have hsmall : ∀ j ∈ [9, 10, 13, 14, 29, 30], j ≠ c.xlenBits - 1 := by
    intro j hj
    simp only [List.mem_cons, List.not_mem_nil, or_false] at hj
    omega
  simp only [getLsbD_supervisorStatusWord, getLsbD_bitAt, getLsbD_statusAt, List.forall_mem_cons] at h hsmall
  obtain ⟨h9, h10, h13, h14, h29, h30, hsd, -⟩ := h
  obtain ⟨n9, n10, n13, n14, n29, n30, -⟩ := hsmall
  refine ⟨extractLsb'_truncX_eq (by norm_num) ?_ ?_, extractLsb'_truncX_eq (by norm_num) ?_ ?_,
    extractLsb'_truncX_eq (by norm_num) ?_ ?_, ?_⟩
  · simpa [n9] using h9
  · simpa [n10] using h10
  · simpa [n13, getLsbD_code_of_le] using h13
  · simpa [n14, getLsbD_code_of_le] using h14
  · simpa [n29, getLsbD_code_of_le] using h29
  · simpa [n30, getLsbD_code_of_le] using h30
  · rw [getLsbD_truncX, ← isDirty_or_iff, ← Bool.eq_iff_iff]
    rcases hx with hx | hx <;> rw [hx] at hsd ⊢ <;> simpa [getLsbD_code_of_le] using hsd

/-- `mstatus` shows its supervisor view at the places of VS, FS and MS and at bit XLEN-1 (R30, R55). -/
theorem getLsbD_mstatusWord (c : Config) (m : MStatus) {j : Nat} (hj : j ∈ [9, 10, 13, 14, 29, 30, c.xlenBits - 1]) :
    (mstatusWord c m).getLsbD j = (sstatusWord c m).getLsbD j := by
  obtain ⟨h3, h7, h17, h36, h37, h39, hpp⟩ :
      j ≠ 3 ∧ j ≠ 7 ∧ j ≠ 17 ∧ j ≠ 36 ∧ j ≠ 37 ∧ j ≠ 39 ∧ (j < 11 ∨ 13 ≤ j) := by
    simp only [List.mem_cons, List.not_mem_nil, or_false] at hj
    rcases xlenBits_cases c with h | h <;> omega
  have hmpp : (m.mpp.code.setWidth 64 <<< 11).getLsbD j = false := by
    rw [BitVec.getLsbD_shiftLeft, BitVec.getLsbD_setWidth]
    rcases hpp with h | h
    · simp [h]
    · rw [BitVec.getLsbD_of_ge m.mpp.code (j - 11) (by omega)]
      simp
  unfold mstatusWord
  simp only [BitVec.getLsbD_or, getLsbD_bitAt, hmpp]
  split <;> simp [getLsbD_bitAt, h3, h7, h17, h36, h37, h39]

/-- A read of `mstatus` or of its view shows VS, FS, MS and SD at their places (R30, R55, R58). -/
theorem statusRead_mstatus {s : State} {r : Csr} (h : r = .mstatus ∨ r = .sstatus) :
    StatusRead s.cfg (truncX s.cfg (csrRead s r)) s.mstatus.vs s.mstatus.fs s.mstatus.xs s.mstatus.ms := by
  rcases h with rfl | rfl
  · exact statusRead_of_bits fun j hj => getLsbD_mstatusWord s.cfg s.mstatus hj
  · exact statusRead_of_bits fun _ _ => rfl

theorem statusRead_vsstatus (s : State) :
    StatusRead s.cfg (truncX s.cfg (csrRead s .vsstatus)) s.vsstatus.vs s.vsstatus.fs s.vsstatus.xs s.vsstatus.ms :=
  statusRead_of_bits fun _ _ => rfl

/-- The low bits of a value with more bits set (R284). -/
theorem extractLsb'_setWidth_or {n : Nat} (hn : n ≤ 64) (b : BitVec n) (x : Word) :
    (b.setWidth 64 ||| x).extractLsb' 0 n = b ||| x.extractLsb' 0 n := by
  refine BitVec.eq_of_getLsbD_eq fun j hj => ?_
  simp [hj, lt_of_lt_of_le hj hn]

/-- Settles O56: a granted access is `csrSet`; the status words by their bits, and three CSRs by `csrWrite`'s own arm. -/
theorem csrAccessCompletes : Obligations.CsrAccessCompletes := by
  intro s rd rs1 n r _ hx hn ha
  obtain ⟨hwrote, hpc, hframe⟩ := csrSet_spec s (csrTarget s r) rd rs1
  refine ⟨_, exec_csrrs_granted hx hn ha, hwrote, hpc, statusRead_mstatus, fun _ => statusRead_vsstatus s, fun h => ?_, fun h => ?_⟩
  · rw [if_pos h] at hframe
    exact hframe
  · rw [if_neg h] at hframe
    refine ⟨hframe, fun hr => ?_, fun hr => ?_, fun hr => ?_⟩ <;> subst hr <;>
      rw [csrTarget_of_user rfl] at hframe ⊢ <;> rw [hframe]
    · show (wordX s.cfg s.vstart ||| s.readX rs1).toNat % s.cfg.vlen = _
      rw [BitVec.toNat_or, wordX_toNat]
    · exact extractLsb'_setWidth_or (by norm_num) s.frm _
    · exact extractLsb'_setWidth_or (by norm_num) s.fflags _

end Sys2Proof.Machine
end

section
/-! PROOFS about the rounding of 10_state.md: the default multiplication and addition are correctly rounded (R28, R219). -/

namespace Sys2Proof.Machine

/-! ### Magnitudes of encodings -/

/-- The exponent of the least significant bit of the subnormal encodings (R222). -/
def leastPlace (f : FpFormat) : ℤ := 1 - (fpBias f : ℤ) - fpFracBits f

/-- An encoding as a significand at a place: `n` places above the least, with a full significand when `n` is not 0. The first
encoding of the next binade is one of these too. -/
theorem fpMagnitude_encode (f : FpFormat) {n s : Nat} (hs : n = 0 ∨ 2 ^ fpFracBits f ≤ s) (hle : s ≤ 2 ^ (fpFracBits f + 1)) :
    fpMagnitude f (n * 2 ^ fpFracBits f + s) = s * 2 ^ (n + leastPlace f) := by
  have hpos : 0 < 2 ^ fpFracBits f := Nat.two_pow_pos _
  unfold leastPlace
  rcases Nat.lt_or_ge s (2 ^ fpFracBits f) with hlt | hge
  · obtain rfl : n = 0 := hs.resolve_right (Nat.not_le.2 hlt)
    simp [fpMagnitude, hlt]
  · obtain ⟨r, rfl⟩ := Nat.exists_eq_add_of_le hge
    rcases Nat.lt_or_ge r (2 ^ fpFracBits f) with hr | hr
    · have hk : n * 2 ^ fpFracBits f + (2 ^ fpFracBits f + r) = 2 ^ fpFracBits f * (n + 1) + r := by ring
      rw [hk, fpMagnitude, if_neg (by nlinarith), Nat.mul_add_mod, Nat.mod_eq_of_lt hr, Nat.mul_add_div hpos,
        Nat.div_eq_of_lt hr]
      congr 2
      push_cast
      ring
    · obtain rfl : r = 2 ^ fpFracBits f := by rw [pow_succ] at hle; omega
      have hk : n * 2 ^ fpFracBits f + (2 ^ fpFracBits f + 2 ^ fpFracBits f) = 2 ^ fpFracBits f * (n + 2) := by ring
      rw [hk, fpMagnitude, if_neg (by nlinarith), Nat.mul_mod_right, Nat.mul_div_cancel_left _ hpos]
      have he : ((n + 2 : Nat) : ℤ) - fpBias f - fpFracBits f = (n + (1 - (fpBias f : ℤ) - fpFracBits f)) + 1 := by
        push_cast; ring
      rw [he, zpow_add_one₀ (by norm_num)]
      push_cast
      ring

/-- Every encoding is a significand at a place. -/
theorem exists_place (f : FpFormat) (k : Nat) :
    ∃ n s, k = n * 2 ^ fpFracBits f + s ∧ (n = 0 ∨ 2 ^ fpFracBits f ≤ s) ∧ s < 2 ^ (fpFracBits f + 1) := by
  have hpos : 0 < 2 ^ fpFracBits f := Nat.two_pow_pos _
  have hmod := Nat.mod_lt k hpos
  have hdiv := Nat.div_add_mod' k (2 ^ fpFracBits f)
  rw [pow_succ]
  rcases hq : k / 2 ^ fpFracBits f with - | q
  · exact ⟨0, k % 2 ^ fpFracBits f, by rw [hq] at hdiv; omega, .inl rfl, by omega⟩
  · refine ⟨q, 2 ^ fpFracBits f + k % 2 ^ fpFracBits f, ?_, .inr (by omega), by omega⟩
    rw [hq, Nat.succ_mul] at hdiv
    omega

/-- A greater encoding has a greater magnitude. -/
theorem fpMagnitude_strictMono (f : FpFormat) : StrictMono (fpMagnitude f) := by
  refine strictMono_nat_of_lt_succ fun k => ?_
  obtain ⟨n, s, rfl, hs, hlt⟩ := exists_place f k
  rw [Nat.add_assoc, fpMagnitude_encode f hs hlt.le, fpMagnitude_encode f (n := n) (s := s + 1) (hs.imp id (by omega)) hlt]
  have hp : (0 : ℚ) < 2 ^ (n + leastPlace f) := by positivity
  push_cast
  linarith

theorem fpMagnitude_zero (f : FpFormat) : fpMagnitude f 0 = 0 := by simp [fpMagnitude]

/-! ### The encodings next to a magnitude -/

/-- Any encoding is at least as far from `x` as the nearer of the two next to it, on its own side. -/
theorem distance_le (f : FpFormat) (x : ℚ) (k j : Nat) : (j ≤ k ∧ x - fpMagnitude f k ≤ |x - fpMagnitude f j|)
    ∨ (k + 1 ≤ j ∧ fpMagnitude f (k + 1) - x ≤ |x - fpMagnitude f j|) := by
  rcases Nat.lt_or_ge k j with h | h
  · have := (fpMagnitude_strictMono f).monotone (show k + 1 ≤ j from h)
    exact .inr ⟨h, by rw [abs_sub_comm]; exact le_trans (by linarith) (le_abs_self _)⟩
  · have := (fpMagnitude_strictMono f).monotone h
    exact .inl ⟨h, le_trans (by linarith) (le_abs_self _)⟩

section
variable {f : FpFormat} {x : ℚ} {k : Nat} (hlo : fpMagnitude f k ≤ x) (hhi : x < fpMagnitude f (k + 1))
include hlo hhi

theorem roundsDown_of_between : RoundsDown f x k :=
  ⟨hlo, fun _ hj => Nat.lt_succ_iff.1 ((fpMagnitude_strictMono f).lt_iff_lt.1 (lt_of_le_of_lt hj hhi))⟩

omit hhi in
theorem roundsUp_of_eq (h : ¬ fpMagnitude f k < x) : RoundsUp f x k := by
  have he : x = fpMagnitude f k := le_antisymm (not_lt.1 h) hlo
  exact ⟨he.le, fun j hj => (fpMagnitude_strictMono f).le_iff_le.1 (he ▸ hj)⟩

omit hlo in
theorem roundsUp_of_lt (h : fpMagnitude f k < x) : RoundsUp f x (k + 1) :=
  ⟨hhi.le, fun _ hj => (fpMagnitude_strictMono f).lt_iff_lt.1 (lt_of_lt_of_le h hj)⟩

omit hhi in
theorem nearest_lower (h : x - fpMagnitude f k ≤ fpMagnitude f (k + 1) - x) : Nearest f x k := by
  intro j
  rw [abs_of_nonneg (by linarith)]
  rcases distance_le f x k j with ⟨-, hj⟩ | ⟨-, hj⟩ <;> linarith

omit hlo in
theorem nearest_upper (h : fpMagnitude f (k + 1) - x ≤ x - fpMagnitude f k) : Nearest f x (k + 1) := by
  intro j
  rw [abs_sub_comm, abs_of_nonneg (by linarith)]
  rcases distance_le f x k j with ⟨-, hj⟩ | ⟨-, hj⟩ <;> linarith

/-- A nearest encoding is one of the two next to `x`, and the other is no nearer. -/
theorem nearest_cases {j : Nat} (h : Nearest f x j) :
    (j = k ∧ x - fpMagnitude f k ≤ fpMagnitude f (k + 1) - x)
      ∨ (j = k + 1 ∧ fpMagnitude f (k + 1) - x ≤ x - fpMagnitude f k) := by
  have hk := h k
  have hk1 := h (k + 1)
  rw [abs_of_nonneg (by linarith : 0 ≤ x - fpMagnitude f k)] at hk
  rw [abs_sub_comm x (fpMagnitude f (k + 1)), abs_of_nonneg (by linarith : 0 ≤ fpMagnitude f (k + 1) - x)] at hk1
  have hmono := fpMagnitude_strictMono f
  rcases Nat.lt_or_ge k j with hj | hj
  · have hle := hmono.monotone (show k + 1 ≤ j from hj)
    rw [abs_sub_comm, abs_of_nonneg (by linarith : 0 ≤ fpMagnitude f j - x)] at hk hk1
    have : j = k + 1 := hmono.injective (le_antisymm (by linarith) hle)
    subst this
    exact .inr ⟨rfl, hk⟩
  · have hle := hmono.monotone hj
    rw [abs_of_nonneg (by linarith : 0 ≤ x - fpMagnitude f j)] at hk hk1
    have : j = k := hmono.injective (le_antisymm hle (by linarith))
    subst this
    exact .inl ⟨rfl, hk1⟩

end

/-! ### Rounding a magnitude -/

/-- The two encodings next to `m * 2^e`, and that `roundMagnitude` answers one of them: with `M` units of `u`, the lower one has
`M / 2^d * 2^d` units and the upper one `2^d` more (R219). -/
structure RoundingParts (f : FpFormat) (m : Nat) (e : ℤ) (k M d : Nat) (u : ℚ) : Prop where
  unit : 0 < u
  value : (m : ℚ) * 2 ^ e = M * u
  lower : fpMagnitude f k = ((M / 2 ^ d * 2 ^ d : Nat) : ℚ) * u
  upper : fpMagnitude f (k + 1) = ((M / 2 ^ d * 2 ^ d + 2 ^ d : Nat) : ℚ) * u
  parity : k % 2 = M / 2 ^ d % 2
  rounded : ∀ rm neg, roundMagnitude f rm neg m e
    = if roundsUp rm neg (M / 2 ^ d % 2 == 1) (M % 2 ^ d) d then k + 1 else k

theorem fpFracBits_pos (f : FpFormat) : 0 < fpFracBits f := by cases f <;> simp [fpFracBits]

/-- The last place kept leaves at most F+1 bits of the magnitude, and F+1 of them above the least place (R219). -/
theorem lastPlace_bounds (f : FpFormat) {m : Nat} (hm : 0 < m) (e : ℤ) :
    m * 2 ^ (e - lastPlace f m e).toNat / 2 ^ (lastPlace f m e - e).toNat < 2 ^ (fpFracBits f + 1) ∧
    ((lastPlace f m e - leastPlace f).toNat = 0
      ∨ 2 ^ fpFracBits f ≤ m * 2 ^ (e - lastPlace f m e).toNat / 2 ^ (lastPlace f m e - e).toNat) := by
  have hlog1 : 2 ^ Nat.log2 m ≤ m := Nat.log2_self_le hm.ne'
  have hlog2 : m < 2 ^ (Nat.log2 m + 1) := Nat.lt_log2_self
  set q := lastPlace f m e with hq
  have hq1 : e + Nat.log2 m - fpFracBits f ≤ q := le_max_left _ _
  have hq2 : q = e + Nat.log2 m - fpFracBits f ∨ q = leastPlace f := max_choice _ _
  set up := (e - q).toNat with hup
  set d := (q - e).toNat with hd
  constructor
  · rw [Nat.div_lt_iff_lt_mul (Nat.two_pow_pos _), ← pow_add]
    calc m * 2 ^ up < 2 ^ (Nat.log2 m + 1) * 2 ^ up := Nat.mul_lt_mul_of_pos_right hlog2 (Nat.two_pow_pos _)
      _ = 2 ^ (Nat.log2 m + 1 + up) := (pow_add ..).symm
      _ ≤ 2 ^ (fpFracBits f + 1 + d) := Nat.pow_le_pow_right (by norm_num) (by omega)
  · rcases hq2 with h | h
    · right
      rw [Nat.le_div_iff_mul_le (Nat.two_pow_pos _), ← pow_add]
      calc 2 ^ (fpFracBits f + d) ≤ 2 ^ (Nat.log2 m + up) := Nat.pow_le_pow_right (by norm_num) (by omega)
        _ = 2 ^ Nat.log2 m * 2 ^ up := pow_add ..
        _ ≤ m * 2 ^ up := Nat.mul_le_mul_right _ hlog1
    · left
      rw [h]
      simp

theorem exists_roundingParts (f : FpFormat) {m : Nat} (hm : 0 < m) (e : ℤ) : ∃ k M d u, RoundingParts f m e k M d u := by
  obtain ⟨hlt, hge⟩ := lastPlace_bounds f hm e
  set q := lastPlace f m e with hq
  have hqmin : leastPlace f ≤ q := le_max_right _ _
  set up := (e - q).toNat with hup
  set d := (q - e).toNat with hd
  set n := (q - leastPlace f).toNat with hn
  have hplace : (n : ℤ) + leastPlace f = q := by omega
  have hscale : (2 : ℚ) ^ q = 2 ^ d * 2 ^ min q e := by
    rw [← zpow_natCast, ← zpow_add₀ (by norm_num)]
    congr 1
    omega
  refine ⟨n * 2 ^ fpFracBits f + m * 2 ^ up / 2 ^ d, m * 2 ^ up, d, 2 ^ min q e, ?_⟩
  exact {
    unit := by positivity
    value := by
      have : (2 : ℚ) ^ e = 2 ^ up * 2 ^ min q e := by
        rw [← zpow_natCast, ← zpow_add₀ (by norm_num)]
        congr 1
        omega
      rw [this]
      push_cast
      ring
    lower := by
      rw [fpMagnitude_encode f hge hlt.le, hplace, hscale]
      push_cast
      ring
    upper := by
      rw [Nat.add_assoc, fpMagnitude_encode f (hge.imp id (by omega)) hlt, hplace, hscale]
      push_cast
      ring
    parity := by
      have h2 : 2 ∣ n * 2 ^ fpFracBits f := Dvd.dvd.mul_left (dvd_pow_self 2 (fpFracBits_pos f).ne') n
      omega
    rounded := fun rm neg => by
      have hrem : m % 2 ^ d = m * 2 ^ up % 2 ^ d := by
        rcases le_total e q with h | h
        · rw [show up = 0 by omega, pow_zero, Nat.mul_one]
        · rw [show d = 0 by omega, pow_zero, Nat.mod_one, Nat.mod_one]
      show n * 2 ^ fpFracBits f + (if roundsUp rm neg (m * 2 ^ up / 2 ^ d % 2 == 1) (m % 2 ^ d) d
        then m * 2 ^ up / 2 ^ d + 1 else m * 2 ^ up / 2 ^ d) = _
      rw [hrem]
      split <;> rfl }

section
variable {f : FpFormat} {m k M d : Nat} {e : ℤ} {u : ℚ} (h : RoundingParts f m e k M d u)
include h

/-- The dropped part is the distance to the lower encoding. -/
theorem RoundingParts.sub_lower : (m : ℚ) * 2 ^ e - fpMagnitude f k = (M % 2 ^ d : Nat) * u := by
  have hM : (M : ℚ) = ((M / 2 ^ d * 2 ^ d : Nat) : ℚ) + (M % 2 ^ d : Nat) := by exact_mod_cast (Nat.div_add_mod' M (2 ^ d)).symm
  rw [h.value, h.lower, hM]
  ring

/-- What the dropped part lacks of `2^d` is the distance to the upper encoding. -/
theorem RoundingParts.upper_sub : fpMagnitude f (k + 1) - (m : ℚ) * 2 ^ e = ((2 ^ d : Nat) - (M % 2 ^ d : Nat) : ℚ) * u := by
  have hM : (M : ℚ) = ((M / 2 ^ d * 2 ^ d : Nat) : ℚ) + (M % 2 ^ d : Nat) := by exact_mod_cast (Nat.div_add_mod' M (2 ^ d)).symm
  rw [h.value, h.upper, hM]
  push_cast
  ring

theorem RoundingParts.lower_le : fpMagnitude f k ≤ (m : ℚ) * 2 ^ e := by
  rw [← sub_nonneg, h.sub_lower]
  exact mul_nonneg (Nat.cast_nonneg _) h.unit.le

theorem RoundingParts.lt_upper : (m : ℚ) * 2 ^ e < fpMagnitude f (k + 1) := by
  rw [← sub_pos, h.upper_sub]
  exact mul_pos (sub_pos.2 (Nat.cast_lt.2 (Nat.mod_lt _ (Nat.two_pow_pos d)))) h.unit

theorem RoundingParts.lower_lt_iff : fpMagnitude f k < (m : ℚ) * 2 ^ e ↔ M % 2 ^ d ≠ 0 := by
  rw [← sub_pos, h.sub_lower, mul_pos_iff_of_pos_right h.unit, Nat.cast_pos, Nat.pos_iff_ne_zero]

theorem RoundingParts.lower_nearer_iff :
    (m : ℚ) * 2 ^ e - fpMagnitude f k ≤ fpMagnitude f (k + 1) - (m : ℚ) * 2 ^ e ↔ 2 * (M % 2 ^ d) ≤ 2 ^ d := by
  rw [h.sub_lower, h.upper_sub, mul_le_mul_iff_left₀ h.unit, le_sub_iff_add_le, ← Nat.cast_add, Nat.cast_le, two_mul]

theorem RoundingParts.upper_nearer_iff :
    fpMagnitude f (k + 1) - (m : ℚ) * 2 ^ e ≤ (m : ℚ) * 2 ^ e - fpMagnitude f k ↔ 2 ^ d ≤ 2 * (M % 2 ^ d) := by
  rw [h.sub_lower, h.upper_sub, mul_le_mul_iff_left₀ h.unit, sub_le_iff_le_add, ← Nat.cast_add, Nat.cast_le, two_mul]

theorem RoundingParts.nearest_lower_iff : Nearest f (m * 2 ^ e) k ↔ 2 * (M % 2 ^ d) ≤ 2 ^ d := by
  refine ⟨fun hn => ?_, fun hle => nearest_lower h.lower_le (h.lower_nearer_iff.2 hle)⟩
  rcases nearest_cases h.lower_le h.lt_upper hn with ⟨-, hle⟩ | ⟨hk, -⟩
  · exact h.lower_nearer_iff.1 hle
  · omega

theorem RoundingParts.nearest_upper_iff : Nearest f (m * 2 ^ e) (k + 1) ↔ 2 ^ d ≤ 2 * (M % 2 ^ d) := by
  refine ⟨fun hn => ?_, fun hle => nearest_upper h.lt_upper (h.upper_nearer_iff.2 hle)⟩
  rcases nearest_cases h.lower_le h.lt_upper hn with ⟨hk, -⟩ | ⟨-, hle⟩
  · omega
  · exact h.upper_nearer_iff.1 hle

theorem RoundingParts.eq_of_nearest {j : Nat} (hj : Nearest f (m * 2 ^ e) j) : j = k ∨ j = k + 1 :=
  (nearest_cases h.lower_le h.lt_upper hj).imp And.left And.left

theorem RoundingParts.roundsDown : RoundsDown f (m * 2 ^ e) k := roundsDown_of_between h.lower_le h.lt_upper

/-- Rounding up answers the lower encoding when nothing is dropped, else the upper one. -/
theorem RoundingParts.roundsUp : RoundsUp f (m * 2 ^ e) (if M % 2 ^ d = 0 then k else k + 1) := by
  split
  · next hr => exact roundsUp_of_eq h.lower_le fun hlt => h.lower_lt_iff.1 hlt hr
  · next hr => exact roundsUp_of_lt h.lt_upper (h.lower_lt_iff.2 hr)

/-- Ties go to the even one of the two encodings next to the magnitude (R28). -/
theorem RoundingParts.nearestEven (neg : Bool) : RoundsTo f 0 neg (m * 2 ^ e) (roundMagnitude f 0#3 neg m e) := by
  have hpar := h.parity
  rw [h.rounded]
  show Nearest f (m * 2 ^ e) _ ∧ ∀ j, Nearest f (m * 2 ^ e) j → j ≠ _ → _
  split
  · next hup =>
    simp only [Machine.roundsUp, Bool.or_eq_true, Bool.and_eq_true, decide_eq_true_eq, beq_iff_eq] at hup
    refine ⟨h.nearest_upper_iff.2 (by omega), fun j hj hne => ?_⟩
    obtain rfl := (h.eq_of_nearest hj).resolve_right hne
    have := h.nearest_lower_iff.1 hj
    omega
  · next hup =>
    simp only [Machine.roundsUp, Bool.or_eq_true, Bool.and_eq_true, decide_eq_true_eq, beq_iff_eq] at hup
    refine ⟨h.nearest_lower_iff.2 (by omega), fun j hj hne => ?_⟩
    obtain rfl := (h.eq_of_nearest hj).resolve_left hne
    have := h.nearest_upper_iff.1 hj
    omega

/-- Ties go away from zero (R28). -/
theorem RoundingParts.nearestAway (neg : Bool) : RoundsTo f 4 neg (m * 2 ^ e) (roundMagnitude f 4#3 neg m e) := by
  rw [h.rounded]
  show Nearest f (m * 2 ^ e) _ ∧ ∀ j, Nearest f (m * 2 ^ e) j → j ≤ _
  split
  · next hup =>
    exact ⟨h.nearest_upper_iff.2 (of_decide_eq_true hup), fun j hj => by have := h.eq_of_nearest hj; omega⟩
  · next hup =>
    have hlt : ¬ 2 ^ d ≤ 2 * (M % 2 ^ d) := fun hle => hup (decide_eq_true hle)
    refine ⟨h.nearest_lower_iff.2 (by omega), fun j hj => ?_⟩
    obtain rfl | rfl := h.eq_of_nearest hj
    · exact le_rfl
    · exact absurd (h.nearest_upper_iff.1 hj) hlt

/-- The magnitude is correctly rounded in every rounding mode (R28, R219). -/
theorem RoundingParts.roundsTo {rm : BitVec 3} (hrm : rm.toNat < 5) (neg : Bool) :
    RoundsTo f rm.toNat neg (m * 2 ^ e) (roundMagnitude f rm neg m e) := by
  have hdown := h.roundsDown
  have hup := h.roundsUp
  obtain rfl | rfl | rfl | rfl | rfl : rm = 0#3 ∨ rm = 1#3 ∨ rm = 2#3 ∨ rm = 3#3 ∨ rm = 4#3 := by bv_omega
  · exact h.nearestEven neg
  · rw [h.rounded]
    exact hdown
  · rw [h.rounded]
    cases neg
    · exact hdown
    · simpa [RoundsTo, Machine.roundsUp, ite_not] using hup
  · rw [h.rounded]
    cases neg
    · simpa [RoundsTo, Machine.roundsUp, ite_not] using hup
    · exact hdown
  · exact h.nearestAway neg

end

/-! ### Results -/

theorem fpInfinity_pos (f : FpFormat) : 0 < fpInfinity f := by cases f <;> decide +kernel

/-- The overflow result of the model is the one that the rounding mode and the sign ask for (R219). -/
theorem overflow_eq_roundedResult (f : FpFormat) {rm : BitVec 3} (hrm : rm.toNat < 5) (neg : Bool) {k : Nat}
    (hk : fpInfinity f ≤ k) : (fpSignBit f neg + overflowMagnitude f rm neg, flagOf) = roundedResult f rm.toNat neg k := by
  rw [roundedResult, if_neg (Nat.not_lt.2 hk)]
  obtain rfl | rfl | rfl | rfl | rfl : rm = 0#3 ∨ rm = 1#3 ∨ rm = 2#3 ∨ rm = 3#3 ∨ rm = 4#3 := by bv_omega
  all_goals cases neg <;> rfl

/-- Every rounding mode leaves a zero as it is. -/
theorem roundsTo_zero (f : FpFormat) (rm : Nat) (neg : Bool) : RoundsTo f rm neg 0 0 := by
  have hlo : fpMagnitude f 0 ≤ 0 := (fpMagnitude_zero f).le
  have hhi : 0 < fpMagnitude f (0 + 1) := (fpMagnitude_zero f).symm ▸ fpMagnitude_strictMono f Nat.zero_lt_one
  have hdown := roundsDown_of_between hlo hhi
  have hup := roundsUp_of_eq hlo (by rw [fpMagnitude_zero]; exact lt_irrefl _)
  have hnear : Nearest f 0 0 := nearest_lower hlo (by rw [fpMagnitude_zero] at *; linarith)
  have honly : ∀ j, Nearest f 0 j → j = 0 := fun j hj => by
    rcases nearest_cases hlo hhi hj with ⟨hj0, -⟩ | ⟨-, hle⟩
    · exact hj0
    · rw [fpMagnitude_zero] at hle; linarith
  unfold RoundsTo
  split
  · exact ⟨hnear, fun _ _ _ => rfl⟩
  · exact hdown
  · split <;> assumption
  · split <;> assumption
  · exact ⟨hnear, fun j hj => (honly j hj).le⟩

/-- `fpRound` answers the correctly rounded magnitude, with OF where it is too large (R219). -/
theorem fpRound_spec (f : FpFormat) {rm : BitVec 3} (hrm : rm.toNat < 5) (neg : Bool) (m : Nat) (e : ℤ) :
    ∃ k, RoundsTo f rm.toNat neg (m * 2 ^ e) k ∧ fpRound f rm neg m e = roundedResult f rm.toNat neg k := by
  rcases Nat.eq_zero_or_pos m with rfl | hm
  · refine ⟨0, by simpa using roundsTo_zero f rm.toNat neg, ?_⟩
    rw [fpRound, if_pos rfl, roundedResult, if_pos (fpInfinity_pos f)]
    rfl
  · obtain ⟨k, M, d, u, h⟩ := exists_roundingParts f hm e
    refine ⟨roundMagnitude f rm neg m e, h.roundsTo hrm neg, ?_⟩
    rw [fpRound, if_neg hm.ne']
    dsimp only
    split
    · next hge => exact overflow_eq_roundedResult f hrm neg hge
    · next hlt => rw [roundedResult, if_pos (Nat.not_le.1 hlt)]

/-! ### Operands and sums -/

/-- What a finite encoding denotes, by its exponent field (R222). -/
theorem fpDecode_finite {f : FpFormat} {a : Nat} {n : Bool} {m : Nat} {e : ℤ} (h : fpDecode f a = .finite n m e) :
    let fr := a % 2 ^ fpFracBits f
    let ex := a / 2 ^ fpFracBits f % 2 ^ fpExpBits f
    (ex = 0 ∧ m = fr ∧ e = 1 - (fpBias f : ℤ) - fpFracBits f)
      ∨ (ex ≠ 0 ∧ m = 2 ^ fpFracBits f + fr ∧ e = (ex : ℤ) - fpBias f - fpFracBits f) := by
  intro fr ex
  unfold fpDecode at h
  dsimp only at h
  split at h
  · next v hv =>
    subst h
    cases f <;> simp [fpSpecial] at hv
    all_goals split at hv <;> simp_all
  · split at h
    · next h0 => cases h; exact .inl ⟨h0, rfl, rfl⟩
    · next h0 => cases h; exact .inr ⟨h0, rfl, rfl⟩

theorem finite_magnitude {f : FpFormat} {a : Nat} {n : Bool} {m : Nat} {e : ℤ} (h : fpDecode f a = .finite n m e) :
    (m : ℚ) * 2 ^ e = fpMagnitude f (a % 2 ^ (fpFracBits f + fpExpBits f)) := by
  have hfr : a % 2 ^ (fpFracBits f + fpExpBits f) % 2 ^ fpFracBits f = a % 2 ^ fpFracBits f :=
    Nat.mod_mod_of_dvd _ (pow_dvd_pow 2 (Nat.le_add_right _ _))
  have hex : a % 2 ^ (fpFracBits f + fpExpBits f) / 2 ^ fpFracBits f = a / 2 ^ fpFracBits f % 2 ^ fpExpBits f := by
    rw [pow_add, Nat.mod_mul_right_div_self]
  have hlt : a % 2 ^ (fpFracBits f + fpExpBits f) < 2 ^ fpFracBits f ↔ a / 2 ^ fpFracBits f % 2 ^ fpExpBits f = 0 := by
    rw [← hex, Nat.div_eq_zero_iff_lt (Nat.two_pow_pos _)]
  unfold fpMagnitude
  rw [hfr, hex]
  obtain ⟨h0, rfl, rfl⟩ | ⟨h0, rfl, rfl⟩ := fpDecode_finite h
  · rw [if_pos (hlt.2 h0), ← hfr, Nat.mod_eq_of_lt (hlt.2 h0)]
  · rw [if_neg (mt hlt.1 h0)]

theorem scaled_mul (n : Bool) (m : Nat) {e e0 : ℤ} (h : e0 ≤ e) : (scaled n m e e0 : ℚ) * 2 ^ e0 = signedValue n m e := by
  have he : (2 : ℚ) ^ e = 2 ^ (e - e0).toNat * 2 ^ e0 := by
    rw [← zpow_natCast, ← zpow_add₀ (by norm_num)]
    congr 1
    omega
  unfold scaled signedValue
  rw [he]
  cases n <;> push_cast <;> simp <;> ring

theorem numericsMul_finite {f : FpFormat} {a b ma mb : Nat} {na nb : Bool} {ea eb : ℤ} (rm : BitVec 3)
    (ha : fpDecode f a = .finite na ma ea) (hb : fpDecode f b = .finite nb mb eb) :
    numericsMul .ieee f rm a b = fpRound f rm (na ^^ nb) (ma * mb) (ea + eb) := by
  simp only [numericsMul, fpMul, ha, hb]

theorem numericsAdd_finite {f : FpFormat} {a b ma mb : Nat} {na nb : Bool} {ea eb : ℤ} (rm : BitVec 3)
    (ha : fpDecode f a = .finite na ma ea) (hb : fpDecode f b = .finite nb mb eb) :
    ∃ (sum : ℤ) (e0 : ℤ), (sum : ℚ) * 2 ^ e0 = signedValue na ma ea + signedValue nb mb eb ∧
      numericsAdd .ieee f rm a b = if sum = 0 then (fpSignBit f (if na = nb then na else rm == 2#3), 0#5)
        else fpRound f rm (decide (sum < 0)) sum.natAbs e0 := by
  refine ⟨scaled na ma ea (min ea eb) + scaled nb mb eb (min ea eb), min ea eb, ?_, ?_⟩
  · push_cast
    rw [add_mul, scaled_mul na ma (min_le_left _ _), scaled_mul nb mb (min_le_right _ _)]
  · simp only [numericsAdd, fpAdd, ha, hb]

/-- Settles O50: the magnitude lies between two neighbouring encodings, the dropped part says which of them the rounding mode
asks for, and the model answers that one. -/
theorem ieeeRounding : Obligations.IeeeRounding := by
  intro f rm a b na nb ma mb ea eb _ hrm ha hb
  refine ⟨finite_magnitude ha, ?_, ?_⟩
  · have hx : (ma : ℚ) * 2 ^ ea * (mb * 2 ^ eb) = ((ma * mb : Nat) : ℚ) * 2 ^ (ea + eb) := by
      rw [zpow_add₀ (by norm_num)]
      push_cast
      ring
    rw [hx, numericsMul_finite rm ha hb]
    exact fpRound_spec f hrm _ _ _
  · obtain ⟨sum, e0, hsum, hadd⟩ := numericsAdd_finite rm ha hb
    have hp : (0 : ℚ) < 2 ^ e0 := by positivity
    refine ⟨_, hsum, fun hne => ?_, fun h0 => ?_⟩
    · have hneg : decide ((sum : ℚ) * 2 ^ e0 < 0) = decide (sum < 0) := by
        rw [decide_eq_decide, ← not_le, mul_nonneg_iff_of_pos_right hp, not_le, Int.cast_lt_zero]
      have habs : |(sum : ℚ) * 2 ^ e0| = (sum.natAbs : ℚ) * 2 ^ e0 := by
        rw [abs_mul, abs_of_pos hp, Nat.cast_natAbs, Int.cast_abs]
      rw [hneg, habs, hadd, if_neg fun h => hne (by rw [h, Int.cast_zero, zero_mul])]
      exact fpRound_spec f hrm _ _ _
    · rw [hadd, if_pos (Int.cast_eq_zero.1 ((mul_eq_zero.1 h0).resolve_right hp.ne'))]

end Sys2Proof.Machine
end

section
/-! PROOFS about memory of 20_memory.md: what a tile store that completes leaves, and that no other instruction writes memory. -/

namespace Sys2Proof.Machine

/-! ### A store that completes -/

/-- Without an exception a store answers `storeComplete` (R169). -/
theorem exec_tileStore_complete {s : State} {rs1 rs2 : XReg} {p : Instr × Nat} (hp : p ∈ tileStores rs1 rs2) {u : Subset}
    (h : TileAccessReady s .store rs1 rs2 p.2 u)
    (hn : ∀ i, s.vstart ≤ i → i < tn s p.2 → accessException s .store (elemAddr s rs1 p.2 i) (p.2 / 8) = none) :
    exec p.1 s = .next (storeComplete u rs1 p.2 s) := by
  have hf : firstException s .store rs1 p.2 (bodyIndices s p.2) = none :=
    firstException_none fun i hi => hn i (mem_bodyIndices.1 hi).1 (mem_bodyIndices.1 hi).2
  rw [exec_tileStore hp, withTileMemoryChecks_run h, tileStore, hf]

section
variable {s : State} {rs1 : XReg} {w : Nat} {u : Subset}

/-- The byte writes of a store of the whole body: each byte of each body element, at its address (R72, R169). -/
theorem mem_bodyStoreWrites {x : Nat × Byte} :
    x ∈ storeWrites s u rs1 w (bodyIndices s w) ↔
      ∃ i k, (s.vstart ≤ i ∧ i < tn s w) ∧ IsElementByte s rs1 w i k x.1 ∧ x.2 = (subsetElem s u w i).getD k 0#8 := by
  simp only [mem_storeWrites, mem_bodyIndices, isElementByte_iff]
  constructor
  · rintro ⟨i, hi, k, hk, rfl⟩
    exact ⟨i, k, hi, ⟨hk, rfl⟩, (subsetElem_getD s u i hk).symm⟩
  · rintro ⟨i, k, hi, ⟨hk, ha⟩, hv⟩
    exact ⟨i, hi, k, hk, Prod.ext ha (hv.trans (subsetElem_getD s u i hk))⟩

/-- A store of the whole body writes exactly the addresses of the body's bytes. -/
theorem exists_bodyStoreWrite_iff {a : Nat} :
    (∃ x ∈ storeWrites s u rs1 w (bodyIndices s w), x.1 = a) ↔
      ∃ i k, s.vstart ≤ i ∧ i < tn s w ∧ IsElementByte s rs1 w i k a := by
  constructor
  · rintro ⟨x, hx, rfl⟩
    obtain ⟨i, k, ⟨h1, h2⟩, hb, -⟩ := mem_bodyStoreWrites.1 hx
    exact ⟨i, k, h1, h2, hb⟩
  · rintro ⟨i, k, h1, h2, hb⟩
    exact ⟨(a, _), mem_bodyStoreWrites.2 ⟨i, k, ⟨h1, h2⟩, hb, rfl⟩, rfl⟩

/-- An address is a byte of at most one body element, and at one place in it (R72). -/
theorem isElementByte_unique (hc : s.cfg.wf = true) (hw : w ∈ tileWidths) {i j k l a : Nat} (hi : i < tn s w) (hj : j < tn s w)
    (h : IsElementByte s rs1 w i k a) (h' : IsElementByte s rs1 w j l a) : i = j ∧ k = l := by
  obtain ⟨hk, rfl⟩ := (isElementByte_iff ..).1 h
  obtain ⟨hl, he⟩ := (isElementByte_iff ..).1 h'
  have hle := tn_le_ete s w
  exact elemByteAddr_inj hc hw (hi.trans_le hle) (hj.trans_le hle) hk hl he

theorem storeComplete_memRead_body (hI : s.Inv) (hw : w ∈ tileWidths) {i k a : Nat} (h1 : s.vstart ≤ i) (h2 : i < tn s w)
    (hb : IsElementByte s rs1 w i k a) : memRead (storeComplete u rs1 w s).mem a = (subsetElem s u w i).getD k 0#8 := by
  refine memRead_memWrites_of_unique (storeWrites s u rs1 w (bodyIndices s w)) hI.mem (fun x hx hxa => ?_)
    (exists_bodyStoreWrite_iff.2 ⟨i, k, h1, h2, hb⟩)
  obtain ⟨j, l, ⟨-, hj⟩, hxb, hv⟩ := mem_bodyStoreWrites.1 hx
  obtain ⟨rfl, rfl⟩ := isElementByte_unique hI.cfg hw h2 hj hb (hxa ▸ hxb)
  exact hv

theorem storeComplete_memRead_outside (hm : Memory.wf s.mem = true) {a : Nat}
    (ha : ∀ i k, s.vstart ≤ i → i < tn s w → ¬ IsElementByte s rs1 w i k a) :
    memRead (storeComplete u rs1 w s).mem a = memRead s.mem a := by
  refine memRead_memWrites_of_not_mem (storeWrites s u rs1 w (bodyIndices s w)) hm fun x hx hxa => ?_
  obtain ⟨i, k, h1, h2, hb⟩ := exists_bodyStoreWrite_iff.1 ⟨x, hx, hxa⟩
  exact ha i k h1 h2 hb

/-- The addresses that a fetch is refused at after a store that completes (R84; log 34). -/
theorem mem_storeComplete_unsynced {a : Nat} : a ∈ (storeComplete u rs1 w s).unsynced ↔
    a ∈ s.unsynced ∨ ∃ i k, s.vstart ≤ i ∧ i < tn s w ∧ IsElementByte s rs1 w i k a :=
  (mem_foldl_insertAddr _).trans (or_congr_right exists_bodyStoreWrite_iff)

end

/-- Settles O31: the store answers `storeComplete`, whose writes are the bytes of the body elements, at addresses that differ. -/
theorem tileStoreResult : Obligations.TileStoreResult := by
  intro s rs1 rs2 u hI p hp hr hn
  have hw := mem_tileWidths_of_tileStores hp
  exact ⟨storeComplete u rs1 p.2 s, exec_tileStore_complete hp hr hn,
    fun i k a h1 h2 hb => storeComplete_memRead_body hI hw h1 h2 hb,
    fun a ha => storeComplete_memRead_outside hI.mem ha,
    memWrites_wf _ hI.mem,
    fun a => mem_storeComplete_unsynced,
    completeZvm_end rfl rfl rfl rfl, rfl⟩

/-! ### The other instructions -/

@[simp] theorem csrWrite_mem (s : State) (r : Csr) (w : Word) : (csrWrite s r w).mem = s.mem := by cases r <;> rfl

theorem csrSet_mem (s : State) (r : Csr) (rd rs1 : XReg) : (csrSet r rd rs1 s).mem = s.mem := by
  simp only [csrSet, advance_mem, writeX_mem]
  split
  · rfl
  · exact csrWrite_mem ..

theorem msetmtypeEffect_mem (m v : Word) (s : State) : (msetmtypeEffect m v s).mem = s.mem := by
  unfold msetmtypeEffect
  simp only
  split <;> rfl

/-- A tile load leaves memory as it is, whether it completes or traps. -/
theorem tileLoad_mem (rs1 : XReg) (w : Nat) (u : Subset) (s : State) : (tileLoad rs1 w u s).mem = s.mem := by
  unfold tileLoad
  split
  · rfl
  · rw [loadTrapped_eq, takeException_mem]
    rfl

/-- An instruction leaves memory as it is unless it is a tile store. -/
theorem effect_mem {i : Instr} {s t : State} (h : Effect i s t) :
    t.mem = s.mem ∨ ∃ rs1 rs2 w, (i, w) ∈ tileStores rs1 rs2 := by
  cases h with
  | store rs1 rs2 w _ hi => exact .inr ⟨rs1, rs2, w, hi⟩
  | trapped e v => exact .inl (takeException_mem e v s)
  | vset | setN | setM | setK | wrote => exact .inl (by simp [vsetvlEffect])
  | mset _ m v => exact .inl (msetmtypeEffect_mem m v s)
  | load rs1 _ w u => exact .inl (tileLoad_mem rs1 w u s)
  | csr rd rs1 _ r => exact .inl (csrSet_mem s _ rd rs1)
  | toVector | toTile | zero | discard | zeroSize | accumulate | passed | jumped => exact .inl rfl

/-- Settles O60: by the effect of the instruction, of which only that of a tile store writes memory. -/
theorem onlyTileStoresWriteMemory : Obligations.OnlyTileStoresWriteMemory := by
  intro i s t hi h a
  rcases effect_mem (exec_effect h) with hm | ⟨rs1, rs2, w, hp⟩
  · rw [hm]
  · exact absurd rfl (hi rs1 rs2 (i, w) hp)

end Sys2Proof.Machine
end

section
/-! PROOFS about decoder and encoder of 30_encoding.md: a word selects at most one row, and the two are inverse to each other. -/

namespace Sys2Proof

/-! ### A word selects at most one row -/

/-- Two rows that differ in a bit both fix (R110) are selected by no common word. -/
theorem not_selects_of_disjoint {r q : Row} (h : r.disjoint q = true) {w : InstrWord} (hr : r.selects w = true) :
    ¬ q.selects w = true := by
  intro hq
  rw [Row.selects, beq_iff_eq] at hr hq
  have hzero : (r.mtch ^^^ q.mtch) &&& r.mask &&& q.mask = 0#32 := by
    rw [← hr, ← hq]
    refine BitVec.eq_of_getLsbD_eq fun i _ => ?_
    simp only [BitVec.getLsbD_and, BitVec.getLsbD_xor, BitVec.getLsbD_zero]
    cases r.mask.getLsbD i <;> cases q.mask.getLsbD i <;> simp
  simp [Row.disjoint, hzero] at h

theorem rows_pairwise_disjoint : rows.Pairwise (fun r q => r.disjoint q = true) := by decide

theorem row_eq_of_selects {w : InstrWord} {r q : Row} (hr : r ∈ rows) (hq : q ∈ rows) (hrw : r.selects w = true)
    (hqw : q.selects w = true) : r = q := by
  have hpair : rows.Pairwise fun r q => r.selects w = true → q.selects w = true → r = q :=
    rows_pairwise_disjoint.imp fun h hr hq => absurd hq (not_selects_of_disjoint h hr)
  have hflip : rows.Pairwise (flip fun r q => r.selects w = true → q.selects w = true → r = q) :=
    hpair.imp fun h hq hr => (h hr hq).symm
  exact hpair.forall_of_forall_of_flip (fun _ _ _ _ => rfl) hflip hr hq hrw hqw

/-- Settles O3: a word that selects two rows would hold, at a bit both fix, both of its values. -/
theorem opcodeRowsDisjoint : Obligations.OpcodeRowsDisjoint :=
  fun _ _ _ hr hq hrw hqw => congrArg Row.mnemonic (row_eq_of_selects hr hq hrw hqw)

/-! ### What decodes to an instruction -/

theorem decode_of_selects {w : InstrWord} {r : Row} (hr : r ∈ rows) (hs : r.selects w = true) :
    decode w = .instr (r.build w) := by
  rcases hf : rows.find? (·.selects w) with - | q
  · exact absurd hs (by simpa using List.find?_eq_none.1 hf r hr)
  · have hqw : q.selects w = true := List.find?_some (p := fun r : Row => r.selects w) hf
    have hq : r = q := row_eq_of_selects hr (List.mem_of_find?_eq_some hf) hs hqw
    simp only [decode, hf, hq]

theorem decode_of_no_row {w : InstrWord} (h : ∀ r ∈ rows, ¬ r.selects w = true) : decode w = decodeOther w := by
  simp only [decode, List.find?_eq_none.2 h]

theorem decodeOther_ne_instr (w : InstrWord) (i : Instr) : decodeOther w ≠ .instr i := by
  unfold decodeOther
  split_ifs <;> simp

/-- A word decodes to what one of the rows builds from it, and to nothing else of the table. -/
theorem decode_eq_instr_iff {w : InstrWord} {i : Instr} :
    decode w = .instr i ↔ ∃ r ∈ rows, r.selects w = true ∧ r.build w = i := by
  constructor
  · intro h
    by_contra hno
    have hnone : ∀ r ∈ rows, ¬ r.selects w = true := fun r hr hs =>
      hno ⟨r, hr, hs, Decoded.instr.inj ((decode_of_selects hr hs).symm.trans h)⟩
    exact decodeOther_ne_instr w i ((decode_of_no_row hnone).symm.trans h)
  · rintro ⟨r, hr, hs, rfl⟩
    exact decode_of_selects hr hs

/-! ### Encode, then decode -/

/-- The word of a well-formed instruction selects the row of the instruction's own constructor, which reads the operands back. -/
theorem encode_selects_row : ∀ i : Instr, Laws.OwnRow.Statement i
  | .vsetvli rd rs1 zimm => Laws.OwnRow.vsetvli rd rs1 zimm
  | .vsetivli rd uimm zimm => Laws.OwnRow.vsetivli rd uimm zimm
  | .vsetvl rd rs1 rs2 => Laws.OwnRow.vsetvl rd rs1 rs2
  | .msetmtype rs1 rs2 => Laws.OwnRow.msetmtype rs1 rs2
  | .msetmtypei mtypei vsewi => Laws.OwnRow.msetmtypei mtypei vsewi
  | .msettn rd rs1 => Laws.OwnRow.msettn rd rs1
  | .msettm rd rs1 => Laws.OwnRow.msettm rd rs1
  | .msettk rd rs1 => Laws.OwnRow.msettk rd rs1
  | .vlte8 rs1 rs2 => Laws.OwnRow.vlte8 rs1 rs2
  | .vlte16 rs1 rs2 => Laws.OwnRow.vlte16 rs1 rs2
  | .vlte32 rs1 rs2 => Laws.OwnRow.vlte32 rs1 rs2
  | .vlte64 rs1 rs2 => Laws.OwnRow.vlte64 rs1 rs2
  | .vste8 rs1 rs2 => Laws.OwnRow.vste8 rs1 rs2
  | .vste16 rs1 rs2 => Laws.OwnRow.vste16 rs1 rs2
  | .vste32 rs1 rs2 => Laws.OwnRow.vste32 rs1 rs2
  | .vste64 rs1 rs2 => Laws.OwnRow.vste64 rs1 rs2
  | .vtmvVT vd rs1 => Laws.OwnRow.vtmvVT vd rs1
  | .vtmvTV rs1 vs2 => Laws.OwnRow.vtmvTV rs1 vs2
  | .vtzeroT mtd => Laws.OwnRow.vtzeroT mtd
  | .vtdiscard => Laws.OwnRow.vtdiscard
  | .mmFF mtd vs2 vs1 => Laws.OwnRow.mmFF mtd vs2 vs1
  | .p2mmFF mtd vs2 vs1 => Laws.OwnRow.p2mmFF mtd vs2 vs1
  | .mmE5m2E5m2 mtd vs2 vs1 => Laws.OwnRow.mmE5m2E5m2 mtd vs2 vs1
  | .mmE5m2E4m3 mtd vs2 vs1 => Laws.OwnRow.mmE5m2E4m3 mtd vs2 vs1
  | .mmE4m3E5m2 mtd vs2 vs1 => Laws.OwnRow.mmE4m3E5m2 mtd vs2 vs1
  | .mmE4m3E4m3 mtd vs2 vs1 => Laws.OwnRow.mmE4m3E4m3 mtd vs2 vs1
  | .mmUU mtd vs2 vs1 => Laws.OwnRow.mmUU mtd vs2 vs1
  | .mmSU mtd vs2 vs1 => Laws.OwnRow.mmSU mtd vs2 vs1
  | .mmUS mtd vs2 vs1 => Laws.OwnRow.mmUS mtd vs2 vs1
  | .mmSS mtd vs2 vs1 => Laws.OwnRow.mmSS mtd vs2 vs1
  | .addi rd rs1 imm => Laws.OwnRow.addi rd rs1 imm
  | .slli rd rs1 shamt => Laws.OwnRow.slli rd rs1 shamt
  | .add rd rs1 rs2 => Laws.OwnRow.add rd rs1 rs2
  | .bne rs1 rs2 offset => Laws.OwnRow.bne rs1 rs2 offset
  | .csrrs rd csr rs1 => Laws.OwnRow.csrrs rd csr rs1

/-- Settles O1: the word selects its instruction's own row, which reads the operands back, and no other. -/
theorem encodeThenDecode : Obligations.EncodeThenDecode := fun i hi => decode_eq_instr_iff.2 (encode_selects_row i hi)

theorem decode_of_encode_eq {w : InstrWord} {i : Instr} (he : encode i = w) (hi : i.wellFormed = true) :
    decode w = .instr i := he ▸ encodeThenDecode i hi

/-- Settles O4: each word is the encoding of its instruction. -/
theorem sampleWordsDecode : Obligations.SampleWordsDecode :=
  ⟨decode_of_encode_eq rfl rfl, decode_of_encode_eq rfl rfl, decode_of_encode_eq rfl rfl, decode_of_encode_eq rfl rfl,
    decode_of_encode_eq rfl rfl, decode_of_encode_eq rfl rfl, decode_of_encode_eq rfl rfl, decode_of_encode_eq rfl rfl,
    decode_of_encode_eq rfl rfl, decode_of_encode_eq rfl rfl, decode_of_encode_eq rfl rfl, decode_of_encode_eq rfl rfl,
    decode_of_encode_eq rfl rfl⟩

/-! ### Decode, then encode -/

/-- The encoding of the instruction that a row builds from a word is the match value with the word's own bits where the mask is
clear: the operands are those bits, each once. -/
def Row.ReadsFreeBits (r : Row) : Prop := ∀ w, encode (r.build w) = r.mtch ||| (w &&& ~~~ r.mask)

theorem encR_fields (m w : InstrWord) : encR m (fieldRd w) (fieldRs1 w) (fieldRs2 w) = m ||| (w &&& 0x01FF8F80#32) := by
  simp [encR, fieldRd, fieldRs1, fieldRs2, place_field, BitVec.or_assoc, ← BitVec.and_or_distrib_left]

theorem encR_rs1_rs2 (m w : InstrWord) : encR m 0#5 (fieldRs1 w) (fieldRs2 w) = m ||| (w &&& 0x01FF8000#32) := by
  simp [encR, fieldRs1, fieldRs2, place_field, BitVec.or_assoc, ← BitVec.and_or_distrib_left]

theorem encR_rd_rs1 (m w : InstrWord) : encR m (fieldRd w) (fieldRs1 w) 0#5 = m ||| (w &&& 0x000F8F80#32) := by
  simp [encR, fieldRd, fieldRs1, place_field, BitVec.or_assoc, ← BitVec.and_or_distrib_left]

theorem encMm3_fields (m w : InstrWord) : encMm3 m (fieldTile3 w) (fieldRs2 w) (fieldRs1 w) = m ||| (w &&& 0x01FF8E00#32) := by
  simp [encMm3, fieldTile3, (tile3_read _).1, fieldRs1, fieldRs2, place_field, BitVec.or_assoc, ← BitVec.and_or_distrib_left]

theorem encMm2_fields (m w : InstrWord) : encMm2 m (fieldTile2 w) (fieldRs2 w) (fieldRs1 w) = m ||| (w &&& 0x01FF8C00#32) := by
  simp [encMm2, fieldTile2, (tile2_read _).1, fieldRs1, fieldRs2, place_field, BitVec.or_assoc, ← BitVec.and_or_distrib_left]

/-- A word whose operands are `rd`, `rs1` and an immediate above them. -/
theorem rd_rs1_imm_fields (m w : InstrWord) (len : Nat) :
    m ||| place (fieldRd w) 7 ||| place (fieldRs1 w) 15 ||| place (field w 20 len) 20
      = m ||| (w &&& (0x000F8F80#32 ||| BitVec.ofNat 32 ((2 ^ len - 1) * 2 ^ 20))) := by
  simp only [fieldRd, fieldRs1, place_field, BitVec.or_assoc, ← BitVec.and_or_distrib_left]
  rw [← BitVec.or_assoc]
  rfl

theorem configRows_readFreeBits : ∀ r ∈ configRows, r.ReadsFreeBits := by
  simp only [configRows, List.forall_mem_cons]
  refine ⟨fun w => rd_rs1_imm_fields _ w 11, fun w => rd_rs1_imm_fields _ w 10, encR_fields _, encR_rs1_rs2 _, fun w => ?_,
    encR_rd_rs1 _, encR_rd_rs1 _, encR_rd_rs1 _, nofun⟩
  simp [encode, fieldRs1, place_field, BitVec.or_assoc, ← BitVec.and_or_distrib_left]

theorem tileMemoryRows_readFreeBits : ∀ r ∈ tileMemoryRows, r.ReadsFreeBits := by
  simp only [tileMemoryRows, List.forall_mem_cons]
  exact ⟨encR_rs1_rs2 _, encR_rs1_rs2 _, encR_rs1_rs2 _, encR_rs1_rs2 _, encR_rs1_rs2 _, encR_rs1_rs2 _, encR_rs1_rs2 _,
    encR_rs1_rs2 _, nofun⟩

theorem tileMoveRows_readFreeBits : ∀ r ∈ tileMoveRows, r.ReadsFreeBits := by
  simp only [tileMoveRows, List.forall_mem_cons]
  refine ⟨encR_rd_rs1 _, encR_rs1_rs2 _, fun w => ?_, fun w => ?_, nofun⟩
  · simp [encode, fieldTile4, place_field]
  · simp [encode]

theorem matrixRows_readFreeBits : ∀ r ∈ matrixRows, r.ReadsFreeBits := by
  simp only [matrixRows, List.forall_mem_cons]
  exact ⟨encMm3_fields _, encMm3_fields _, encMm2_fields _, encMm2_fields _, encMm2_fields _, encMm2_fields _,
    encMm2_fields _, encMm2_fields _, encMm2_fields _, encMm2_fields _, nofun⟩

theorem encode_bne_fields (w : InstrWord) :
    encode (.bne (fieldRs1 w) (fieldRs2 w) (fieldBranchOffset w)) = 0x00001063#32 ||| (w &&& 0xFFFF8F80#32) := by
  obtain ⟨o, ho, h12, h11, h5, h1, -⟩ := offset_read (field w 31 1) (field w 7 1) (field w 25 6) (field w 8 4)
  rw [fieldBranchOffset, ← ho]
  simp [encode, h12, h11, h5, h1, fieldRs1, fieldRs2, place_field, BitVec.or_assoc, ← BitVec.and_or_distrib_left]

theorem hostRows_readFreeBits : ∀ r ∈ hostRows, r.ReadsFreeBits := by
  simp only [hostRows, List.forall_mem_cons]
  exact ⟨fun w => rd_rs1_imm_fields _ w 12, fun w => rd_rs1_imm_fields _ w 6, encR_fields _, encode_bne_fields,
    fun w => rd_rs1_imm_fields _ w 12, nofun⟩

theorem forall_mem_rows {P : Row → Prop} : (∀ r ∈ rows, P r) ↔ (∀ r ∈ configRows, P r) ∧ (∀ r ∈ tileMemoryRows, P r) ∧
    (∀ r ∈ tileMoveRows, P r) ∧ (∀ r ∈ matrixRows, P r) ∧ ∀ r ∈ hostRows, P r := by
  simp only [rows, List.forall_mem_append, and_assoc]

theorem rows_readFreeBits : ∀ r ∈ rows, r.ReadsFreeBits :=
  forall_mem_rows.2 ⟨configRows_readFreeBits, tileMemoryRows_readFreeBits, tileMoveRows_readFreeBits, matrixRows_readFreeBits,
    hostRows_readFreeBits⟩

/-- Match value and free bits together are the whole of a word that selects the row. -/
theorem encode_build {r : Row} (hr : r ∈ rows) {w : InstrWord} (h : r.selects w = true) : encode (r.build w) = w := by
  rw [Row.selects, beq_iff_eq] at h
  rw [rows_readFreeBits r hr w, ← h, ← BitVec.and_or_distrib_left, BitVec.or_not_self, BitVec.and_allOnes]

theorem offsetIsEven_fieldBranchOffset (w : InstrWord) : offsetIsEven (fieldBranchOffset w) = true := by
  obtain ⟨o, ho, -, -, -, -, heven⟩ := offset_read (field w 31 1) (field w 7 1) (field w 25 6) (field w 8 4)
  rwa [fieldBranchOffset, ← ho]

theorem matrixRows_build_wellFormed (w : InstrWord) : ∀ r ∈ matrixRows, (r.build w).wellFormed = true := by
  have h3 : tileHasThreeBits (fieldTile3 w) = true := (tile3_read _).2
  have h2 : tileHasTwoBits (fieldTile2 w) = true := (tile2_read _).2
  simp [matrixRows, Instr.wellFormed, h2, h3]

/-- The operands read from any word are values that the encoding holds. -/
theorem build_wellFormed (w : InstrWord) : ∀ r ∈ rows, (r.build w).wellFormed = true :=
  forall_mem_rows.2 ⟨by simp [configRows, Instr.wellFormed], by simp [tileMemoryRows, Instr.wellFormed],
    by simp [tileMoveRows, Instr.wellFormed], matrixRows_build_wellFormed w,
    by simp [hostRows, Instr.wellFormed, offsetIsEven_fieldBranchOffset]⟩

/-- Settles O2: the word has the match value where the row's mask is set, and the operands hold all its other bits. -/
theorem decodeThenEncode : Obligations.DecodeThenEncode := by
  intro w i h
  obtain ⟨r, hr, hs, rfl⟩ := decode_eq_instr_iff.1 h
  exact ⟨build_wellFormed w r hr, encode_build hr hs⟩

end Sys2Proof
end

section
/-! PROOFS of the reserved words of R109 and of the step on a word that is no instruction: such a word has in some field a value that
no row of its group admits. -/

namespace Sys2Proof

/-! ### What selecting a row says of a field -/

/-- Every word that selects the row has the value `v` in the field at `lo`. -/
abbrev Row.Fixes (r : Row) (lo : Nat) {len : Nat} (v : BitVec len) : Prop :=
  field r.mask lo len = BitVec.allOnes len ∧ field r.mtch lo len = v

/-- No word that selects the row has the value `v` in the field at `lo`: it differs from the row's in a bit the row fixes. -/
abbrev Row.Excludes (r : Row) (lo : Nat) {len : Nat} (v : BitVec len) : Prop :=
  (field r.mtch lo len ^^^ v) &&& field r.mask lo len ≠ 0#len

theorem field_of_fixes {r : Row} {w : InstrWord} (hs : r.selects w = true) {lo len : Nat} {v : BitVec len}
    (h : r.Fixes lo v) : field w lo len = v :=
  (Machine.field_of_selects hs h.1).trans h.2

theorem not_excludes {r : Row} {w : InstrWord} (hs : r.selects w = true) {lo len : Nat} {v : BitVec len}
    (h : field w lo len = v) : ¬ r.Excludes lo v := by
  rw [Row.selects, beq_iff_eq] at hs
  rw [not_not, ← hs, ← h]
  refine BitVec.eq_of_getLsbD_eq fun i hi => ?_
  simp only [BitVec.getLsbD_and, BitVec.getLsbD_xor, getLsbD_field, BitVec.getLsbD_zero]
  cases r.mask.getLsbD (lo + i) <;> simp

/-- A reserved word that selects no row is a reserved encoding, unless it has the SYSTEM opcode of `mret` and `sret`. -/
theorem decode_reserved {w : InstrWord} (hop : field w 0 7 ≠ 0x73#7) (hres : isReserved w = true)
    (hrow : ∀ r ∈ rows, ¬ r.selects w = true) : decode w = .reservedEncoding := by
  have hmret : w ≠ mretWord := by rintro rfl; exact hop (by decide)
  have hsret : w ≠ sretWord := by rintro rfl; exact hop (by decide)
  simp [decode_of_no_row hrow, decodeOther, hmret, hsret, hres]

/-! ### Tile loads and stores (R104) -/

theorem rows_tileMemory : ∀ r ∈ rows, ¬ r.Excludes 0 0x07#7 ∨ ¬ r.Excludes 0 0x27#7 →
    r.Excludes 31 1#1 ∧ r.Fixes 7 0#5 ∧ r.Excludes 25 0#1 ∧ r.Fixes 26 0#2 := by
  decide

theorem decode_tileMemory_reserved {w : InstrWord} (hop : field w 0 7 = 0x07#7 ∨ field w 0 7 = 0x27#7)
    (hwidth : field w 12 3 = 7#3) (hmew : field w 28 1 = 1#1)
    (h : field w 31 1 = 1#1 ∨ fieldRd w ≠ 0#5 ∨ field w 25 1 = 0#1 ∨ field w 26 2 ≠ 0#2) : decode w = .reservedEncoding := by
  refine decode_reserved (by rcases hop with hop | hop <;> simp [hop]) ?_ fun r hr hs => ?_
  · simp [isReserved, reservedTileMemory, hop, hwidth, hmew]
  obtain ⟨heee, hpos, hvm, hmop⟩ := rows_tileMemory r hr (hop.imp (not_excludes hs) (not_excludes hs))
  rcases h with h | h | h | h
  · exact not_excludes hs h heee
  · exact h (field_of_fixes hs hpos)
  · exact not_excludes hs h hvm
  · exact h (field_of_fixes hs hmop)

/-! ### Configuration (R103) -/

theorem rows_config : ∀ r ∈ rows, ¬ r.Excludes 0 0x57#7 → ¬ r.Excludes 12 7#3 →
    (r.Excludes 25 0b1000001#7 ∨ r.Fixes 7 0#5) ∧
    (r.Excludes 25 0b1000010#7
      ∨ r.Excludes 22 1#1 ∧ (r.Fixes 20 3#3 ∨ r.Fixes 23 0#2) ∧ (r.Excludes 20 3#3 ∨ r.Fixes 7 0#5)) ∧
    ∀ f : BitVec 7, 0b1000011#7 ≤ f → f ≤ 0b1011111#7 → r.Excludes 25 f := by
  decide

theorem decode_config_reserved {w : InstrWord} (hop : field w 0 7 = 0x57#7) (hf : field w 12 3 = 7#3)
    (h : (field w 25 7 = 0b1000001#7 ∧ fieldRd w ≠ 0#5)
      ∨ (field w 25 7 = 0b1000010#7 ∧ (field w 22 1 = 1#1 ∨ (field w 20 3 ≠ 3#3 ∧ field w 23 2 ≠ 0#2)
        ∨ (field w 20 3 = 3#3 ∧ fieldRd w ≠ 0#5)))
      ∨ (0b1000011#7 ≤ field w 25 7 ∧ field w 25 7 ≤ 0b1011111#7)) : decode w = .reservedEncoding := by
  refine decode_reserved (by simp [hop]) (by simp [isReserved, reservedConfig, hop, hf]) fun r hr hs => ?_
  obtain ⟨hmtype, hgroup, hrange⟩ := rows_config r hr (not_excludes hs hop) (not_excludes hs hf)
  rcases h with ⟨h7, hrd⟩ | ⟨h7, h⟩ | ⟨hlo, hhi⟩
  · exact hmtype.elim (not_excludes hs h7) fun hx => hrd (field_of_fixes hs hx)
  · obtain ⟨h22, hlow, hcode⟩ := hgroup.resolve_left (not_excludes hs h7)
    rcases h with h | ⟨hne, h23⟩ | ⟨h20, hrd⟩
    · exact not_excludes hs h h22
    · exact hlow.elim (fun hx => hne (field_of_fixes hs hx)) fun hx => h23 (field_of_fixes hs hx)
    · exact hcode.elim (not_excludes hs h20) fun hx => hrd (field_of_fixes hs hx)
  · exact not_excludes hs rfl (hrange _ hlo hhi)

/-! ### Moves, zero and discard (R105) -/

theorem rows_tileMove : ∀ r ∈ rows, ¬ r.Excludes 0 0x57#7 → ¬ r.Excludes 12 6#3 →
    (r.Excludes 26 0b010111#6 ∨ r.Excludes 25 0#1 ∧ r.Fixes 7 0#5) ∧
    (r.Excludes 26 0b010000#6 ∨ r.Excludes 25 0#1
      ∧ (r.Excludes 20 0b11110#5 ∨ r.Fixes 15 0#5 ∧ r.Excludes 7 1#1)
      ∧ (r.Excludes 20 0b11100#5 ∨ r.Fixes 15 0#5 ∧ r.Fixes 7 0#5)
      ∧ ∀ v ∉ [0b00000#5, 0b11100#5, 0b11110#5, 0b11111#5], r.Excludes 20 v) := by
  decide

theorem decode_tileMove_reserved {w : InstrWord} (hop : field w 0 7 = 0x57#7) (hf : field w 12 3 = 6#3)
    (h : (field w 26 6 = 0b010111#6 ∧ (field w 25 1 = 0#1 ∨ fieldRd w ≠ 0#5))
      ∨ (field w 26 6 = 0b010000#6 ∧ (field w 25 1 = 0#1
        ∨ (fieldRs2 w = 0b11110#5 ∧ (fieldRs1 w ≠ 0#5 ∨ field w 7 1 = 1#1))
        ∨ (fieldRs2 w = 0b11100#5 ∧ (fieldRs1 w ≠ 0#5 ∨ fieldRd w ≠ 0#5))
        ∨ fieldRs2 w ∉ [0b00000#5, 0b11100#5, 0b11110#5, 0b11111#5]))) : decode w = .reservedEncoding := by
  refine decode_reserved (by simp [hop]) ?_ fun r hr hs => ?_
  · suffices hm : reservedTileMove w = true by simp [isReserved, hm]
    rcases h with ⟨h6, -⟩ | ⟨h6, h | ⟨h, -⟩ | ⟨h, -⟩ | h⟩
    all_goals simp_all [reservedTileMove]
  obtain ⟨htov, hunary⟩ := rows_tileMove r hr (not_excludes hs hop) (not_excludes hs hf)
  rcases h with ⟨h6, h⟩ | ⟨h6, h⟩
  · obtain ⟨hvm, hrd⟩ := htov.resolve_left (not_excludes hs h6)
    exact h.elim (fun h => not_excludes hs h hvm) fun h => h (field_of_fixes hs hrd)
  · obtain ⟨hvm, hzero, hdiscard, hcode⟩ := hunary.resolve_left (not_excludes hs h6)
    rcases h with h | ⟨hrs2, h⟩ | ⟨hrs2, h⟩ | h
    · exact not_excludes hs h hvm
    · obtain ⟨hrs1, hbit⟩ := hzero.resolve_left (not_excludes hs hrs2)
      exact h.elim (fun h => h (field_of_fixes hs hrs1)) fun h => not_excludes hs h hbit
    · obtain ⟨hrs1, hrd⟩ := hdiscard.resolve_left (not_excludes hs hrs2)
      exact h.elim (fun h => h (field_of_fixes hs hrs1)) fun h => h (field_of_fixes hs hrd)
    · exact not_excludes hs rfl (hcode _ h)

/-! ### Matrix arithmetic (R106) -/

theorem rows_matrix : ∀ r ∈ rows, ¬ r.Excludes 0 0x77#7 →
    r.Excludes 25 0#1 ∧ r.Excludes 8 1#1 ∧ (∀ v : BitVec 3, 2#3 ≤ v → r.Excludes 12 v) ∧ r.Fixes 28 0b1111#4 ∧
    (r.Excludes 27 0b11111#5 ∨ r.Excludes 12 0#3 ∧ r.Excludes 9 1#1) ∧
    (r.Excludes 27 0b11110#5 ∨ r.Excludes 12 0#3 ∨ r.Excludes 9 1#1) ∧
    (r.Excludes 26 0b111101#6 ∨ r.Excludes 12 1#3) := by
  decide

theorem decode_matrix_reserved {w : InstrWord} (hop : field w 0 7 = 0x77#7)
    (h : field w 25 1 = 0#1 ∨ field w 8 1 = 1#1 ∨ 2#3 ≤ field w 12 3 ∨ field w 28 4 ≠ 0b1111#4
      ∨ (field w 27 5 = 0b11111#5 ∧ (field w 12 3 = 0#3 ∨ field w 9 1 = 1#1))
      ∨ (field w 27 5 = 0b11110#5 ∧ field w 12 3 = 0#3 ∧ field w 9 1 = 1#1)
      ∨ (field w 26 6 = 0b111101#6 ∧ field w 12 3 = 1#3)) : decode w = .reservedEncoding := by
  refine decode_reserved (by simp [hop]) (by simp [isReserved, reservedMatrix, hop]) fun r hr hs => ?_
  obtain ⟨hvm, h8, hf, htop, hfp8, hint8, hfp⟩ := rows_matrix r hr (not_excludes hs hop)
  rcases h with h | h | h | h | ⟨h5, h⟩ | ⟨h5, h0, h9⟩ | ⟨h6, h1⟩
  · exact not_excludes hs h hvm
  · exact not_excludes hs h h8
  · exact not_excludes hs rfl (hf _ h)
  · exact h (field_of_fixes hs htop)
  · obtain ⟨hx0, hx9⟩ := hfp8.resolve_left (not_excludes hs h5)
    exact h.elim (fun h => not_excludes hs h hx0) fun h => not_excludes hs h hx9
  · exact (hint8.resolve_left (not_excludes hs h5)).elim (not_excludes hs h0) (not_excludes hs h9)
  · exact hfp.elim (not_excludes hs h6) (not_excludes hs h1)

/-- Settles O5: in each format the reserved word has a field value that every row of its opcode excludes. -/
theorem reservedWords : Obligations.ReservedWords :=
  fun _ => ⟨decode_tileMemory_reserved, decode_config_reserved, decode_tileMove_reserved, decode_matrix_reserved⟩

end Sys2Proof

namespace Sys2Proof.Machine

/-! ### The step on a word that is no instruction -/

/-- The word fetched is the one whose bytes lie at `pc` (R71). -/
theorem word_of_fetch {s : State} {w v : InstrWord} (h : fetch s = .word w)
    (hb : memReadBytes s.cfg s.mem s.pc.toNat 4 = bytesOfWord v) : w = v := by
  have hread : w = wordOfBytes (memRead s.mem (addrX s.cfg s.pc.toNat 0)) (memRead s.mem (addrX s.cfg s.pc.toNat 1))
      (memRead s.mem (addrX s.cfg s.pc.toNat 2)) (memRead s.mem (addrX s.cfg s.pc.toNat 3)) := by
    simp only [fetch] at h
    split at h
    · cases h
    split at h
    · cases h
    split at h
    · cases h
    exact (Fetched.word.inj h).symm
  obtain ⟨h0, h1, h2, h3⟩ : _ ∧ _ ∧ _ ∧ _ := by
    simpa [memReadBytes, byteAddrs, bytesOfWord, List.range_succ] using hb
  rw [hread, h0, h1, h2, h3, wordOfBytes_bytesOfWord]

/-- A step with no interrupt to take runs the word at `pc`, where the fetch is admitted. -/
theorem step_of_word {s : State} {w : InstrWord} (hc : s.cfg.wf = true) (hi : pendingInterrupt s = none)
    (ha : s.pc.toNat % 4 = 0)
    (h : ∀ a ∈ byteAddrs s.cfg s.pc.toNat 4, byteVerdict s .fetch a = .permitted ∧ a ∉ s.unsynced)
    (hb : memReadBytes s.cfg s.mem s.pc.toNat 4 = bytesOfWord w) : step s = finishStep (execWord w s) := by
  obtain ⟨v, hv, -⟩ := fetch_word ha h
  rw [step_of_no_interrupt hc hi, fetchAndExec, hv, word_of_fetch hv hb]

theorem decode_mretWord : decode mretWord = .machineReturn := by decide

theorem decode_sretWord : decode sretWord = .supervisorReturn := by decide

/-- Settles O7: the step runs the fetched word, and what it decodes to selects the branch of `execWord`. -/
theorem stepOnOtherWords : Obligations.StepOnOtherWords := by
  intro s w hc hi ha h hb
  have hstep := step_of_word hc hi ha h hb
  refine ⟨fun hd => ?_, fun hw => ?_, fun hw => ?_, fun hd => ?_⟩
  · rw [hstep, execWord, hd]
    rfl
  · have hx : execWord w s = .next (machineReturn w s) := by rw [hw, execWord, ← mretWord, decode_mretWord]
    rw [hstep, hx, machineReturn]
    exact ⟨fun hp => by rw [if_pos hp]; rfl, fun hp => by rw [if_neg hp]; rfl⟩
  · have hx : execWord w s = .next (supervisorReturn w s) := by rw [hw, execWord, ← sretWord, decode_sretWord]
    rw [hstep, hx, supervisorReturn]
    refine ⟨fun hS hp => ?_, ?_, fun hS hp hv => ?_⟩
    · simp [hS, hp, finishStep]
    · rintro (hS | ⟨hp, hv⟩)
      · simp [hS, finishStep]
      · simp [hp, hv, finishStep]
    · simp [hS, hp, hv, finishStep]
  · rw [hstep, execWord, hd]
    rfl

end Sys2Proof.Machine
end

section
/-! PROOFS about the configuration rules of 40_config.md: the length that `SetVL` answers, and the `vtype` values that `VsetvlVtype`
keeps. -/

namespace Sys2Proof.Machine

/-! ### `SetVL` (R134) -/

theorem setVl_of_vill {c : Config} {t : VType} (h : t.vill = true) (avl : Nat) : setVl c t avl = 0 := by simp [setVl, h]

theorem setVl_of_le {c : Config} {t : VType} {avl : Nat} (h : t.vill = false) (ha : avl ≤ vlmax c t) :
    setVl c t avl = avl := by
  simp [setVl, h, ha]

theorem setVl_of_two_mul_le {c : Config} {t : VType} {avl : Nat} (h : t.vill = false) (ha : 2 * vlmax c t ≤ avl) :
    setVl c t avl = vlmax c t := by
  by_cases hle : avl ≤ vlmax c t
  · rw [setVl_of_le h hle]
    omega
  · simp [setVl, h, hle, ha]

theorem setVl_of_between {c : Config} {t : VType} {avl : Nat} (h : t.vill = false) (h1 : vlmax c t < avl)
    (h2 : avl < 2 * vlmax c t) : setVl c t avl = vlPolicy c avl (vlmax c t) := by
  simp [setVl, h, Nat.not_le.2 h1, Nat.not_le.2 h2]

/-- Every policy gives at least half of the AVL (log 24). -/
theorem half_le_vlPolicy (c : Config) {avl vmax : Nat} (h : avl < 2 * vmax) : (avl + 1) / 2 ≤ vlPolicy c avl vmax := by
  unfold vlPolicy
  split
  · omega
  · exact le_max_left _ _

theorem setVl_congr {c : Config} {t t' : VType} (hv : t'.vill = t.vill) (hm : vlmax c t' = vlmax c t) (avl : Nat) :
    setVl c t' avl = setVl c t avl := by
  rw [setVl, setVl, hv, hm]

/-- Settles O20: one equation for each range of the AVL, and between VLMAX and twice VLMAX the bounds of the policy. -/
theorem setVlRule : Obligations.SetVlRule := fun c t avl =>
  ⟨fun h => setVl_of_vill h avl, setVl_of_le, setVl_of_two_mul_le,
    fun h h1 h2 => ⟨setVl_of_between h h1 h2 ▸ half_le_vlPolicy c h2, setVl_le c t avl⟩,
    fun _ hv hm => setVl_congr hv hm avl⟩

/-! ### The fields of a value written to `vtype` (R25) -/

theorem vtypeOfWord_vsew_toNat (c : Config) (w : Word) : (vtypeOfWord c w).vsew.toNat = w.toNat / 8 % 8 := by
  simp [vtypeOfWord, BitVec.extractLsb'_toNat, Nat.shiftRight_eq_div_pow]

theorem vtypeOfWord_vlmul_toNat (c : Config) (w : Word) : (vtypeOfWord c w).vlmul.toNat = w.toNat % 8 := by
  simp [vtypeOfWord, BitVec.extractLsb'_toNat]

/-- The bits that R133 wants to be zero are those from bit 8 on, `altfmt` apart. -/
theorem getLsbD_reserved (c : Config) (w : Word) (j : Nat) :
    (w &&& ~~~vtypeFieldMask c).getLsbD j = (w.getLsbD j && decide (8 ≤ j ∧ j ≠ c.altfmtBit)) := by
  rcases Nat.lt_or_ge j 64 with hj | hj
  · have hlow : (0xFF#64).getLsbD j = decide (j < 8) := by interval_cases j <;> rfl
    have hmask : (vtypeFieldMask c).getLsbD j = (decide (j < 8) || decide (j = c.altfmtBit)) := by
      rw [vtypeFieldMask, show 1#64 <<< c.altfmtBit = bitAt true c.altfmtBit from rfl, BitVec.getLsbD_or, hlow, getLsbD_bitAt]
      by_cases h : j = c.altfmtBit
      · simp [← h, hj]
      · simp [h]
    rw [BitVec.getLsbD_and, BitVec.getLsbD_not, hmask]
    have h8 : decide (8 ≤ j) = !decide (j < 8) := by
      rw [← decide_not, decide_eq_decide, Nat.not_lt]
    simp [hj, h8]
  · simp [BitVec.getLsbD_of_ge _ _ hj]

/-- A value has no reserved bit and no `vill` when `altfmt` is its one bit from bit 8 on. -/
theorem no_reserved_bit_iff (c : Config) (w : Word) :
    w &&& ~~~vtypeFieldMask c = 0#64 ↔ ∀ j, w.getLsbD j = true → 8 ≤ j → j = c.altfmtBit := by
  constructor
  · intro h j hj h8
    have hbit := getLsbD_reserved c w j
    rw [h, hj] at hbit
    simpa [h8] using hbit
  · intro h
    refine BitVec.eq_of_getLsbD_eq fun j _ => ?_
    rw [getLsbD_reserved, BitVec.getLsbD_zero, Bool.and_eq_false_imp, decide_eq_false_iff_not]
    rintro hj ⟨h8, hne⟩
    exact hne (h j hj h8)

/-- The fields of a value without a reserved bit, at their places, are the value. -/
theorem vtypeWord_vtypeOfWord {c : Config} (hc : c.wf = true) {w : Word}
    (h : ∀ j, w.getLsbD j = true → 8 ≤ j → j = c.altfmtBit) : vtypeWord c (vtypeOfWord c w) = w := by
  obtain ⟨h8, hx⟩ := wf_altfmt hc
  have h64 : c.xlenBits ≤ 64 := by rcases xlenBits_cases c with h | h <;> omega
  refine BitVec.eq_of_getLsbD_eq fun j hlt => ?_
  simp only [vtypeWord, vtypeOfWord, BitVec.getLsbD_or, BitVec.getLsbD_setWidth, BitVec.getLsbD_shiftLeft,
    BitVec.getLsbD_extractLsb', getLsbD_bitAt]
  rcases Nat.lt_or_ge j 8 with hj | hj
  · have hne : j ≠ c.altfmtBit := by omega
    interval_cases j <;> simp [hne]
  · have h6 : j ≠ 6 := by omega
    have h7 : j ≠ 7 := by omega
    have h3 : ¬ j < 3 := by omega
    have hs : ¬ j - 3 < 3 := by omega
    by_cases he : j = c.altfmtBit
    · simp [h6, h7, h3, hs, ← he, hlt]
    · have : w.getLsbD j = false := by simpa using fun hj' => he (h j hj' hj)
      simp [h6, h7, h3, hs, he, this]

/-! ### `VsetvlVtype` (R133) -/

/-- A fractional LMUL is 1/2, 1/4 or 1/8, by its code (R25). -/
theorem lmulEighths_mul_of_fractional {t : VType} (h : 4 < t.vlmul.toNat) : lmulEighths t * 2 ^ (8 - t.vlmul.toNat) = 8 := by
  have hcode : ∀ b : BitVec 3, 4 < b.toNat → b = 5#3 ∨ b = 6#3 ∨ b = 7#3 := by decide
  rcases hcode _ h with hb | hb | hb <;> rw [lmulEighths, hb] <;> rfl

theorem vlmulSupported_iff (c : Config) (t : VType) :
    vlmulSupported c t = true ↔ t.vlmul.toNat < 4 ∨ 4 < t.vlmul.toNat ∧
      (sew t * 2 ^ (8 - t.vlmul.toNat) ≤ c.elenBits ∨ (t.vsew, t.vlmul) ∈ c.moreFractional) := by
  have hcode : ∀ b : BitVec 3, (b.getLsbD 2 = true ↔ 4 ≤ b.toNat) ∧ (b = 4#3 ↔ b.toNat = 4) := by decide
  obtain ⟨hfrac, hres⟩ := hcode t.vlmul
  rw [vlmulSupported]
  rcases Nat.lt_trichotomy t.vlmul.toNat 4 with h | h | h
  · rw [if_neg (hfrac.not.2 (Nat.not_le.2 h))]
    simp [h]
  · rw [if_pos (hfrac.2 h.ge)]
    simp [hres, h]
  · have hl := lmulEighths_mul_of_fractional h
    have hpos : 0 < lmulEighths t := Nat.pos_of_ne_zero fun h0 => by simp [h0] at hl
    have hle : 8 * sew t ≤ lmulEighths t * c.elenBits ↔ sew t * 2 ^ (8 - t.vlmul.toNat) ≤ c.elenBits := by
      conv_lhs => rw [← hl, Nat.mul_assoc, Nat.mul_le_mul_left_iff hpos, Nat.mul_comm]
    rw [if_pos (hfrac.2 h.le)]
    simp [hres, h.ne', h, hle, Nat.not_lt.2 h.le]

theorem altfmtSupported_iff (c : Config) (t : VType) :
    altfmtSupported c t = true ↔ t.altfmt = false ∨ t.vsew.toNat = 1 ∧ c.ext.zvm32a16f = true := by
  have hcode : t.vsew = 1#3 ↔ t.vsew.toNat = 1 := BitVec.toNat_inj.symm
  simp [altfmtSupported, hcode, and_comm]

/-- What makes a value supported, by its bits (R133; log 26, log 27). -/
theorem vtypeSupported_iff (c : Config) (w : Word) :
    vtypeSupported c w = true ↔
      (∀ j, w.getLsbD j = true → 8 ≤ j → j = c.altfmtBit) ∧ 8 * 2 ^ (w.toNat / 8 % 8) ≤ c.elenBits ∧
      (w.toNat % 8 < 4 ∨ 4 < w.toNat % 8 ∧ (8 * 2 ^ (w.toNat / 8 % 8) * 2 ^ (8 - w.toNat % 8) ≤ c.elenBits
        ∨ (BitVec.ofNat 3 (w.toNat / 8 % 8), BitVec.ofNat 3 (w.toNat % 8)) ∈ c.moreFractional)) ∧
      (w.getLsbD c.altfmtBit = false ∨ w.toNat / 8 % 8 = 1 ∧ c.ext.zvm32a16f = true) := by
  have hsew : sew (vtypeOfWord c w) = 8 * 2 ^ (w.toNat / 8 % 8) := by rw [sew, vtypeOfWord_vsew_toNat]
  have hpair : ((vtypeOfWord c w).vsew, (vtypeOfWord c w).vlmul)
      = (BitVec.ofNat 3 (w.toNat / 8 % 8), BitVec.ofNat 3 (w.toNat % 8)) := by
    rw [← vtypeOfWord_vsew_toNat c, ← vtypeOfWord_vlmul_toNat c, BitVec.ofNat_toNat, BitVec.ofNat_toNat, BitVec.setWidth_eq,
      BitVec.setWidth_eq]
  simp only [vtypeSupported, vsewSupported, Bool.and_eq_true, beq_iff_eq, decide_eq_true_eq, no_reserved_bit_iff,
    vlmulSupported_iff, altfmtSupported_iff, hpair, hsew, vtypeOfWord_vsew_toNat, vtypeOfWord_vlmul_toNat, and_assoc]
  rfl

theorem vsetvlVtype_of_supported {c : Config} {w : Word} (h : vtypeSupported c w = true) :
    vsetvlVtype c w = vtypeOfWord c w := if_pos h

theorem vsetvlVtype_of_unsupported {c : Config} {w : Word} (h : ¬ vtypeSupported c w = true) :
    vsetvlVtype c w = illegalVtype := if_neg h

/-- Settles O21: each unsupported field contradicts its part of `vtypeSupported_iff`, and a supported value keeps its bits. -/
theorem vsetvlVtypeRule : Obligations.VsetvlVtypeRule := by
  rintro c v _ _ hc - rfl rfl
  refine ⟨fun j hj h8 hne => ?reserved, fun hsew => ?sew, fun h4 => ?code4, fun h4 hlt hmem => ?fractional,
    fun halt hno => ?altfmt, fun hres hsew hlmul halt => ?kept⟩
  case kept =>
    have hsup := (vtypeSupported_iff c v).2 ⟨hres, hsew, hlmul, halt⟩
    rw [vsetvlVtype_of_supported hsup]
    exact ⟨vtypeWord_vtypeOfWord hc hres, rfl⟩
  all_goals
    refine vsetvlVtype_of_unsupported fun hsup => ?_
    obtain ⟨hres, hle, hlmul, hfmt⟩ := (vtypeSupported_iff c v).1 hsup
  case reserved => exact hne (hres j hj h8)
  case sew => omega
  case code4 => omega
  case fractional =>
    obtain hint | ⟨-, hfit | hadded⟩ := hlmul
    · omega
    · exact Nat.not_le.2 hlt hfit
    · exact hmem hadded
  case altfmt =>
    obtain hoff | ⟨hone, hext⟩ := hfmt
    · simp [hoff] at halt
    · simp [hone, hext] at hno

end Sys2Proof.Machine
end

section
/-! PROOFS about the configuration instructions of 40_config.md: each completes, and what it leaves in `vtype`, `vl`, `mtype` and
`rd`. -/

namespace Sys2Proof.Machine

/-! ### A configuration instruction that ends by writing `rd` -/

/-- What `rd` holds when the instruction ends, for a length that fits in a register or is written to `x0`. -/
theorem completeZvm_wroteX {s u : State} {rd : XReg} {n : Nat} (hc : u.cfg = s.cfg) (hx : u.x = s.x)
    (hn : rd ≠ 0#5 → n < 2 ^ s.cfg.xlenBits) : WroteX s (completeZvm (u.writeX rd (wordX s.cfg n))) rd n := by
  intro r
  rw [readX_congr (completeZvm_x _), readX_writeX]
  by_cases h : r = rd ∧ r ≠ 0#5
  · obtain ⟨rfl, h0⟩ := h
    rw [if_pos ⟨rfl, h0⟩, if_pos ⟨rfl, h0⟩, hc, truncX_toNat, wordX_toNat, Nat.mod_mod, Nat.mod_eq_of_lt (hn h0)]
  · rw [if_neg h, if_neg h, readX_congr hx]

theorem completeZvm_writeX_end {s u : State} (rd : XReg) (v : Word) (hc : u.cfg = s.cfg) (hp : u.pc = s.pc)
    (hv : u.virt = s.virt) (hg : u.vsstatus.vs = s.vsstatus.vs) : ZvmEnd s (completeZvm (u.writeX rd v)) :=
  completeZvm_end (by simpa using hc) (by simpa using hp) (by simpa using hv) (by simpa using hg)

theorem readX_lt {s : State} (hw : WidthInv s) (r : XReg) : (s.readX r).toNat < 2 ^ s.cfg.xlenBits := by
  unfold State.readX
  split
  · exact Nat.two_pow_pos _
  · exact hw.x ⟨r.toNat, r.isLt⟩

/-- The AVL by the forms of `rs1` and `rd` (R130; log 28). -/
theorem vsetAvl_eq (s : State) (rd rs1 : XReg) :
    vsetAvl s rd rs1 = if rs1 = 0#5 then (if rd = 0#5 then s.vl else 2 ^ s.cfg.xlenBits - 1) else (s.readX rs1).toNat := by
  simp only [vsetAvl, ne_eq, ite_not]

/-- Only the old `vl`, which goes to `x0`, may be an AVL of more than XLEN bits. -/
theorem vsetAvl_lt {s : State} (hw : WidthInv s) {rd : XReg} (h : rd ≠ 0#5) (rs1 : XReg) :
    vsetAvl s rd rs1 < 2 ^ s.cfg.xlenBits := by
  rw [vsetAvl_eq, if_neg h]
  split
  · exact Nat.sub_lt (Nat.two_pow_pos _) one_pos
  · exact readX_lt hw rs1

/-! ### `vsetvli`, `vsetivli` and `vsetvl` (R130 to R132) -/

section
variable {s : State} {rd rs1 rs2 : XReg} (hv : vsOff s = false)
include hv

theorem exec_vsetvli (hx : xregsExist s.cfg [rd, rs1] = true) (z : BitVec 11) :
    exec (.vsetvli rd rs1 z) s = .next (completeZvm (vsetvlEffect rd (z.setWidth 64) (vsetAvl s rd rs1) s)) := by
  simp only [exec, execVsetvli, withConfigChecks_run hv hx]

theorem exec_vsetivli (hx : xregsExist s.cfg [rd] = true) (uimm : BitVec 5) (z : BitVec 10) :
    exec (.vsetivli rd uimm z) s = .next (completeZvm (vsetvlEffect rd (z.setWidth 64) uimm.toNat s)) := by
  simp only [exec, execVsetivli, withConfigChecks_run hv hx]

theorem exec_vsetvl (hx : xregsExist s.cfg [rd, rs1, rs2] = true) :
    exec (.vsetvl rd rs1 rs2) s = .next (completeZvm (vsetvlEffect rd (s.readX rs2) (vsetAvl s rd rs1) s)) := by
  simp only [exec, execVsetvl, withConfigChecks_run hv hx]

end

@[simp] theorem vsetvlEffect_vtype (rd : XReg) (val : Word) (avl : Nat) (s : State) :
    (vsetvlEffect rd val avl s).vtype = vsetvlVtype s.cfg val := by simp [vsetvlEffect]

@[simp] theorem vsetvlEffect_vl (rd : XReg) (val : Word) (avl : Nat) (s : State) :
    (vsetvlEffect rd val avl s).vl = setVl s.cfg (vsetvlVtype s.cfg val) avl := by simp [vsetvlEffect]

@[simp] theorem vsetvlEffect_mtype (rd : XReg) (val : Word) (avl : Nat) (s : State) :
    (vsetvlEffect rd val avl s).mtype = ⟨0#14, 0#3, 0#2⟩ := by simp [vsetvlEffect]

theorem vsetvlEffect_frame (rd : XReg) (val : Word) (avl : Nat) (s : State) {t : State}
    (ht : t = completeZvm (vsetvlEffect rd val avl s)) :
    t = { s.endFrom t with vtype := t.vtype, vl := t.vl, x := t.x, mtype := t.mtype } := by
  simp only [ht, vsetvlEffect]
  rw [writeX_frame]
  rfl

theorem mtypeWord_zero (c : Config) : mtypeWord c ⟨0#14, 0#3, 0#2⟩ = 0#64 := by simp [mtypeWord]

/-- Settles O22: each of the three is `vsetvlEffect` for its value and its AVL. -/
theorem vsetResults : Obligations.VsetResults := by
  intro s rd rs1 rs2 uimm z11 z10 avl _ hw hv hx havl p hp
  rw [← vsetAvl_eq] at havl
  subst havl
  obtain ⟨hrd, hx1⟩ := xregsExist_cons.1 hx
  obtain ⟨hrs1, -⟩ := xregsExist_cons.1 hx1
  have hx2 : xregsExist s.cfg [rd] = true := xregsExist_cons.2 ⟨hrd, rfl⟩
  have hx3 : xregsExist s.cfg [rd, rs1] = true := xregsExist_cons.2 ⟨hrd, xregsExist_cons.2 ⟨hrs1, rfl⟩⟩
  have huimm : uimm.toNat < 2 ^ s.cfg.xlenBits := by
    have := le_two_pow_xlenBits s.cfg
    omega
  obtain ⟨hexec, hlt⟩ : exec p.1 s = .next (completeZvm (vsetvlEffect rd p.2.1 p.2.2 s)) ∧
      (rd ≠ 0#5 → p.2.2 < 2 ^ s.cfg.xlenBits) := by
    simp only [List.mem_cons, List.not_mem_nil, or_false] at hp
    rcases hp with rfl | rfl | rfl
    · exact ⟨exec_vsetvli hv hx3 z11, fun h => vsetAvl_lt hw h rs1⟩
    · exact ⟨exec_vsetivli hv hx2 uimm z10, fun _ => huimm⟩
    · exact ⟨exec_vsetvl hv hx, fun h => vsetAvl_lt hw h rs1⟩
  refine ⟨_, hexec, by simp, by simp, ?_, by simp [mtypeWord_zero], completeZvm_writeX_end rd _ rfl rfl rfl rfl,
    vsetvlEffect_frame rd p.2.1 p.2.2 s rfl⟩
  rw [completeZvm_vl, vsetvlEffect_vl]
  exact completeZvm_wroteX rfl rfl fun h => (setVl_le_avl ..).trans_lt (hlt h)

/-! ### `msetmtype` and `msetmtypei` (R135 to R137) -/

theorem exec_msetmtype {s : State} {rs1 rs2 : XReg} (hv : vsOff s = false) (hx : xregsExist s.cfg [rs1, rs2] = true) :
    exec (.msetmtype rs1 rs2) s = .next (completeZvm (msetmtypeEffect (s.readX rs1) (s.readX rs2) s)) := by
  simp only [exec, execMsetmtype, withConfigChecks_run hv hx]

theorem exec_msetmtypei {s : State} (hv : vsOff s = false) (mtypei : BitVec 5) (vsewi : BitVec 2) :
    exec (.msetmtypei mtypei vsewi) s
      = .next (completeZvm (msetmtypeEffect (mtypei.setWidth 64) (vsewi.setWidth 64 <<< 3) s)) := by
  simp only [exec, execMsetmtypei, withConfigChecks_run hv (rs := []) rfl]

theorem mtypeOfWord_tm_toNat (c : Config) (m : Word) : (mtypeOfWord c m).tm.toNat = m.toNat / 2 ^ 10 % 2 ^ 14 := by
  simp [mtypeOfWord, BitVec.extractLsb'_toNat, Nat.shiftRight_eq_div_pow]

theorem mtypeOfWord_tk_toNat (c : Config) (m : Word) : (mtypeOfWord c m).tk.toNat = m.toNat / 2 ^ tkLsb c % 8 := by
  simp [mtypeOfWord, BitVec.extractLsb'_toNat, Nat.shiftRight_eq_div_pow]

theorem mtypeOfWord_mtwiden_toNat (c : Config) (m : Word) : (mtypeOfWord c m).mtwiden.toNat = m.toNat % 4 := by
  simp [mtypeOfWord, BitVec.extractLsb'_toNat]

/-- The three fields that `MatrixConfigure` computes keep their value in their bits (R135). -/
theorem matrixConfigure_toNat {c : Config} (hc : c.wf = true) {v : VType} (hs : sew v ≤ c.elenBits) (m : MType) {w : Nat}
    (hw : w ∈ [1, 2, 4]) :
    2 ^ (matrixConfigure c w v m).1.vlmul.toNat = matrixLmul c (sew v) w ∧
      (matrixConfigure c w v m).2.tk.toNat = min m.tk.toNat (kmax (sew v)) ∧
      (matrixConfigure c w v m).2.tm.toNat
        = min m.tm.toNat (min (matrixLmul c (sew v) w * eve c (sew v)) (ete c (sew v * w))) := by
  obtain ⟨-, -, hl⟩ := lmulEighths_log2 (matrixLmul_mem hc hs hw) (t := (matrixConfigure c w v m).1) rfl
  have htk := m.tk.isLt
  have htm := m.tm.isLt
  refine ⟨hl, ?_, ?_⟩
  · exact (BitVec.toNat_ofNat ..).trans (Nat.mod_eq_of_lt (by omega))
  · exact (BitVec.toNat_ofNat ..).trans (Nat.mod_eq_of_lt (by omega))

theorem msetmtypeEffect_of_none {s : State} {m : Word} (h : twidenOf s.cfg (mtypeOfWord s.cfg m).mtwiden = none) (v : Word) :
    msetmtypeEffect m v s
      = { s with vl := 0, vtype := vsetvlVtype s.cfg v, mtype := { mtypeOfWord s.cfg m with tk := 0#3, tm := 0#14 } } := by
  simp [msetmtypeEffect, h]

theorem msetmtypeEffect_of_some {s : State} {m : Word} {w : Nat}
    (h : twidenOf s.cfg (mtypeOfWord s.cfg m).mtwiden = some w) (v : Word) :
    msetmtypeEffect m v s = { s with
      vl := 0
      vtype := (matrixConfigure s.cfg w (vsetvlVtype s.cfg v) (mtypeOfWord s.cfg m)).1
      mtype := (matrixConfigure s.cfg w (vsetvlVtype s.cfg v) (mtypeOfWord s.cfg m)).2 } := by
  simp [msetmtypeEffect, h]

/-- Both branches write `vl` = 0 and the supplied `mtwiden`, and touch `vtype`, `vl` and `mtype` alone. -/
theorem msetmtypeEffect_frame (m v : Word) (s : State) :
    msetmtypeEffect m v s
        = { s with vl := 0, vtype := (msetmtypeEffect m v s).vtype, mtype := (msetmtypeEffect m v s).mtype } ∧
      (msetmtypeEffect m v s).mtype.mtwiden = (mtypeOfWord s.cfg m).mtwiden := by
  cases h : twidenOf s.cfg (mtypeOfWord s.cfg m).mtwiden with
  | none =>
    rw [msetmtypeEffect_of_none h]
    exact ⟨rfl, rfl⟩
  | some w =>
    rw [msetmtypeEffect_of_some h]
    exact ⟨rfl, rfl⟩

/-- The end of an instruction that wrote `vtype`, `vl` and `mtype` alone. -/
theorem completeZvm_of_config_frame {s u : State} (hu : u = { s with vl := u.vl, vtype := u.vtype, mtype := u.mtype }) :
    ZvmEnd s (completeZvm u) ∧
      completeZvm u = { s.endFrom (completeZvm u) with vtype := u.vtype, vl := u.vl, mtype := u.mtype } := by
  generalize u.vl = n, u.vtype = v, u.mtype = m at hu
  subst hu
  exact ⟨completeZvm_end rfl rfl rfl rfl, rfl⟩

/-- Settles O23: each of the two is `msetmtypeEffect` for its values, whose two branches are the clauses. -/
theorem msetmtypeResults : Obligations.MsetmtypeResults := by
  intro s rs1 rs2 mtypei vsewi hc hv hx p hp
  have hexec : exec p.1 s = .next (completeZvm (msetmtypeEffect p.2.1 p.2.2 s)) := by
    simp only [List.mem_cons, List.not_mem_nil, or_false] at hp
    rcases hp with rfl | rfl
    · exact exec_msetmtype hv hx
    · exact exec_msetmtypei hv mtypei vsewi
  obtain ⟨hframe, hmw⟩ := msetmtypeEffect_frame p.2.1 p.2.2 s
  have hvl : (msetmtypeEffect p.2.1 p.2.2 s).vl = 0 := congrArg State.vl hframe
  obtain ⟨hend, hsame⟩ := completeZvm_of_config_frame (hvl ▸ hframe)
  refine ⟨_, hexec, hvl, ?_, fun h0 => ?_, fun w hw => ?_, hend, hsame⟩
  · rw [completeZvm_mtype, hmw, mtypeOfWord_mtwiden_toNat]
  · have hnone : twidenOf s.cfg (mtypeOfWord s.cfg p.2.1).mtwiden = none :=
      (twidenOf_none_iff _ _).2 (BitVec.eq_of_toNat_eq ((mtypeOfWord_mtwiden_toNat _ _).trans h0))
    rw [msetmtypeEffect_of_none hnone]
    exact ⟨rfl, rfl, rfl⟩
  · rw [completeZvm_mtype, hmw] at hw
    obtain ⟨hl, htk, htm⟩ := matrixConfigure_toNat hc (vsetvlVtype_sew s.cfg p.2.2) (mtypeOfWord s.cfg p.2.1) (twiden_mem hw)
    rw [mtypeOfWord_tk_toNat] at htk
    rw [mtypeOfWord_tm_toNat, ← hl] at htm
    rw [msetmtypeEffect_of_some hw]
    exact ⟨_, rfl, rfl, hl, htk, htm⟩

/-! ### `msettn`, `msettm` and `msettk` (R138 to R140) -/

section
variable {s : State} {rd rs1 : XReg} (hv : vsOff s = false) (hx : xregsExist s.cfg [rd, rs1] = true)
include hv hx

theorem exec_msettn : exec (.msettn rd rs1) s = .next (completeZvm
    ({ s with vl := msettnLength s rd rs1 }.writeX rd (wordX s.cfg (msettnLength s rd rs1)))) := by
  simp only [exec, execMsettn, withConfigChecks_run hv hx]

theorem exec_msettm : exec (.msettm rd rs1) s = .next (completeZvm
    ({ s with mtype := { s.mtype with tm := BitVec.ofNat 14 (msettmLength s rs1) } }.writeX rd
      (wordX s.cfg (msettmLength s rs1)))) := by
  simp only [exec, execMsettm, withConfigChecks_run hv hx]

theorem exec_msettk : exec (.msettk rd rs1) s = .next (completeZvm
    ({ s with mtype := { s.mtype with tk := BitVec.ofNat 3 (msettkLength s rs1) } }.writeX rd
      (wordX s.cfg (msettkLength s rs1)))) := by
  simp only [exec, execMsettk, withConfigChecks_run hv hx]

end

theorem msettnLength_of_none {s : State} (h : twidenOf s.cfg s.mtype.mtwiden = none) (rd rs1 : XReg) :
    msettnLength s rd rs1 = setVl s.cfg s.vtype (msettnAvl s rd rs1) := by simp [msettnLength, h]

theorem msettnLength_of_some {s : State} {w : Nat} (h : twidenOf s.cfg s.mtype.mtwiden = some w) (rd rs1 : XReg) :
    msettnLength s rd rs1 = clampToTile s w (s.readX rs1).toNat := by simp [msettnLength, h]

theorem msettmLength_of_none {s : State} (h : twidenOf s.cfg s.mtype.mtwiden = none) (rs1 : XReg) :
    msettmLength s rs1 = 0 := by simp [msettmLength, h]

theorem msettmLength_of_some {s : State} {w : Nat} (h : twidenOf s.cfg s.mtype.mtwiden = some w) (rs1 : XReg) :
    msettmLength s rs1 = clampToTile s w (s.readX rs1).toNat := by simp [msettmLength, h]

theorem msettkLength_of_none {s : State} (h : twidenOf s.cfg s.mtype.mtwiden = none) (rs1 : XReg) :
    msettkLength s rs1 = 0 := by simp [msettkLength, h]

theorem msettkLength_of_some {s : State} {w : Nat} (h : twidenOf s.cfg s.mtype.mtwiden = some w) (rs1 : XReg) :
    msettkLength s rs1 = min (s.readX rs1).toNat (kmax (sew s.vtype)) := by simp [msettkLength, h]

/-- The special forms of `rs1` = `x0` are `vsetvl`'s, when the parameter gives them (log 23). -/
theorem msettnAvl_eq (s : State) (rd rs1 : XReg) :
    msettnAvl s rd rs1 = if s.cfg.msettnX0Special = true ∧ rs1 = 0#5 then
      (if rd = 0#5 then s.vl else 2 ^ s.cfg.xlenBits - 1) else (s.readX rs1).toNat := by
  rw [msettnAvl, vsetAvl_eq, ite_and]

theorem msettnLength_lt {s : State} (hw : WidthInv s) {rd : XReg} (h : rd ≠ 0#5) (rs1 : XReg) :
    msettnLength s rd rs1 < 2 ^ s.cfg.xlenBits := by
  cases ht : twidenOf s.cfg s.mtype.mtwiden with
  | none =>
    rw [msettnLength_of_none ht]
    refine (setVl_le_avl ..).trans_lt ?_
    unfold msettnAvl
    split
    · exact vsetAvl_lt hw h rs1
    · exact readX_lt hw rs1
  | some w =>
    rw [msettnLength_of_some ht]
    exact (min_le_left _ _).trans_lt (readX_lt hw rs1)

/-- A tile edge fits in `tm` (R47). -/
theorem msettmLength_lt {s : State} (hc : s.cfg.wf = true) (rs1 : XReg) : msettmLength s rs1 < 2 ^ 14 := by
  cases ht : twidenOf s.cfg s.mtype.mtwiden with
  | none => rw [msettmLength_of_none ht]; norm_num
  | some w =>
    rw [msettmLength_of_some ht]
    have hle : clampToTile s w (s.readX rs1).toNat ≤ ete s.cfg (sew s.vtype * w) := (min_le_right _ _).trans (min_le_right _ _)
    exact (hle.trans (ete_le hc _)).trans_lt (by norm_num)

/-- KMAX fits in `tk` (R52). -/
theorem msettkLength_lt (s : State) (rs1 : XReg) : msettkLength s rs1 < 2 ^ 3 := by
  cases ht : twidenOf s.cfg s.mtype.mtwiden with
  | none => rw [msettkLength_of_none ht]; norm_num
  | some w =>
    rw [msettkLength_of_some ht]
    have hk := kmax_cases (sew s.vtype)
    omega

/-- A field of `mtype` fits in a register. -/
theorem lt_two_pow_xlenBits {n k : Nat} (c : Config) (hk : k ≤ 32) (hn : n < 2 ^ k) : n < 2 ^ c.xlenBits :=
  hn.trans_le ((Nat.pow_le_pow_right two_pos hk).trans (le_two_pow_xlenBits c))

/-- Settles O25: the new `vl` fits in XLEN bits because `SetVL` and the minimum are at most the AVL. -/
theorem msettnResult : Obligations.MsettnResult := by
  intro s rd rs1 _ hw hv hx
  refine ⟨_, exec_msettn hv hx, fun h => ?_, fun w h => ?_, ?_, completeZvm_writeX_end rd _ rfl rfl rfl rfl, ?_⟩
  · rw [completeZvm_vl, writeX_vl, ← msettnAvl_eq]
    exact msettnLength_of_none h rd rs1
  · rw [completeZvm_vl, writeX_vl]
    exact msettnLength_of_some h rd rs1
  · rw [completeZvm_vl, writeX_vl]
    exact completeZvm_wroteX rfl rfl fun h => msettnLength_lt hw h rs1
  · rw [writeX_frame]
    rfl

/-- `msettm` completes: the length fits in `tm` and in `rd` (R139). -/
theorem msettm_result {s : State} {rd rs1 : XReg} (hc : s.cfg.wf = true) (hv : vsOff s = false)
    (hx : xregsExist s.cfg [rd, rs1] = true) :
    ∃ t, exec (.msettm rd rs1) s = .next t ∧ t.mtype.tm.toNat = msettmLength s rs1 ∧ WroteX s t rd t.mtype.tm.toNat ∧
      ZvmEnd s t ∧ t = { s.endFrom t with mtype := { s.mtype with tm := t.mtype.tm }, x := t.x } := by
  have hlt := msettmLength_lt hc rs1
  have htm : (BitVec.ofNat 14 (msettmLength s rs1)).toNat = msettmLength s rs1 :=
    (BitVec.toNat_ofNat ..).trans (Nat.mod_eq_of_lt hlt)
  refine ⟨_, exec_msettm hv hx, ?_, ?_, completeZvm_writeX_end rd _ rfl rfl rfl rfl, ?_⟩
  · rwa [completeZvm_mtype, writeX_mtype]
  · rw [completeZvm_mtype, writeX_mtype, htm]
    exact completeZvm_wroteX rfl rfl fun _ => lt_two_pow_xlenBits s.cfg (by norm_num) hlt
  · rw [writeX_frame]
    rfl

/-- `msettk` completes: the length fits in `tk` and in `rd` (R140). -/
theorem msettk_result {s : State} {rd rs1 : XReg} (hv : vsOff s = false) (hx : xregsExist s.cfg [rd, rs1] = true) :
    ∃ t, exec (.msettk rd rs1) s = .next t ∧ t.mtype.tk.toNat = msettkLength s rs1 ∧ WroteX s t rd t.mtype.tk.toNat ∧
      ZvmEnd s t ∧ t = { s.endFrom t with mtype := { s.mtype with tk := t.mtype.tk }, x := t.x } := by
  have hlt := msettkLength_lt s rs1
  have htk : (BitVec.ofNat 3 (msettkLength s rs1)).toNat = msettkLength s rs1 :=
    (BitVec.toNat_ofNat ..).trans (Nat.mod_eq_of_lt hlt)
  refine ⟨_, exec_msettk hv hx, ?_, ?_, completeZvm_writeX_end rd _ rfl rfl rfl rfl, ?_⟩
  · rwa [completeZvm_mtype, writeX_mtype]
  · rw [completeZvm_mtype, writeX_mtype, htk]
    exact completeZvm_wroteX rfl rfl fun _ => lt_two_pow_xlenBits s.cfg (by norm_num) hlt
  · rw [writeX_frame]
    rfl

/-- Settles O26: `msettm_result` and `msettk_result`, with the length of each branch. -/
theorem msettmMsettkResults : Obligations.MsettmMsettkResults := by
  intro s rd rs1 hc hv hx
  obtain ⟨t, ht, htm, hrest⟩ := msettm_result hc hv hx
  obtain ⟨u, hu, htk, hrest'⟩ := msettk_result hv hx
  refine ⟨⟨t, ht, fun h => ?_, fun w h => ?_, hrest⟩, ⟨u, hu, fun h => ?_, fun w h => ?_, hrest'⟩⟩
  · exact BitVec.eq_of_toNat_eq (htm.trans (msettmLength_of_none h rs1))
  · exact htm.trans (msettmLength_of_some h rs1)
  · exact BitVec.eq_of_toNat_eq (htk.trans (msettkLength_of_none h rs1))
  · exact htk.trans (msettkLength_of_some h rs1)

end Sys2Proof.Machine
end

section
/-! PROOFS about the tile loads and stores of 41_tile_loadstore.md: what a tile subset specifier names, and a load or store without
body elements. -/

namespace Sys2Proof.Machine

/-! ### The fields of a tile subset specifier -/

/-- The fields that a TSS is read by, as numbers (R160). -/
structure TssFields (v : Word) (upper tile pattern index : Nat) : Prop where
  upper_eq : (v.extractLsb' 31 33).toNat = upper
  tile_eq : (v.extractLsb' 27 4).toNat = tile
  pattern_eq : (v.extractLsb' 24 3).toNat = pattern
  column_eq : v.getLsbD 24 = (pattern % 2 == 1)
  index_eq : (v.extractLsb' 0 24).toNat = index

/-- A word put together from fields that fit has those fields. -/
theorem tssFields_ofNat {upper tile pattern index : Nat} (hu : upper < 2 ^ 33) (ht : tile < 16) (hp : pattern < 8)
    (hi : index < 2 ^ 24) :
    TssFields (BitVec.ofNat 64 (upper * 2 ^ 31 + tile * 2 ^ 27 + pattern * 2 ^ 24 + index)) upper tile pattern index := by
  constructor
  case column_eq =>
    rw [BitVec.getLsbD_ofNat, Nat.testBit_eq_decide_div_mod_eq, Bool.eq_iff_iff]
    simp only [Bool.and_eq_true, decide_eq_true_eq, beq_iff_eq]
    omega
  all_goals
    rw [BitVec.extractLsb'_toNat, BitVec.toNat_ofNat, Nat.shiftRight_eq_div_pow]
    omega

section
variable {c : Config} {v : Word} {upper tile pattern index : Nat} (h : TssFields v upper tile pattern index) (w : Nat)
include h

/-- A value is reserved by its bits XLEN-1:31, its pattern or its index (R163). -/
theorem tssReserved_iff : tssReserved c v w = true ↔ 0 < upper ∨ 2 ≤ pattern ∨ ete c w ≤ index := by
  have hu : v.extractLsb' 31 33 = 0#33 ↔ upper = 0 := by rw [← BitVec.toNat_inj, h.upper_eq]; rfl
  simp only [tssReserved, h.pattern_eq, h.index_eq, Bool.or_eq_true, Bool.not_eq_true', beq_eq_false_iff_ne, ne_eq, hu,
    decide_eq_true_eq]
  omega

/-- The tile, pattern and index that remain when the reserved bits are ignored (R161, R163). -/
theorem tssSubset_of_fields : tssSubset c v w = ⟨tile - tile % tileStep w, pattern % 2 == 1, index % ete c w⟩ := by
  simp only [tssSubset, h.tile_eq, h.column_eq, h.index_eq]

end

/-! ### What each policy makes of a specifier -/

theorem tssDecode_of_not_reserved {c : Config} {v : Word} {w : Nat} (hr : ¬ tssReserved c v w = true) :
    tssDecode c v w = .subset (tssSubset c v w) :=
  if_neg hr

/-- Under `wrap` the reserved bits are ignored (R163). -/
theorem tssDecode_wrap {c : Config} (hp : c.tssPolicy = .wrap) (v : Word) (w : Nat) :
    tssDecode c v w = .subset (tssSubset c v w) := by
  simp [tssDecode, hp]

/-- Settles O29: the word has the four fields; a value is reserved by one of three of them, and the policy decides what it means. -/
theorem tssNamesSubset : Obligations.TssNamesSubset := by
  intro c w upper tile pattern index _ _ hu ht hp hi
  have hu33 : upper < 2 ^ 33 := by
    refine hu.trans_le (Nat.pow_le_pow_right two_pos ?_)
    rcases xlenBits_cases c with hx | hx <;> omega
  have hf := tssFields_ofNat hu33 ht hp hi
  refine ⟨_, _, rfl, rfl, fun hu0 hp2 hie => ?_, fun hres => ⟨fun hw => ?_, fun hill => ?_, fun href => ?_⟩⟩
  · have hr := (tssReserved_iff (c := c) hf w).not.2 (by omega)
    rw [tssDecode_of_not_reserved hr, tssSubset_of_fields hf, Nat.mod_eq_of_lt hp2, Nat.mod_eq_of_lt hie]
  · rw [tssDecode_wrap hw, tssSubset_of_fields hf]
  · exact tssDecode_illegal hill ((tssReserved_iff hf w).2 hres)
  · exact tssDecode_refuse href ((tssReserved_iff hf w).2 hres)

/-! ### An empty body -/

/-- With an empty body a store only ends (R166). -/
theorem storeComplete_empty {s : State} {w : Nat} (h : tn s w ≤ s.vstart) (u : Subset) (rs1 : XReg) :
    storeComplete u rs1 w s = completeZvm s := by
  have hb : bodyIndices s w = [] := by rw [← List.isEmpty_iff, bodyIndices_isEmpty, decide_eq_true h]
  rw [storeComplete, hb]
  rfl

/-- Without body elements no address is asked about: the checks of R165, R71 and the TSS suffice. -/
theorem tileAccessReady_of_empty {s : State} {rs1 rs2 : XReg} {w : Nat} {u : Subset} (hb : tn s w ≤ s.vstart)
    (hm : tileMemoryIllegal s w rs1 rs2 = false) (he : dataBigEndian s = false)
    (ht : tssDecode s.cfg (s.readX rs2) w = .subset u) (k : AccessKind) : TileAccessReady s k rs1 rs2 w u := by
  simp only [tileMemoryIllegal, Bool.or_eq_false_iff, Bool.not_eq_false', decide_eq_false_iff_not, not_lt] at hm
  obtain ⟨⟨⟨⟨hvs, hms⟩, hvill⟩, hwidth⟩, hregs⟩ := hm
  exact ⟨hvs, hms, hvill, hwidth, hregs, ht, he, fun i h1 h2 => by omega⟩

/-- A tile load or store with an empty body is the end of an instruction and nothing else (R166, R171, log 17). -/
theorem exec_tileAccess_empty {s : State} {rs1 rs2 : XReg} {u : Subset} {p : Instr × Nat}
    (hp : p ∈ tileLoads rs1 rs2 ++ tileStores rs1 rs2) (hb : tn s p.2 ≤ s.vstart)
    (hr : ∀ k, TileAccessReady s k rs1 rs2 p.2 u) : exec p.1 s = .next (completeZvm s) := by
  rcases List.mem_append.1 hp with hl | hs
  · rw [exec_tileLoad_complete hl (hr .load) fun i h1 h2 => by omega, loadComplete_empty hb]
  · rw [exec_tileStore_complete hs (hr .store) fun i h1 h2 => by omega, storeComplete_empty hb]

/-- Settles O34: with no element to transfer there is no exception and nothing to write. -/
theorem emptyBodyTouchesNoMemory : Obligations.EmptyBodyTouchesNoMemory := fun _ _ _ _ _ hp hb hm he ht =>
  ⟨_, exec_tileAccess_empty hp hb (tileAccessReady_of_empty hb hm he ht), completeZvm_end rfl rfl rfl rfl, rfl⟩

end Sys2Proof.Machine
end

section
/-! PROOFS of the move to a vector register group of 42_tile_move.md: where the elements of a group lie in the register file, what
writes of distinct elements leave there, and which elements `vtmv.v.t` writes. -/

namespace Sys2Proof.Machine

/-! ### The elements of a vector register group -/

/-- LMUL is below 1, in a group of one register, or the number of registers in the group (R23, R25). -/
theorem lmul_cases (t : VType) :
    lmulEighths t < 8 ∧ lmulRegs t = 1 ∨ lmulEighths t = 8 * lmulRegs t ∧ lmulRegs t ∈ [1, 2, 4, 8] := by
  unfold lmulRegs lmulEighths
  split <;> decide

/-- An aligned group ends at or below the last register (R190). -/
theorem group_le_32 {t : VType} {r : VReg} (h : r.toNat % lmulRegs t = 0) : r.toNat + lmulRegs t ≤ 32 := by
  have hr := r.isLt
  rcases lmul_cases t with ⟨-, hl⟩ | ⟨-, hl⟩
  · omega
  · simp only [List.mem_cons, List.not_mem_nil, or_false] at hl
    rcases hl with hl | hl | hl | hl <;> rw [hl] at h ⊢ <;> omega

/-- VLMAX elements fit in the registers of the group (R51). -/
theorem vlmax_le_group {c : Config} (hc : c.wf = true) {t : VType} (hs : sew t ≤ c.elenBits) :
    vlmax c t ≤ lmulRegs t * eve c (sew t) := by
  have hle : lmulEighths t ≤ 8 * lmulRegs t := by rcases lmul_cases t with h | h <;> omega
  calc vlmax c t ≤ 8 * lmulRegs t * c.vlen / (8 * sew t) := Nat.div_le_div_right (Nat.mul_le_mul_right _ hle)
    _ = lmulRegs t * eve c (sew t) * (8 * sew t) / (8 * sew t) := by rw [← (eve_eq_pow hc hs).2]; congr 1; ring
    _ = lmulRegs t * eve c (sew t) := Nat.mul_div_cancel _ (by have := sew_pos t; omega)

/-- EVE elements of SEW bits fit in one register (R51). -/
theorem eve_mul_bytes_le (c : Config) (t : VType) : eve c (sew t) * (sew t / 8) ≤ c.vlenb := by
  rw [eve, sew, Config.vlenb, Nat.mul_div_cancel_left _ (by norm_num), ← Nat.div_div_eq_div_mul]
  exact Nat.div_mul_le_self _ _

/-- An element of a group ends inside the group (R23). -/
theorem velemOffset_add_le (c : Config) {t : VType} {i : Nat} (hi : i < lmulRegs t * eve c (sew t)) (r : Nat) :
    velemOffset c r i (sew t) + sew t / 8 ≤ (r + lmulRegs t) * c.vlenb := by
  calc velemOffset c r i (sew t) + sew t / 8 = r * c.vlenb + (i + 1) * (sew t / 8) := by rw [velemOffset]; ring
    _ ≤ r * c.vlenb + lmulRegs t * eve c (sew t) * (sew t / 8) := by gcongr; omega
    _ ≤ r * c.vlenb + lmulRegs t * c.vlenb := by rw [Nat.mul_assoc]; gcongr; exact eve_mul_bytes_le c t
    _ = (r + lmulRegs t) * c.vlenb := (Nat.add_mul ..).symm

/-- Distinct elements of a group do not overlap (R23). -/
theorem velemOffset_apart (c : Config) (r w : Nat) {i j : Nat} (h : i ≠ j) :
    velemOffset c r i w + w / 8 ≤ velemOffset c r j w ∨ velemOffset c r j w + w / 8 ≤ velemOffset c r i w := by
  have step {a b : Nat} (hab : a < b) : velemOffset c r a w + w / 8 ≤ velemOffset c r b w := by
    have := Nat.mul_le_mul_right (w / 8) (Nat.succ_le_of_lt hab)
    rw [Nat.succ_mul] at this
    unfold velemOffset
    omega
  exact (Nat.lt_or_gt_of_ne h).imp step step

/-! ### Writes of elements of a group -/

section
variable {s t : State} {r : VReg} {is : List Nat} {g : Nat → List Byte}
  (hi : ∀ i ∈ is, i < lmulRegs s.vtype * eve s.cfg (sew s.vtype)) (hg : ∀ i ∈ is, (g i).length = sew s.vtype / 8)
  (hc : t.cfg = s.cfg) (hv : t.v = overlay s.v (is.map fun i => (velemOffset s.cfg r.toNat i (sew s.vtype), g i)))
include hg hv

include hi hc in
/-- An element of the group that a write names holds what was written. -/
theorem velem_of_written (hl : s.v.length = 32 * s.cfg.vlenb) (hr : r.toNat % lmulRegs s.vtype = 0) (hn : is.Nodup) {i : Nat}
    (hm : i ∈ is) : velem t r.toNat i (sew s.vtype) = g i := by
  have hb : ∀ j ∈ is, velemOffset s.cfg r.toNat j (sew s.vtype) + sew s.vtype / 8 ≤ s.v.length := fun j hj => by
    rw [hl]
    exact (velemOffset_add_le s.cfg (hi j hj) r.toNat).trans (Nat.mul_le_mul_right _ (group_le_32 hr))
  rw [velem, hv, hc]
  exact (overlay_elements hg hn hb fun _ _ _ _ hne => velemOffset_apart s.cfg r.toNat _ hne).1 i hm

include hc in
/-- An element that no write names keeps its bytes, in the group or past it. -/
theorem velem_of_not_written {i : Nat} (hm : i ∉ is) :
    velem t r.toNat i (sew s.vtype) = velem s r.toNat i (sew s.vtype) := by
  rw [velem, velem, hv, hc]
  refine readBytes_overlay_outside _ _ _ _ fun x hx => ?_
  obtain ⟨j, hj, rfl⟩ := List.mem_map.1 hx
  have hne : i ≠ j := fun e => hm (e ▸ hj)
  simpa only [hg j hj] using velemOffset_apart s.cfg r.toNat (sew s.vtype) hne

include hi in
/-- No byte outside the registers of the group is written. -/
theorem readByte_outside_group {o : Nat} (ho : o < r.toNat * s.cfg.vlenb ∨ (r.toNat + lmulRegs s.vtype) * s.cfg.vlenb ≤ o) :
    readByte t.v o = readByte s.v o := by
  rw [hv]
  refine readByte_overlay_outside _ _ _ fun x hx => ?_
  obtain ⟨j, hj, rfl⟩ := List.mem_map.1 hx
  have hstart : r.toNat * s.cfg.vlenb ≤ velemOffset s.cfg r.toNat j (sew s.vtype) := Nat.le_add_right _ _
  have hend := velemOffset_add_le s.cfg (hi j hj) r.toNat
  simp only [hg j hj]
  omega

end

/-! ### The elements that `vtmv.v.t` writes -/

/-- The tail is the elements from `min(vl, ETE)` to VLMAX under `vta`, and the rest of the register of a fractional LMUL (R191). -/
theorem mem_vectorTailIndices {s : State} {i : Nat} : i ∈ vectorTailIndices s ↔
    s.vtype.vta = true ∧ tn s (sew s.vtype) ≤ i ∧ i < vlmax s.cfg s.vtype ∨
      lmulEighths s.vtype < 8 ∧ vlmax s.cfg s.vtype ≤ i ∧ i < eve s.cfg (sew s.vtype) := by
  have hrange (a b : Nat) : i ∈ List.range' a (b - a) ↔ a ≤ i ∧ i < b := by rw [List.mem_range'_1]; omega
  simp only [vectorTailIndices, List.mem_append, List.mem_ite_nil_right, hrange]

/-- The elements that `vtmv.v.t` writes, body then tail. -/
def movedIndices (s : State) : List Nat := bodyIndices s (sew s.vtype) ++ vectorTailIndices s

/-- What `vtmv.v.t` writes to element `i` of the group at `vd`. -/
def movedElem (s : State) (u : Subset) (vd : VReg) (i : Nat) : List Byte :=
  if i ∈ bodyIndices s (sew s.vtype) then subsetElem s u (sew s.vtype) i
  else agnosticBytes (Config.agnosticOnes s.draws i) (velem s vd.toNat i (sew s.vtype))

theorem movedElem_length (s : State) (u : Subset) (vd : VReg) (i : Nat) : (movedElem s u vd i).length = sew s.vtype / 8 := by
  unfold movedElem
  split <;> simp [subsetElem, velem]

section
variable {s : State} (hI : s.Inv)
include hI

/-- The body ends at or below VLMAX, because `vl` does (R24). -/
theorem tn_le_vlmax : tn s (sew s.vtype) ≤ vlmax s.cfg s.vtype := (Nat.min_le_left _ _).trans hI.config.vl

theorem tail_not_in_body : ∀ i ∈ vectorTailIndices s, i ∉ bodyIndices s (sew s.vtype) := by
  intro i ht hb
  have := tn_le_vlmax hI
  rw [mem_vectorTailIndices] at ht
  rw [mem_bodyIndices] at hb
  omega

theorem vectorTailIndices_nodup : (vectorTailIndices s).Nodup := by
  have hn := tn_le_vlmax hI
  have hif (p : Prop) [Decidable p] (a n : Nat) : (if p then List.range' a n else []).Nodup := by
    split
    · exact List.nodup_range'
    · exact List.nodup_nil
  refine List.nodup_append'.2 ⟨hif _ _ _, hif _ _ _, fun i h1 h2 => ?_⟩
  simp only [List.mem_ite_nil_right, List.mem_range'_1] at h1 h2
  omega

theorem movedIndices_nodup : (movedIndices s).Nodup :=
  List.nodup_append'.2 ⟨List.nodup_range', vectorTailIndices_nodup hI, fun i hb ht => tail_not_in_body hI i ht hb⟩

theorem movedIndices_lt {i : Nat} (h : i ∈ movedIndices s) : i < lmulRegs s.vtype * eve s.cfg (sew s.vtype) := by
  have hmax := vlmax_le_group hI.cfg hI.config.vsew
  have hn := tn_le_vlmax hI
  have heve : eve s.cfg (sew s.vtype) ≤ lmulRegs s.vtype * eve s.cfg (sew s.vtype) :=
    Nat.le_mul_of_pos_left _ (Nat.le_max_left ..)
  rcases List.mem_append.1 h with hb | ht
  · rw [mem_bodyIndices] at hb; omega
  · rw [mem_vectorTailIndices] at ht; omega

/-- The body and tail writes as one list of writes of distinct elements. -/
theorem moveToVector_v (vd : VReg) (u : Subset) : (moveToVector vd u s).v =
    overlay s.v ((movedIndices s).map fun i => (velemOffset s.cfg vd.toNat i (sew s.vtype), movedElem s u vd i)) := by
  show overlay s.v (moveToVectorWrites s u vd ++ vectorTailWrites s vd) = _
  rw [moveToVectorWrites, vectorTailWrites, map_append_piecewise _ _ _ _ (tail_not_in_body hI)]
  refine congrArg (overlay s.v) (List.map_congr_left fun i _ => ?_)
  unfold movedElem
  split <;> rfl

end

/-- Settles O36: the checks pass, and the move writes the body and the tail of the group, which are distinct elements. -/
theorem moveTileToVector : Obligations.MoveTileToVector := by
  intro s vd rs1 u hI hvs hms hvill hgroup hregs htss
  have hlt : ∀ i ∈ movedIndices s, i < lmulRegs s.vtype * eve s.cfg (sew s.vtype) := fun _ => movedIndices_lt hI
  have hlen : ∀ i ∈ movedIndices s, (movedElem s u vd i).length = sew s.vtype / 8 := fun i _ => movedElem_length s u vd i
  have hc : (moveToVector vd u s).cfg = s.cfg := rfl
  have hv := moveToVector_v hI vd u
  have hin {i : Nat} (hm : i ∈ movedIndices s) := velem_of_written hlt hlen hc hv hI.vLength hgroup (movedIndices_nodup hI) hm
  have hout {i : Nat} (hm : i ∉ movedIndices s) := velem_of_not_written hlen hc hv hm
  refine ⟨moveToVector vd u s, withMoveChecks_run ⟨hvs, hms, hvill, hgroup, hregs, htss⟩ _ _, fun i h1 h2 => ?_,
    fun i h1 h2 => hout ?_, fun i h1 h2 => ?_, fun o ho => readByte_outside_group hlt hlen hv ho, ?_,
    completeZvm_end rfl rfl rfl rfl, rfl⟩
  · have hb : i ∈ bodyIndices s (sew s.vtype) := mem_bodyIndices.2 ⟨h1, h2⟩
    rw [hin (List.mem_append_left _ hb), movedElem, if_pos hb]
  · have := tn_le_vlmax hI
    rw [movedIndices, List.mem_append, mem_bodyIndices, mem_vectorTailIndices]
    omega
  · have hb : i ∉ bodyIndices s (sew s.vtype) := by rw [mem_bodyIndices]; omega
    by_cases hvta : s.vtype.vta = true
    · have ht : i ∈ vectorTailIndices s := mem_vectorTailIndices.2 (.inl ⟨hvta, h1, h2⟩)
      rw [hin (List.mem_append_right _ ht), movedElem, if_neg hb]
      exact ⟨agnosticBytes_cases _ _, fun h => absurd hvta (by simp [h])⟩
    · have ht : i ∉ vectorTailIndices s := fun hm => by
        rcases mem_vectorTailIndices.1 hm with ⟨h, -⟩ | ⟨-, h, -⟩
        · exact hvta h
        · omega
      have hkept := hout (by rw [movedIndices, List.mem_append]; exact not_or.2 ⟨hb, ht⟩)
      exact ⟨.inl hkept, fun _ => hkept⟩
  · rw [hv, overlay_length]

end Sys2Proof.Machine
end

section
/-! PROOFS of the matrix arithmetic of 43_matrix_arith.md: which checks an instruction that does not trap has passed (R214), what a
zero-size operation leaves (R215), the integer element function (R233), and the invalid operations and the commutativity of the
default IEEE operations (R219). -/

namespace Sys2Proof.Machine

/-! ### The checks of R214 -/

/-- The tests of the model on the state and the sources leave exactly the checks that need no tile element width. -/
theorem matrixSourcesPass_of_legal {s : State} {float : Bool} {vs2 vs1 : VReg} (hs : matrixStateIllegal s float = false)
    (ho : matrixSourceIllegal s float vs2 vs1 = false) : MatrixSourcesPass s float vs2 vs1 := by
  simp only [matrixStateIllegal, Bool.or_eq_false_iff, Bool.and_eq_false_imp, Bool.not_eq_false', beq_iff_eq] at hs
  simp only [matrixSourceIllegal, Bool.or_eq_false_iff, Bool.and_eq_false_imp, Bool.not_eq_false', decide_eq_false_iff_not,
    Nat.not_le, matrixSpecifierValid_iff] at ho
  obtain ⟨⟨⟨⟨hvs, hms⟩, hfs⟩, hvill⟩, hvstart⟩ := hs
  obtain ⟨⟨ha, hb⟩, hfrm⟩ := ho
  exact ⟨hvs, hms, hfs, hvill, hvstart, ha, hb, hfrm⟩

/-- Checks 6 to 8 of R214 pass: the unit is configured, the form has a meaning under its TWIDEN and the tile specifier is valid; or
the unit is not configured, the policy is `nop` and some TWIDEN gives the form a meaning (log 20). -/
def MatrixWidthPasses (s : State) (f : MatrixForm) (mtd : Tile) : Prop :=
  (∃ w, twidenOf s.cfg s.mtype.mtwiden = some w ∧ DefinedCombination s.cfg f (sew s.vtype) w s.vtype.altfmt
      ∧ mtd.toNat % tileStep (sew s.vtype * w) = 0)
    ∨ s.mtype.mtwiden = 0#2 ∧ s.cfg.mmUnconfigured = .nop
      ∧ ∃ w ∈ [1, 2, 4], DefinedCombination s.cfg f (sew s.vtype) w s.vtype.altfmt

/-- An unconfigured unit traps, unless the policy is `nop` and the checks that need no TWIDEN pass (R214 check 6; log 20). -/
theorem matrixUnconfigured_illegal_or_pass (i : Instr) (f : MatrixForm) (vs2 vs1 : VReg) (s : State) :
    matrixUnconfigured i f vs2 vs1 s = .next (illegal (encode i) s)
      ∨ s.cfg.mmUnconfigured = .nop ∧ matrixFormPresent s f = true ∧ matrixSourceIllegal s f.isFloat vs2 vs1 = false := by
  unfold matrixUnconfigured
  split
  · exact .inl rfl
  · next hp =>
    split
    · exact .inl rfl
    · next hc =>
      simp only [Bool.or_eq_true, Bool.not_eq_true', not_or, Bool.not_eq_false, Bool.not_eq_true] at hc
      exact .inr ⟨hp, hc⟩

/-- A matrix instruction traps, or has passed all ten checks. -/
theorem matrixMultiply_illegal_or_pass (i : Instr) (f : MatrixForm) (mtd : Tile) (vs2 vs1 : VReg) (s : State) :
    matrixMultiply i f mtd vs2 vs1 s = .next (illegal (encode i) s)
      ∨ MatrixSourcesPass s f.isFloat vs2 vs1 ∧ MatrixWidthPasses s f mtd := by
  unfold matrixMultiply
  split
  · exact .inl rfl
  · next hs =>
    have hs : matrixStateIllegal s f.isFloat = false := by simpa using hs
    split
    · next hw =>
      refine (matrixUnconfigured_illegal_or_pass i f vs2 vs1 s).imp_right fun ⟨hp, hf, ho⟩ => ?_
      exact ⟨matrixSourcesPass_of_legal hs ho, .inr ⟨(twidenOf_none_iff _ _).1 hw, hp, (matrixFormPresent_iff s f).1 hf⟩⟩
    · next w hw =>
      split
      · exact .inl rfl
      · next a ha =>
        have hd := (matrixArith_isSome_iff ..).1 (Option.isSome_of_eq_some ha)
        simp only
        split
        · exact .inl rfl
        · next ho =>
          simp only [matrixTileIllegal, Bool.or_eq_true, Bool.not_eq_true', beq_eq_false_iff_ne, ne_eq, not_or, not_not,
            Bool.not_eq_true] at ho
          exact .inr ⟨matrixSourcesPass_of_legal hs ho.2, .inl ⟨w, hw, hd, ho.1⟩⟩

/-- Settles O42: an instruction that does not trap has passed every check, so each failed check is a contradiction. -/
theorem matrixChecks : Obligations.MatrixChecks := by
  intro s mtd vs2 vs1 p hp hfail
  rw [exec_matrixInstr hp]
  refine (matrixMultiply_illegal_or_pass p.1 p.2 mtd vs2 vs1 s).resolve_right fun ⟨hc, hwidth⟩ => ?_
  rcases hfail with h | h | ⟨hf, h⟩ | h | h | ⟨h0, h⟩ | ⟨w, hw, h⟩ | h | h | ⟨hf, h⟩
  · simp [hc.vs] at h
  · simp [hc.ms] at h
  · simp [hc.fs hf] at h
  · simp [hc.vill] at h
  · exact h hc.vstart
  · rcases hwidth with ⟨w, hw, -⟩ | ⟨-, hnop, w, hmem, hd⟩
    · simp [(twidenOf_none_iff s.cfg _).2 h0] at hw
    · rcases h with h | h
      · simp [hnop] at h
      · exact h w hmem hd
  · rcases hwidth with ⟨w', hw', hd, ht⟩ | ⟨h0, -⟩
    · obtain rfl : w = w' := Option.some.inj (hw.symm.trans hw')
      exact h.elim (· hd) (· ht)
    · simp [(twidenOf_none_iff s.cfg _).2 h0] at hw
  · exact h hc.b
  · exact h hc.a
  · exact absurd (hc.frm hf) (Nat.not_lt.2 h)

/-! ### Zero-size operations -/

theorem zeroSize_pcAdvanced (float : Bool) (s : State) : PcAdvanced s (zeroSize float s) := advance_pcAdvanced _

/-- A zero-size operation may do `SetVSDirty()` (R215; log 42). -/
theorem zeroSize_vs (float : Bool) (s : State) : VsKept s (zeroSize float s) ∨ VsDirtied s (zeroSize float s) := by
  cases hb : Config.zeroSizeDirtiesVs s.draws
  · exact .inl ⟨by simp [zeroSize, hb], by simp [zeroSize, hb]⟩
  · exact .inr ⟨by simp [zeroSize, hb], by simp [zeroSize, hb, dirtyIf_eq]⟩

/-- A zero-size operation in a floating-point form may do `SetFSDirty()` (R215; log 42). -/
theorem zeroSize_fs (float : Bool) (s : State) :
    FsKept s (zeroSize float s) ∨ float = true ∧ FsDirtied s (zeroSize float s) := by
  cases hb : float && Config.zeroSizeDirtiesFs s.draws
  · exact .inl ⟨by simp [zeroSize, hb], by simp [zeroSize, hb]⟩
  · exact .inr ⟨(Bool.and_eq_true_iff.1 hb).1, by simp [zeroSize, hb], by simp [zeroSize, hb, dirtyIf_eq]⟩

theorem matrixIsEmpty_iff {s : State} {tew : Nat} :
    matrixIsEmpty s tew = true ↔ s.mtype.tm = 0#14 ∨ tn s tew = 0 ∨ s.mtype.tk = 0#3 := by
  simp [matrixIsEmpty, or_assoc]

/-- Settles O43: with the checks passed, a zero dimension and an unconfigured unit under `nop` both end in `zeroSize`. -/
theorem zeroSizeMatrixOperation : Obligations.ZeroSizeMatrixOperation := by
  intro s mtd vs2 vs1 p hp h
  have hrun : exec p.1 s = .next (zeroSize p.2.isFloat s) := by
    rw [exec_matrixInstr hp]
    rcases h with ⟨w, hw, hd, hc, hz⟩ | ⟨h0, hnop, hc, hd⟩
    · obtain ⟨a, ha⟩ := Option.isSome_iff_exists.1 ((matrixArith_isSome_iff ..).2 hd)
      rw [matrixMultiply_run hw ha hc, if_pos (matrixIsEmpty_iff.2 hz)]
    · exact matrixMultiply_nop h0 hnop ((matrixFormPresent_iff s p.2).2 hd) hc p.1
  exact ⟨_, hrun, zeroSize_pcAdvanced .., rfl, ⟨rfl, rfl⟩, zeroSize_vs .., zeroSize_fs .., rfl⟩

/-! ### Integer accumulation -/

/-- An operand element at SEW = 8 is a byte (R211). -/
theorem opnd_lt {s : State} (h : sew s.vtype = 8) (vs : VReg) (k e : Nat) : opnd s vs k e < 256 := by
  have hlt : opnd s vs k e < 256 ^ (sew s.vtype / 8) := by
    simpa only [opnd, velem, readBytes_length] using leValue_lt (velem s (vs.toNat + k * (8 / kmax (sew s.vtype))) e (sew s.vtype))
  simpa [h] using hlt

/-- The element function of the integer forms is the exact sum of products modulo 2^32 (R233). -/
theorem matrixElem_int {s : State} (h : sew s.vtype = 8) (sa sb : Bool) (tew t : Nat) (vs2 vs1 : VReg) (i j : Nat) :
    (matrixElem s (.int sa sb) tew t vs2 vs1 (i, j)).1 =
      (((leValue (tileElem s tew t i j) : Int) + ((List.range s.mtype.tk.toNat).map fun k =>
        int8 sa (opnd s vs2 k i) * int8 sb (opnd s vs1 k j)).sum) % 2 ^ 32).toNat := by
  have hbytes : ∀ p ∈ matrixPairs s vs2 vs1 (i, j), p.1 < 256 ∧ p.2 < 256 := by
    rintro p hp
    obtain ⟨k, -, rfl⟩ := List.mem_map.1 hp
    exact ⟨opnd_lt h .., opnd_lt h ..⟩
  have hsum := accInt_eq sa sb (leValue (tileElem s tew t i j)) _ hbytes
  simpa only [matrixElem, accumulate, matrixPairs, List.map_map, Function.comp_def] using hsum

/-- An integer accumulation writes nothing but the tile and what the end of the instruction and MS write. -/
theorem matrixAccumulate_int_frame (sa sb : Bool) (tew t : Nat) (vs2 vs1 : VReg) (s : State) :
    matrixAccumulate (.int sa sb) tew t vs2 vs1 s = { s.endFromMs (matrixAccumulate (.int sa sb) tew t vs2 vs1 s) with
      ts := (matrixAccumulate (.int sa sb) tew t vs2 vs1 s).ts } := by
  simp [matrixAccumulate, State.endFromMs, completeZvm, advance, dirtyVs, dirtyMs, dirtyFs, Arith.isFloat]

/-- Settles O44: the row of R213 gives `Acc_int`, an exact sum modulo 2^32 that fills the element. -/
theorem integerMatrixAccumulates : Obligations.IntegerMatrixAccumulates := by
  intro s mtd vs2 vs1 hI htw hsew halt hx hc hn p hp
  have hi : (p.1, MatrixForm.int8 p.2.1 p.2.2) ∈ matrixInstrs mtd vs2 vs1 := by
    simp only [List.mem_cons, List.not_mem_nil, or_false] at hp
    rcases hp with rfl | rfl | rfl | rfl <;> simp [matrixInstrs]
  have ha : matrixArith s.cfg (.int8 p.2.1 p.2.2) (sew s.vtype) 4 s.vtype.altfmt = some (.int p.2.1 p.2.2) := by
    simp [matrixArith, hsew, halt, hx]
  have htew : sew s.vtype * 4 = 32 := by rw [hsew]
  obtain ⟨hwidth, htm⟩ := tew_of_inv hI hc.vill htw
  rw [htew] at hwidth htm
  have hrun := exec_matrixInstr_accumulate hi htw ha (htew ▸ hc) (htew ▸ hn)
  have htile := matrixAccumulate_tile hI hwidth mtd.isLt hc.tile htm (.int p.2.1 p.2.2) vs2 vs1
  have hfits (z : Int) : (z % 2 ^ 32).toNat % 256 ^ (32 / 8) = (z % 2 ^ 32).toNat := by omega
  simp only [matrixElem_int hsew, hfits] at htile
  rw [htew] at hrun
  exact ⟨_, hrun, htile, matrixAccumulate_msDirtied .., matrixAccumulate_zvmEnd .., matrixAccumulate_int_frame ..⟩

/-! ### The IEEE operations on NaNs and infinities -/

/-- A NaN operand makes the product and the sum a NaN, invalid exactly when an operand signals (R219). -/
theorem fpMul_fpAdd_of_nan {f : FpFormat} {a b : Nat} (rm : BitVec 3)
    (h : (∃ s, fpDecode f a = .nan s) ∨ ∃ s, fpDecode f b = .nan s) :
    fpMul f rm a b = fpNanResult f (decide (fpDecode f a = .nan true ∨ fpDecode f b = .nan true)) ∧
    fpAdd f rm a b = fpNanResult f (decide (fpDecode f a = .nan true ∨ fpDecode f b = .nan true)) := by
  unfold fpMul fpAdd
  cases ha : fpDecode f a with
  | nan sa => cases fpDecode f b <;> simp
  | inf | finite =>
    obtain ⟨sb, hb⟩ := h.resolve_left (by simp [ha])
    simp [hb]

/-- The default multiplication does not depend on the order of its operands (R219). -/
theorem fpMul_comm (f : FpFormat) (rm : BitVec 3) (a b : Nat) : fpMul f rm a b = fpMul f rm b a := by
  unfold fpMul
  cases fpDecode f a with
  | nan sa =>
    cases fpDecode f b with
    | nan sb => exact congrArg (fpNanResult f) (Bool.or_comm sa sb)
    | inf | finite => rfl
  | inf na =>
    cases fpDecode f b with
    | nan => rfl
    | inf nb | finite nb => simp only [Bool.xor_comm]
  | finite na ma ea =>
    cases fpDecode f b with
    | nan => rfl
    | inf nb => simp only [Bool.xor_comm]
    | finite nb mb eb => simp only [Bool.xor_comm, Nat.mul_comm, Int.add_comm]

/-- The default addition does not depend on the order of its operands (R219). -/
theorem fpAdd_comm (f : FpFormat) (rm : BitVec 3) (a b : Nat) : fpAdd f rm a b = fpAdd f rm b a := by
  unfold fpAdd
  cases fpDecode f a with
  | nan sa =>
    cases fpDecode f b with
    | nan sb => exact congrArg (fpNanResult f) (Bool.or_comm sa sb)
    | inf | finite => rfl
  | inf na =>
    cases fpDecode f b with
    | nan | finite => rfl
    | inf nb => by_cases h : na = nb <;> simp [h, eq_comm]
  | finite na ma ea =>
    cases fpDecode f b with
    | nan | inf => rfl
    | finite nb mb eb =>
      have hzero : (if na = nb then na else rm == 2#3) = if nb = na then nb else rm == 2#3 := by
        by_cases h : na = nb <;> simp [h, eq_comm]
      simp only [hzero, min_comm eb ea, Int.add_comm (scaled nb mb eb _)]

/-- Settles O49: the cases of the two operations in which an operand is a NaN or an infinity. -/
theorem ieeeInvalidOperations : Obligations.IeeeInvalidOperations := by
  intro f rm a b na nb m e
  refine ⟨fun h r hr => ?_, fun ha hb => ?_, fun ha hb => ?_, fun ha hb => ?_, rfl, rfl⟩
  · have hnan : r = fpNanResult f (decide (fpDecode f a = .nan true ∨ fpDecode f b = .nan true)) := by
      obtain ⟨hmul, hadd⟩ := fpMul_fpAdd_of_nan rm h
      simp only [List.mem_cons, List.not_mem_nil, or_false] at hr
      exact hr.elim (·.trans hmul) (·.trans hadd)
    simp only [hnan, fpNanResult, flagNv, decide_eq_true_eq]
  · have hmul : fpMul f rm a b = (fpCanonicalNan f, 0b10000#5) := by simp [fpMul, ha, hb, fpNanResult, flagNv]
    exact ⟨hmul, (fpMul_comm f rm b a).trans hmul⟩
  · exact ⟨by simp only [numericsMul, fpMul, ha, hb],
      by simp only [numericsAdd, fpAdd, ha, hb, fpNanResult, flagNv, if_true]⟩
  · exact ⟨fun hm => by simp only [numericsMul, fpMul, ha, hb, if_neg hm.ne'], by simp only [numericsAdd, fpAdd, ha, hb]⟩

/-- Settles O51: each operation treats its operands alike in every case of what they denote. -/
theorem ieeeCommutes : Obligations.IeeeCommutes := fun f rm a b => ⟨fpAdd_comm f rm a b, fpMul_comm f rm a b⟩

end Sys2Proof.Machine
end

section
/-! PROOFS of the checks of `vtzero.t` and of `vtdiscard` of 44_tile_zero_context.md: a `vtzero.t` that does not trap has passed the
six checks of R260, and what `vtdiscard` leaves in the tile state and in MS (R261). -/

namespace Sys2Proof.Machine

/-! ### The checks of `vtzero.t` -/

theorem zeroIllegal_eq_false_iff {s : State} :
    zeroIllegal s = false ↔ vsOff s = false ∧ msOff s = false ∧ s.vtype.vill = false ∧ s.vstart = 0 := by
  simp [zeroIllegal, and_assoc]

/-- A `vtzero.t` traps, or has passed all six checks (R260). -/
theorem exec_vtzeroT_illegal_or_pass (mtd : Tile) (s : State) :
    exec (.vtzeroT mtd) s = .next (illegal (encode (.vtzeroT mtd)) s)
      ∨ zeroIllegal s = false
        ∧ ∃ w, twidenOf s.cfg s.mtype.mtwiden = some w ∧ mtd.toNat % tileStep (sew s.vtype * w) = 0 := by
  simp only [exec, execVtzeroT]
  split
  · exact .inl rfl
  · next hz =>
    split
    · exact .inl rfl
    · next w hw =>
      split
      · next ht => exact .inr ⟨by simpa using hz, w, hw, ht⟩
      · exact .inl rfl

/-- Settles O40: a `vtzero.t` that does not trap has passed every check, so each failed check is a contradiction. -/
theorem vtzeroChecks : Obligations.VtzeroChecks := by
  intro s mtd hfail
  refine (exec_vtzeroT_illegal_or_pass mtd s).resolve_right fun ⟨hz, w, hw, ht⟩ => ?_
  obtain ⟨hvs, hms, hvill, hvstart⟩ := zeroIllegal_eq_false_iff.1 hz
  rcases hfail with h | h | h | h | h | ⟨w', hw', h⟩
  · simp [hvs] at h
  · simp [hms] at h
  · simp [hvill] at h
  · exact h hvstart
  · simp [(twidenOf_none_iff s.cfg _).2 h] at hw
  · obtain rfl : w' = w := Option.some.inj (hw'.symm.trans hw)
    exact h ht

/-! ### `vtdiscard` -/

@[simp] theorem discardedTiles_length (s : State) : (discardedTiles s).length = s.ts.length := by simp [discardedTiles]

/-- Byte `o` of the discarded tile state is the `o`-th draw (log 44). -/
theorem readByte_discardedTiles {s : State} {o : Nat} (ho : o < s.ts.length) :
    readByte (discardedTiles s) o = Config.discardedByte s.draws o := by
  simp [discardedTiles, readByte, List.getD, ho]

/-- What `vtdiscard` answers when its checks pass, whatever `mtwiden` is (R261). -/
theorem exec_vtdiscard {s : State} (hvs : vsOff s = false) (hms : msOff s = false) (hvill : s.vtype.vill = false) :
    exec .vtdiscard s = .next (completeZvm (initialMs { s with ts := discardedTiles s })) := by
  simp [exec, execVtdiscard, hvs, hms, hvill]

theorem exec_vtdiscard_of_vill {s : State} (hvill : s.vtype.vill = true) :
    exec .vtdiscard s = .next (illegal (encode .vtdiscard) s) := by
  simp [exec, execVtdiscard, hvill]

/-- Settles O41: with the checks passed the tile state is drawn anew and `initialMs` sets MS; VS or MS Off is refused as for every
tile instruction, `vill` by its own check. -/
theorem vtdiscardResult : Obligations.VtdiscardResult := by
  refine fun s => ⟨fun hvs hms hvill => ?_, fun hfail => ?_⟩
  · exact ⟨_, exec_vtdiscard hvs hms hvill, rfl, by simp, by simp, fun o ho => readByte_discardedTiles ho,
      completeZvm_end rfl rfl rfl rfl, rfl⟩
  · rcases hfail with h | h | h
    · exact exec_tiles_of_off (.inl h) rfl
    · exact exec_tiles_of_off (.inr h) rfl
    · exact exec_vtdiscard_of_vill h

end Sys2Proof.Machine
end

section
/-! PROOFS about `bne` of 45_host_subset.md: where a taken branch goes, when that place is 4-byte aligned, and the three answers of
the instruction (R283). -/

namespace Sys2Proof.Machine

/-- The place a taken branch goes to, as a register value (R283). -/
def branchTarget (s : State) (offset : BitVec 13) : Word := truncX s.cfg (s.pc + offset.signExtend 64)

theorem branchTarget_toNat (s : State) (offset : BitVec 13) :
    ((branchTarget s offset).toNat : Int) = ((s.pc.toNat : Int) + offset.toInt) % 2 ^ s.cfg.xlenBits :=
  truncX_add_toNat _ _ _ _ (signExtend64_toNat offset (by norm_num))

/-- Alignment of the target can be read off the sum before it is cut to XLEN bits, because 4 divides 2^XLEN. -/
theorem branchTarget_aligned_iff (s : State) (offset : BitVec 13) :
    (branchTarget s offset).toNat % 4 = 0 ↔ ((s.pc.toNat : Int) + offset.toInt) % 4 = 0 := by
  have hd : (4 : Int) ∣ 2 ^ s.cfg.xlenBits := by exact_mod_cast four_dvd_two_pow_xlenBits s.cfg
  rw [← Int.emod_emod_of_dvd _ hd, ← branchTarget_toNat]
  omega

section
variable {s : State} {rs1 rs2 : XReg} {offset : BitVec 13}

/-- The three answers of `bne` when its registers exist (R283). -/
theorem exec_bne (hx : xregsExist s.cfg [rs1, rs2] = true) :
    exec (.bne rs1 rs2 offset) s =
      if s.readX rs1 = s.readX rs2 then .next (advance s)
      else if (branchTarget s offset).toNat % 4 = 0 then .next { s with pc := branchTarget s offset }
      else .next (takeException .instrAddressMisaligned (branchTarget s offset) s) := by
  simp only [exec, execBne, withXRegs_of_exist hx]
  rfl

theorem exec_bne_notTaken (hx : xregsExist s.cfg [rs1, rs2] = true) (he : s.readX rs1 = s.readX rs2) :
    exec (.bne rs1 rs2 offset) s = .next (advance s) := by
  rw [exec_bne hx, if_pos he]

theorem exec_bne_taken (hx : xregsExist s.cfg [rs1, rs2] = true) (hn : s.readX rs1 ≠ s.readX rs2)
    (ha : ((s.pc.toNat : Int) + offset.toInt) % 4 = 0) :
    exec (.bne rs1 rs2 offset) s = .next { s with pc := branchTarget s offset } := by
  rw [exec_bne hx, if_neg hn, if_pos ((branchTarget_aligned_iff s offset).2 ha)]

theorem exec_bne_misaligned (hx : xregsExist s.cfg [rs1, rs2] = true) (hn : s.readX rs1 ≠ s.readX rs2)
    (ha : ((s.pc.toNat : Int) + offset.toInt) % 4 ≠ 0) :
    exec (.bne rs1 rs2 offset) s = .next (takeException .instrAddressMisaligned (branchTarget s offset) s) := by
  rw [exec_bne hx, if_neg hn, if_neg (mt (branchTarget_aligned_iff s offset).1 ha)]

end

/-- Settles O54: each clause is one answer of `bne`; the target is the sum of `pc` and the offset modulo 2^XLEN, and a misaligned
one is also the trap value. -/
theorem branchResult : Obligations.BranchResult := by
  refine fun s rs1 rs2 offset hx => ⟨fun he => ?_, fun hn ha => ?_, fun hn ha => ?_⟩
  · exact ⟨advance s, exec_bne_notTaken hx he, advance_pcAdvanced s, rfl⟩
  · exact ⟨_, exec_bne_taken hx hn ha, branchTarget_toNat s offset, rfl⟩
  · exact ⟨branchTarget s offset, exec_bne_misaligned hx hn ha⟩

end Sys2Proof.Machine
end

section
/-! PROOFS about the traps of 60_exceptions.md: which mode takes an exception (R308), what entry to each mode saves, changes and
leaves (R305), that the matching return undoes it (R306), and the CSR accesses that the privilege mode denies (R309). -/

namespace Sys2Proof.Machine

/-! ### Which mode takes an exception (R308) -/

section
variable {s : State} {code : Nat}

theorem trapTarget_machine (h : s.priv = .machine ∨ s.cfg.hasS = false ∨ s.medeleg.getLsbD code = false) :
    trapTarget s code = .machine := by
  unfold trapTarget
  rw [if_pos]
  rcases h with h | h | h <;> simp [h]

theorem trapTarget_supervisor (hp : s.priv ≠ .machine) (hs : s.cfg.hasS = true) (hd : s.medeleg.getLsbD code = true)
    (h : s.cfg.hasH = false ∨ s.virt = false ∨ s.hedeleg.getLsbD code = false) : trapTarget s code = .supervisor := by
  unfold trapTarget
  rw [if_neg (by simp [hp, hs, hd]), if_neg]
  rcases h with h | h | h <;> simp [h]

theorem trapTarget_virtualSupervisor (hp : s.priv ≠ .machine) (hs : s.cfg.hasS = true) (hd : s.medeleg.getLsbD code = true)
    (hh : s.cfg.hasH = true) (hv : s.virt = true) (hg : s.hedeleg.getLsbD code = true) :
    trapTarget s code = .virtualSupervisor := by
  unfold trapTarget
  rw [if_neg (by simp [hp, hs, hd]), if_pos (by simp [hh, hv, hg])]

end

section
variable {s : State} {e : Exception}

theorem takeException_of_machine (h : trapTarget s e.code = .machine) (tval : Word) :
    takeException e tval s = enterMachine false e.code tval s := by
  simp only [takeException, h]

theorem takeException_of_supervisor (h : trapTarget s e.code = .supervisor) (tval : Word) :
    takeException e tval s = enterSupervisor false e.code tval s := by
  simp only [takeException, h]

theorem takeException_of_virtualSupervisor (h : trapTarget s e.code = .virtualSupervisor) (tval : Word) :
    takeException e tval s = enterVirtualSupervisor false e.code tval s := by
  simp only [takeException, h]

end

/-- Settles O15: the delegation bits fix `trapTarget`, and `takeException` enters the mode it names. -/
theorem exceptionDelegation : Obligations.ExceptionDelegation := fun _ _ tval =>
  ⟨fun h => takeException_of_machine (trapTarget_machine h) tval,
    fun hp hs hd =>
      ⟨fun h => takeException_of_supervisor (trapTarget_supervisor hp hs hd h) tval,
        fun hh hv hg => takeException_of_virtualSupervisor (trapTarget_virtualSupervisor hp hs hd hh hv hg) tval⟩⟩

/-! ### The frame of trap entry (R305) -/

section
variable {i : Bool} {code : Nat} {tval : Word} {s t : State}

theorem enterMachine_frame (h : t = enterMachine i code tval s) : t = { s with
    pc := t.pc, priv := .machine, virt := false, mepc := t.mepc, mcause := t.mcause, mtval := t.mtval
    mstatus := { s.mstatus with
      mpp := t.mstatus.mpp, mpie := t.mstatus.mpie, mie := t.mstatus.mie, mpv := t.mstatus.mpv } } := by
  subst h; rfl

theorem enterSupervisor_frame (h : t = enterSupervisor i code tval s) : t = { s with
    pc := t.pc, priv := .supervisor, virt := false, hstatusSpv := t.hstatusSpv
    sepc := t.sepc, scause := t.scause, stval := t.stval
    mstatus := { s.mstatus with spp := t.mstatus.spp, spie := t.mstatus.spie, sie := t.mstatus.sie } } := by
  subst h; rfl

theorem enterVirtualSupervisor_frame (h : t = enterVirtualSupervisor i code tval s) : t = { s with
    pc := t.pc, priv := .supervisor, vsepc := t.vsepc, vscause := t.vscause, vstval := t.vstval
    vsstatus := { s.vsstatus with spp := t.vsstatus.spp, spie := t.vsstatus.spie, sie := t.vsstatus.sie } } := by
  subst h; rfl

end

/-- Settles O19: in each of the three modes the exception is that mode's trap entry, whose frame is stated above. -/
theorem illegalChangesOnlyTrapState : Obligations.IllegalChangesOnlyTrapState := fun w s =>
  ⟨illegal w s, rfl, fun h => enterMachine_frame (takeException_of_machine h _),
    fun h => enterSupervisor_frame (takeException_of_supervisor h _),
    fun h => enterVirtualSupervisor_frame (takeException_of_virtualSupervisor h _)⟩

/-- Settles O14: the cause register holds the code and the interrupt bit, a trap value of XLEN bits is saved as it is, and the new
`pc` is the vector's; the other clauses are the fields that entry assigns. -/
theorem trapEntry : Obligations.TrapEntry := by
  intro s interrupt code tval _ hcode htval
  have hcause := causeWord_toNat s.cfg interrupt code hcode
  have hsaved : truncX s.cfg tval = tval := truncX_of_lt htval
  constructor
  · exact ⟨enterMachine interrupt code tval s, rfl, rfl, hcause, hsaved, rfl, rfl, rfl, rfl, rfl, rfl,
      trapVector_toNat s.cfg s.mtvec interrupt code hcode, enterMachine_frame rfl⟩
  · intro _
    have hspp : (s.priv == Priv.supervisor) = true ↔ s.priv = .supervisor := beq_iff_eq
    exact ⟨enterSupervisor interrupt code tval s, rfl, rfl, hcause, hsaved, hspp, rfl, rfl, rfl, rfl, rfl,
      trapVector_toNat s.cfg s.stvec interrupt code hcode, enterSupervisor_frame rfl⟩

/-! ### The return that matches a trap (R306) -/

/-- SPP tells the two modes below machine mode apart. -/
theorem priv_of_spp {p : Priv} (h : p ≠ .machine) : (if (p == .supervisor) = true then Priv.supervisor else .user) = p := by
  cases p with
  | machine => exact absurd rfl h
  | supervisor => rfl
  | user => rfl

/-- With V = 0 a return goes to the mode `p` that `mstatus.SPP` tells, and to the V in `hstatus.SPV`. -/
theorem returnFromSupervisor_host {s : State} {p : Priv} (hv : s.virt = false) (hp : p ≠ .machine)
    (hspp : s.mstatus.spp = (p == .supervisor)) :
    returnFromSupervisor s = { s with
      priv := p, virt := s.cfg.hasH && s.hstatusSpv, pc := s.sepc
      mstatus := { s.mstatus with sie := s.mstatus.spie, spie := true, spp := false } } := by
  rw [returnFromSupervisor, if_neg (by simp [hv]), hspp, priv_of_spp hp]

/-- With V = 1 a return goes to the mode `p` that `vsstatus.SPP` tells, and V stays. -/
theorem returnFromSupervisor_guest {s : State} {p : Priv} (hv : s.virt = true) (hp : p ≠ .machine)
    (hspp : s.vsstatus.spp = (p == .supervisor)) :
    returnFromSupervisor s = { s with
      priv := p, pc := s.vsepc
      vsstatus := { s.vsstatus with sie := s.vsstatus.spie, spie := true, spp := false } } := by
  rw [returnFromSupervisor, if_pos hv, hspp, priv_of_spp hp]

/-- A trap to machine mode and its return leave the trap registers, MPIE, MPP and MPV changed and nothing else. -/
theorem returnFromMachine_enterMachine {s : State} (hm : ModeInv s) (i : Bool) (code : Nat) (tval : Word) :
    returnFromMachine (enterMachine i code tval s) = { s with
      mepc := s.pc, mcause := causeWord s.cfg i code, mtval := truncX s.cfg tval
      mstatus := { s.mstatus with mpie := true, mpp := .user, mpv := if s.cfg.hasH then s.virt else s.mstatus.mpv } } := by
  have hvirt : (s.cfg.hasH && (if s.cfg.hasH then s.virt else s.mstatus.mpv) && !(s.priv == .machine)) = s.virt := by
    cases hv : s.virt with
    | false => cases s.cfg.hasH <;> rfl
    | true => simp [hm.virt hv]
  simp only [returnFromMachine, enterMachine, hvirt]

/-- A trap to supervisor mode from below machine mode and its return leave the trap registers, SPIE, SPP and SPV changed and
nothing else. -/
theorem returnFromSupervisor_enterSupervisor {s : State} (hm : ModeInv s) (hp : s.priv ≠ .machine) (i : Bool) (code : Nat)
    (tval : Word) :
    returnFromSupervisor (enterSupervisor i code tval s) = { s with
      sepc := s.pc, scause := causeWord s.cfg i code, stval := truncX s.cfg tval
      hstatusSpv := if s.cfg.hasH then s.virt else s.hstatusSpv
      mstatus := { s.mstatus with spie := true, spp := false } } := by
  have hvirt : (s.cfg.hasH && (if s.cfg.hasH then s.virt else s.hstatusSpv)) = s.virt := by
    cases hv : s.virt with
    | false => cases s.cfg.hasH <;> rfl
    | true => simp [hm.virt hv]
  rw [returnFromSupervisor_host (p := s.priv) rfl hp rfl]
  simp only [enterSupervisor, hvirt]

/-- A guest's trap to its own supervisor mode and its return leave the guest's trap registers, SPIE and SPP changed and nothing
else. -/
theorem returnFromSupervisor_enterVirtualSupervisor {s : State} (hv : s.virt = true) (hp : s.priv ≠ .machine) (i : Bool)
    (code : Nat) (tval : Word) :
    returnFromSupervisor (enterVirtualSupervisor i code tval s) = { s with
      vsepc := s.pc, vscause := causeWord s.cfg i code, vstval := truncX s.cfg tval
      vsstatus := { s.vsstatus with spie := true, spp := false } } :=
  returnFromSupervisor_guest (p := s.priv) hv hp rfl

/-- Settles O16: `mret`'s own effect is its definition; each matching return gives back the state before the trap but for the fields
named in the three lemmas above. -/
theorem trapThenReturnResumes : Obligations.TrapThenReturnResumes := by
  intro s interrupt code tval hI
  refine ⟨⟨_, rfl, rfl, rfl, rfl, rfl, rfl⟩, ⟨_, rfl, ?_⟩, fun hp => ⟨_, rfl, ?_⟩, fun hv => ⟨_, rfl, ?_⟩⟩
  · rw [returnFromMachine_enterMachine hI.mode]
    exact ⟨rfl, rfl, rfl, rfl, rfl, rfl⟩
  · rw [returnFromSupervisor_enterSupervisor hI.mode hp]
    exact ⟨rfl, rfl, rfl, rfl, rfl⟩
  · rw [returnFromSupervisor_enterVirtualSupervisor hv (hI.mode.virt hv).2]
    exact ⟨rfl, rfl, rfl, rfl, rfl⟩

/-! ### The CSR accesses that the privilege mode denies (R309; log 51) -/

/-- Below machine mode no machine CSR may be accessed. -/
theorem csrPrivilege_machine {s : State} (h : s.priv ≠ .machine) : csrPrivilege s .machine = .illegal := if_neg h

/-- User mode may access user CSRs only. -/
theorem csrPrivilege_of_user {s : State} (hp : s.priv = .user) {l : CsrLevel} (hl : l ≠ .user) :
    csrPrivilege s l ≠ .granted := by
  cases l with
  | user => exact absurd rfl hl
  | supervisor => simp only [csrPrivilege, hp, if_true]; split_ifs <;> simp
  | hypervisor => simp only [csrPrivilege, hp, if_true]; split_ifs <;> simp
  | machine => simp [csrPrivilege_machine (s := s) (by simp [hp])]

/-- `csrrs` of a CSR to which the access is not granted takes one of two exceptions (R284; log 51). -/
theorem exec_csrrs_denied {s : State} {rd rs1 : XReg} {n : BitVec 12} {r : Csr} (hx : xregsExist s.cfg [rd, rs1] = true)
    (hn : csrOfNumber n = some r) (ha : csrAccess s r (!(rs1 == 0#5)) ≠ .granted) :
    ∃ e ∈ [Exception.illegalInstruction, .virtualInstruction], ∃ v, exec (.csrrs rd n rs1) s = .next (takeException e v s) := by
  cases h : csrAccess s r (!(rs1 == 0#5)) with
  | granted => exact absurd h ha
  | illegal => exact ⟨.illegalInstruction, by simp, _, exec_csrrs_illegal hx hn h⟩
  | virtualInstruction =>
    refine ⟨.virtualInstruction, by simp, illegalTval s.cfg (encode (.csrrs rd n rs1)), ?_⟩
    simp only [exec, execCsrrs]
    rw [withXRegs_of_exist hx, hn]
    simp only [h]

/-- Settles O57: the mode alone denies the access, and a denied access traps. -/
theorem csrPrivilegeTraps : Obligations.CsrPrivilegeTraps := by
  intro s rd rs1 n r hx hn hlow
  have hdenied : csrPrivilege s (csrLevel r) ≠ .granted := by
    rcases hlow with ⟨hp, hl⟩ | ⟨hp, hl⟩
    · exact csrPrivilege_of_user hp hl
    · rw [hl, csrPrivilege_machine (by simp [hp])]
      simp
  exact exec_csrrs_denied hx hn fun hg => hdenied (csrAccess_granted hg).1

end Sys2Proof.Machine
end
